-- ==== Sys2Proof/Word.lean ====
section
/-! DEFINITION. The word of the part (spec/00_scope.md 6.1: "A word is 32 bits"). -/

namespace Sys2Proof

/-- A word of the Burst Link, the Memory Port and the attribute window: 32 bits (00_scope.md 6.1). -/
abbrev Word := BitVec 32

end Sys2Proof
end

