-- ==== Sys2Proof/Syntax.lean ====
section
/-! DEFINITION. The commands of the block: one constructor for each row of spec/opcode_table.json, with the row's operands. -/

namespace Sys2Proof

/-- How a Memory Port write completes (08 R127). -/
inductive Status where
  | ok
  | error
  deriving DecidableEq, Repr

/-- How a Memory Port request completes, with the words of a READ that is OK in address order (08 R127). -/
inductive Completion where
  | ok (words : List Word)
  | error
  deriving DecidableEq, Repr

/-- The three limit words (10 R155). -/
inductive LimitName where
  | stall
  | handshake
  | groupIdle
  deriving DecidableEq, Repr

/-- The commands, in the table's order. A docstring names the row and the rule the table gives for it. -/
inductive Instr where
  /-- HEADER_WORD_0 (R112): the master presents header word 0. -/
  | headerWord0 (w : Word)
  /-- OPENING (R113): header word 1 arrives and the opening is decided. -/
  | opening (w : Word)
  /-- WITHHELD_ANSWER (R7): the held answer is given. -/
  | withheldAnswer
  /-- WRITE_DATA_WORD (R10): the master strobes a write data word. -/
  | writeDataWord (w : Word)
  /-- RESTORE_READY (R11): the cause of a bridge pause has cleared. -/
  | restoreReady
  /-- READ_DATA_WORD (R90): the bridge strobes the next word of a read to the ready master. -/
  | readDataWord
  /-- MASTER_PAUSE (R116): the master stops strobing a write or withdraws ready on a read. -/
  | masterPause
  /-- MASTER_STOP (R117): the master requests stop. -/
  | masterStop
  /-- MASTER_ACKNOWLEDGE (R118): the master acknowledges the bridge's stop request. -/
  | masterAcknowledge
  /-- CHECK_WORD (R119): the master's check word for a write. -/
  | checkWord (w : Word)
  /-- CHECK_REPLY (R120): the master's check reply on a read, decided by its whole value (R173). -/
  | checkReply (w : Word)
  /-- STALL_TIMER_EXPIRY (R116). -/
  | stallTimerExpiry
  /-- HANDSHAKE_TIMER_EXPIRY (R121). -/
  | handshakeTimerExpiry
  /-- GROUP_IDLE_EXPIRY (R38): the idle timer of a slot reaches its limit. -/
  | groupIdleExpiry (slot : Fin 8)
  /-- ATTRIBUTE_WORD_WRITE (R174): an attribute word at an offset that has no row of its own. -/
  | attributeWordWrite (offset : BitVec 8) (w : Word)
  /-- ARM (R156): a Control word with ARM 1. -/
  | arm (w : Word)
  /-- DRAIN (R157): a Control word with DRAIN 1. -/
  | drain (w : Word)
  /-- DRAIN_COMPLETE (R158). -/
  | drainComplete
  /-- HOLD (R152): a Control word with HOLD 1, and the hold taking effect after its receipt. -/
  | hold (w : Word)
  /-- HOLD_RELEASE (R151): a Control word with HOLD 0 and the release after its receipt; cap and jrn are the strap pins at the release. -/
  | holdRelease (w : Word) (cap jrn : BitVec 2)
  /-- DEFAULT_MODE_WRITE (R98): a Control word, for its DEFAULT_MODE field. -/
  | defaultModeWrite (w : Word)
  /-- ATTN_CONTROL_WRITE (R147): a Control word, for its ATTN fields. -/
  | attnControlWrite (w : Word)
  /-- LIMIT_WRITE (R155). -/
  | limitWrite (which : LimitName) (w : Word)
  /-- REGION_TABLE_WRITE (R97): word index 2n is the first word of entry n and 2n + 1 its second. -/
  | regionTableWrite (index : Fin 16) (w : Word)
  /-- CHANGED_FLAGS_WRITE (R146). -/
  | changedFlagsWrite (w : Word)
  /-- ATTENTION_ENABLE_WRITE (R146). -/
  | attentionEnableWrite (w : Word)
  /-- OUTCOME_ACK (R140). -/
  | outcomeAck (w : Word)
  /-- OUTCOME_POST (R137). -/
  | outcomePost
  /-- COMMIT_TAKE_UNIT (R64). -/
  | commitTakeUnit
  /-- BLOCK_GRANT (R51). -/
  | blockGrant
  /-- ARBITER_GRANT (R130). -/
  | arbiterGrant
  /-- SKIP_COMPLETION (R52). -/
  | skipCompletion (st : Status)
  /-- COMMIT_REQUEST_COMPLETION (R66). -/
  | commitRequestCompletion (st : Status)
  /-- MARK_COMPLETION (R67). -/
  | markCompletion (st : Status)
  /-- APPLY_TAKE_UNIT (R71). -/
  | applyTakeUnit
  /-- APPLY_COMPLETION (R73). -/
  | applyCompletion (st : Status)
  /-- ANCHOR_COMPLETION (R58). -/
  | anchorCompletion (st : Status)
  /-- READ_SPAN_COMPLETION (R87). -/
  | readSpanCompletion (c : Completion)
  /-- DIRECT_SPAN_COMPLETION (R106). -/
  | directSpanCompletion (st : Status)
  /-- DISCARDED_COMPLETION (R134). -/
  | discardedCompletion (c : Completion)
  /-- HARD_RESET (R152): RESET_N falls low. -/
  | hardReset
  /-- RESET_RELEASE (R151): RESET_N rises; cap and jrn are the strap pins at the release. -/
  | resetRelease (cap jrn : BitVec 2)
  /-- PWARN_ASSERT (R161). -/
  | pwarnAssert
  /-- PWARN_DEASSERT (R161). -/
  | pwarnDeassert
  /-- RECOVERY_ANCHOR_READ_COMPLETION (R164). -/
  | recoveryAnchorReadCompletion (c : Completion)
  /-- RECOVERY_READ_COMPLETION (R167). -/
  | recoveryReadCompletion (c : Completion)
  /-- RECOVERY_REPLAY_WRITE_COMPLETION (R168). -/
  | recoveryReplayWriteCompletion (st : Status)
  /-- RECOVERY_ANCHOR_WRITE_COMPLETION (R171). -/
  | recoveryAnchorWriteCompletion (st : Status)
  /-- ATTN_PULSE_END (R148): a driven pulse reaches the end of its width. -/
  | attnPulseEnd
  deriving DecidableEq, Repr

end Sys2Proof
end

