-- ==== Sys2Proof/Config.lean ====
section
/-! DEFINITION. The fixed capacities of the part (spec/00_scope.md 6.6) and the operand types that the straps fix.
The spec leaves no result of a step undefined, so this file declares no free value. -/

namespace Sys2Proof.Config

/-- Words of a chunk and of a journal block (01 R2, 03 R42). -/
def chunkWords : Nat := 64
/-- Chunks of the Staging Buffer (01 R3). -/
def chunks : Nat := 256
/-- Burst records (01 R4). -/
def records : Nat := 32
/-- Group slots (02 R20). -/
def slots : Nat := 8
/-- Explicit tags, 1 to 15 (02 R21). -/
def tags : Nat := 15
/-- Data-carrying bursts of a group at most (02 R25). -/
def burstsPerGroup : Nat := 28
/-- Outcome records held (09 R139). -/
def outcomeDepth : Nat := 16
/-- Entries of the Region Table (06 R96). -/
def regionEntries : Nat := 8
/-- Words of the longest burst, and of a granule (00_scope.md 6.6). -/
def longestBurst : Nat := 16384
/-- Words of a granule (06.1). -/
def granuleWords : Nat := 16384
/-- Words of a span (05 R84, 08 R127). -/
def spanWords : Nat := 16
/-- Slots of the Read Assembly (05 R85). -/
def readSlots : Nat := 4
/-- Entries of the outstanding request list at most (08 R128). -/
def maxOutstanding : Nat := 8
/-- READ entries of the outstanding request list at most (08 R130). -/
def maxReadOutstanding : Nat := 4
/-- Words an attribute burst carries at most (07 R123). -/
def attributeBurst : Nat := 64
/-- Words of the attribute window (00_scope.md 6.6). -/
def attributeWords : Nat := 256
/-- The further-faults count stops here (10 R160). -/
def maxFurtherFaults : Nat := 65535

end Sys2Proof.Config
end

