-- ==== Sys2Proof/Machine/State.lean ====
section
/-! DEFINITION. The whole state of the bridge as plain data, block by block as spec/ lists it (INVENTORY.md, '## State'), and its reset. -/

namespace Sys2Proof.Machine

/-! ### Names of the spec -/

/-- The operating state (10 R150). -/
inductive OpState where
  | held | recovering | unconfigured | armed | draining | faulted | halted
  deriving DecidableEq, Repr

/-- The mode of an address (06 R96). -/
inductive Mode where
  | guarded | checked | direct | readOnly
  deriving DecidableEq, Repr

/-- ATTN_MODE (09 R147). -/
inductive AttnMode where
  | level | pulse
  deriving DecidableEq, Repr

/-- The verdicts of a receipt (07 R122, 12.1). -/
inductive Verdict where
  | good | cut | checkFail | stagingExhausted | stallTimeout | handshakeTimeout | memoryFault | stopped | configRefused
  | refusedNotReady | refusedDraining | refusedStopped | refusedRange | refusedReadOnly | refusedMode | refusedNoRecord
  | refusedNoGroup | refusedFenced | refusedFormat | refusedGroupFull
  deriving DecidableEq, Repr

/-- The cause of a first error: a verdict or refusal code, IDLE_EXPIRY or DRAINED (02 R35; cause STOPPED is the verdict's code, 12.1). -/
inductive Cause where
  | verdict (v : Verdict)
  | idleExpiry
  | drained
  deriving DecidableEq, Repr

/-- The first error of a rejected group (02 R35). -/
structure FirstError where
  cause   : Cause
  ordinal : Option Nat
  start   : Option Nat
  deriving DecidableEq, Repr

/-- The refusal codes of configuration writes (10 R154). -/
inductive ConfigCode where
  | none | bothRequests | state | modeLocked | tableRange | tableOverlap | tableLocked | ackMismatch | range
  deriving DecidableEq, Repr

/-- The requesters of the Memory Port (08 R129). -/
inductive Requester where
  | read | direct | commit | anchor | apply | recovery
  deriving DecidableEq, Repr

/-- The kind of a Memory Port request (08 R127). -/
inductive ReqKind where
  | read | write
  deriving DecidableEq, Repr

/-! ### Pins, straps and outputs -/

/-- The input pins the bridge follows: RESET_N (high is true) and PWARN (00_scope.md 4). -/
structure Pins where
  resetN : Bool
  pwarn  : Bool
  deriving DecidableEq, Repr

/-- CAP_SEL and JRN_SEL as sampled at the last release (10 R151). They fix the geometry (R42) and the capability chain (R176). -/
structure Straps where
  cap : BitVec 2
  jrn : BitVec 2
  deriving DecidableEq, Repr

/-- The answers to an opening (07 R114). -/
inductive Answer where
  | accept | refuse | withheld
  deriving DecidableEq, Repr

/-- A request as issued downstream (08 R127); a READ carries no words. -/
structure Request where
  kind  : ReqKind
  addr  : Nat
  len   : Nat
  words : List Word
  deriving DecidableEq, Repr

/-- What the bridge last drove on its ports (log 25). -/
structure Outputs where
  answer  : Option Answer := .none
  data    : Option Word := .none
  check   : Option Word := .none
  receipt : Option Word := .none
  issued  : Option Request := .none
  deriving DecidableEq, Repr

/-! ### State Control -/

/-- The Fault Record's first fault and counts (10 R159, R160). -/
structure FaultRecord where
  stateAt   : OpState
  requester : Requester
  kind      : ReqKind
  addr      : Nat
  further   : Nat
  dropped   : Nat
  deriving DecidableEq, Repr

/-- What a HOLD field written by the last attribute burst still has to do (07 R123, 10 R153). -/
inductive HoldMove where
  | hold | release
  deriving DecidableEq, Repr

/-- Recovery Summary status (11 R163). -/
inductive RecStatus where
  | none | running | complete | faulted | halted
  deriving DecidableEq, Repr

/-- Why a scan ended (11 R163, R169). -/
inductive EndReason where
  | none | formatted | clean | torn | mismatch | limit
  deriving DecidableEq, Repr

/-- The Recovery Summary (11 R163). -/
structure Summary where
  status     : RecStatus := .none
  reason     : EndReason := .none
  startBlock : Nat := 0
  entries    : Nat := 0
  words      : Nat := 0
  endBlock   : Nat := 0
  nextSeq    : Word := 0
  generation : Word := 0
  deriving DecidableEq, Repr

/-- State Control (10 R150 to R155): the operating state, the Control word's fields, the limits, the last refusal, the Fault Record,
a hold or release that is due, and the Recovery Summary. -/
structure Ctrl where
  opState        : OpState
  hold           : Bool
  defaultMode    : Mode
  attnOn         : Bool
  attnMode       : AttnMode
  stallLimit     : Nat
  handshakeLimit : Nat
  idleLimit      : Nat
  refusal        : ConfigCode
  fault          : Option FaultRecord
  holdWritten    : Option Bool
  holdDue        : Option HoldMove
  summary        : Summary
  deriving DecidableEq, Repr

/-! ### Link Interface -/

/-- The link states (07 R110). No step rests in `receipt`: a receipt is driven within the step that ends the burst (log 29). -/
inductive LinkState where
  | idle | opening | withheld | streaming | stopping | checking | receipt
  deriving DecidableEq, Repr

/-- Why the bridge holds a transfer (07 R115): a record-less burst waits for a record (R9), the pool is empty (R11), a full collecting
span waits (R105), or the next span of a read is not READY (R90). -/
inductive HoldCause where
  | record | chunks | direct | span
  deriving DecidableEq, Repr

/-- The check exchange of a write while a DIRECT burst waits for its completions (06 R106). -/
inductive Exchange where
  | awaited | matched | mismatched | timedOut
  deriving DecidableEq, Repr

/-- The Link Interface (07 R110), with the accepted write's bindings (01 R6, 02 R22), the DIRECT collecting span (06 R105) and
State Control's buffer and image of an attribute burst (07 R123, 05 R95). A timer is stopped, or running with the limit it started with. -/
structure Link where
  st           : LinkState := .idle
  hdr0         : Option Word := .none
  hdr1         : Option Word := .none
  check        : Word := 0xFFFFFFFF#32
  count        : Nat := 0
  bound        : Nat := 0
  pendVerdict  : Option Verdict := .none
  cut          : Bool := false
  stall        : Option Nat := .none
  handshake    : Option Nat := .none
  bridgeHold   : Option HoldCause := .none
  masterHold   : Bool := false
  presented    : Option Word := .none
  mode         : Mode := .readOnly
  record       : Option Nat := .none
  slot         : Option Nat := .none
  fullClose    : Bool := false
  collecting   : List Word := []
  exchange     : Exchange := .awaited
  attrBuf      : List Word := []
  attrImage    : List Word := []
  attrRefused  : Bool := false
  deriving DecidableEq, Repr

/-! ### Region Decoder -/

/-- An entry of the Region Table (06 R96). -/
structure RegionEntry where
  valid : Bool := false
  base  : Nat := 0
  limit : Nat := 0
  mode  : Mode := .readOnly
  deriving DecidableEq, Repr

/-- The Region Decoder: its table and the latched Default Mode (06 R96, R98). -/
structure Region where
  entries : List RegionEntry
  latched : Mode
  deriving DecidableEq, Repr

/-! ### Staging Buffer -/

/-- The states of a burst record (01 R4). -/
inductive RecState where
  | free | receiving | held | closed | applying
  deriving DecidableEq, Repr

/-- A burst record (01 R4). -/
structure BurstRecord where
  st        : RecState := .free
  mode      : Mode := .readOnly
  slot      : Option Nat := .none
  ordinal   : Option Nat := .none
  start     : Nat := 0
  wordCount : Nat := 0
  chunks    : List Nat := []
  closeNo   : Option Word := .none
  deriving DecidableEq, Repr

/-- The Staging Buffer: its data store, the Chunk Pool and the Burst Table (01 R2 to R4). The store lists (word address, word) pairs in
the one form that Ops.ramWf states. -/
structure Staging where
  ram     : List (Nat × Word)
  pool    : List Nat
  records : List BurstRecord
  deriving DecidableEq, Repr

/-! ### Group Manager -/

/-- The states of a group slot (02 R20). -/
inductive SlotState where
  | free | opened | closed | durable | applied | rejected | abandoned
  deriving DecidableEq, Repr

/-- A group slot (02 R20). -/
structure GroupSlot where
  st         : SlotState := .free
  tag        : Nat := 0
  members    : List Nat := []
  burstCount : Nat := 0
  wordCount  : Nat := 0
  closeNo    : Option Word := .none
  journalSeq : Option Word := .none
  firstError : Option FirstError := .none
  posted     : Bool := false
  timer      : Option Nat := .none
  deriving DecidableEq, Repr

/-- An entry of the Tag Table (02 R21): a fence names the rejected slot, and from the posting on the outcome number (R36). -/
inductive TagState where
  | free
  | opened (slot : Nat)
  | fencedSlot (slot : Nat)
  | fencedNumber (n : BitVec 16)
  deriving DecidableEq, Repr

/-- The Group Manager: Group Table, Tag Table (tag t at index t − 1) and close number counter (02 R20, R21, R31). -/
structure Groups where
  slots        : List GroupSlot
  tags         : List TagState
  closeCounter : Word
  deriving DecidableEq, Repr

/-! ### Commit Queue and engines -/

/-- What owns a unit: the slot of a GUARDED unit or the record of a CHECKED one (04 R62). -/
inductive Owner where
  | guarded (slot : Nat)
  | checked (record : Nat)
  deriving DecidableEq, Repr

/-- The stages of a unit (04 R63). -/
inductive Stage where
  | closed | journaling | durable | applying
  deriving DecidableEq, Repr

/-- Apply progress of a unit (04 R62, R72). -/
structure Progress where
  ordinal   : Nat
  issued    : Nat
  completed : Nat
  deriving DecidableEq, Repr

/-- A unit of the Commit Queue (04 R62). -/
structure CommitUnit where
  owner    : Owner
  closeNo  : Word
  stage    : Stage
  seq      : Option Word
  start    : Option Nat
  len      : Option Nat
  progress : Option Progress
  deriving DecidableEq, Repr

/-- The states of the Commit Engine (04 R64). -/
inductive CommitState where
  | idle | waitingSpace | writing | marking | stopped
  deriving DecidableEq, Repr

/-- The Commit Engine (04 R64 to R66): its state, the close number of the unit in hand, the entry check accumulated so far and the
header and data requests of the entry that have completed OK. -/
structure CommitEngine where
  st         : CommitState := .idle
  inHand     : Option Word := .none
  entryCheck : Word := 0xFFFFFFFF#32
  completed  : Nat := 0
  deriving DecidableEq, Repr

/-- The states of the Apply Engine (04 R71). -/
inductive ApplyState where
  | idle | applying | stopped
  deriving DecidableEq, Repr

/-- The Apply Engine and the Apply Position word (04 R71, R74). -/
structure ApplyEngine where
  st       : ApplyState := .idle
  position : Word := 0
  deriving DecidableEq, Repr

/-! ### Journal Controller -/

/-- The anchor write in flight (03 R49, R57). -/
structure AnchorWrite where
  copy       : Fin 2
  generation : Word
  head       : Nat
  headSeq    : Word
  deriving DecidableEq, Repr

/-- A grant that waits for its skip write: the sequence assigned and the entry length (03 R52). -/
structure SkipGrant where
  seq : Word
  len : Nat
  deriving DecidableEq, Repr

/-- The Journal Controller (03 R49), and the grant waiting for its skip write (R52). -/
structure Journal where
  tail       : Nat := 2
  head       : Nat := 2
  headSeq    : Word := 1
  live       : Nat := 0
  nextSeq    : Word := 1
  generation : Word := 0
  copy       : Fin 2 := 0
  inFlight   : Option AnchorWrite := .none
  due        : Bool := false
  newest     : Option (Nat × Word) := .none
  blockReq   : Option Nat := .none
  skipGrant  : Option SkipGrant := .none
  deriving DecidableEq, Repr

/-! ### Read Path -/

/-- An Overlay Map entry (05 R79). -/
structure OverlayEntry where
  start     : Nat
  wordCount : Nat
  closeNo   : Word
  ordinal   : Nat
  record    : Nat
  deriving DecidableEq, Repr

/-- The states of a Read Assembly slot (05 R85). -/
inductive SpanState where
  | free | filling | ready | sending | failed | discarding
  deriving DecidableEq, Repr

/-- Where a word of a span comes from (05 R85). -/
inductive Source where
  | captured | memory
  deriving DecidableEq, Repr

/-- A slot of the Read Assembly (05 R85). -/
structure SpanSlot where
  st      : SpanState := .free
  base    : Nat := 0
  len     : Nat := 0
  seq     : Nat := 0
  sources : List Source := []
  words   : List Word := []
  deriving DecidableEq, Repr

/-- The Read Assembly and the number of the next span to issue (05 R85, R86). -/
structure Reads where
  slots    : List SpanSlot
  nextSpan : Nat
  deriving DecidableEq, Repr

/-! ### Memory Port -/

/-- What a request is in its block's work (08 R131; log 15). -/
inductive Role where
  /-- the span of a Read Assembly slot (05 R86) -/
  | span (slot : Nat)
  /-- a collecting span of a DIRECT write (06 R105) -/
  | direct
  /-- a skip block (03 R48) -/
  | skip
  /-- a header or data request of an entry (04 R66) -/
  | entry
  /-- the mark of an entry (04 R67) -/
  | mark
  /-- an anchor copy (03 R57) -/
  | anchor
  /-- one run of a member's home writes (04 R72) -/
  | run
  /-- a recovery read of an anchor copy (11 R164) -/
  | recAnchorRead
  /-- a recovery read of the ring (11 R166 to R168) -/
  | recRead
  /-- a replay write (11 R168) -/
  | recReplay
  /-- recovery's anchor or formatting write (11 R165, R170) -/
  | recAnchorWrite
  deriving DecidableEq, Repr

/-- The disposition of an outstanding request (08 R128). -/
inductive Disposition where
  | take | discard
  deriving DecidableEq, Repr

/-- An entry of the outstanding request list (08 R128). -/
structure Outstanding where
  requester   : Requester
  kind        : ReqKind
  addr        : Nat
  len         : Nat
  disposition : Disposition
  role        : Role
  deriving DecidableEq, Repr

/-- A waiting DIRECT request (06 R105). -/
structure DirectReq where
  addr  : Nat
  words : List Word
  deriving DecidableEq, Repr

/-- A waiting COMMIT request; its words are built when it is issued (04 R66). -/
inductive CommitReq where
  /-- the skip block at ring block b, carrying the sequence (03 R52) -/
  | skip (block : Nat) (seq : Word)
  /-- quarter q of the header block -/
  | header (q : Nat)
  /-- quarter q of data block k -/
  | data (k q : Nat)
  /-- the mark -/
  | mark
  deriving DecidableEq, Repr

/-- A run of 1 to 16 words of a member, from word offset `off` of its burst (04 R72). -/
structure ApplyRun where
  record : Nat
  off    : Nat
  len    : Nat
  deriving DecidableEq, Repr

/-- A waiting RECOVERY request (11 R163). -/
structure RecoveryReq where
  req  : Request
  role : Role
  deriving DecidableEq, Repr

/-- The Memory Port: the outstanding request list, the rotation pointer and each requester's waiting requests, oldest first
(08 R128 to R130). READ's waiting requests are slot numbers; ANCHOR's one waiting request is the write in flight of the Journal Controller. -/
structure Port where
  outstanding  : List Outstanding
  pointer      : Requester
  waitRead     : List Nat
  waitDirect   : List DirectReq
  waitCommit   : List CommitReq
  waitAnchor   : Bool
  waitApply    : List ApplyRun
  waitRecovery : Option RecoveryReq
  deriving DecidableEq, Repr

/-! ### Outcomes and attention -/

/-- The verdict of an outcome (09 R135). -/
inductive OutcomeVerdict where
  | durable | rejected | abandoned
  deriving DecidableEq, Repr

/-- An outcome that is ready and not yet posted (09 R135, R136): everything but its number, and the slot it belongs to. -/
structure ReadyOutcome where
  slot       : Nat
  verdict    : OutcomeVerdict
  tag        : Nat
  seq        : Option Word
  burstCount : Nat
  wordCount  : Nat
  firstError : Option FirstError
  deriving DecidableEq, Repr

/-- A posted outcome record (09 R135). -/
structure OutcomeRecord where
  number  : BitVec 16
  outcome : ReadyOutcome
  deriving DecidableEq, Repr

/-- The Outcome Queue, the pending-post list and the outcome number counter (09 R136 to R139). -/
structure Outcomes where
  queue    : List OutcomeRecord
  pendPost : List ReadyOutcome
  counter  : BitVec 16
  deriving DecidableEq, Repr

/-- The Attention Unit: Changed flags, enables and the ATTN line (09 R145 to R147). The live conditions are Flags.live (log 23). -/
structure Attn where
  flags  : BitVec 16
  enable : BitVec 16
  line   : Bool
  deriving DecidableEq, Repr

/-! ### Recovery -/

/-- Where a run of recovery stands (11 R163 to R170): which completion it waits for. -/
inductive RecPhase where
  /-- no run under way -/
  | idle
  /-- the read of an anchor copy -/
  | anchor (copy : Fin 2)
  /-- the first 16 words at the position (R166) -/
  | first
  /-- quarter q of the header block (R167 stage 1) -/
  | header (q : Nat)
  /-- quarter q of data block k (R167 stage 3) -/
  | data (k q : Nat)
  /-- the mark block (R167 stage 4) -/
  | mark
  /-- quarter q of data block k, read again for replay (R168) -/
  | replayRead (k q : Nat)
  /-- a replay write; k is the next data block to read (R168) -/
  | replayWrite (k : Nat)
  /-- the anchor write (R170) -/
  | anchorWrite
  /-- the formatting write (R165) -/
  | formatWrite
  deriving DecidableEq, Repr

/-- A run of replay: home address and length (11 R168). -/
structure HomeRun where
  addr : Nat
  len  : Nat
  deriving DecidableEq, Repr

/-- Recovery's own store (chapter 11): the running values of the scan, the words read of the block in hand and the header of the entry
in hand (log 16). -/
structure Recovery where
  phase    : RecPhase := .idle
  block    : List Word := []
  header   : List Word := []
  sel      : Fin 2 := 0
  selGen   : Word := 0
  pos      : Nat := 0
  expected : Word := 0
  consumed : Nat := 0
  check    : Word := 0xFFFFFFFF#32
  runs     : List HomeRun := []
  deriving DecidableEq, Repr

/-! ### The whole machine -/

/-- The state of the bridge, and the queue of commands that wait, first in, first out. -/
structure State where
  pending  : List Instr
  pins     : Pins
  straps   : Straps
  ctrl     : Ctrl
  link     : Link
  region   : Region
  staging  : Staging
  groups   : Groups
  queue    : List CommitUnit
  commit   : CommitEngine
  apply    : ApplyEngine
  journal  : Journal
  overlay  : List OverlayEntry
  reads    : Reads
  port     : Port
  outcomes : Outcomes
  attn     : Attn
  recovery : Recovery
  out      : Outputs
  deriving DecidableEq, Repr

/-- Why a step stops. -/
inductive Fault where
  /-- Raised by the completion commands when the oldest outstanding request is not one that this command completes, or when a READ's
  words are not as many as the request's length: R127 gives each request exactly one completion, in issue order, with the request's
  words, and no effect for anything else. Safe: the model stops where the spec gives no effect. -/
  | noSuchRequest
  deriving DecidableEq, Repr

/-- Why a command has no meaning. -/
inductive Refusal where
  /-- Raised by exec for a command whose meaning is not written yet. Safe: nothing is claimed of it. -/
  | notModelled (mnemonic : String)
  deriving DecidableEq, Repr

/-- Control and the limits after a hard reset or a hold (10 R152), but for the operating state and HOLD. -/
def Ctrl.init (op : OpState) (hold : Bool) : Ctrl :=
  { opState := op, hold := hold, defaultMode := .readOnly, attnOn := false, attnMode := .level, stallLimit := 64,
    handshakeLimit := 16, idleLimit := 1000, refusal := .none, fault := .none, holdWritten := .none, holdDue := .none,
    summary := {} }

/-- The Region Decoder after a hard reset or a hold (06 R109). -/
def Region.init : Region := { entries := List.replicate Config.regionEntries {}, latched := .readOnly }

/-- The Staging Buffer after a hard reset or a hold (01 R19); `ram` is what the data store holds. -/
def Staging.init (ram : List (Nat × Word)) : Staging :=
  { ram := ram, pool := List.range Config.chunks, records := List.replicate Config.records {} }

/-- The Group Manager after a hard reset or a hold (02 R41). -/
def Groups.init : Groups :=
  { slots := List.replicate Config.slots {}, tags := List.replicate Config.tags .free, closeCounter := 0 }

/-- The Read Assembly after a hard reset or a hold (05 R94). -/
def Reads.init : Reads := { slots := List.replicate Config.readSlots {}, nextSpan := 0 }

/-- The Memory Port after a hard reset or a hold (08 R134); `outstanding` is the list that stays. -/
def Port.init (outstanding : List Outstanding) : Port :=
  { outstanding := outstanding, pointer := .recovery, waitRead := [], waitDirect := [], waitCommit := [], waitAnchor := false,
    waitApply := [], waitRecovery := .none }

/-- The Outcome Queue block after a hard reset or a hold (09 R142). -/
def Outcomes.init : Outcomes := { queue := [], pendPost := [], counter := 0 }

/-- The Attention Unit after a hard reset or a hold (09 R149). -/
def Attn.init : Attn := { flags := 0, enable := 0, line := false }

/-- The machine in its hard reset at power-on: RESET_N low, every block in the state its chapter gives for reset, no request
outstanding (R128). What the spec does not give is named in logs 6, 7 and 35. -/
def State.reset : State :=
  { pending := [], pins := { resetN := false, pwarn := false }, straps := { cap := 0, jrn := 0 },
    ctrl := Ctrl.init .recovering false, link := {}, region := Region.init, staging := Staging.init [], groups := Groups.init,
    queue := [], commit := {}, apply := {}, journal := {}, overlay := [], reads := Reads.init, port := Port.init [],
    outcomes := Outcomes.init, attn := Attn.init, recovery := {}, out := {} }

end Sys2Proof.Machine
end

