-- ==== Sys2Proof/Machine/Ops.lean ====
section
/-! DEFINITION. The named operations over the state: one update per block, lists indexed by number, the staging RAM, sequence comparison
and the numbering of records, slots, tags and span slots. -/

namespace Sys2Proof.Machine

/-- The state with its pending replaced. -/
def State.setPending (s : State) (v : List Instr) : State := { s with pending := v }
/-- The state with its pins replaced. -/
def State.setPins (s : State) (v : Pins) : State := { s with pins := v }
/-- The state with its straps replaced. -/
def State.setStraps (s : State) (v : Straps) : State := { s with straps := v }
/-- The state with its ctrl replaced. -/
def State.setCtrl (s : State) (v : Ctrl) : State := { s with ctrl := v }
/-- The state with its link replaced. -/
def State.setLink (s : State) (v : Link) : State := { s with link := v }
/-- The state with its region replaced. -/
def State.setRegion (s : State) (v : Region) : State := { s with region := v }
/-- The state with its staging replaced. -/
def State.setStaging (s : State) (v : Staging) : State := { s with staging := v }
/-- The state with its groups replaced. -/
def State.setGroups (s : State) (v : Groups) : State := { s with groups := v }
/-- The state with its queue replaced. -/
def State.setQueue (s : State) (v : List CommitUnit) : State := { s with queue := v }
/-- The state with its commit replaced. -/
def State.setCommit (s : State) (v : CommitEngine) : State := { s with commit := v }
/-- The state with its apply replaced. -/
def State.setApply (s : State) (v : ApplyEngine) : State := { s with apply := v }
/-- The state with its journal replaced. -/
def State.setJournal (s : State) (v : Journal) : State := { s with journal := v }
/-- The state with its overlay replaced. -/
def State.setOverlay (s : State) (v : List OverlayEntry) : State := { s with overlay := v }
/-- The state with its reads replaced. -/
def State.setReads (s : State) (v : Reads) : State := { s with reads := v }
/-- The state with its port replaced. -/
def State.setPort (s : State) (v : Port) : State := { s with port := v }
/-- The state with its outcomes replaced. -/
def State.setOutcomes (s : State) (v : Outcomes) : State := { s with outcomes := v }
/-- The state with its attn replaced. -/
def State.setAttn (s : State) (v : Attn) : State := { s with attn := v }
/-- The state with its recovery replaced. -/
def State.setRecovery (s : State) (v : Recovery) : State := { s with recovery := v }
/-- The state with its out replaced. -/
def State.setOut (s : State) (v : Outputs) : State := { s with out := v }

/-! ### Tables indexed by number -/

/-- Entry `i` of a table replaced by `f` of it; a number beyond the table changes nothing. -/
def upd {α : Type} : List α → Nat → (α → α) → List α
  | [], _, _ => []
  | a :: as, 0, f => f a :: as
  | a :: as, i + 1, f => a :: upd as i f

/-- The lowest number whose entry satisfies `p`. -/
def firstWhere {α : Type} (p : α → Bool) : List α → Option Nat
  | [] => none
  | a :: as => if p a then some 0 else (firstWhere p as).map (· + 1)

/-- Quarter `q` of a block: 16 of its words (03 R45, R46). -/
def quarter (ws : List Word) (q : Nat) : List Word := (ws.drop (16 * q)).take 16

/-- `ws` cut or filled with zero words to `n` words (03 R45, R46). -/
def padTo (n : Nat) (ws : List Word) : List Word := (ws ++ List.replicate n 0).take n

/-- ⌈n / d⌉. -/
def ceilDiv (n d : Nat) : Nat := (n + d - 1) / d

/-! ### Numbers that wrap -/

/-- `a` is later than `b`: (a − b) modulo 2^32 lies between 1 and 2^31 − 1 (02 R31, 03 R54, R56). -/
def later (a b : Word) : Bool :=
  let d := (a - b).toNat
  1 ≤ d && d < 2 ^ 31

/-! ### The staging data store (01 R2) -/

/-- What a word of the data store reads as that nothing has written (log 7). -/
def ramDefault : Word := 0

/-- One word of the data store. -/
def ramRead : List (Nat × Word) → Nat → Word
  | [], _ => ramDefault
  | (k, w) :: m, a => if k = a then w else ramRead m a

/-- The store with one word written, in the one form of `ramWf`: the word takes its place in address order, and a word equal to what
an unlisted address reads as is not listed. -/
def ramWrite : List (Nat × Word) → Nat → Word → List (Nat × Word)
  | [], a, w => if w = ramDefault then [] else [(a, w)]
  | (k, v) :: m, a, w =>
    if a < k then (if w = ramDefault then (k, v) :: m else (a, w) :: (k, v) :: m)
    else if a = k then (if w = ramDefault then m else (a, w) :: m)
    else (k, v) :: ramWrite m a w

/-- The one form of the data store: addresses strictly rising from `lo`, no entry equal to what an unlisted address reads as. -/
def ramWfFrom : Nat → List (Nat × Word) → Bool
  | _, [] => true
  | lo, (k, w) :: m => decide (lo ≤ k) && decide (w ≠ ramDefault) && ramWfFrom (k + 1) m

/-- The data store is in its one form. -/
def ramWf (m : List (Nat × Word)) : Bool := ramWfFrom 0 m

/-! ### The tables of the blocks -/

/-- A burst record by its index (01 R4). -/
def State.record (s : State) (r : Nat) : BurstRecord := s.staging.records.getD r {}

/-- A group slot by its number (02 R20). -/
def State.slot (s : State) (n : Nat) : GroupSlot := s.groups.slots.getD n {}

/-- The state of a tag (02 R21); tag 0 has no entry and is never OPEN and never FENCED. -/
def State.tag (s : State) (t : Nat) : TagState := if t = 0 then .free else s.groups.tags.getD (t - 1) .free

/-- A slot of the Read Assembly by its number (05 R85). -/
def State.span (s : State) (n : Nat) : SpanSlot := s.reads.slots.getD n {}

/-- A burst record changed by `f`. -/
def State.updRecord (s : State) (r : Nat) (f : BurstRecord → BurstRecord) : State :=
  s.setStaging { s.staging with records := upd s.staging.records r f }

/-- A group slot changed by `f`. -/
def State.updSlot (s : State) (n : Nat) (f : GroupSlot → GroupSlot) : State :=
  s.setGroups { s.groups with slots := upd s.groups.slots n f }

/-- The entry of tag `t` set; tag 0 has none. -/
def State.setTag (s : State) (t : Nat) (x : TagState) : State :=
  if t = 0 then s else s.setGroups { s.groups with tags := upd s.groups.tags (t - 1) (fun _ => x) }

/-- A slot of the Read Assembly changed by `f`. -/
def State.updSpan (s : State) (n : Nat) (f : SpanSlot → SpanSlot) : State :=
  s.setReads { s.reads with slots := upd s.reads.slots n f }

/-- Does some record satisfy `p`? -/
def State.anyRecord (s : State) (p : BurstRecord → Bool) : Bool := s.staging.records.any p

/-- The lowest-numbered FREE burst record (01 R6). -/
def State.freeRecordNo (s : State) : Option Nat := firstWhere (fun r => r.st == .free) s.staging.records

/-- The lowest-numbered FREE group slot (02 R22). -/
def State.freeSlotNo (s : State) : Option Nat := firstWhere (fun g => g.st == .free) s.groups.slots

/-- The lowest-numbered FREE slot of the Read Assembly (05 R86). -/
def State.freeSpanNo (s : State) : Option Nat := firstWhere (fun x => x.st == .free) s.reads.slots

/-- A record that the Apply Engine will free without an act of the master (01 R7). -/
def BurstRecord.leaving (r : BurstRecord) : Bool := r.st == .closed || r.st == .applying

end Sys2Proof.Machine
end

