-- ==== Sys2Proof/Machine/Check.lean ====
section
/-! DEFINITION. The one check function of the link and the journal (spec/00_scope.md R1). -/

namespace Sys2Proof.Machine

/-- The generator polynomial (R1). -/
def checkPoly : Word := 0x1EDC6F41#32

/-- The preset of the check register (R1). -/
def checkPreset : Word := 0xFFFFFFFF#32

/-- One bit fed into the check register (R1). -/
def checkBit (c : Word) (b : Bool) : Word := if (c.msb ^^ b) then (c <<< 1) ^^^ checkPoly else c <<< 1

/-- One word fed most significant bit first, without reflection (R1). -/
def checkWord (c w : Word) : Word := (List.range 32).foldl (fun c i => checkBit c (w.getLsbD (31 - i))) c

/-- A sequence of words fed in order (R1). -/
def checkFeed (c : Word) (ws : List Word) : Word := ws.foldl checkWord c

/-- The value of the check function over a sequence of words: no final inversion (R1). -/
def checkOf (ws : List Word) : Word := checkFeed checkPreset ws

end Sys2Proof.Machine
end

