-- ==== Sys2Proof/Machine/Geometry.lean ====
section
/-! DEFINITION. The geometry that the sampled straps fix (spec/03 R42, spec/00_scope.md 6.5) and the arithmetic of the ring (03 R43). -/

namespace Sys2Proof.Machine

/-- Downstream words for CAP_SEL (03 R42). -/
def Straps.downWords (p : Straps) : Nat :=
  match p.cap.toNat with
  | 0 => 134217728
  | 1 => 268435456
  | 2 => 536870912
  | _ => 1073741824

/-- Journal words for JRN_SEL (03 R42). -/
def Straps.journalWords (p : Straps) : Nat :=
  match p.jrn.toNat with
  | 0 => 1048576
  | 1 => 2097152
  | 2 => 4194304
  | _ => 8388608

/-- Visible capacity: downstream words less journal words (03 R42). -/
def Straps.visible (p : Straps) : Nat := p.downWords - p.journalWords

/-- Visible granules (03 R42). -/
def Straps.visibleGranules (p : Straps) : Nat := p.visible / Config.granuleWords

/-- The journal's base: the downstream word address equal to visible capacity (03 R42). -/
def Straps.journalBase (p : Straps) : Nat := p.downWords - p.journalWords

/-- Journal blocks, of 64 words each (03 R42). -/
def Straps.journalBlocks (p : Straps) : Nat := p.journalWords / Config.chunkWords

/-- The last journal block. -/
def Straps.lastBlock (p : Straps) : Nat := p.journalBlocks - 1

/-- Ring blocks: every journal block but the two anchor copies (03 R42). -/
def Straps.ringBlocks (p : Straps) : Nat := p.journalBlocks - 2

/-- The downstream word address of journal block n (03 R42). -/
def Straps.blockAddr (p : Straps) (n : Nat) : Nat := p.journalBase + Config.chunkWords * n

/-- A block number lies within the ring (03 R43). -/
def Straps.inRing (p : Straps) (n : Nat) : Bool := 2 ≤ n && n ≤ p.lastBlock

/-- The block after block n in ring order (03 R43). -/
def Straps.nextBlock (p : Straps) (n : Nat) : Nat := if n = p.lastBlock then 2 else n + 1

/-- The number of blocks from a up to but not including b in ring order (03 R43). -/
def Straps.ringDist (p : Straps) (a b : Nat) : Nat := (b + p.ringBlocks - a) % p.ringBlocks

/-- The length of an entry of w data words: L = 2 + ⌈w / 64⌉ (03 R44). -/
def entryLength (w : Nat) : Nat := 2 + ceilDiv w Config.chunkWords

end Sys2Proof.Machine
end

