-- ==== Sys2Proof/WellFormed.lean ====
section
/-! DEFINITION. Which commands are well-formed: the checks a command's operands meet by the meaning of its row, whatever the state. -/

namespace Sys2Proof

/-- Control bit 0, HOLD (12.3). -/
def controlHoldBit (w : Word) : Bool := w.getLsbD 0
/-- Control bit 1, ARM (12.3). -/
def controlArmBit (w : Word) : Bool := w.getLsbD 1
/-- Control bit 2, DRAIN (12.3). -/
def controlDrainBit (w : Word) : Bool := w.getLsbD 2

/-- The offsets whose words have a row of their own: Control, Changed flags, Attention Enable, the limits, Outcome Ack and the
Region Table (12.2, R174). -/
def offsetHasRow (o : Nat) : Bool :=
  o == 0x40 || o == 0x45 || o == 0x46 || o == 0x48 || o == 0x49 || o == 0x4A || o == 0x59 || (0x80 ≤ o && o < 0x90)

/-- A READ that is OK returns the request's 1 to 16 words (R127). -/
def Completion.sized : Completion → Bool
  | .ok ws => 1 ≤ ws.length && ws.length ≤ 16
  | .error => true

/-- The check of each command's operands. A Control word belongs to the row whose field it sets: ARM 1 for ARM, DRAIN 1 for DRAIN,
HOLD 1 for HOLD, HOLD 0 for HOLD_RELEASE, and no request for the rows of the two settings (R153). -/
def Instr.wellFormed : Instr → Bool
  | .headerWord0 _ => true
  | .opening _ => true
  | .withheldAnswer => true
  | .writeDataWord _ => true
  | .restoreReady => true
  | .readDataWord => true
  | .masterPause => true
  | .masterStop => true
  | .masterAcknowledge => true
  | .checkWord _ => true
  | .checkReply _ => true
  | .stallTimerExpiry => true
  | .handshakeTimerExpiry => true
  | .groupIdleExpiry _ => true
  | .attributeWordWrite o _ => !offsetHasRow o.toNat
  | .arm w => controlArmBit w
  | .drain w => controlDrainBit w
  | .drainComplete => true
  | .hold w => controlHoldBit w
  | .holdRelease w _ _ => !controlHoldBit w
  | .defaultModeWrite w => !controlArmBit w && !controlDrainBit w
  | .attnControlWrite w => !controlArmBit w && !controlDrainBit w
  | .limitWrite _ _ => true
  | .regionTableWrite _ _ => true
  | .changedFlagsWrite _ => true
  | .attentionEnableWrite _ => true
  | .outcomeAck _ => true
  | .outcomePost => true
  | .commitTakeUnit => true
  | .blockGrant => true
  | .arbiterGrant => true
  | .skipCompletion _ => true
  | .commitRequestCompletion _ => true
  | .markCompletion _ => true
  | .applyTakeUnit => true
  | .applyCompletion _ => true
  | .anchorCompletion _ => true
  | .readSpanCompletion c => c.sized
  | .directSpanCompletion _ => true
  | .discardedCompletion _ => true
  | .hardReset => true
  | .resetRelease _ _ => true
  | .pwarnAssert => true
  | .pwarnDeassert => true
  | .recoveryAnchorReadCompletion c => c.sized
  | .recoveryReadCompletion c => c.sized
  | .recoveryReplayWriteCompletion _ => true
  | .recoveryAnchorWriteCompletion _ => true
  | .attnPulseEnd => true

end Sys2Proof
end

