-- ==== Sys2Proof/Machine/Operands.lean ====
section
/-! DEFINITION. The operands of the commands: the fields of the link words and of the control words (spec/12), and what the burst in
progress is by its header words (spec/07 R111). -/

namespace Sys2Proof.Machine

/-- Bits `lo` to `lo + n − 1` of a word, as a number. -/
def fieldOf (w : Word) (lo n : Nat) : Nat := (w.extractLsb' lo n).toNat

/-- A field value placed at bit `lo` of a word. -/
def place (v lo : Nat) : Word := BitVec.ofNat 32 v <<< lo

/-- A flag as a number, for `place`. -/
def ofBool (b : Bool) : Nat := if b then 1 else 0

/-! ### Header words (12.1, R111) -/

/-- The tag of header word 0. -/
def hdrTag (w : Word) : Nat := fieldOf w 0 4
/-- The CLOSE flag of header word 0. -/
def hdrClose (w : Word) : Bool := w.getLsbD 4
/-- The space of header word 0 is ATTRIBUTE. -/
def hdrAttr (w : Word) : Bool := w.getLsbD 5
/-- The direction of header word 0 is READ. -/
def hdrRead (w : Word) : Bool := w.getLsbD 6
/-- The start address of header word 1: its low 30 bits. -/
def hdrStart (w : Word) : Nat := fieldOf w 0 30
/-- The start offset of an attribute opening. -/
def hdrOffset (w : Word) : Nat := fieldOf w 0 8

/-- A format fault: a set bit in a must-be-zero position of either header word (R111, R173). -/
def formatFault (h0 h1 : Word) : Bool :=
  fieldOf h0 7 25 != 0 || (if hdrAttr h0 then fieldOf h1 8 24 != 0 else fieldOf h1 30 2 != 0)

/-! ### The burst in progress -/

/-- Header word 0 of the burst in progress. -/
def Link.h0 (l : Link) : Word := l.hdr0.getD 0
/-- Header word 1 of the burst in progress. -/
def Link.h1 (l : Link) : Word := l.hdr1.getD 0
/-- Its tag. -/
def Link.tag (l : Link) : Nat := hdrTag l.h0
/-- It carries CLOSE. -/
def Link.close (l : Link) : Bool := hdrClose l.h0
/-- It is in attribute space. -/
def Link.isAttr (l : Link) : Bool := hdrAttr l.h0
/-- It is a read. -/
def Link.isRead (l : Link) : Bool := hdrRead l.h0
/-- It is a common-space write. -/
def Link.commonWrite (l : Link) : Bool := !l.isAttr && !l.isRead
/-- It is a common-space read. -/
def Link.commonRead (l : Link) : Bool := !l.isAttr && l.isRead
/-- Its start address in common space. -/
def Link.start (l : Link) : Nat := hdrStart l.h1
/-- Its start offset in attribute space. -/
def Link.offset (l : Link) : Nat := hdrOffset l.h1
/-- It is a DIRECT write. -/
def Link.directWrite (l : Link) : Bool := l.commonWrite && l.mode == .direct
/-- It is a staged write: into a GUARDED or CHECKED region (01 R5). -/
def Link.stagedWrite (l : Link) : Bool := l.commonWrite && l.mode != .direct

/-- Its data phase or check exchange is under way: an accepted burst whose receipt has not been driven. -/
def Link.accepted (l : Link) : Bool := l.st == .streaming || l.st == .stopping || l.st == .checking

/-! ### Encodings of chapter 12 -/

/-- The code of a verdict (12.1). -/
def Verdict.code : Verdict → Nat
  | .good => 0x00
  | .cut => 0x01
  | .checkFail => 0x10
  | .stagingExhausted => 0x11
  | .stallTimeout => 0x12
  | .handshakeTimeout => 0x13
  | .memoryFault => 0x14
  | .stopped => 0x15
  | .configRefused => 0x16
  | .refusedNotReady => 0x20
  | .refusedDraining => 0x21
  | .refusedStopped => 0x22
  | .refusedRange => 0x23
  | .refusedReadOnly => 0x24
  | .refusedMode => 0x25
  | .refusedNoRecord => 0x26
  | .refusedNoGroup => 0x27
  | .refusedFenced => 0x28
  | .refusedFormat => 0x29
  | .refusedGroupFull => 0x2A

/-- The code of a first error's cause (12.1). -/
def Cause.code : Cause → Nat
  | .verdict v => v.code
  | .idleExpiry => 0x30
  | .drained => 0x31

/-- The receipt word (12.1, R122, R173): verdict, tag echo, CLOSE-TAKEN and count, every unnamed bit zero. -/
def receiptWord (v : Verdict) (tag : Nat) (closeTaken : Bool) (count : Nat) : Word :=
  place v.code 0 ||| place tag 8 ||| place (ofBool closeTaken) 12 ||| place count 16

/-- A check reply is MATCH by its whole value alone (R173). -/
def replyMatches (w : Word) : Bool := w == 1

/-- The encoding of a mode in Control and in the Region Table (12.3). -/
def Mode.code : Mode → Nat
  | .guarded => 0
  | .checked => 1
  | .direct => 2
  | .readOnly => 3

/-- The mode of a two-bit field (12.3). -/
def Mode.ofCode (n : Nat) : Mode :=
  match n with
  | 0 => .guarded
  | 1 => .checked
  | 2 => .direct
  | _ => .readOnly

/-- The encoding of the operating state (12.3). -/
def OpState.code : OpState → Nat
  | .held => 0
  | .recovering => 1
  | .unconfigured => 2
  | .armed => 3
  | .draining => 4
  | .faulted => 5
  | .halted => 6

/-- The encoding of the refusal code (12.3). -/
def ConfigCode.code : ConfigCode → Nat
  | .none => 0
  | .bothRequests => 1
  | .state => 2
  | .modeLocked => 3
  | .tableRange => 4
  | .tableOverlap => 5
  | .tableLocked => 6
  | .ackMismatch => 7
  | .range => 8

/-- The encoding of a requester in the Fault Record (12.3); READ never reaches it (R160). -/
def Requester.code : Requester → Nat
  | .read => 0
  | .direct => 1
  | .commit => 2
  | .anchor => 3
  | .apply => 4
  | .recovery => 5

/-- The encoding of a request's kind in the Fault Record (12.3). -/
def ReqKind.code : ReqKind → Nat
  | .write => 0
  | .read => 1

/-- The encoding of an outcome's verdict in the Outcome Window (12.3). -/
def OutcomeVerdict.code : OutcomeVerdict → Nat
  | .durable => 1
  | .rejected => 2
  | .abandoned => 3

/-- The encoding of the Recovery Summary's status (12.3). -/
def RecStatus.code : RecStatus → Nat
  | .none => 0
  | .running => 1
  | .complete => 2
  | .faulted => 3
  | .halted => 4

/-- The encoding of the Recovery Summary's end reason (12.3). -/
def EndReason.code : EndReason → Nat
  | .none => 0
  | .formatted => 1
  | .clean => 2
  | .torn => 3
  | .mismatch => 4
  | .limit => 5

/-! ### Fields of the Control word (12.3) -/

/-- DEFAULT_MODE of a Control word. -/
def controlMode (w : Word) : Mode := Mode.ofCode (fieldOf w 4 2)
/-- ATTN_ON of a Control word. -/
def controlAttnOn (w : Word) : Bool := w.getLsbD 8
/-- ATTN_MODE of a Control word. -/
def controlAttnMode (w : Word) : AttnMode := if w.getLsbD 9 then .pulse else .level

end Sys2Proof.Machine
end

