-- ==== Sys2Proof/Machine/Formats.lean ====
section
/-! DEFINITION. The layouts of the journal and anchor blocks, written and judged (spec/12.5 R177, spec/03 R45 to R48, R56), and the
capability chain (12.4 R176). -/

namespace Sys2Proof.Machine

/-- The journal marker (12.5). -/
def journalMarker : Word := 0x4A524E4C#32
/-- Kind ENTRY (12.5). -/
def kindEntry : Word := 1
/-- Kind MARK (12.5). -/
def kindMark : Word := 2
/-- Kind SKIP (12.5). -/
def kindSkip : Word := 3
/-- Kind ANCHOR (12.5). -/
def kindAnchor : Word := 4

/-- A number as a word. -/
def wordOf (n : Nat) : Word := BitVec.ofNat 32 n

/-- The header check: over words 0 to 5 and 7 of the block, then words 8 to 63 (R45, R177). -/
def headerCheck (ws : List Word) : Word := checkOf (ws.take 6 ++ (ws.drop 7).take 57)

/-- The header block of an entry from its sequence and its descriptors, home start and word count of each member in ordinal order
(R45, 12.5). -/
def headerBlock (seq : Word) (descs : List (Nat × Nat)) (total len : Nat) : List Word :=
  let first := [journalMarker, kindEntry, seq, wordOf descs.length, wordOf total, wordOf len]
  let table := padTo 56 (descs.flatMap fun d => [wordOf d.1, wordOf d.2])
  first ++ [checkOf (first ++ [0] ++ table), 0] ++ table

/-- The 16 words of a mark (R47). -/
def markWords (seq check : Word) : List Word := padTo 16 [journalMarker, kindMark, seq, check]

/-- The 16 words of a skip block (R48). -/
def skipWords (seq : Word) : List Word := padTo 16 [journalMarker, kindSkip, seq]

/-- The 16 words of an anchor copy; the anchor check covers the five words before it (R56). -/
def anchorWords (gen : Word) (head : Nat) (headSeq : Word) : List Word :=
  let five := [journalMarker, kindAnchor, gen, wordOf head, headSeq]
  padTo 16 (five ++ [checkOf five])

/-- Word `i` of a block that has been read. -/
def blockWord (ws : List Word) (i : Nat) : Word := ws.getD i 0

/-- A copy is valid: marker, kind, check, and a head block within the ring (R56). -/
def anchorValid (p : Straps) (ws : List Word) : Bool :=
  blockWord ws 0 == journalMarker && blockWord ws 1 == kindAnchor && blockWord ws 5 == checkOf (ws.take 5) &&
  p.inRing (blockWord ws 3).toNat

/-- A mark is good for an entry: marker, kind, sequence and entry check (R167 stage 4). -/
def markGood (ws : List Word) (seq check : Word) : Bool :=
  blockWord ws 0 == journalMarker && blockWord ws 1 == kindMark && blockWord ws 2 == seq && blockWord ws 3 == check

/-- The home start and word count of descriptor i, from 1, of a header block (12.5). -/
def descriptor (ws : List Word) (i : Nat) : Nat × Nat :=
  ((blockWord ws (6 + 2 * i)).toNat, (blockWord ws (7 + 2 * i)).toNat)

/-- The descriptors 1 to n of a header block. -/
def descriptors (ws : List Word) (n : Nat) : List (Nat × Nat) := (List.range n).map fun i => descriptor ws (i + 1)

/-- The head word of a capability entry: code and length (R176). -/
def capHead (code len : Nat) : Word := place code 0 ||| place len 8

/-- The capability chain for the sampled straps: IDENT, GEOMETRY, LIMITS, CHECK and END (R176). -/
def capabilityChain (p : Straps) : List Word :=
  [capHead 0x01 4, 0xC7, 0x416, 1] ++
  [capHead 0x02 5, wordOf p.downWords, wordOf p.journalBlocks, wordOf p.visible, wordOf p.visibleGranules] ++
  [capHead 0x03 9, wordOf (Config.chunks * Config.chunkWords), wordOf Config.records, wordOf Config.slots, wordOf Config.tags,
    wordOf Config.burstsPerGroup, wordOf Config.outcomeDepth, wordOf Config.regionEntries, wordOf Config.longestBurst] ++
  [capHead 0x04 3, checkPoly, checkPreset] ++
  [capHead 0xFF 1]

end Sys2Proof.Machine
end

