-- ==== Sys2Proof/Machine/Flags.lean ====
section
/-! DEFINITION. The Attention Unit's flag computations (spec/09 R143 to R149): the live conditions, the events, the Changed flags and
the ATTN line. -/

namespace Sys2Proof.Machine

/-- One flag of the 16, at a position. -/
def flagAt (pos : Nat) (b : Bool) : BitVec 16 := if b then 1#16 <<< pos else 0

/-- Live blocks are at least three quarters of ring blocks (03 R55). -/
def State.journalPressure (s : State) : Bool := decide (3 * s.straps.ringBlocks ≤ 4 * s.journal.live)

/-- The Live Conditions at positions 0 to 6 (R143): all false in HELD and while RESET_N is low. -/
def State.live (s : State) : BitVec 16 :=
  if !s.pins.resetN || s.ctrl.opState == .held then 0
  else
    flagAt 0 (s.ctrl.opState == .armed) ||| flagAt 1 (s.ctrl.opState == .unconfigured) |||
    flagAt 2 (s.ctrl.opState == .faulted) ||| flagAt 3 (s.ctrl.opState == .halted) |||
    flagAt 4 (!s.outcomes.queue.isEmpty) ||| flagAt 5 s.journalPressure ||| flagAt 6 s.pins.pwarn

/-- The seven kinds of event (R144). -/
inductive Event where
  | checkFailSeen | directCheckFail | readFault | configRefused | groupRejected | recoveryDone | drainDone
  deriving DecidableEq, Repr

/-- The position of an event's Changed flag (R144). -/
def Event.pos : Event → Nat
  | .checkFailSeen => 8
  | .directCheckFail => 9
  | .readFault => 10
  | .configRefused => 11
  | .groupRejected => 12
  | .recoveryDone => 13
  | .drainDone => 14

/-- An event is reported: its flag is set (R145). Throughout HELD the unit takes no events (R149; log 21). -/
def State.report (s : State) (e : Event) : State :=
  if s.ctrl.opState = .held then s else s.setAttn { s.attn with flags := s.attn.flags ||| flagAt e.pos true }

/-- An event reported when a condition holds. -/
def State.reportIf (s : State) (b : Bool) (e : Event) : State := if b then s.report e else s

/-- Every live condition whose value differs from the one before sets its flag (R145). -/
def State.noteChanges (s : State) (before : BitVec 16) : State :=
  s.setAttn { s.attn with flags := s.attn.flags ||| (before ^^^ s.live) }

/-- Some Changed flag and its enable are both set (R147). -/
def Attn.raised (a : Attn) : Bool := (a.flags &&& a.enable) != 0

/-- The ATTN line decided anew after a step from `old` (R147, R148). In pulse mode a pulse starts when an enabled flag has gone from
clear to set, and one being driven goes on unless ATTN_ON was clear or the mode was level before. -/
def attnLine (old s : State) : Bool :=
  s.ctrl.attnOn &&
    match s.ctrl.attnMode with
    | .level => s.attn.raised
    | .pulse =>
      ((s.attn.flags &&& ~~~old.attn.flags) &&& s.attn.enable) != 0 ||
      (old.attn.line && old.ctrl.attnOn && old.ctrl.attnMode == .pulse)

/-- The state `s` that one step made of `old`, with the flags of the conditions it changed set and ATTN decided anew (R145, R146). -/
def State.settleAttn (old s : State) : State :=
  let s1 := s.noteChanges old.live
  s1.setAttn { s1.attn with line := attnLine old s1 }

/-- One event of the bridge: `f`, and then what the Attention Unit makes of it. -/
def observe (f : State → State) (s : State) : State := State.settleAttn s (f s)

end Sys2Proof.Machine
end

