-- ==== Sys2Proof/Machine/Staging.lean ====
section
/-! DEFINITION. The Staging Buffer's operations (spec/01): claiming a record, taking chunks and words, the record's moves and its
release, and reading a staged word. Every change of the Staging Buffer is made through them. -/

namespace Sys2Proof.Machine

/-- Where word `k` (from 0) of a burst stands in the data store: chunk position ⌊k / 64⌋ of the record's chunk list, offset k mod 64 (R2). -/
def BurstRecord.wordAddr (r : BurstRecord) (k : Nat) : Nat :=
  Config.chunkWords * r.chunks.getD (k / Config.chunkWords) 0 + k % Config.chunkWords

/-- Word `k` (from 0) of a staged burst (R2). -/
def Staging.word (g : Staging) (r : BurstRecord) (k : Nat) : Word := ramRead g.ram (r.wordAddr k)

/-- A FREE record claimed for a burst: RECEIVING, with its mode, group slot, ordinal and start address, word count 0, an empty chunk
list and no close number (R6). -/
def Staging.claim (g : Staging) (r : Nat) (mode : Mode) (slot ordinal : Option Nat) (start : Nat) : Staging :=
  { g with records := upd g.records r fun _ => { st := .receiving, mode := mode, slot := slot, ordinal := ordinal, start := start } }

/-- One chunk taken from the pool and appended to the chunk list of a RECEIVING record (R3, R10). -/
def Staging.takeChunk (g : Staging) (r : Nat) : Staging :=
  match g.pool with
  | [] => g
  | c :: rest =>
    if (g.records.getD r {}).st = .receiving then
      { g with pool := rest, records := upd g.records r fun x => { x with chunks := x.chunks ++ [c] } }
    else g

/-- One word written at its place, and the word count raised (R2, R10). -/
def Staging.put (g : Staging) (r : Nat) (w : Word) : Staging :=
  let x := g.records.getD r {}
  { g with
    ram := ramWrite g.ram (x.wordAddr x.wordCount) w
    records := upd g.records r fun x => { x with wordCount := x.wordCount + 1 } }

/-- A word taken: it opens a new slot when the record holds a whole number of chunks' words, and then takes a chunk first (R10). -/
def Staging.take (g : Staging) (r : Nat) (w : Word) : Staging :=
  if (g.records.getD r {}).wordCount % Config.chunkWords = 0 then (g.takeChunk r).put r w else g.put r w

/-- A record moved to a state, its chunks kept (R14, R17). -/
def Staging.move (g : Staging) (r : Nat) (st : RecState) : Staging :=
  { g with records := upd g.records r fun x => { x with st := st } }

/-- A record closed with its unit's close number (R16, R29). -/
def Staging.close (g : Staging) (r : Nat) (c : Word) : Staging :=
  { g with records := upd g.records r fun x => { x with st := .closed, closeNo := some c } }

/-- A record freed: its chunks return to the pool together and it becomes FREE (R3, R16, R17). -/
def Staging.free (g : Staging) (r : Nat) : Staging :=
  { g with pool := g.pool ++ (g.records.getD r {}).chunks, records := upd g.records r fun _ => {} }

/-- A record freed (R16). -/
def State.freeRecord (s : State) (r : Nat) : State := s.setStaging (s.staging.free r)

/-- Records freed, in order. -/
def State.freeRecords (s : State) (rs : List Nat) : State := s.setStaging (rs.foldl Staging.free s.staging)

/-- The record of the burst in progress freed, if it holds one. -/
def State.freeOptRecord (s : State) (r : Option Nat) : State :=
  match r with
  | some r => s.freeRecord r
  | none => s

end Sys2Proof.Machine
end

