-- ==== Sys2Proof/Machine/Groups.lean ====
section
/-! DEFINITION. The Group Manager's operations (spec/02): opening, closing and rejecting a group, the idle timer, and an outcome that
becomes ready (spec/09 R136). -/

namespace Sys2Proof.Machine

/-- An outcome becomes ready and joins the tail of the pending-post list (09 R136). -/
def State.ready (s : State) (o : ReadyOutcome) : State :=
  s.setOutcomes { s.outcomes with pendPost := s.outcomes.pendPost ++ [o] }

/-- The outcome of a slot as it stands, with a verdict and a journal sequence (09 R135). -/
def GroupSlot.outcome (g : GroupSlot) (n : Nat) (v : OutcomeVerdict) (seq : Option Word) : ReadyOutcome :=
  { slot := n, verdict := v, tag := g.tag, seq := seq, burstCount := g.burstCount, wordCount := g.wordCount,
    firstError := g.firstError }

/-- A FREE slot claimed for a new group: OPEN, with its tag and everything else fresh, and its tag OPEN (R22, R23). -/
def State.openGroup (s : State) (n t : Nat) : State :=
  (s.updSlot n fun _ => { st := .opened, tag := t }).setTag t (.opened n)

/-- The idle timer of the OPEN group of tag t is stopped: an opening of its tag is taken (R37). -/
def State.stopIdle (s : State) (t : Nat) : State :=
  match s.tag t with
  | .opened n => s.updSlot n fun g => { g with timer := none }
  | _ => s

/-- The idle timer of the OPEN group of tag t starts with the Group Idle Limit in force, and does not run at limit 0 (R37). -/
def State.startIdle (s : State) (t : Nat) : State :=
  match s.tag t with
  | .opened n => s.updSlot n fun g => { g with timer := if s.ctrl.idleLimit = 0 then none else some s.ctrl.idleLimit }
  | _ => s

/-- A burst that has ended GOOD or CUT with words joins its group: its record is HELD, appended to the member list, and the counts
rise (R24). -/
def State.joinGroup (s : State) (n r words : Nat) : State :=
  (s.setStaging (s.staging.move r .held)).updSlot n fun g =>
    { g with members := g.members ++ [r], burstCount := g.burstCount + 1, wordCount := g.wordCount + words }

/-- The Overlay Map entry of a record that closes with close number c (05 R79). -/
def BurstRecord.overlayEntry (x : BurstRecord) (r : Nat) (c : Word) : OverlayEntry :=
  { start := x.start, wordCount := x.wordCount, closeNo := c, ordinal := x.ordinal.getD 1, record := r }

/-- A unit closes with its members in ordinal order: the next close number is taken, the member records become CLOSED, their overlay
entries are inserted, and the unit is appended to the Commit Queue (R29 steps 1 to 4, R30, R31, 05 R80). -/
def State.closeUnit (s : State) (owner : Owner) (members : List Nat) : State :=
  let c := s.groups.closeCounter
  let entries := members.map fun r => (s.record r).overlayEntry r c
  let s1 := s.setStaging (members.foldl (fun g r => g.close r c) s.staging)
  let s2 := s1.setOverlay (s1.overlay ++ entries)
  let s3 := s2.setGroups { s2.groups with closeCounter := c + 1 }
  s3.setQueue (s3.queue ++
    [{ owner := owner, closeNo := c, stage := .closed, seq := none, start := none, len := none, progress := none }])

/-- A group with members closes (R29, R30): its slot takes the close number and becomes CLOSED, its timer stops, and an explicit
group's tag becomes FREE. -/
def State.closeGroup (s : State) (n : Nat) : State :=
  let g := s.slot n
  let c := s.groups.closeCounter
  let s1 := s.closeUnit (.guarded n) g.members
  (s1.updSlot n fun g => { g with st := .closed, closeNo := some c, timer := none }).setTag g.tag .free

/-- An explicit group without members closes (R32): its slot becomes DURABLE without a journal sequence, its DURABLE outcome is ready,
its timer stops and its tag becomes FREE. -/
def State.closeEmpty (s : State) (n : Nat) : State :=
  let g := s.slot n
  let s1 := (s.updSlot n fun g => { g with st := .durable, timer := none }).setTag g.tag .free
  s1.ready (g.outcome n .durable none)

/-- An explicit group is rejected (R34 steps 1 to 7): the first error is recorded, the member records are freed with their chunks, the
timer stops, the slot becomes REJECTED with its counts kept, its REJECTED outcome is ready, its tag is FENCED naming the slot, and
GROUP_REJECTED is reported. -/
def State.rejectGroup (s : State) (n : Nat) (e : FirstError) : State :=
  let g := s.slot n
  let g' : GroupSlot := { g with st := .rejected, members := [], firstError := some e, timer := none }
  let s1 := s.freeRecords g.members
  let s2 := (s1.updSlot n fun _ => g').ready (g'.outcome n .rejected none)
  (s2.setTag g.tag (.fencedSlot n)).report .groupRejected

/-- A first error without a causing burst (R35). -/
def bareError (c : Cause) : FirstError := { cause := c, ordinal := none, start := none }

/-- The first error of a causing burst: the group's burst count plus 1, and the start address of header word 1 (R35). -/
def State.burstError (s : State) (n : Nat) (v : Verdict) (start : Nat) : FirstError :=
  { cause := .verdict v, ordinal := some ((s.slot n).burstCount + 1), start := some start }

/-- An OPEN explicit group. -/
def GroupSlot.openExplicit (g : GroupSlot) : Bool := g.st == .opened && g.tag != 0

/-- Slot n's group rejected if it is OPEN and explicit and not the one to be spared (R40). -/
def State.rejectIfOpen (s : State) (c : Cause) (spared : Option Nat) (n : Nat) : State :=
  if (s.slot n).openExplicit && spared != some n then s.rejectGroup n (bareError c) else s

/-- Every OPEN explicit group but the spared one rejected, in slot order (R40). R136 gives that order for an entry to FAULTED or HALTED;
for a drain it is the model's choice (log 36). -/
def State.rejectOpen (s : State) (c : Cause) (spared : Option Nat) : State :=
  (List.range Config.slots).foldl (fun s n => s.rejectIfOpen c spared n) s

end Sys2Proof.Machine
end

