-- ==== Sys2Proof/Machine/Outcome.lean ====
section
/-! DEFINITION. Posting an outcome and completing a drain (spec/09 R137, R138, spec/10 R158): the commands OUTCOME_POST and
DRAIN_COMPLETE. -/

namespace Sys2Proof.Machine

/-- What a slot does at the posting of its outcome (R137 steps 3 and 4): REJECTED, APPLIED and the DURABLE slot of an empty group become
FREE, and any other keeps its state with the outcome posted flag set. -/
def GroupSlot.post (g : GroupSlot) : GroupSlot :=
  match g.st with
  | .rejected => {}
  | .applied => {}
  | .durable => if g.burstCount = 0 then {} else { g with posted := true }
  | _ => { g with posted := true }

/-- The fence of a REJECTED outcome's tag takes the outcome number in place of the slot (R137 step 5, 02 R36). -/
def State.numberFence (s : State) (o : ReadyOutcome) (n : BitVec 16) : State :=
  if o.verdict = .rejected ∧ s.tag o.tag = .fencedSlot o.slot then s.setTag o.tag (.fencedNumber n) else s

/-- The head of the pending-post list is posted when the queue has room (R137). -/
def State.post (s : State) : State :=
  match s.outcomes.pendPost with
  | [] => s
  | o :: rest =>
    if s.outcomes.queue.length < Config.outcomeDepth then
      let n := s.outcomes.counter
      let s1 := s.setOutcomes
        { queue := s.outcomes.queue ++ [{ number := n, outcome := o }], pendPost := rest, counter := n + 1 }
      (s1.updSlot o.slot GroupSlot.post).numberFence o n
    else s

/-- OUTCOME_POST (R137). -/
def execOutcomePost (s : State) : Host.Outcome State Fault Refusal := .next (observe State.post s)

/-- The five conditions of a drain's completion (10 R158). -/
def State.drained (s : State) : Bool :=
  s.queue.isEmpty && s.groups.slots.all (fun g => g.st == .free) && s.journal.inFlight.isNone && !s.journal.due &&
  s.journal.head == s.journal.tail

/-- A drain whose five conditions hold completes: UNCONFIGURED, and DRAIN_DONE is reported (10 R158). -/
def State.drainComplete (s : State) : State :=
  if s.ctrl.opState = .draining ∧ s.drained then (s.setCtrl { s.ctrl with opState := .unconfigured }).report .drainDone else s

/-- DRAIN_COMPLETE (10 R158). -/
def execDrainComplete (s : State) : Host.Outcome State Fault Refusal := .next (observe State.drainComplete s)

end Sys2Proof.Machine
end

