-- ==== Sys2Proof/Machine/Regions.lean ====
section
/-! DEFINITION. The Region Decoder (spec/06 R96 to R103): the mode of an address, the arm-time checks and the write limit. -/

namespace Sys2Proof.Machine

/-- A valid entry covers the granules from its base to its limit (R96). -/
def RegionEntry.covers (e : RegionEntry) (g : Nat) : Bool := e.valid && e.base ≤ g && g ≤ e.limit

/-- The mode of a granule: a covering valid entry's, otherwise the latched Default Mode (R100). -/
def Region.modeOf (r : Region) (g : Nat) : Mode :=
  match r.entries.find? (fun e => e.covers g) with
  | some e => e.mode
  | none => r.latched

/-- The mode of a common-space word address (R100). -/
def State.modeAt (s : State) (a : Nat) : Mode := s.region.modeOf (a / Config.granuleWords)

/-- A valid entry has a range fault (R99 check 1). -/
def RegionEntry.rangeFault (e : RegionEntry) (granules : Nat) : Bool := e.valid && (e.limit < e.base || granules ≤ e.limit)

/-- Two valid entries overlap: some granule lies between the base and the limit of both (R99 check 2). -/
def RegionEntry.overlaps (a b : RegionEntry) : Bool :=
  a.valid && b.valid && max a.base b.base ≤ min a.limit b.limit

/-- Some two entries of the table overlap (R99 check 2). -/
def anyOverlap : List RegionEntry → Bool
  | [] => false
  | e :: es => es.any (fun x => e.overlaps x) || anyOverlap es

/-- The arm-time checks, range faults first (R99). -/
def State.tableFault (s : State) : Option ConfigCode :=
  if s.region.entries.any (fun e => e.rangeFault s.straps.visibleGranules) then some .tableRange
  else if anyOverlap s.region.entries then some .tableOverlap
  else none

/-- The write limit of a write that starts at `a` (R103): the lowest of visible capacity, the start plus 16,384 and the first word
above the start whose mode differs. Since modes change only at the first word of a granule and a granule has 16,384 words, the one
granule boundary below the other two bounds that can be a mode change is the next one. -/
def State.writeLimit (s : State) (a : Nat) : Nat :=
  let bound := min s.straps.visible (a + Config.longestBurst)
  let next := (a / Config.granuleWords + 1) * Config.granuleWords
  if next < bound ∧ s.modeAt next ≠ s.modeAt a then next else bound

end Sys2Proof.Machine
end

