-- ==== Sys2Proof/Machine/Attribute.lean ====
section
/-! DEFINITION. The attribute window (spec/12.2 to 12.4): what a read of each offset returns, and what an applied word does at each
offset (R97, R140, R146, R153 to R157, R174, R175). -/

namespace Sys2Proof.Machine

/-! ### Reading (12.2 to 12.4) -/

/-- The Control word: HOLD, DEFAULT_MODE, ATTN_ON and ATTN_MODE; the requests read 0. -/
def Ctrl.word (c : Ctrl) : Word :=
  place (ofBool c.hold) 0 ||| place c.defaultMode.code 4 ||| place (ofBool c.attnOn) 8 ||| place (ofBool (c.attnMode == .pulse)) 9

/-- The first word of a Region Table entry: base granule and limit granule. -/
def RegionEntry.word0 (e : RegionEntry) : Word := place e.base 0 ||| place e.limit 16

/-- The second word of a Region Table entry: valid and mode. -/
def RegionEntry.word1 (e : RegionEntry) : Word := place (ofBool e.valid) 0 ||| place e.mode.code 4

/-- Word `i` of the table, of 16. -/
def Region.word (r : Region) (i : Nat) : Word :=
  let e := r.entries.getD (i / 2) {}
  if i % 2 = 0 then e.word0 else e.word1

/-- Word `i` of the Outcome Window for the record at the head. -/
def OutcomeRecord.word (o : OutcomeRecord) (i : Nat) : Word :=
  let r := o.outcome
  let ord := r.firstError.bind FirstError.ordinal
  let start := r.firstError.bind FirstError.start
  match i with
  | 0 =>
    place o.number.toNat 0 ||| place r.verdict.code 16 ||| place r.tag 20 ||| place (ofBool r.seq.isSome) 24 |||
    place (ofBool r.firstError.isSome) 25 ||| place (ofBool ord.isSome) 26 ||| place (ofBool start.isSome) 27
  | 1 => r.seq.getD 0
  | 2 => wordOf r.burstCount
  | 3 => wordOf r.wordCount
  | 4 =>
    match r.firstError with
    | some e => place e.cause.code 0 ||| place (ord.getD 0) 8
    | none => 0
  | 5 => wordOf (start.getD 0)
  | _ => 0

/-- Word `i` of the Outcome Window: the head record's, or the empty marker's 0 (09 R139). -/
def Outcomes.window (o : Outcomes) (i : Nat) : Word :=
  match o.queue with
  | r :: _ => r.word i
  | [] => 0

/-- Word `i` of Journal Status. -/
def State.journalWord (s : State) (i : Nat) : Word :=
  let j := s.journal
  match i with
  | 0 => wordOf j.head
  | 1 => wordOf j.tail
  | 2 => wordOf j.live
  | 3 => j.nextSeq
  | 4 => j.generation
  | 5 => s.apply.position
  | 6 => j.headSeq
  | _ => place j.copy.val 0 ||| place (ofBool j.inFlight.isSome) 1 ||| place (ofBool j.due) 2

/-- Word `i` of the Recovery Summary, in the order of R163. -/
def Summary.word (x : Summary) (i : Nat) : Word :=
  match i with
  | 0 => wordOf x.status.code
  | 1 => wordOf x.reason.code
  | 2 => wordOf x.startBlock
  | 3 => wordOf x.entries
  | 4 => wordOf x.words
  | 5 => wordOf x.endBlock
  | 6 => x.nextSeq
  | _ => x.generation

/-- Word `i` of the Fault Record. -/
def Ctrl.faultWord (c : Ctrl) (i : Nat) : Word :=
  match c.fault with
  | none => 0
  | some f =>
    match i with
    | 0 => place 1 0 ||| place f.stateAt.code 8 ||| place f.requester.code 16 ||| place f.kind.code 20
    | 1 => wordOf f.addr
    | 2 => wordOf f.further
    | 3 => wordOf f.dropped
    | _ => 0

/-- What a read of an offset returns (12.2, R174). -/
def State.readWord (s : State) (o : Nat) : Word :=
  if o < 0x40 then (capabilityChain s.straps).getD o 0
  else if o = 0x40 then s.ctrl.word
  else if o = 0x41 then wordOf s.ctrl.opState.code
  else if o = 0x42 then wordOf s.ctrl.refusal.code
  else if o = 0x44 then s.live.setWidth 32
  else if o = 0x45 then s.attn.flags.setWidth 32
  else if o = 0x46 then s.attn.enable.setWidth 32
  else if o = 0x48 then wordOf s.ctrl.stallLimit
  else if o = 0x49 then wordOf s.ctrl.handshakeLimit
  else if o = 0x4A then wordOf s.ctrl.idleLimit
  else if 0x50 ≤ o ∧ o < 0x58 then s.outcomes.window (o - 0x50)
  else if o = 0x58 then wordOf s.outcomes.queue.length
  else if 0x60 ≤ o ∧ o < 0x68 then s.journalWord (o - 0x60)
  else if 0x68 ≤ o ∧ o < 0x70 then s.ctrl.summary.word (o - 0x68)
  else if 0x70 ≤ o ∧ o < 0x78 then s.ctrl.faultWord (o - 0x70)
  else if 0x80 ≤ o ∧ o < 0x90 then s.region.word (o - 0x80)
  else 0

/-- The image of the words from an offset up to a bound, as an attribute read takes it (05 R95). -/
def State.image (s : State) (o bound : Nat) : List Word := (List.range (bound - o)).map fun i => s.readWord (o + i)

/-! ### An applied word -/

/-- A word is refused (R154): the Config Refusal Code takes the code, the burst's verdict will be CONFIG_REFUSED, and the event is
reported. -/
def State.refuseWord (s : State) (c : ConfigCode) : State :=
  ((s.setCtrl { s.ctrl with refusal := c }).setLink { s.link with attrRefused := true }).report .configRefused

/-- The checks on a Control word, in their order (R153). -/
def State.controlFault (s : State) (w : Word) : Option ConfigCode :=
  let op := s.ctrl.opState
  if controlArmBit w && controlDrainBit w then some .bothRequests
  else if (op == .armed || op == .draining) && controlMode w != s.ctrl.defaultMode then some .modeLocked
  else if (controlArmBit w && op != .unconfigured) || (controlDrainBit w && op != .armed) then some .state
  else if controlArmBit w then s.tableFault
  else none

/-- The fields of Control that a taken word writes: HOLD, and outside HELD the mode and the ATTN fields (R153). -/
def State.writeControl (s : State) (w : Word) : State :=
  let c := { s.ctrl with hold := controlHoldBit w, holdWritten := some (controlHoldBit w) }
  if s.ctrl.opState = .held then s.setCtrl c
  else s.setCtrl { c with defaultMode := controlMode w, attnOn := controlAttnOn w, attnMode := controlAttnMode w }

/-- The arm: the Default Mode is latched from DEFAULT_MODE and the state becomes ARMED (R156, 06 R98). -/
def State.arm (s : State) : State :=
  (s.setRegion { s.region with latched := s.ctrl.defaultMode }).setCtrl { s.ctrl with opState := .armed }

/-- The start of a drain: DRAINING, and every OPEN explicit group rejected with cause DRAINED (R157, 02 R40). -/
def State.drain (s : State) : State := (s.setCtrl { s.ctrl with opState := .draining }).rejectOpen .drained none

/-- A word applied to the Control offset (R153). -/
def State.applyControl (s : State) (w : Word) : State :=
  match s.controlFault w with
  | some c => s.refuseWord c
  | none =>
    let s1 := s.writeControl w
    if controlArmBit w then s1.arm else if controlDrainBit w then s1.drain else s1

/-- The three limits, by their words (R155). A zero Stall or Handshake Limit is refused; in HELD the words are ignored. -/
def State.applyLimit (s : State) (which : LimitName) (w : Word) : State :=
  if s.ctrl.opState = .held then s
  else
    match which with
    | .stall => if fieldOf w 0 10 = 0 then s.refuseWord .range else s.setCtrl { s.ctrl with stallLimit := fieldOf w 0 10 }
    | .handshake => if fieldOf w 0 10 = 0 then s.refuseWord .range else s.setCtrl { s.ctrl with handshakeLimit := fieldOf w 0 10 }
    | .groupIdle => s.setCtrl { s.ctrl with idleLimit := fieldOf w 0 16 }

/-- The fields that a table word carries: even words the bounds, odd words valid and mode (12.3, 06 R97). -/
def RegionEntry.write (e : RegionEntry) (i : Nat) (w : Word) : RegionEntry :=
  if i % 2 = 0 then { e with base := fieldOf w 0 16, limit := fieldOf w 16 16 }
  else { e with valid := w.getLsbD 0, mode := Mode.ofCode (fieldOf w 4 2) }

/-- Word `i` of the Region Table, taken in UNCONFIGURED and refused in every other state (06 R97). -/
def State.applyTable (s : State) (i : Nat) (w : Word) : State :=
  if s.ctrl.opState = .unconfigured then
    s.setRegion { s.region with entries := upd s.region.entries (i / 2) fun e => e.write i w }
  else s.refuseWord .tableLocked

/-- The masked write of the Changed flags: bits 31:16 are the mask and 15:0 the values (09 R146); ignored in HELD. -/
def State.applyFlags (s : State) (w : Word) : State :=
  if s.ctrl.opState = .held then s
  else
    let mask := w.extractLsb' 16 16
    let vals := w.extractLsb' 0 16
    s.setAttn { s.attn with flags := (s.attn.flags &&& ~~~mask) ||| (vals &&& mask) }

/-- The write of the enables: all 16 are replaced (09 R146); ignored in HELD. -/
def State.applyEnable (s : State) (w : Word) : State :=
  if s.ctrl.opState = .held then s else s.setAttn { s.attn with enable := w.extractLsb' 0 16 }

/-- A number judged by Outcome Ack: the matching head record is removed and a REJECTED one lifts its tag's fence (09 R140). -/
def State.applyAck (s : State) (w : Word) : State :=
  let n := w.extractLsb' 0 16
  match s.outcomes.queue with
  | [] => s.refuseWord .ackMismatch
  | r :: rest =>
    if r.number = n then
      let s1 := s.setOutcomes { s.outcomes with queue := rest }
      if r.outcome.verdict = .rejected ∧ s1.tag r.outcome.tag = .fencedNumber n then s1.setTag r.outcome.tag .free else s1
    else s.refuseWord .ackMismatch

/-- A word applied at an offset, before the Attention Unit's part (R174): read-only and unmapped offsets ignore it. -/
def State.applyRaw (o : Nat) (w : Word) (s : State) : State :=
  if o = 0x40 then s.applyControl w
  else if o = 0x45 then s.applyFlags w
  else if o = 0x46 then s.applyEnable w
  else if o = 0x48 then s.applyLimit .stall w
  else if o = 0x49 then s.applyLimit .handshake w
  else if o = 0x4A then s.applyLimit .groupIdle w
  else if o = 0x59 then s.applyAck w
  else if 0x80 ≤ o ∧ o < 0x90 then s.applyTable (o - 0x80) w
  else s

/-- A word applied at an offset; what it changes or reports passes to the Attention Unit, and ATTN is decided anew (R146, R175). -/
def State.applyWord (s : State) (o : Nat) (w : Word) : State := observe (State.applyRaw o w) s

/-- The outcomes that wait posted one after the other, as long as the queue has room (09 R137). -/
def State.postAll (s : State) : State := s.outcomes.pendPost.foldl (fun t _ => observe State.post t) s

/-- What a word applied at an offset brings with it at once, before the next word of its burst is judged: after a Control word and after
an Outcome Ack the outcomes that wait are posted, and a drain whose conditions then hold completes (R137, R140, R158; log 38). -/
def State.followUp (s : State) (o : Nat) : State := if o = 0x40 ∨ o = 0x59 then observe State.drainComplete s.postAll else s

/-- The held words of an attribute write applied one at a time in ascending offset order, each in the state that the words before it
have left with what they bring at once (R175). -/
def State.applyWords : State → Nat → List Word → State
  | s, _, [] => s
  | s, o, [w] => s.applyWord o w
  | s, o, w :: v :: ws => State.applyWords ((s.applyWord o w).followUp o) (o + 1) (v :: ws)

end Sys2Proof.Machine
end

