-- ==== Sys2Proof/Machine/Recover.lean ====
section
/-! DEFINITION. Journal recovery (spec/11): the start of a run, the choice of the anchor, the scan, the replay, the anchor rewrite and
the completion. Each step is what recovery does at one completion that is OK. -/

namespace Sys2Proof.Machine

/-- Recovery waits for the completion of one request in a phase: the request is presented (R163). -/
def State.recPresent (s : State) (q : Request) (role : Role) (r : Recovery) : State :=
  (s.setRecovery r).setPort { s.port with waitRecovery := some { req := q, role := role } }

/-- A READ of quarter q of a journal block. -/
def State.blockRead (s : State) (b q : Nat) : Request :=
  { kind := .read, addr := s.straps.blockAddr b + 16 * q, len := 16, words := [] }

/-- A READ of quarter q of a block presented, with the recovery's values as given. -/
def State.recReadOf (s : State) (b q : Nat) (r : Recovery) : State := s.recPresent (s.blockRead b q) .recRead r

/-- The summary changed by `f`. -/
def State.updSummary (s : State) (f : Summary → Summary) : State := s.setCtrl { s.ctrl with summary := f s.ctrl.summary }

/-- A run begins: status RUNNING, and the first read, of copy 0, is presented (R163, R164). -/
def State.startRecovery (s : State) : State :=
  (s.updSummary fun x => { x with status := .running }).recPresent (s.blockRead 0 0) .recAnchorRead { phase := .anchor 0 }

/-- An anchor copy written by recovery. -/
def State.anchorReq (s : State) (copy : Fin 2) (gen : Word) (head : Nat) (headSeq : Word) : Request :=
  { kind := .write, addr := s.straps.blockAddr copy.val, len := 16, words := anchorWords gen head headSeq }

/-- The read of the first 16 words at the position (R166). -/
def State.scanAt (s : State) (r : Recovery) : State :=
  s.recReadOf r.pos 0 { r with phase := .first, block := [], header := [], check := 0xFFFFFFFF#32, runs := [] }

/-- The selected copy, of two whose words have been read (R164). -/
def selectCopy (p : Straps) (c0 c1 : List Word) : Option (Fin 2) :=
  match anchorValid p c0, anchorValid p c1 with
  | true, false => some 0
  | false, true => some 1
  | true, true => if later (blockWord c1 2) (blockWord c0 2) then some 1 else some 0
  | false, false => none

/-- A read of an anchor copy is OK: after copy 0 copy 1 is read, and after both the scan starts at the selected copy's head, or copy 0
is formatted (R164, R165). -/
def State.recAnchorRead (ws : List Word) (s : State) : State :=
  match s.recovery.phase with
  | .anchor 0 => s.recPresent (s.blockRead 1 0) .recAnchorRead { phase := .anchor 1, block := ws }
  | .anchor 1 =>
    match selectCopy s.straps s.recovery.block ws with
    | some c =>
      let sel := if c = 0 then s.recovery.block else ws
      let pos := (blockWord sel 3).toNat
      (s.updSummary fun x => { x with startBlock := pos }).scanAt
        { sel := c, selGen := blockWord sel 2, pos := pos, expected := blockWord sel 4 }
    | none => s.recPresent (s.anchorReq 0 1 2 1) .recAnchorWrite { phase := .formatWrite }
  | _ => s

/-- The scan ends at the position, and the anchor is written to the copy that was not selected (R169, R170). -/
def State.scanEnd (s : State) (why : EndReason) : State :=
  let r := s.recovery
  let s1 := s.updSummary fun x => { x with reason := why, endBlock := r.pos, nextSeq := r.expected }
  s1.recPresent (s1.anchorReq (1 - r.sel) (r.selGen + 1) r.pos r.expected) .recAnchorWrite { r with phase := .anchorWrite }

/-- The first 16 words of the block at the position judged (R166). -/
def State.judgeFirst (s : State) (ws : List Word) : State :=
  let r := s.recovery
  let kind := blockWord ws 1
  let skip := s.straps.lastBlock + 1 - r.pos
  if blockWord ws 0 ≠ journalMarker ∨ (kind ≠ kindEntry ∧ kind ≠ kindSkip) then s.scanEnd .clean
  else if blockWord ws 2 ≠ r.expected then s.scanEnd .clean
  else if kind = kindSkip then
    (if s.straps.ringBlocks - 1 < r.consumed + skip then s.scanEnd .limit
     else s.scanAt { r with consumed := r.consumed + skip, pos := 2 })
  else s.recReadOf r.pos 1 { r with phase := .header 1, block := ws }

/-- The fields of a header block: burst count, total words and entry length (R45). -/
def hdrBursts (h : List Word) : Nat := (blockWord h 3).toNat
/-- The total words of a header block. -/
def hdrTotal (h : List Word) : Nat := (blockWord h 4).toNat
/-- The entry length of a header block. -/
def hdrLen (h : List Word) : Nat := (blockWord h 5).toNat

/-- The shape of an entry at block `pos` (R167 stage 2). -/
def shapeFits (p : Straps) (pos : Nat) (h : List Word) : Bool :=
  1 ≤ hdrBursts h && hdrBursts h ≤ 28 && 1 ≤ hdrTotal h && hdrTotal h ≤ 16384 && hdrLen h == entryLength (hdrTotal h) &&
  pos + hdrLen h - 1 ≤ p.lastBlock

/-- The descriptors of an entry against the geometry (R167 stage 5). -/
def descriptorsFit (p : Straps) (h : List Word) : Bool :=
  let ds := descriptors h (hdrBursts h)
  (ds.all fun d => 1 ≤ d.2 && d.1 + d.2 ≤ p.visible) && (ds.map Prod.snd).sum == hdrTotal h

/-- The whole header block judged: its check, its shape, and the limit (R167 stages 1 and 2); then the data is read. -/
def State.judgeHeader (s : State) (h : List Word) : State :=
  let r := s.recovery
  if headerCheck h ≠ blockWord h 6 then s.scanEnd .torn
  else if !shapeFits s.straps r.pos h then s.scanEnd .mismatch
  else if s.straps.ringBlocks - 1 < r.consumed + hdrLen h then s.scanEnd .limit
  else s.recReadOf (r.pos + 1) 0 { r with phase := .data 0 0, header := h, block := [], check := checkFeed checkPreset h }

/-- The runs of an entry's replay, burst after burst in ordinal order, in address order within a burst (R168). -/
def replayRuns (ds : List (Nat × Nat)) : List HomeRun :=
  ds.flatMap fun d => (List.range (ceilDiv d.2 Config.spanWords)).map fun i =>
    { addr := d.1 + Config.spanWords * i, len := min Config.spanWords (d.2 - Config.spanWords * i) }

/-- The mark judged, then the descriptors; a complete entry is replayed (R167 stages 4 and 5, R168). -/
def State.judgeMark (s : State) (ws : List Word) : State :=
  let r := s.recovery
  if !markGood ws r.expected r.check then s.scanEnd .torn
  else if !descriptorsFit s.straps r.header then s.scanEnd .mismatch
  else
    s.recReadOf (r.pos + 1) 0 { r with phase := .replayRead 0 0, block := [], runs := replayRuns (descriptors r.header (hdrBursts r.header)) }

/-- The entry's last replay write has completed: the counts rise, and the scan goes on at the block after it (R168). -/
def State.entryReplayed (s : State) : State :=
  let r := s.recovery
  let s1 := s.updSummary fun x => { x with entries := x.entries + 1, words := x.words + hdrTotal r.header }
  s1.scanAt { r with
    consumed := r.consumed + hdrLen r.header, pos := s.straps.nextBlock (r.pos + hdrLen r.header - 1), expected := r.expected + 1 }

/-- Replay goes on, with data block `k` the next to read: the next run is written once its words are at hand, else block k is read, and
after the last run the entry is done (R168; log 16). -/
def State.replayNext (s : State) (k : Nat) : State :=
  let r := s.recovery
  match r.runs with
  | [] => s.entryReplayed
  | x :: rest =>
    if x.len ≤ r.block.length then
      s.recPresent { kind := .write, addr := x.addr, len := x.len, words := r.block.take x.len } .recReplay
        { r with phase := .replayWrite k, block := r.block.drop x.len, runs := rest }
    else s.recReadOf (r.pos + 1 + k) 0 { r with phase := .replayRead k 0 }

/-- A read of the ring is OK: the block is judged, or the next quarter is read (R166 to R168). -/
def State.recRead (ws : List Word) (s : State) : State :=
  let r := s.recovery
  match r.phase with
  | .first => s.judgeFirst ws
  | .header q =>
    if q < 3 then s.recReadOf r.pos (q + 1) { r with phase := .header (q + 1), block := r.block ++ ws }
    else s.judgeHeader (r.block ++ ws)
  | .data k q =>
    let r1 := { r with check := checkFeed r.check ws }
    if q < 3 then s.recReadOf (r.pos + 1 + k) (q + 1) { r1 with phase := .data k (q + 1) }
    else if k + 3 < hdrLen r.header then s.recReadOf (r.pos + 1 + (k + 1)) 0 { r1 with phase := .data (k + 1) 0 }
    else s.recReadOf (r.pos + hdrLen r.header - 1) 0 { r1 with phase := .mark }
  | .mark => s.judgeMark ws
  | .replayRead k q =>
    if q < 3 then s.recReadOf (r.pos + 1 + k) (q + 1) { r with phase := .replayRead k (q + 1), block := r.block ++ ws }
    else (s.setRecovery { r with block := r.block ++ ws }).replayNext (k + 1)
  | _ => s

/-- A replay write is OK (R168). -/
def State.recReplayed (s : State) : State :=
  match s.recovery.phase with
  | .replayWrite k => s.replayNext k
  | _ => s

/-- Recovery completes: the Journal Controller takes the values of 03 R61, the Apply Position and the summary are set, RECOVERY_DONE is
reported and the bridge enters UNCONFIGURED (R171). -/
def State.recComplete (s : State) (copy : Fin 2) (gen : Word) : State :=
  let x := s.ctrl.summary
  let s1 := s.setJournal { tail := x.endBlock, head := x.endBlock, headSeq := x.nextSeq, nextSeq := x.nextSeq, generation := gen, copy := copy }
  let s2 := (s1.setApply { s1.apply with position := x.nextSeq - 1 }).setRecovery {}
  (s2.setCtrl { s2.ctrl with
    opState := .unconfigured, summary := { x with generation := gen, status := .complete } }).report .recoveryDone

/-- Recovery's anchor or formatting write is OK (R165, R171); once the bridge has left RECOVERING it sets nothing (R172). -/
def State.recAnchorWritten (s : State) : State :=
  let r := s.recovery
  match r.phase with
  | .anchorWrite => s.recComplete (1 - r.sel) (r.selGen + 1)
  | .formatWrite =>
    (s.updSummary fun x => { x with reason := .formatted, startBlock := 2, endBlock := 2, nextSeq := 1 }).recComplete 0 1
  | _ => s

end Sys2Proof.Machine
end

