-- ==== Sys2Proof/Machine/Commit.lean ====
section
/-! DEFINITION. The Commit Engine and the Journal Controller (spec/04 R64 to R70, spec/03 R49 to R58): taking a unit, granting blocks,
the words of an entry, durability, and the anchor. The commands COMMIT_TAKE_UNIT and BLOCK_GRANT. -/

namespace Sys2Proof.Machine

/-! ### Units of the Commit Queue -/

/-- The unit's kind is GUARDED (R62). -/
def CommitUnit.isGuarded (u : CommitUnit) : Bool :=
  match u.owner with
  | .guarded _ => true
  | .checked _ => false

/-- The records of a unit in ordinal order: its slot's member list, or its one record (R62). -/
def State.membersOf (s : State) (u : CommitUnit) : List Nat :=
  match u.owner with
  | .guarded n => (s.slot n).members
  | .checked r => [r]

/-- The unit with a close number. -/
def State.unitNo (s : State) (c : Word) : Option CommitUnit := s.queue.find? fun u => u.closeNo == c

/-- The unit that the Commit Engine has in hand, while it is in the queue. -/
def State.inHand (s : State) : Option CommitUnit := s.commit.inHand.bind s.unitNo

/-- The unit with a close number changed by `f`. -/
def State.updUnit (s : State) (c : Word) (f : CommitUnit → CommitUnit) : State :=
  s.setQueue (s.queue.map fun u => if u.closeNo = c then f u else u)

/-- An engine takes units in ARMED and DRAINING alone (R64, R71). -/
def State.enginesRun (s : State) : Bool := s.ctrl.opState == .armed || s.ctrl.opState == .draining

/-- The word count of a unit's slot (R65). -/
def State.unitWords (s : State) (u : CommitUnit) : Nat :=
  match u.owner with
  | .guarded n => (s.slot n).wordCount
  | .checked _ => 0

/-- The IDLE Commit Engine takes the GUARDED unit nearest the front whose stage is CLOSED, and asks for its L blocks (R64, R65). -/
def State.commitTake (s : State) : State :=
  if s.commit.st = .idle ∧ s.enginesRun then
    match s.queue.find? fun u => u.isGuarded && u.stage == .closed with
    | some u =>
      (s.setCommit { st := .waitingSpace, inHand := some u.closeNo }).setJournal
        { s.journal with blockReq := some (entryLength (s.unitWords u)) }
    | none => s
  else s

/-- COMMIT_TAKE_UNIT (R64). -/
def execCommitTakeUnit (s : State) : Host.Outcome State Fault Refusal := .next s.commitTake

/-! ### The grant of blocks (03 R51, R52) -/

/-- The blocks skipped before an entry of length L (R51): 0 when it fits before the end of the ring, else the blocks from the tail on. -/
def State.skipped (s : State) (len : Nat) : Nat :=
  if s.journal.tail + len - 1 ≤ s.straps.lastBlock then 0 else s.straps.lastBlock + 1 - s.journal.tail

/-- The requests of an entry in the order the engine presents them: four of the header, then four of each data block (R66). -/
def entryRequests (dataBlocks : Nat) : List CommitReq :=
  (List.range 4).map .header ++ (List.range dataBlocks).flatMap fun k => (List.range 4).map fun q => .data k q

/-- The grant is handed over: the unit's sequence, start block and length are set, the sequence is written into the slot, the stage
becomes JOURNALING and the engine enters WRITING with all its requests presented (R65, R66). -/
def State.handOver (s : State) (start : Nat) (seq : Word) (len : Nat) : State :=
  match s.inHand with
  | some u =>
    let s1 := s.updUnit u.closeNo fun u => { u with seq := some seq, start := some start, len := some len, stage := .journaling }
    let s2 :=
      match u.owner with
      | .guarded n => s1.updSlot n fun g => { g with journalSeq := some seq }
      | .checked _ => s1
    (s2.setCommit { s2.commit with st := .writing, entryCheck := checkPreset, completed := 0 }).setPort
      { s2.port with waitCommit := entryRequests (len - 2) }
  | none => s

/-- The block request decided: when live + S + L is at most ring blocks − 1 the tail advances, live blocks rise and the next sequence
is assigned; without a skip the grant is handed over at once, and with one the skip block is written at the old tail first (R51, R52). -/
def State.tryGrant (s : State) : State :=
  match s.journal.blockReq with
  | none => s
  | some len =>
    let j := s.journal
    let sk := s.skipped len
    if j.live + sk + len ≤ s.straps.ringBlocks - 1 then
      let start := if sk = 0 then j.tail else 2
      let j1 := { j with
        tail := s.straps.nextBlock (start + len - 1), live := j.live + sk + len, nextSeq := j.nextSeq + 1, blockReq := none }
      if sk = 0 then (s.setJournal j1).handOver start j.nextSeq len
      else
        (s.setJournal { j1 with skipGrant := some { seq := j.nextSeq, len := len } }).setPort
          { s.port with waitCommit := s.port.waitCommit ++ [.skip j.tail j.nextSeq] }
    else s

/-- BLOCK_GRANT (03 R51). -/
def execBlockGrant (s : State) : Host.Outcome State Fault Refusal := .next (observe State.tryGrant s)

/-! ### The words of an entry (03 R45 to R47, R66) -/

/-- The words of a unit's members, densely packed in ordinal order (R46). -/
def State.unitData (s : State) (u : CommitUnit) : List Word :=
  (s.membersOf u).flatMap fun r => (List.range (s.record r).wordCount).map fun k => s.staging.word (s.record r) k

/-- The header block of a unit's entry (R45). -/
def State.unitHeader (s : State) (u : CommitUnit) : List Word :=
  headerBlock (u.seq.getD 0) ((s.membersOf u).map fun r => ((s.record r).start, (s.record r).wordCount)) (s.unitWords u)
    (u.len.getD 0)

/-- The 16 words of quarter q of data block k, zero beyond the last data word (R46). -/
def State.unitQuarter (s : State) (u : CommitUnit) (k q : Nat) : List Word :=
  padTo 16 ((s.unitData u).drop (Config.chunkWords * k + 16 * q))

/-- The journal block and offset that a request of the unit in hand writes to (R45 to R48). -/
def CommitReq.place (u : CommitUnit) : CommitReq → Nat × Nat
  | .skip b _ => (b, 0)
  | .header q => (u.start.getD 0, 16 * q)
  | .data k q => (u.start.getD 0 + 1 + k, 16 * q)
  | .mark => (u.start.getD 0 + u.len.getD 0 - 1, 0)

/-- The words of a COMMIT request, built as it is issued (R66). -/
def State.commitWords (s : State) (u : CommitUnit) : CommitReq → List Word
  | .skip _ seq => skipWords seq
  | .header q => quarter (s.unitHeader u) q
  | .data k q => s.unitQuarter u k q
  | .mark => markWords (u.seq.getD 0) s.commit.entryCheck

/-- A header or data request is part of the entry check (R66, R47). -/
def CommitReq.checked : CommitReq → Bool
  | .header _ => true
  | .data _ _ => true
  | _ => false

/-- The role of a COMMIT request. -/
def CommitReq.role : CommitReq → Role
  | .skip _ _ => .skip
  | .mark => .mark
  | _ => .entry

/-! ### Durability (04 R67, R76) -/

/-- The mark is in memory: the unit and its slot become DURABLE and the DURABLE outcome is ready (R67 steps 1 to 3). -/
def State.makeDurable (s : State) (u : CommitUnit) : State :=
  let s1 := s.updUnit u.closeNo fun u => { u with stage := .durable }
  match u.owner with
  | .guarded n => (s1.updSlot n fun g => { g with st := .durable }).ready ((s1.slot n).outcome n .durable u.seq)
  | .checked _ => s1

/-- The unit is ABANDONED: its slot takes a bare first error STOPPED, and its ABANDONED outcome is ready (R76, 02 R40, 09 R135). It keeps
its place in the queue until the caller drops it. -/
def State.abandonSlot (s : State) (n : Nat) : State :=
  let g : GroupSlot := { s.slot n with st := .abandoned, firstError := some (bareError (.verdict .stopped)) }
  (s.updSlot n fun _ => g).ready (g.outcome n .abandoned none)

/-- The slot of a GUARDED unit abandoned. -/
def State.abandonUnit (s : State) (u : CommitUnit) : State :=
  match u.owner with
  | .guarded n => s.abandonSlot n
  | .checked _ => s

/-- The unit with a close number leaves the queue. -/
def State.dropUnit (s : State) (c : Word) : State := s.setQueue (s.queue.filter fun u => u.closeNo ≠ c)

/-- The unit in hand, while it is still JOURNALING in the queue. -/
def State.keptUnit (s : State) : Option CommitUnit := s.inHand.filter fun u => u.stage == .journaling

/-- A mark that completes OK: a unit still JOURNALING becomes DURABLE, and an engine that is not STOPPED enters IDLE and takes the next
unit (R67, R69). -/
def State.markDone (s : State) : State :=
  let s1 := match s.keptUnit with
    | some u => s.makeDurable u
    | none => s
  if s.commit.st = .marking then (s1.setCommit {}).commitTake else s1

/-- A mark that completes with ERROR: the unit kept for it at entry to HALTED is abandoned and dropped (R76). -/
def State.markLost (s : State) : State :=
  match s.keptUnit with
  | some u => (s.abandonUnit u).dropUnit u.closeNo
  | none => s

/-- A header or data request that completes OK: after the last one of the entry the mark is presented (R66, R67). -/
def State.entryDone (s : State) : State :=
  if s.commit.st = .writing then
    let len := (s.inHand.bind CommitUnit.len).getD 0
    if s.commit.completed + 1 = 4 * (len - 1) then
      (s.setCommit { s.commit with st := .marking, completed := s.commit.completed + 1 }).setPort
        { s.port with waitCommit := [.mark] }
    else s.setCommit { s.commit with completed := s.commit.completed + 1 }
  else s

/-- A skip write that completes OK hands its grant over, with start block 2, if a grant still waits for it (03 R52, R60). -/
def State.skipDone (s : State) : State :=
  match s.journal.skipGrant with
  | some g => (s.setJournal { s.journal with skipGrant := none }).handOver 2 g.seq g.len
  | none => s

/-! ### The anchor (03 R57, R58, R60) -/

/-- One anchor write presented with the contents of newest finished, to the copy that is not current (R57). -/
def State.presentAnchor (s : State) : State :=
  match s.journal.newest with
  | some (head, headSeq) =>
    (s.setJournal { s.journal with
      inFlight := some { copy := 1 - s.journal.copy, generation := s.journal.generation + 1, head := head, headSeq := headSeq } }).setPort
      { s.port with waitAnchor := true }
  | none => s

/-- An anchor asked for: newest finished takes the pair, and a write is presented, or anchor-due set while one is in flight (R57, R58). -/
def State.askAnchor (s : State) (head : Nat) (headSeq : Word) : State :=
  let s1 := s.setJournal { s.journal with newest := some (head, headSeq) }
  match s.journal.inFlight with
  | none => s1.presentAnchor
  | some _ => s1.setJournal { s1.journal with due := true }

/-- Steps 1 to 3 of a completed anchor write (R58). -/
def State.anchorTaken (s : State) (a : AnchorWrite) : State :=
  s.setJournal { s.journal with
    head := a.head, headSeq := a.headSeq, live := s.journal.live - s.straps.ringDist s.journal.head a.head, copy := a.copy,
    generation := a.generation, inFlight := none }

/-- An anchor write that completes OK: the pointers move, a waiting block request is decided again, and a due anchor is written, which
FAULTED and HALTED do not do (R58, R60). JOURNAL_PRESSURE is decided at the fall of live blocks as well as at a grant that follows it
(R55), so a condition that goes false and true again within the step has its flag set. -/
def State.anchorDone (s : State) : State :=
  match s.journal.inFlight with
  | some a =>
    let s1 := ((s.anchorTaken a).noteChanges s.live).tryGrant
    if s1.journal.due ∧ s1.ctrl.opState ≠ .faulted ∧ s1.ctrl.opState ≠ .halted then
      (s1.setJournal { s1.journal with due := false }).presentAnchor
    else s1
  | none => s

end Sys2Proof.Machine
end

