-- ==== Sys2Proof/Machine/Apply.lean ====
section
/-! DEFINITION. The Apply Engine (spec/04 R71 to R75): taking the front unit, writing its members home in ordinal order, releasing them
and finishing the unit. The command APPLY_TAKE_UNIT. -/

namespace Sys2Proof.Machine

/-- The runs of a burst of `w` words, of 16 words with the rest in the last (R72). -/
def applyRuns (r w : Nat) : List ApplyRun :=
  (List.range (ceilDiv w Config.spanWords)).map fun i =>
    { record := r, off := Config.spanWords * i, len := min Config.spanWords (w - Config.spanWords * i) }

/-- The front unit is appliable: CHECKED in CLOSED, GUARDED in DURABLE (R71). -/
def CommitUnit.appliable (u : CommitUnit) : Bool := if u.isGuarded then u.stage == .durable else u.stage == .closed

/-- The front unit changed by `f`. -/
def State.updFront (s : State) (f : CommitUnit → CommitUnit) : State := s.setQueue (upd s.queue 0 f)

/-- The member of ordinal `i` of the front unit is begun: its record moves to APPLYING and all its runs are presented (R72). -/
def State.startMember (s : State) (u : CommitUnit) (i : Nat) : State :=
  let r := (s.membersOf u).getD (i - 1) 0
  let s1 := s.setStaging (s.staging.move r .applying)
  let s2 := s1.updFront fun u => { u with stage := .applying, progress := some { ordinal := i, issued := 0, completed := 0 } }
  s2.setPort { s2.port with waitApply := applyRuns r (s.record r).wordCount }

/-- The IDLE Apply Engine takes the front unit as soon as it is appliable (R71). -/
def State.applyTake (s : State) : State :=
  if s.apply.st = .idle ∧ s.enginesRun then
    match s.queue with
    | u :: _ => if u.appliable then (s.setApply { s.apply with st := .applying }).startMember u 1 else s
    | [] => s
  else s

/-- APPLY_TAKE_UNIT (R71). -/
def execApplyTakeUnit (s : State) : Host.Outcome State Fault Refusal := .next s.applyTake

/-- A member released: its overlay entry is removed, then its chunks return and its record is FREE (01 R17, R73). -/
def State.releaseMember (s : State) (r : Nat) : State :=
  (s.setOverlay (s.overlay.filter fun e => e.record ≠ r)).freeRecord r

/-- The slot of a finished guarded unit: FREE if its outcome is posted, else APPLIED, which holds no records (R74, 02 R33). -/
def GroupSlot.finish (g : GroupSlot) : GroupSlot := if g.posted then {} else { g with st := .applied, members := [] }

/-- The front unit finished: it leaves the queue; for a GUARDED one the slot becomes APPLIED or FREE, an anchor past its mark block is
asked for and the Apply Position takes its sequence; the engine is IDLE and takes the new front unit if it is appliable (R74). -/
def State.finishUnit (s : State) (u : CommitUnit) : State :=
  let s1 := (s.setQueue s.queue.tail).setApply { s.apply with st := .idle }
  let s2 :=
    match u.owner with
    | .guarded n =>
      let seq := u.seq.getD 0
      let t := (s1.updSlot n GroupSlot.finish).askAnchor (s1.straps.nextBlock (u.start.getD 0 + u.len.getD 0 - 1)) (seq + 1)
      t.setApply { t.apply with position := seq }
    | .checked _ => s1
  s2.applyTake

/-- A home write that completes OK: the member's last one releases it, and the next member is begun or the unit finished (R72 to R74).
In STOPPED it releases and advances nothing (R75). -/
def State.applyDone (s : State) : State :=
  if s.apply.st = .applying then
    match s.queue with
    | u :: _ =>
      match u.progress with
      | some p =>
        let ms := s.membersOf u
        let r := ms.getD (p.ordinal - 1) 0
        if p.completed + 1 = ceilDiv (s.record r).wordCount Config.spanWords then
          let s1 := s.releaseMember r
          if p.ordinal < ms.length then s1.startMember u (p.ordinal + 1) else s1.finishUnit u
        else s.updFront fun u => { u with progress := some { p with completed := p.completed + 1 } }
      | none => s
    | [] => s
  else s

end Sys2Proof.Machine
end

