-- ==== Sys2Proof/Machine/ReadPath.lean ====
section
/-! DEFINITION. The Read Path (spec/05): the overlay lookup, the issue of spans, the filling of a span and the discarding of spans. -/

namespace Sys2Proof.Machine

/-- An entry covers the words of its burst (05 R79). -/
def OverlayEntry.covers (e : OverlayEntry) (a : Nat) : Bool := e.start ≤ a && a < e.start + e.wordCount

/-- Entry `e` answers before `f`: a later close number, or the same with a higher ordinal (R82). -/
def OverlayEntry.newer (e f : OverlayEntry) : Bool := later e.closeNo f.closeNo || (e.closeNo == f.closeNo && f.ordinal < e.ordinal)

/-- The answering entry for an address (R82). -/
def overlayFind : List OverlayEntry → Nat → Option OverlayEntry
  | [], _ => none
  | e :: es, a =>
    match overlayFind es a with
    | some f => if e.covers a && e.newer f then some e else some f
    | none => if e.covers a then some e else none

/-- The word that the Overlay Map supplies for an address: word a − start of the answering record's burst (R82). -/
def State.overlayWord (s : State) (a : Nat) : Option Word :=
  (overlayFind s.overlay a).map fun e => s.staging.word (s.record e.record) (a - e.start)

/-- A span as it is issued: the captured words in place, the others to come from memory (R86). -/
def spanOf (base seq : Nat) (looked : List (Option Word)) : SpanSlot :=
  { st := if looked.all Option.isSome then .ready else .filling, base := base, len := looked.length, seq := seq,
    sources := looked.map fun x => if x.isSome then .captured else .memory, words := looked.map fun x => x.getD 0 }

/-- The next span issued, if a slot is FREE and the extent has a span not yet issued (R84, R86). A span with a word from memory makes
its slot's request wait. -/
def State.issueSpan (s : State) : State :=
  let base := s.link.start + Config.spanWords * s.reads.nextSpan
  match s.freeSpanNo with
  | none => s
  | some n =>
    if s.link.bound ≤ base then s
    else
      let looked := (List.range (min Config.spanWords (s.link.bound - base))).map fun j => s.overlayWord (base + j)
      let span := spanOf base s.reads.nextSpan looked
      let s1 := s.setReads { slots := upd s.reads.slots n fun _ => span, nextSpan := s.reads.nextSpan + 1 }
      if span.st = .ready then s1 else s1.setPort { s1.port with waitRead := s1.port.waitRead ++ [n] }

/-- Spans issued as long as slots are FREE, for a common read that is still streaming (R86). -/
def State.issueSpans (s : State) : State :=
  if s.link.st = .streaming ∧ s.link.commonRead then s.issueSpan.issueSpan.issueSpan.issueSpan else s

/-- The slot that holds span `i` of the burst being served: a DISCARDING slot belongs to no such burst (R85). -/
def State.spanNo (s : State) (i : Nat) : Option Nat :=
  firstWhere (fun x => x.seq == i && (x.st == .filling || x.st == .ready || x.st == .sending || x.st == .failed)) s.reads.slots

/-- The words of a FILLING span when its request completes OK: MEMORY positions take the returned values (R87). -/
def SpanSlot.fill (x : SpanSlot) (ws : List Word) : SpanSlot :=
  { x with
    st := .ready
    words := (List.range x.len).map fun j =>
      if x.sources.getD j .memory = .captured then x.words.getD j 0 else ws.getD j 0 }

/-- What a slot becomes at the end of a read burst; `waiting` says that its request has not been granted (R91). -/
def SpanSlot.discard (x : SpanSlot) (waiting : Bool) : SpanSlot :=
  match x.st with
  | .free => x
  | .discarding => x
  | .filling => if waiting then {} else { x with st := .discarding }
  | .ready => {}
  | .sending => {}
  | .failed => {}

/-- Every span of the burst discarded: requests that wait are withdrawn (R91). -/
def State.discardSpans (s : State) : State :=
  let slots := s.reads.slots.mapIdx fun n x => x.discard (s.port.waitRead.contains n)
  (s.setReads { slots := slots, nextSpan := 0 }).setPort { s.port with waitRead := [] }

end Sys2Proof.Machine
end

