-- ==== Sys2Proof/Machine/LinkOps.lean ====
section
/-! DEFINITION. The Link Interface's shared operations (spec/07): stops, the DIRECT path's collecting span (spec/06 R105 to R107), the
streaming of a read (spec/05 R90 to R92), the settling of a verdict with its work, and the receipt. -/

namespace Sys2Proof.Machine

/-! ### The receipt -/

/-- The hold or release that a written HOLD field makes once the receipt has been driven (R123): a hold in any state but HELD, a
release in HELD, and nothing new otherwise. -/
def Ctrl.fallDue (c : Ctrl) : Ctrl :=
  { c with
    holdWritten := none
    holdDue :=
      match c.holdWritten with
      | some true => if c.opState = .held then none else some .hold
      | some false => if c.opState = .held then some .release else none
      | none => c.holdDue }

/-- The receipt is driven and the link is IDLE (R122): the idle timer of an OPEN group of the tag starts when the opening had been
taken (R37), and a written HOLD field falls due (R123). -/
def State.driveReceipt (s : State) (v : Verdict) (closeTaken : Bool) : State :=
  let l := s.link
  let s1 := s.setOut { s.out with receipt := some (receiptWord v l.tag closeTaken l.count) }
  let s2 := if l.hdr1.isSome then s1.startIdle l.tag else s1
  (s2.setLink {}).setCtrl s2.ctrl.fallDue

/-! ### Pauses -/

/-- The bridge holds the transfer; the stall timer does not run (R115, R116). -/
def State.hold (s : State) (c : HoldCause) : State :=
  s.setLink { s.link with bridgeHold := some c, stall := none }

/-- The bridge no longer holds the transfer: if the master does, the link passes to PAUSED_BY_MASTER and the stall timer starts (R115,
R116). -/
def State.unhold (s : State) : State :=
  s.setLink { s.link with bridgeHold := none, stall := if s.link.masterHold then some s.ctrl.stallLimit else none }

/-- One word moves: it is fed to the running check and counted (R115). -/
def Link.move (l : Link) (w : Word) : Link := { l with check := checkWord l.check w, count := l.count + 1 }

/-! ### The end of the data phase -/

/-- The collecting span, if it holds any words, is handed to the Memory Port (06 R105, R106). It begins where its first word falls. -/
def State.handCollecting (s : State) : State :=
  let ws := s.link.collecting
  if ws = [] then s
  else
    (s.setLink { s.link with collecting := [] }).setPort
      { s.port with waitDirect := s.port.waitDirect ++ [{ addr := s.link.start + s.link.count - ws.length, words := ws }] }

/-- What the end of the data phase does for its kind of burst: a common read's spans are discarded (05 R91), and a DIRECT write's
collecting span is handed over even while an earlier request waits (06 R106). -/
def State.endData (s : State) : State :=
  if s.link.commonRead then s.discardSpans else if s.link.directWrite then s.handCollecting else s

/-- The bridge requests stop, with the pending verdict of the cause if it has one, or a cut: the handshake timer starts and no further
word moves (R118). -/
def State.bridgeStop (s : State) (pv : Option Verdict) (cut : Bool) : State :=
  (s.setLink { s.link with
    st := .stopping, pendVerdict := s.link.pendVerdict.or pv, cut := cut, handshake := some s.ctrl.handshakeLimit, stall := none,
    bridgeHold := none, masterHold := false, presented := none }).endData

/-- The link enters CHECKING at the acknowledge of either side's stop: the handshake timer starts, and for a read the bridge sends its
check word (R117, R118, R119, R120, R121). -/
def State.enterChecking (s : State) : State :=
  let s1 := s.setLink { s.link with
    st := .checking, handshake := some s.ctrl.handshakeLimit, stall := none, bridgeHold := none, masterHold := false, presented := none }
  if s1.link.isRead then s1.setOut { s1.out with check := some s1.link.check } else s1

/-! ### Streaming a read -/

/-- Every word of a read's extent has been sent (05 R91, R124). -/
def Link.exhausted (l : Link) : Bool := l.bound ≤ (if l.isAttr then l.offset else l.start) + l.count

/-- The bridge requests the stop of a read that is due: a cut, when the extent is exhausted (05 R91, 07 R118, R124). It is due from the
word that exhausted the extent, and the master's own stop may be taken before it (R91; log 37). -/
def State.requestDue (s : State) : State :=
  if s.link.st = .streaming ∧ s.link.isRead ∧ s.link.exhausted then s.bridgeStop none true else s

/-- Streaming reaches the span that holds the next word: READY makes it SENDING, FAILED makes the bridge request stop with pending verdict
MEMORY_FAULT, and in every other case the bridge pauses (05 R90, R92, 07 R118). A pause of the bridge that ends here ends as R115 states.
With the extent exhausted there is no next word. -/
def State.reachSpan (s : State) : State :=
  if s.link.st = .streaming ∧ s.link.commonRead ∧ !s.link.exhausted then
    match s.spanNo (s.link.count / Config.spanWords) with
    | some n =>
      match (s.span n).st with
      | .sending => s
      | .ready =>
        let s1 := s.updSpan n fun x => { x with st := .sending }
        if s1.link.bridgeHold.isSome then s1.unhold else s1
      | .failed => s.bridgeStop (some .memoryFault) false
      | _ => s.hold .span
    | none => s.hold .span
  else s

/-! ### Settling a verdict -/

/-- The verdict when the check exchange has answered: the pending verdict if one is set, CHECK_FAIL on a mismatch, and otherwise CUT
after a cut and GOOD after the master's stop (R119, R120). -/
def Link.settle (l : Link) (matched : Bool) : Verdict :=
  l.pendVerdict.getD (if matched then (if l.cut then .cut else .good) else .checkFail)

/-- The record and group effects of a staged write whose verdict is GOOD or CUT (01 R14, R15; 02 R23, R26, R29, R30, R32). -/
def State.stagedTaken (s : State) (v : Verdict) : State :=
  let l := s.link
  let closes := v = .good ∧ l.close ∧ l.tag ≠ 0
  match l.slot with
  | none => if l.count = 0 then s.freeOptRecord l.record else
      match l.record with
      | some r => s.closeUnit (.checked r) [r]
      | none => s
  | some n =>
    if l.count = 0 then
      let s1 := s.freeOptRecord l.record
      if l.tag = 0 then s1.updSlot n fun _ => {}
      else if closes then (if (s1.slot n).members = [] then s1.closeEmpty n else s1.closeGroup n)
      else s1
    else
      let s1 := match l.record with
        | some r => s.joinGroup n r l.count
        | none => s
      if l.tag = 0 ∨ closes then s1.closeGroup n else s1

/-- The record and group effects of a staged write with any other verdict (01 R14; 02 R23, R26, R34): the record is freed, an explicit
group is rejected with the verdict as cause, and an implicit group's slot is FREE. -/
def State.stagedFailed (s : State) (v : Verdict) : State :=
  let l := s.link
  let s1 := s.freeOptRecord l.record
  match l.slot with
  | none => s1
  | some n => if l.tag = 0 then s1.updSlot n fun _ => {} else s1.rejectGroup n (s1.burstError n v l.start)

/-- The end of a staged write: the work of its verdict, and its receipt (R119, R122). CLOSE-TAKEN is 1 for GOOD with CLOSE and an
explicit tag (02 R28). -/
def State.finishStaged (s : State) (v : Verdict) : State :=
  let l := s.link
  let s1 := s.reportIf (v == .checkFail) .checkFailSeen
  let s2 := if v = .good ∨ v = .cut then s1.stagedTaken v else s1.stagedFailed v
  s2.driveReceipt v (v == .good && l.close && l.tag != 0)

/-- The verdict of a DIRECT write when its last request has completed (06 R106). -/
def Link.directVerdict (l : Link) : Verdict :=
  match l.exchange with
  | .matched => l.settle true
  | .mismatched => l.settle false
  | .timedOut => l.pendVerdict.getD .handshakeTimeout
  | .awaited => l.pendVerdict.getD .handshakeTimeout

/-- No DIRECT request waits and none is outstanding to be taken. -/
def State.directDone (s : State) : Bool :=
  s.port.waitDirect.isEmpty && s.port.outstanding.all fun o => !(o.requester == .direct && o.disposition == .take)

/-- A DIRECT write whose check exchange is over ends when every request of it has completed (06 R106, R107). -/
def State.settleDirect (s : State) : State :=
  if s.link.directWrite ∧ s.link.st = .checking ∧ s.link.handshake = none ∧ s.directDone then
    let v := s.link.directVerdict
    ((s.reportIf (v == .checkFail) .checkFailSeen).reportIf (v == .checkFail) .directCheckFail).driveReceipt v false
  else s

/-- The end of a read in either space, and of an attribute write that applies nothing: CHECK_FAIL is reported, and the receipt driven
(R120, R121, R123). -/
def State.finishPlain (s : State) (v : Verdict) : State :=
  (s.reportIf (v == .checkFail) .checkFailSeen).driveReceipt v false

end Sys2Proof.Machine
end

