-- ==== Sys2Proof/Machine/Stop.lean ====
section
/-! DEFINITION. The entry to FAULTED and to HALTED as one operation, and the downstream error report (spec/10 R159 to R161 and the rules
they gather: R7, R18, R40, R60, R69, R75, R76, R93, R107, R125, R133, R136, R172). -/

namespace Sys2Proof.Machine

/-- The burst in progress at the entry (R125, R107, R93): a write that streams is stopped with STOPPED, a DIRECT one losing its
collecting span; a write whose stop or check is under way takes the pending verdict unless one is set; a common read is stopped likewise
at the entry to HALTED alone; every other burst goes on. -/
def State.stopBurst (s : State) (dest : OpState) : State :=
  let l := s.link
  if l.commonWrite ∨ (l.commonRead ∧ dest = .halted) then
    match l.st with
    | .streaming => (s.setLink { l with collecting := [] }).bridgeStop (some .stopped) false
    | .stopping => s.setLink { l with pendVerdict := l.pendVerdict.or (some .stopped) }
    | .checking => s.setLink { l with pendVerdict := l.pendVerdict.or (some .stopped) }
    | _ => s
  else s

/-- The mark of the unit in hand has been granted and has not completed (R76). -/
def State.markOutstanding (s : State) : Bool :=
  s.port.outstanding.any fun o => o.role == .mark && o.disposition == .take

/-- The unit stays in the queue at the entry (R76): DURABLE and APPLYING guarded units, and at the entry to HALTED a JOURNALING one
whose mark is outstanding. -/
def CommitUnit.kept (u : CommitUnit) (markOut : Bool) : Bool :=
  u.isGuarded && (u.stage == .durable || u.stage == .applying || (u.stage == .journaling && markOut))

/-- The units of the queue settled by stage and kind: the guarded ones not kept are ABANDONED in queue order, and only kept units stay
(R76, 09 R136). -/
def State.settleUnits (s : State) (dest : OpState) : State :=
  let markOut := dest == .halted && s.markOutstanding
  let s1 := (s.queue.filter fun u => u.isGuarded && !u.kept markOut).foldl State.abandonUnit s
  s1.setQueue (s.queue.filter fun u => u.kept markOut)

/-- The engines and the Journal Controller stop: waiting COMMIT, APPLY, ANCHOR and DIRECT requests are withdrawn, a withdrawn anchor
write is no longer in flight, and a block request and a grant waiting for its skip write are dropped (R60, R69, R75, R107). -/
def State.stopEngines (s : State) : State :=
  let j := s.journal
  let s1 := s.setJournal { j with
    inFlight := if s.port.waitAnchor then none else j.inFlight, blockReq := none, skipGrant := none }
  let s2 := (s1.setCommit { s1.commit with st := .stopped }).setApply { s1.apply with st := .stopped }
  s2.setPort { s2.port with waitDirect := [], waitCommit := [], waitAnchor := false, waitApply := [], waitRecovery := none }

/-- A run of recovery under way ends (11 R172): it issues nothing further, and the summary keeps what it had reached. -/
def State.stopRecovery (s : State) (st : RecStatus) : State :=
  if s.ctrl.opState = .recovering then
    (s.setRecovery {}).setCtrl { s.ctrl with summary := { s.ctrl.summary with status := st } }
  else s

/-- Entry to FAULTED or HALTED (R159, R161): the burst in progress, the open groups in slot order, the units in queue order, the engines
and the recovery are settled, the state moves, and a DIRECT write that has nothing left to wait for ends. -/
def State.enterStopped (s : State) (dest : OpState) (rs : RecStatus) : State :=
  let s1 := s.stopBurst dest
  let s2 := s1.rejectOpen (.verdict .stopped) s1.link.slot
  let s3 := (s2.settleUnits dest).stopEngines.stopRecovery rs
  (s3.setCtrl { s3.ctrl with opState := dest }).settleDirect

/-- The CHECKED units of the queue (R159). -/
def State.checkedUnits (s : State) : Nat := (s.queue.filter fun u => !u.isGuarded).length

/-- The first fault that a report makes (R159, R160). -/
def State.firstFault (s : State) (o : Outstanding) (dropped : Nat) : FaultRecord :=
  { stateAt := s.ctrl.opState, requester := o.requester, kind := o.kind, addr := o.addr, further := 0, dropped := dropped }

/-- A downstream error report taken in FAULTED or HALTED: the further-faults count rises, or the report becomes the first fault
(R160). -/
def State.furtherFault (s : State) (o : Outstanding) : State :=
  match s.ctrl.fault with
  | some f => s.setCtrl { s.ctrl with fault := some { f with further := min (f.further + 1) Config.maxFurtherFaults } }
  | none => s.setCtrl { s.ctrl with fault := some (s.firstFault o 0) }

/-- A downstream error report (08 R132): FAULTED is entered from RECOVERING, ARMED and DRAINING with the report as first fault (R159),
and in FAULTED and HALTED it is recorded (R160). -/
def State.errorReport (s : State) (o : Outstanding) : State :=
  match s.ctrl.opState with
  | .recovering => (s.setCtrl { s.ctrl with fault := some (s.firstFault o s.checkedUnits) }).enterStopped .faulted .faulted
  | .armed => (s.setCtrl { s.ctrl with fault := some (s.firstFault o s.checkedUnits) }).enterStopped .faulted .faulted
  | .draining => (s.setCtrl { s.ctrl with fault := some (s.firstFault o s.checkedUnits) }).enterStopped .faulted .faulted
  | .faulted => s.furtherFault o
  | .halted => s.furtherFault o
  | _ => s

end Sys2Proof.Machine
end

