-- ==== Sys2Proof/Machine/Power.lean ====
section
/-! DEFINITION. Hard reset, hold, release and power warning (spec/10 R151, R152, R161): the commands HARD_RESET, RESET_RELEASE,
PWARN_ASSERT, PWARN_DEASSERT and ATTN_PULSE_END, and the effects of HOLD and HOLD_RELEASE. -/

namespace Sys2Proof.Machine

/-- Every outstanding entry keeps its place with disposition DISCARD (08 R134). -/
def discardAll (xs : List Outstanding) : List Outstanding := xs.map fun o => { o with disposition := .discard }

/-- Every block in the state its chapter gives for a hard reset and a hold (R152 and 01 R19, 02 R41, 03 R61, 04 R70, R71, R77, 05 R94,
06 R109, 07 R126, 08 R134, 09 R142, R149, 11 R163). The commands that wait, the pins, the sampled straps, the outputs last driven and
what the staging store holds stay. -/
def State.resetBlocks (s : State) (c : Ctrl) : State :=
  { pending := s.pending, pins := s.pins, straps := s.straps, ctrl := c, link := {}, region := Region.init,
    staging := Staging.init s.staging.ram, groups := Groups.init, queue := [], commit := {}, apply := {}, journal := {}, overlay := [],
    reads := Reads.init, port := Port.init (discardAll s.port.outstanding), outcomes := Outcomes.init, attn := Attn.init,
    recovery := {}, out := s.out }

/-- HARD_RESET (R152): RESET_N is low, and the bridge drives nothing. -/
def execHardReset (s : State) : Host.Outcome State Fault Refusal :=
  .next (((s.resetBlocks (Ctrl.init .recovering false)).setPins { s.pins with resetN := false }).setOut {})

/-- The bridge enters HALTED at a release with PWARN asserted: no recovery runs, and the engines are STOPPED (R151; log 24). -/
def State.releaseHalted (s : State) : State :=
  ((s.setCtrl { s.ctrl with opState := .halted }).setCommit { st := .stopped }).setApply { st := .stopped }

/-- A release: the straps are sampled, and the bridge enters RECOVERING and begins recovery, or HALTED if PWARN is asserted. The first
values of the live conditions set no flag (R151, 09 R143). -/
def State.release (s : State) (cap jrn : BitVec 2) : State :=
  let s1 := (s.setStraps { cap := cap, jrn := jrn }).setCtrl { s.ctrl with hold := false, holdDue := none }
  if s.pins.pwarn then s1.releaseHalted else (s1.setCtrl { s1.ctrl with opState := .recovering }).startRecovery

/-- RESET_RELEASE (R151): the rising of RESET_N. -/
def execResetRelease (cap jrn : BitVec 2) (s : State) : Host.Outcome State Fault Refusal :=
  .next (if s.pins.resetN then s else (s.setPins { s.pins with resetN := true }).release cap jrn)

/-- A hold that is due takes effect: HELD, with every block reset (R152, 07 R123). -/
def State.takeHold (s : State) : State :=
  if s.ctrl.holdDue = some .hold then s.resetBlocks (Ctrl.init .held true) else s

/-- A release that is due takes effect (R151, R153). -/
def State.takeRelease (s : State) (cap jrn : BitVec 2) : State :=
  if s.ctrl.holdDue = some .release then s.release cap jrn else s

/-- The hold or release that is due takes effect before a header word 0 is taken (07 R123). The strap pins then have the levels last
sampled (log 31). -/
def State.settleDue (s : State) : State := s.takeHold.takeRelease s.straps.cap s.straps.jrn

/-- PWARN rises (R161): outside HELD and with RESET_N high the bridge enters HALTED, which it may already be in. -/
def State.powerWarn (s : State) : State :=
  let s1 := s.setPins { s.pins with pwarn := true }
  if !s.pins.resetN || s.ctrl.opState == .held || s.ctrl.opState == .halted then s1 else s1.enterStopped .halted .halted

/-- PWARN_ASSERT (R161). -/
def execPwarnAssert (s : State) : Host.Outcome State Fault Refusal := .next (observe State.powerWarn s)

/-- PWARN falls; the bridge stays as it is (R161). -/
def State.powerGood (s : State) : State := s.setPins { s.pins with pwarn := false }

/-- PWARN_DEASSERT (R161). -/
def execPwarnDeassert (s : State) : Host.Outcome State Fault Refusal := .next (observe State.powerGood s)

/-- ATTN_PULSE_END (09 R148): a pulse being driven ends. -/
def execAttnPulseEnd (s : State) : Host.Outcome State Fault Refusal :=
  .next (if s.ctrl.attnOn ∧ s.ctrl.attnMode = .pulse then s.setAttn { s.attn with line := false } else s)

end Sys2Proof.Machine
end

