-- ==== Sys2Proof/Machine/Opening.lean ====
section
/-! DEFINITION. The opening of a burst (spec/07 R110 to R114): the commands HEADER_WORD_0, OPENING and WITHHELD_ANSWER. -/

namespace Sys2Proof.Machine

/-- How a taken opening is decided (R113). An accepted staged write names the record it claims, if it claims one, and whether it goes
to a full group (02 R25). -/
inductive Decision where
  | refuse (v : Verdict)
  | withhold
  | accept (record : Option Nat) (fullClose : Bool)
  deriving DecidableEq, Repr

/-- Check 4: the operating state against a common-space opening (R113). -/
def stateRefusal (op : OpState) (read : Bool) : Option Verdict :=
  match op with
  | .held => some .refusedNotReady
  | .recovering => some .refusedNotReady
  | .unconfigured => if read then none else some .refusedNotReady
  | .armed => none
  | .draining => if read then none else some .refusedDraining
  | .faulted => if read then none else some .refusedStopped
  | .halted => some .refusedStopped

/-- Checks 9 and 10 on a write of tag `t` whose start address has mode `m` (R113, 01 R6 to R8, 02 R22, R23, R25). -/
def State.decideWrite (s : State) (t : Nat) (close : Bool) (m : Mode) : Decision :=
  let group : Option Decision :=
    match s.tag t with
    | .opened n =>
      if Config.burstsPerGroup ≤ (s.slot n).members.length then
        (if close then some (.accept none true) else some (.refuse .refusedGroupFull))
      else none
    | _ => if m = .guarded ∧ s.freeSlotNo = none then some (.refuse .refusedNoGroup) else none
  match group with
  | some d => d
  | none =>
    if m = .direct then .accept none false
    else
      match s.freeRecordNo with
      | some r => .accept (some r) false
      | none =>
        if s.anyRecord BurstRecord.leaving then .withhold
        else
          match s.tag t with
          | .opened _ => if close then .accept none false else .refuse .refusedNoRecord
          | _ => .refuse .refusedNoRecord

/-- The tag is FENCED (02 R21). -/
def TagState.fenced : TagState → Bool
  | .fencedSlot _ => true
  | .fencedNumber _ => true
  | _ => false

/-- The ordered checks on the opening whose header words the link holds (R113). -/
def State.decideOpening (s : State) : Decision :=
  let l := s.link
  if formatFault l.h0 l.h1 then .refuse .refusedFormat
  else if (s.tag l.tag).fenced then .refuse .refusedFenced
  else if l.isAttr then .accept none false
  else
    match stateRefusal s.ctrl.opState l.isRead with
    | some v => .refuse v
    | none =>
      if s.straps.visible ≤ l.start then .refuse .refusedRange
      else if l.isRead then .accept none false
      else if s.modeAt l.start = .readOnly then .refuse .refusedReadOnly
      else if l.tag ≠ 0 ∧ s.modeAt l.start ≠ .guarded then .refuse .refusedMode
      else s.decideWrite l.tag l.close (s.modeAt l.start)

/-! ### The answers (R114) -/

/-- A refusal that rejects the OPEN group of its tag (02 R27). A format refusal does so whatever the direction and space. -/
def Verdict.rejects (v : Verdict) (commonWrite : Bool) : Bool :=
  v == .refusedFormat ||
  (commonWrite && (v == .refusedRange || v == .refusedReadOnly || v == .refusedMode || v == .refusedGroupFull))

/-- The opening is refused: the effect on the group of its tag, then the receipt with count 0 (R114, 02 R27). -/
def State.refuse (s : State) (v : Verdict) : State :=
  let s1 := s.setOut { s.out with answer := some .refuse }
  let s2 :=
    match s1.tag s1.link.tag with
    | .opened n => if v.rejects s1.link.commonWrite then s1.rejectGroup n (s1.burstError n v s1.link.start) else s1
    | _ => s1
  s2.driveReceipt v false

/-- The slot that a write into GUARDED memory is bound for: the OPEN group's of its tag, or the lowest-numbered FREE slot (02 R22, R23). -/
def State.slotFor (s : State) (t : Nat) (m : Mode) : Option Nat :=
  if m = .guarded then
    match s.tag t with
    | .opened n => some n
    | _ => s.freeSlotNo
  else none

/-- The slot opened for a write that starts a new group: an explicit tag that is FREE, or tag 0 (02 R22, R23). -/
def State.bindGroup (s : State) (t : Nat) (slot : Option Nat) : State :=
  match slot, s.tag t with
  | some _, .opened _ => s
  | some n, _ => s.openGroup n t
  | none, _ => s

/-- The ordinal a burst will hold in its group: the group's burst count plus 1 (02 R24); none for a burst with no group. -/
def State.ordinalFor (s : State) (slot : Option Nat) : Option Nat := slot.map fun n => (s.slot n).burstCount + 1

/-- A record claimed for the burst of the link: RECEIVING, with the burst's mode, slot, ordinal and start (01 R6). -/
def State.claimRecord (s : State) (r : Nat) : State :=
  (s.setStaging (s.staging.claim r s.link.mode s.link.slot (s.ordinalFor s.link.slot) s.link.start)).setLink
    { s.link with record := some r }

/-- A common-space write accepted: the write limit is fixed, and the slot and record are claimed; the link is PAUSED_BY_MASTER until
the first word (R114, R115, 01 R6, 02 R22, R23, 06 R102, R103). -/
def State.acceptWrite (s : State) (record : Option Nat) (fullClose : Bool) : State :=
  let m := s.modeAt s.link.start
  let slot := s.slotFor s.link.tag m
  let s1 := s.bindGroup s.link.tag slot
  let s2 := s1.setLink { s1.link with
    st := .streaming, bound := s.writeLimit s.link.start, mode := m, slot := slot, fullClose := fullClose, masterHold := true,
    stall := some s1.ctrl.stallLimit }
  match record with
  | some r => s2.claimRecord r
  | none => s2

/-- A common-space read accepted: its extent is fixed and its first spans are issued (R114, 05 R84, R86). -/
def State.acceptRead (s : State) : State :=
  let s1 := (s.setLink { s.link with
    st := .streaming, bound := min s.straps.visible (s.link.start + Config.longestBurst) }).setReads { s.reads with nextSpan := 0 }
  s1.issueSpans.reachSpan

/-- An attribute burst accepted: its extent is fixed; a read takes its image, and a write waits for the master (R114, R123, R124). -/
def State.acceptAttr (s : State) : State :=
  let bound := min Config.attributeWords (s.link.offset + Config.attributeBurst)
  if s.link.isRead then
    s.setLink { s.link with st := .streaming, bound := bound, attrImage := s.image s.link.offset bound }
  else
    s.setLink { s.link with st := .streaming, bound := bound, masterHold := true, stall := some s.ctrl.stallLimit }

/-- The opening is accepted (R114). -/
def State.accept (s : State) (record : Option Nat) (fullClose : Bool) : State :=
  let s1 := s.setOut { s.out with answer := some .accept }
  if s1.link.isAttr then s1.acceptAttr else if s1.link.isRead then s1.acceptRead else s1.acceptWrite record fullClose

/-- The answer to a decided opening (R114, 01 R7). -/
def State.answer (s : State) : Decision → State
  | .refuse v => s.refuse v
  | .withhold => (s.setLink { s.link with st := .withheld }).setOut { s.out with answer := some .withheld }
  | .accept r f => s.accept r f

/-! ### The commands -/

/-- Header word 0 is taken in IDLE, with RESET_N high, in the state that a hold or release that is due leaves (R112, R123). -/
def State.takeHeader (s : State) (w : Word) : State :=
  if s.pins.resetN ∧ s.link.st = .idle then
    s.settleDue.setLink
      { hdr0 := some w, check := checkWord checkPreset w, st := .opening, stall := some s.settleDue.ctrl.stallLimit }
  else s

/-- HEADER_WORD_0 (R112). -/
def execHeaderWord0 (w : Word) (s : State) : Host.Outcome State Fault Refusal := .next (s.takeHeader w)

/-- Header word 1 is taken: it is fed, the stall timer stops, and the opening is taken, which stops the idle timer of its tag's OPEN group
(R112, 02 R37). -/
def State.wordOneTaken (s : State) (w : Word) : State :=
  let s1 := s.setLink { s.link with hdr1 := some w, check := checkWord s.link.check w, stall := none }
  s1.stopIdle s1.link.tag

/-- Header word 1 arrives in OPENING: it is taken, and the opening is decided and answered (R112 to R114). -/
def State.takeOpening (w : Word) (s : State) : State :=
  if s.link.st = .opening then (s.wordOneTaken w).answer (s.wordOneTaken w).decideOpening else s

/-- OPENING (R113). -/
def execOpening (w : Word) (s : State) : Host.Outcome State Fault Refusal := .next (observe (State.takeOpening w) s)

/-- The held answer (01 R7): REFUSED_STOPPED in FAULTED and HALTED, ACCEPT once a record is FREE, and otherwise it stays held. -/
def State.answerWithheld (s : State) : State :=
  if s.link.st = .withheld then
    if s.ctrl.opState = .faulted ∨ s.ctrl.opState = .halted then s.refuse .refusedStopped
    else
      match s.freeRecordNo with
      | some r => s.accept (some r) false
      | none => s
  else s

/-- WITHHELD_ANSWER (01 R7). -/
def execWithheldAnswer (s : State) : Host.Outcome State Fault Refusal := .next s.answerWithheld

end Sys2Proof.Machine
end

