-- ==== Sys2Proof/Machine/Streaming.lean ====
section
/-! DEFINITION. Streaming and stopping (spec/07 R115 to R118, spec/01 R9 to R12, spec/05 R90 to R92, spec/06 R104, R105): the commands
WRITE_DATA_WORD, RESTORE_READY, READ_DATA_WORD, MASTER_PAUSE, MASTER_STOP and MASTER_ACKNOWLEDGE. -/

namespace Sys2Proof.Machine

/-! ### A word of a write -/

/-- The bridge does not take the word: it withdraws ready, and the word stays with the master (01 R11, 07 R115). -/
def State.holdWord (s : State) (c : HoldCause) (w : Word) : State :=
  (s.hold c).setLink { (s.hold c).link with presented := some w }

/-- A word of an attribute write is buffered, or cut at the extent's end (R123). -/
def State.offerAttr (s : State) (w : Word) : State :=
  if s.link.bound ≤ s.link.offset + s.link.count then s.bridgeStop none true
  else s.setLink { s.link.move w with attrBuf := s.link.attrBuf ++ [w] }

/-- A word of a DIRECT write goes to the collecting span, which is handed over when it is full and no request waits; a full span that
waits behind an ungranted request makes the bridge pause (06 R105). -/
def State.offerDirect (s : State) (w : Word) : State :=
  if Config.spanWords ≤ s.link.collecting.length then s.holdWord .direct w
  else
    let s1 := s.setLink { s.link.move w with collecting := s.link.collecting ++ [w] }
    if s1.link.collecting.length = Config.spanWords ∧ s1.port.waitDirect = [] then s1.handCollecting else s1

/-- Some CLOSED or APPLYING record holds a chunk (01 R11). -/
def State.chunksReturn (s : State) : Bool := s.anyRecord fun r => r.leaving && !r.chunks.isEmpty

/-- A word for record r: a slot-opening word that finds the pool empty pauses the bridge or stops the burst, and any other is taken
(01 R10 to R12). -/
def State.offerRecord (s : State) (r : Nat) (w : Word) : State :=
  if (s.record r).wordCount % Config.chunkWords = 0 ∧ s.staging.pool = [] then
    (if s.chunksReturn then s.holdWord .chunks w else s.bridgeStop (some .stagingExhausted) false)
  else (s.setStaging (s.staging.take r w)).setLink (s.link.move w)

/-- A word of a staged write: the first word of a record-less burst claims a record first, pauses for one or stops the burst (01 R9). -/
def State.offerStaged (s : State) (w : Word) : State :=
  match s.link.record with
  | some r => s.offerRecord r w
  | none =>
    match s.freeRecordNo with
    | some r => (s.claimRecord r).offerRecord r w
    | none => if s.anyRecord BurstRecord.leaving then s.holdWord .record w else s.bridgeStop (some .stagingExhausted) false

/-- A presented word of a write that the bridge does not hold: taken, held back, or the cause of a stop (R115, R118). -/
def State.offer (s : State) (w : Word) : State :=
  if s.link.isAttr then s.offerAttr w
  else if s.link.fullClose then s.bridgeStop (some .refusedGroupFull) false
  else if s.link.bound ≤ s.link.start + s.link.count then s.bridgeStop none true
  else if s.link.mode = .direct then s.offerDirect w
  else s.offerStaged w

/-- The master strobes a word: it no longer holds the transfer. While the bridge holds it, the word stays with the master. -/
def State.strobe (s : State) (w : Word) : State :=
  if s.link.st = .streaming ∧ !s.link.isRead then
    if s.link.bridgeHold.isSome then s.setLink { s.link with presented := some w, masterHold := false }
    else (s.setLink { s.link with masterHold := false, stall := none }).offer w
  else s

/-- WRITE_DATA_WORD (01 R10, 07 R115). -/
def execWriteDataWord (w : Word) (s : State) : Host.Outcome State Fault Refusal := .next (s.strobe w)

/-- The cause of a write's bridge pause has cleared: a record is FREE, the pool has a chunk, or the collecting span has room (01 R9, R11,
06 R105). -/
def State.causeCleared (s : State) : HoldCause → Bool
  | .record => s.freeRecordNo.isSome
  | .chunks => !s.staging.pool.isEmpty
  | .direct => s.link.collecting.length < Config.spanWords
  | .span => false

/-- The bridge takes the presented word and restores ready; without one, the master holds the transfer and its stall timer starts
(01 R9, R11, 07 R115). Model's choice: without a presented word no record is claimed and no chunk taken until a word is presented again
(log 39). -/
def State.restoreReady (s : State) : State :=
  match s.link.bridgeHold with
  | some c =>
    if s.link.st = .streaming ∧ s.causeCleared c then
      match s.link.presented with
      | some w => (s.setLink { s.link with bridgeHold := none, presented := none }).offer w
      | none => s.setLink { s.link with bridgeHold := none, masterHold := true, stall := some s.ctrl.stallLimit }
    else s
  | none => s

/-- RESTORE_READY (01 R11). -/
def execRestoreReady (s : State) : Host.Outcome State Fault Refusal := .next s.restoreReady

/-! ### A word of a read -/

/-- A word is strobed to the ready master: it is driven, fed and counted, and the stall timer stops (07 R115, R116). -/
def State.sendWord (s : State) (w : Word) : State :=
  (s.setOut { s.out with data := some w }).setLink { s.link.move w with masterHold := false, stall := none }

/-- After a word of a common read: a span wholly sent frees its slot, further spans are issued and streaming reaches the next one
(05 R90, R92). The extent's end makes the bridge's stop due (05 R91; log 37). -/
def State.afterWord (s : State) (n : Nat) : State :=
  if s.link.exhausted ∨ s.link.count % Config.spanWords = 0 then (s.updSpan n fun _ => {}).issueSpans.reachSpan
  else s

/-- The next word of a common read, from the slot in SENDING (05 R90). -/
def State.readCommon (s : State) : State :=
  match s.spanNo (s.link.count / Config.spanWords) with
  | some n =>
    if (s.span n).st = .sending then
      (s.sendWord ((s.span n).words.getD (s.link.count % Config.spanWords) 0)).afterWord n
    else s
  | none => s

/-- The next word of an attribute read's image (R124). -/
def State.readAttr (s : State) : State := s.sendWord (s.link.attrImage.getD s.link.count 0)

/-- The next word of a read that the bridge does not hold; where none is left to send, the bridge requests stop (05 R91, R124). -/
def State.readWordOut (s : State) : State :=
  if s.link.st = .streaming ∧ s.link.isRead ∧ s.link.bridgeHold = none then
    if s.link.exhausted then s.requestDue else if s.link.isAttr then s.readAttr else s.readCommon
  else s

/-- READ_DATA_WORD (05 R90). -/
def execReadDataWord (s : State) : Host.Outcome State Fault Refusal := .next s.readWordOut

/-! ### Pauses and stops by the master -/

/-- The master holds the transfer: it withdraws a presented word or its ready, and unless the bridge holds the transfer too the stall
timer starts (R115, R116). -/
def State.masterPause (s : State) : State :=
  if s.link.st = .streaming then
    if s.link.masterHold then s
    else
      s.setLink { s.link with
        masterHold := true, presented := none, stall := if s.link.bridgeHold.isSome then none else some s.ctrl.stallLimit }
  else s

/-- MASTER_PAUSE (R116): the bridge's stop of a read that is due comes first. -/
def execMasterPause (s : State) : Host.Outcome State Fault Refusal := .next s.requestDue.masterPause

/-- The master's acknowledge of the bridge's stop request (R118). -/
def State.acknowledge (s : State) : State := if s.link.st = .stopping then s.enterChecking else s

/-- The master's stop request: in STREAMING it ends the data phase and the bridge acknowledges; in STOPPING it is taken as the
acknowledge of the bridge's own request (R116, R117). In STREAMING it is taken before a stop of the bridge that is due (05 R91; log 37). -/
def State.masterStop (s : State) : State := if s.link.st = .streaming then s.endData.enterChecking else s.acknowledge

/-- MASTER_STOP (R117). -/
def execMasterStop (s : State) : Host.Outcome State Fault Refusal := .next s.masterStop

/-- MASTER_ACKNOWLEDGE (R118), of a request that the bridge makes now if it is due. -/
def execMasterAcknowledge (s : State) : Host.Outcome State Fault Refusal := .next s.requestDue.acknowledge

end Sys2Proof.Machine
end

