-- ==== Sys2Proof/Machine/Checking.lean ====
section
/-! DEFINITION. The end of a burst and the timers (spec/07 R116, R119 to R123, spec/02 R38): the commands CHECK_WORD, CHECK_REPLY,
STALL_TIMER_EXPIRY, HANDSHAKE_TIMER_EXPIRY and GROUP_IDLE_EXPIRY. -/

namespace Sys2Proof.Machine

/-- The bridge waits in CHECKING for the master's check word or check reply. -/
def Link.awaitsCheck (l : Link) : Bool := l.st == .checking && l.handshake.isSome

/-- An attribute write whose verdict is GOOD or CUT applies its words, and the verdict becomes CONFIG_REFUSED if one was refused
(R123). -/
def State.finishAttrWrite (s : State) (v : Verdict) : State :=
  let s1 := s.applyWords s.link.offset s.link.attrBuf
  s1.driveReceipt (if s1.link.attrRefused then .configRefused else v) false

/-- The end of a write whose data did not go by the DIRECT path, by its kind and settled verdict (R119). -/
def State.finishWrite (s : State) (v : Verdict) : State :=
  if s.link.isAttr then
    (if v = .good ∨ v = .cut then s.finishAttrWrite v else observe (fun x => x.finishPlain v) s)
  else observe (fun x => x.finishStaged v) s

/-- The check exchange of a DIRECT write is over; its receipt waits for its requests (06 R106). -/
def State.exchangeDone (s : State) (x : Exchange) : State :=
  (s.setLink { s.link with st := .checking, handshake := none, exchange := x }).settleDirect

/-- The master's check word for a write, compared whole with the running check (R119, R173). -/
def State.takeCheck (s : State) (w : Word) : State :=
  if s.link.awaitsCheck ∧ !s.link.isRead then
    let matched := w == s.link.check
    if s.link.directWrite then observe (fun x => x.exchangeDone (if matched then .matched else .mismatched)) s
    else s.finishWrite (s.link.settle matched)
  else s

/-- CHECK_WORD (R119). -/
def execCheckWord (w : Word) (s : State) : Host.Outcome State Fault Refusal := .next (s.takeCheck w)

/-- The master's check reply on a read (R120, R173). -/
def State.takeReply (s : State) (w : Word) : State :=
  if s.link.awaitsCheck ∧ s.link.isRead then observe (fun x => x.finishPlain (s.link.settle (replyMatches w))) s else s

/-- CHECK_REPLY (R120). -/
def execCheckReply (w : Word) (s : State) : Host.Outcome State Fault Refusal := .next (s.takeReply w)

/-- The running stall timer reaches its limit: before header word 1 the opening is abandoned with its receipt, and while streaming the
bridge requests stop (R112, R116). -/
def State.stallExpired (s : State) : State :=
  if s.link.stall.isSome then
    if s.link.st = .opening then s.driveReceipt .stallTimeout false
    else if s.link.st = .streaming then s.bridgeStop (some .stallTimeout) false
    else s
  else s

/-- STALL_TIMER_EXPIRY (R116). -/
def execStallTimerExpiry (s : State) : Host.Outcome State Fault Refusal := .next s.stallExpired

/-- The running handshake timer reaches its limit: the exchange is abandoned with the pending verdict, or HANDSHAKE_TIMEOUT, and the
work of that verdict is made; a DIRECT write waits for its completions first (R121, 06 R106). -/
def State.handshakeExpired (s : State) : State :=
  if s.link.handshake.isSome ∧ (s.link.st = .stopping ∨ s.link.st = .checking) then
    let v := s.link.pendVerdict.getD .handshakeTimeout
    if s.link.directWrite then observe (fun x => x.exchangeDone .timedOut) s
    else if s.link.stagedWrite then observe (fun x => x.finishStaged v) s
    else s.driveReceipt v false
  else s

/-- HANDSHAKE_TIMER_EXPIRY (R121), which the bridge's stop of a read that is due precedes. -/
def execHandshakeTimerExpiry (s : State) : Host.Outcome State Fault Refusal := .next s.requestDue.handshakeExpired

/-- The running idle timer of slot n reaches its limit: its group is rejected with cause IDLE_EXPIRY (02 R38). -/
def State.idleExpired (n : Nat) (s : State) : State :=
  if (s.slot n).openExplicit ∧ (s.slot n).timer.isSome then s.rejectGroup n (bareError .idleExpiry) else s

/-- GROUP_IDLE_EXPIRY (02 R38). -/
def execGroupIdleExpiry (n : Fin 8) (s : State) : Host.Outcome State Fault Refusal := .next (observe (State.idleExpired n.val) s)

end Sys2Proof.Machine
end

