-- ==== Sys2Proof/Machine/AttributeRows.lean ====
section
/-! DEFINITION. The commands whose row is an attribute word (spec/12 R174, R175): each is the whole attribute write burst of that one
word, with tag 0 and a matching check word (log 4), and HOLD and HOLD_RELEASE the move that follows the receipt as well. -/

namespace Sys2Proof.Machine

/-- Header word 0 of an attribute write with tag 0 (12.1). -/
def attrHeader : Word := 0x20

/-- The attribute write burst of one word: opening, data word, the master's stop and its check word. It is sent when header word 0 can be
taken, and otherwise nothing happens (log 4). -/
def State.attrWrite (s : State) (o : Nat) (w : Word) : State :=
  if s.pins.resetN ∧ s.link.st = .idle then
    let s1 := ((s.takeHeader attrHeader).takeOpening (wordOf o)).strobe w
    let s2 := s1.masterStop
    s2.takeCheck s2.link.check
  else s

/-- ATTRIBUTE_WORD_WRITE (R174). -/
def execAttributeWordWrite (o : BitVec 8) (w : Word) (s : State) : Host.Outcome State Fault Refusal := .next (s.attrWrite o.toNat w)

/-- ARM (10 R156). -/
def execArm (w : Word) (s : State) : Host.Outcome State Fault Refusal := .next (s.attrWrite 0x40 w)

/-- DRAIN (10 R157). -/
def execDrain (w : Word) (s : State) : Host.Outcome State Fault Refusal := .next (s.attrWrite 0x40 w)

/-- DEFAULT_MODE_WRITE (06 R98, 10 R153). -/
def execDefaultModeWrite (w : Word) (s : State) : Host.Outcome State Fault Refusal := .next (s.attrWrite 0x40 w)

/-- ATTN_CONTROL_WRITE (09 R147, 10 R153). -/
def execAttnControlWrite (w : Word) (s : State) : Host.Outcome State Fault Refusal := .next (s.attrWrite 0x40 w)

/-- HOLD (10 R152, R153): a hold that is due takes effect; when none is due, the burst that writes the word is sent first. -/
def execHold (w : Word) (s : State) : Host.Outcome State Fault Refusal :=
  .next (if s.ctrl.holdDue = some .hold then s.takeHold else (s.attrWrite 0x40 w).takeHold)

/-- HOLD_RELEASE (10 R151, R153): a release that is due takes effect; when none is due, the burst that writes the word is sent first. -/
def execHoldRelease (w : Word) (cap jrn : BitVec 2) (s : State) : Host.Outcome State Fault Refusal :=
  .next (if s.ctrl.holdDue = some .release then s.takeRelease cap jrn else (s.attrWrite 0x40 w).takeRelease cap jrn)

/-- The offset of a limit word (12.2). -/
def limitOffset : LimitName → Nat
  | .stall => 0x48
  | .handshake => 0x49
  | .groupIdle => 0x4A

/-- LIMIT_WRITE (10 R155). -/
def execLimitWrite (which : LimitName) (w : Word) (s : State) : Host.Outcome State Fault Refusal :=
  .next (s.attrWrite (limitOffset which) w)

/-- REGION_TABLE_WRITE (06 R97). -/
def execRegionTableWrite (i : Fin 16) (w : Word) (s : State) : Host.Outcome State Fault Refusal := .next (s.attrWrite (0x80 + i.val) w)

/-- CHANGED_FLAGS_WRITE (09 R146). -/
def execChangedFlagsWrite (w : Word) (s : State) : Host.Outcome State Fault Refusal := .next (s.attrWrite 0x45 w)

/-- ATTENTION_ENABLE_WRITE (09 R146). -/
def execAttentionEnableWrite (w : Word) (s : State) : Host.Outcome State Fault Refusal := .next (s.attrWrite 0x46 w)

/-- OUTCOME_ACK (09 R140). -/
def execOutcomeAck (w : Word) (s : State) : Host.Outcome State Fault Refusal := .next (s.attrWrite 0x59 w)

end Sys2Proof.Machine
end

