-- ==== Sys2Proof/Machine/Port.lean ====
section
/-! DEFINITION. The Memory Port (spec/08): the arbiter's grant and the routing of completions. The commands ARBITER_GRANT,
DISCARDED_COMPLETION and every completion. -/

namespace Sys2Proof.Machine

/-! ### The arbiter (R129, R130) -/

/-- A requester is eligible: it has a waiting request and, for READ, fewer than 4 READ entries are outstanding (R130). -/
def State.eligible (s : State) : Requester → Bool
  | .read =>
    !s.port.waitRead.isEmpty &&
      decide ((s.port.outstanding.filter fun o => o.requester == .read).length < Config.maxReadOutstanding)
  | .direct => !s.port.waitDirect.isEmpty
  | .commit => !s.port.waitCommit.isEmpty
  | .anchor => s.port.waitAnchor && s.journal.inFlight.isSome
  | .apply => !s.port.waitApply.isEmpty
  | .recovery => s.port.waitRecovery.isSome

/-- The requesters in the order the search visits them after the one last granted (R130). -/
def rotation : Requester → List Requester
  | .read => [.direct, .commit, .anchor, .apply, .recovery, .read]
  | .direct => [.commit, .anchor, .apply, .recovery, .read, .direct]
  | .commit => [.anchor, .apply, .recovery, .read, .direct, .commit]
  | .anchor => [.apply, .recovery, .read, .direct, .commit, .anchor]
  | .apply => [.recovery, .read, .direct, .commit, .anchor, .apply]
  | .recovery => [.read, .direct, .commit, .anchor, .apply, .recovery]

/-- A request granted and issued in one event: appended to the list, with the pointer at its requester (R128, R130). -/
def State.issue (s : State) (r : Requester) (q : Request) (role : Role) : State :=
  (s.setPort { s.port with
    outstanding := s.port.outstanding ++
      [{ requester := r, kind := q.kind, addr := q.addr, len := q.len, disposition := .take, role := role }],
    pointer := r }).setOut { s.out with issued := some q }

/-- A write request of some words. -/
def writeReq (addr : Nat) (ws : List Word) : Request := { kind := .write, addr := addr, len := ws.length, words := ws }

/-- The oldest READ request granted (05 R86). -/
def State.grantRead (s : State) : State :=
  match s.port.waitRead with
  | n :: rest =>
    (s.setPort { s.port with waitRead := rest }).issue .read
      { kind := .read, addr := (s.span n).base, len := (s.span n).len, words := [] } (.span n)
  | [] => s

/-- The oldest DIRECT request granted; a full collecting span that waited behind it is handed over (06 R105). -/
def State.grantDirect (s : State) : State :=
  match s.port.waitDirect with
  | d :: rest =>
    let s1 := (s.setPort { s.port with waitDirect := rest }).issue .direct (writeReq d.addr d.words) .direct
    if s1.link.st = .streaming ∧ s1.link.collecting.length = Config.spanWords ∧ rest = [] then s1.handCollecting else s1
  | [] => s

/-- The oldest COMMIT request granted: its words are built, and those of header and data requests feed the entry check (04 R66). A skip
write needs no unit in hand. -/
def State.grantCommit (s : State) : State :=
  match s.port.waitCommit with
  | c :: rest =>
    let u := s.inHand.getD { owner := .guarded 0, closeNo := 0, stage := .closed, seq := none, start := none, len := none, progress := none }
    let ws := s.commitWords u c
    let s1 := (s.setPort { s.port with waitCommit := rest }).issue .commit
      (writeReq (s.straps.blockAddr (c.place u).1 + (c.place u).2) ws) c.role
    if c.checked then s1.setCommit { s1.commit with entryCheck := checkFeed s1.commit.entryCheck ws } else s1
  | [] => s

/-- The waiting anchor write granted (03 R56, R57). -/
def State.grantAnchor (s : State) : State :=
  match s.journal.inFlight with
  | some a =>
    (s.setPort { s.port with waitAnchor := false }).issue .anchor
      (writeReq (s.straps.blockAddr a.copy.val) (anchorWords a.generation a.head a.headSeq)) .anchor
  | none => s

/-- The oldest APPLY request granted, counted in the front unit's progress (04 R72). -/
def State.grantApply (s : State) : State :=
  match s.port.waitApply with
  | a :: rest =>
    let x := s.record a.record
    let s1 := (s.setPort { s.port with waitApply := rest }).issue .apply
      (writeReq (x.start + a.off) ((List.range a.len).map fun i => s.staging.word x (a.off + i))) .run
    s1.updFront fun u => { u with progress := u.progress.map fun p => { p with issued := p.issued + 1 } }
  | [] => s

/-- The waiting RECOVERY request granted (11 R163). -/
def State.grantRecovery (s : State) : State :=
  match s.port.waitRecovery with
  | some r => (s.setPort { s.port with waitRecovery := none }).issue .recovery r.req r.role
  | none => s

/-- The oldest waiting request of a requester granted. -/
def State.grantTo (s : State) : Requester → State
  | .read => s.grantRead
  | .direct => s.grantDirect
  | .commit => s.grantCommit
  | .anchor => s.grantAnchor
  | .apply => s.grantApply
  | .recovery => s.grantRecovery

/-- One grant: with room in the list, outside HALTED and with RESET_N high, the first eligible requester of the rotation (R130, R133,
R134). -/
def State.arbitrate (s : State) : State :=
  if s.pins.resetN ∧ s.ctrl.opState ≠ .halted ∧ s.port.outstanding.length < Config.maxOutstanding then
    match (rotation s.port.pointer).find? s.eligible with
    | some r => s.grantTo r
    | none => s
  else s

/-- ARBITER_GRANT (R130). -/
def execArbiterGrant (s : State) : Host.Outcome State Fault Refusal := .next s.arbitrate

/-! ### Completions (R127, R131) -/

/-- The oldest entry removed, if `p` holds of it, and the rest of the step; otherwise the completion answers no request (R127, R128). -/
def State.withHead (s : State) (p : Outstanding → Bool) (k : Outstanding → State → State) : Host.Outcome State Fault Refusal :=
  match s.port.outstanding with
  | o :: rest =>
    if p o then .next (observe (fun t => k o (t.setPort { t.port with outstanding := rest })) s) else .fault .noSuchRequest
  | [] => .fault .noSuchRequest

/-- The entry is one to take for a role (R128, R131). -/
def Outstanding.isFor (o : Outstanding) (r : Role) : Bool := o.role == r && o.disposition == .take

/-- A completion of a write with this role: `done` on OK, the downstream error report and then `lost` on ERROR (R131, R132). -/
def State.writeCompletion (s : State) (r : Role) (st : Status) (done lost : State → State) : Host.Outcome State Fault Refusal :=
  s.withHead (fun o => o.isFor r) fun o t =>
    match st with
    | .ok => done t
    | .error => lost (t.errorReport o)

/-- The words of an OK completion are as many as the request's (R127). -/
def Outstanding.fits (o : Outstanding) (c : Completion) : Bool :=
  match c with
  | .ok ws => ws.length == o.len
  | .error => true

/-- SKIP_COMPLETION (03 R52). -/
def execSkipCompletion (st : Status) (s : State) : Host.Outcome State Fault Refusal :=
  s.writeCompletion .skip st State.skipDone id

/-- COMMIT_REQUEST_COMPLETION (04 R66, R68). -/
def execCommitRequestCompletion (st : Status) (s : State) : Host.Outcome State Fault Refusal :=
  s.writeCompletion .entry st State.entryDone id

/-- MARK_COMPLETION (04 R67 to R69, R76). -/
def execMarkCompletion (st : Status) (s : State) : Host.Outcome State Fault Refusal :=
  s.writeCompletion .mark st State.markDone State.markLost

/-- APPLY_COMPLETION (04 R73, R75). -/
def execApplyCompletion (st : Status) (s : State) : Host.Outcome State Fault Refusal :=
  s.writeCompletion .run st State.applyDone id

/-- An anchor write that completes with ERROR is no longer in flight; the pointers keep their values (03 R59; log 30). -/
def State.anchorLost (s : State) : State := s.setJournal { s.journal with inFlight := none }

/-- ANCHOR_COMPLETION (03 R58, R59, R60). -/
def execAnchorCompletion (st : Status) (s : State) : Host.Outcome State Fault Refusal :=
  s.writeCompletion .anchor st State.anchorDone State.anchorLost

/-- DIRECT_SPAN_COMPLETION (06 R106, R107). -/
def execDirectSpanCompletion (st : Status) (s : State) : Host.Outcome State Fault Refusal :=
  s.writeCompletion .direct st State.settleDirect State.settleDirect

/-- What a slot becomes at its completion: a FILLING one is filled, or FAILED on ERROR, and a DISCARDING one is FREE (05 R87, R91, R92). -/
def SpanSlot.complete (x : SpanSlot) (c : Completion) : SpanSlot :=
  match x.st with
  | .filling =>
    match c with
    | .ok ws => x.fill ws
    | .error => { x with st := .failed }
  | .discarding => {}
  | _ => x

/-- A completion for a slot of the Read Assembly: the slot acts on it, and an ERROR is reported as READ_FAULT (05 R87, R91, R92); then
spans are issued into slots that are FREE, and streaming goes on if it waited. -/
def State.spanCompleted (s : State) (n : Nat) (c : Completion) : State :=
  ((s.updSpan n fun x => x.complete c).reportIf (c == .error) .readFault).issueSpans.reachSpan

/-- The slot of a span request. -/
def Role.spanNo : Role → Option Nat
  | .span n => some n
  | _ => none

/-- READ_SPAN_COMPLETION (05 R87, R92). -/
def execReadSpanCompletion (c : Completion) (s : State) : Host.Outcome State Fault Refusal :=
  s.withHead (fun o => o.role.spanNo.isSome && o.disposition == .take && o.fits c) fun o t => t.spanCompleted (o.role.spanNo.getD 0) c

/-- DISCARDED_COMPLETION (R134): the entry is removed and the completion dropped, OK or ERROR, whatever words it carries. -/
def execDiscardedCompletion (_ : Completion) (s : State) : Host.Outcome State Fault Refusal :=
  match s.port.outstanding with
  | o :: rest =>
    if o.disposition = .discard then .next (s.setPort { s.port with outstanding := rest }) else .fault .noSuchRequest
  | [] => .fault .noSuchRequest

/-- A completion of a read with this role for recovery: `done` with the words on OK, the downstream error report on ERROR (11 R172). -/
def State.readCompletion (s : State) (r : Role) (c : Completion) (done : List Word → State → State) : Host.Outcome State Fault Refusal :=
  s.withHead (fun o => o.isFor r && o.fits c) fun o t =>
    match c with
    | .ok ws => done ws t
    | .error => t.errorReport o

/-- RECOVERY_ANCHOR_READ_COMPLETION (11 R164, R165). -/
def execRecoveryAnchorReadCompletion (c : Completion) (s : State) : Host.Outcome State Fault Refusal :=
  s.readCompletion .recAnchorRead c State.recAnchorRead

/-- RECOVERY_READ_COMPLETION (11 R166, R167). -/
def execRecoveryReadCompletion (c : Completion) (s : State) : Host.Outcome State Fault Refusal :=
  s.readCompletion .recRead c State.recRead

/-- RECOVERY_REPLAY_WRITE_COMPLETION (11 R168). -/
def execRecoveryReplayWriteCompletion (st : Status) (s : State) : Host.Outcome State Fault Refusal :=
  s.writeCompletion .recReplay st State.recReplayed id

/-- RECOVERY_ANCHOR_WRITE_COMPLETION (11 R171). -/
def execRecoveryAnchorWriteCompletion (st : Status) (s : State) : Host.Outcome State Fault Refusal :=
  s.writeCompletion .recAnchorWrite st State.recAnchorWritten id

end Sys2Proof.Machine
end

