-- ==== Sys2Proof/Machine/Dispatch.lean ====
section
/-! DEFINITION. Every command's meaning, one arm per row of spec/opcode_table.json. -/

namespace Sys2Proof.Machine

/-- The effect of a command on everything but the queue of commands. -/
def exec (i : Instr) (s : State) : Host.Outcome State Fault Refusal :=
  match i with
  | .headerWord0 w => Sys2Proof.Machine.execHeaderWord0 w s
  | .opening w => Sys2Proof.Machine.execOpening w s
  | .withheldAnswer => Sys2Proof.Machine.execWithheldAnswer s
  | .writeDataWord w => Sys2Proof.Machine.execWriteDataWord w s
  | .restoreReady => Sys2Proof.Machine.execRestoreReady s
  | .readDataWord => Sys2Proof.Machine.execReadDataWord s
  | .masterPause => Sys2Proof.Machine.execMasterPause s
  | .masterStop => Sys2Proof.Machine.execMasterStop s
  | .masterAcknowledge => Sys2Proof.Machine.execMasterAcknowledge s
  | .checkWord w => Sys2Proof.Machine.execCheckWord w s
  | .checkReply w => Sys2Proof.Machine.execCheckReply w s
  | .stallTimerExpiry => Sys2Proof.Machine.execStallTimerExpiry s
  | .handshakeTimerExpiry => Sys2Proof.Machine.execHandshakeTimerExpiry s
  | .groupIdleExpiry n => Sys2Proof.Machine.execGroupIdleExpiry n s
  | .attributeWordWrite o w => Sys2Proof.Machine.execAttributeWordWrite o w s
  | .arm w => Sys2Proof.Machine.execArm w s
  | .drain w => Sys2Proof.Machine.execDrain w s
  | .drainComplete => Sys2Proof.Machine.execDrainComplete s
  | .hold w => Sys2Proof.Machine.execHold w s
  | .holdRelease w cap jrn => Sys2Proof.Machine.execHoldRelease w cap jrn s
  | .defaultModeWrite w => Sys2Proof.Machine.execDefaultModeWrite w s
  | .attnControlWrite w => Sys2Proof.Machine.execAttnControlWrite w s
  | .limitWrite which w => Sys2Proof.Machine.execLimitWrite which w s
  | .regionTableWrite index w => Sys2Proof.Machine.execRegionTableWrite index w s
  | .changedFlagsWrite w => Sys2Proof.Machine.execChangedFlagsWrite w s
  | .attentionEnableWrite w => Sys2Proof.Machine.execAttentionEnableWrite w s
  | .outcomeAck w => Sys2Proof.Machine.execOutcomeAck w s
  | .outcomePost => Sys2Proof.Machine.execOutcomePost s
  | .commitTakeUnit => Sys2Proof.Machine.execCommitTakeUnit s
  | .blockGrant => Sys2Proof.Machine.execBlockGrant s
  | .arbiterGrant => Sys2Proof.Machine.execArbiterGrant s
  | .skipCompletion st => Sys2Proof.Machine.execSkipCompletion st s
  | .commitRequestCompletion st => Sys2Proof.Machine.execCommitRequestCompletion st s
  | .markCompletion st => Sys2Proof.Machine.execMarkCompletion st s
  | .applyTakeUnit => Sys2Proof.Machine.execApplyTakeUnit s
  | .applyCompletion st => Sys2Proof.Machine.execApplyCompletion st s
  | .anchorCompletion st => Sys2Proof.Machine.execAnchorCompletion st s
  | .readSpanCompletion c => Sys2Proof.Machine.execReadSpanCompletion c s
  | .directSpanCompletion st => Sys2Proof.Machine.execDirectSpanCompletion st s
  | .discardedCompletion c => Sys2Proof.Machine.execDiscardedCompletion c s
  | .hardReset => Sys2Proof.Machine.execHardReset s
  | .resetRelease cap jrn => Sys2Proof.Machine.execResetRelease cap jrn s
  | .pwarnAssert => Sys2Proof.Machine.execPwarnAssert s
  | .pwarnDeassert => Sys2Proof.Machine.execPwarnDeassert s
  | .recoveryAnchorReadCompletion c => Sys2Proof.Machine.execRecoveryAnchorReadCompletion c s
  | .recoveryReadCompletion c => Sys2Proof.Machine.execRecoveryReadCompletion c s
  | .recoveryReplayWriteCompletion st => Sys2Proof.Machine.execRecoveryReplayWriteCompletion st s
  | .recoveryAnchorWriteCompletion st => Sys2Proof.Machine.execRecoveryAnchorWriteCompletion st s
  | .attnPulseEnd => Sys2Proof.Machine.execAttnPulseEnd s

end Sys2Proof.Machine
end

