-- ==== Sys2Proof/Safety.lean ====
section
/-! DEFINITION. What every step keeps: the invariants that the statements name, each with the rule it stands for. -/

namespace Sys2Proof.Machine

/-- The staging data store is in its one form (log 7). -/
abbrev State.storeOk (s : State) : Prop := ramWf s.staging.ram = true

/-- The chunks of a Burst Table, record by record. -/
def chunksHeld (rs : List BurstRecord) : List Nat := rs.flatMap BurstRecord.chunks

/-- 01 R3 and R4: the chunks in the pool and on the chunk lists of all records are the 256 chunks, each exactly once, and a FREE record
holds none. -/
abbrev State.chunksOk (s : State) : Prop :=
  (s.staging.pool ++ chunksHeld s.staging.records).Perm (List.range Config.chunks) ∧
  ∀ r ∈ s.staging.records, r.st = .free → r.chunks = []

/-- The tables have the fixed numbers of entries: 32 records (01 R4), 8 slots (02 R20), 15 tags (02 R21), 4 span slots (05 R85) and 8
region entries (06 R96). -/
abbrev State.tablesOk (s : State) : Prop :=
  s.staging.records.length = Config.records ∧ s.groups.slots.length = Config.slots ∧ s.groups.tags.length = Config.tags ∧
  s.reads.slots.length = Config.readSlots ∧ s.region.entries.length = Config.regionEntries

/-- At most 8 requests are outstanding, at most 4 of them READ (08 R128, R130), and the Outcome Queue holds at most 16 records
(09 R139). -/
abbrev State.boundsOk (s : State) : Prop :=
  s.port.outstanding.length ≤ Config.maxOutstanding ∧
  (s.port.outstanding.filter fun o => o.requester == .read).length ≤ Config.maxReadOutstanding ∧
  s.outcomes.queue.length ≤ Config.outcomeDepth

/-- The limits hold values of their ranges (10 R155), and the further-faults count stops at 65,535 (10 R160). -/
def State.limitsOk (s : State) : Prop :=
  (1 ≤ s.ctrl.stallLimit ∧ s.ctrl.stallLimit ≤ 1023) ∧ (1 ≤ s.ctrl.handshakeLimit ∧ s.ctrl.handshakeLimit ≤ 1023) ∧
  s.ctrl.idleLimit ≤ 65535 ∧ ∀ f, s.ctrl.fault = some f → f.further ≤ Config.maxFurtherFaults

/-- 09 R147: ATTN is deasserted while ATTN_ON is 0, and in level mode with ATTN_ON set it is asserted exactly when some Changed flag and
its enable are both set. -/
abbrev State.attnOk (s : State) : Prop :=
  (s.ctrl.attnOn = false → s.attn.line = false) ∧
  (s.ctrl.attnOn = true → s.ctrl.attnMode = .level → s.attn.line = s.attn.raised)

/-- Slot `x` of the Read Assembly holds no span of a burst being served (05 R85). -/
abbrev SpanSlot.atRest (x : SpanSlot) : Prop := x.st = .free ∨ x.st = .discarding

/-- 07 R110, R122, R123 and 05 R91: the link holds nothing in IDLE, a receipt is driven within the step that ends its burst, no written
HOLD field is left once it has been, and outside the streaming of a common read every slot of the Read Assembly is FREE or DISCARDING. -/
def State.linkOk (s : State) : Prop :=
  (s.link.st = .idle → s.link = {}) ∧ s.link.st ≠ .receipt ∧ s.ctrl.holdWritten = none ∧
  ((s.link.st = .streaming ∧ s.link.commonRead = true) ∨ ∀ x ∈ s.reads.slots, x.atRest)

/-- A step that answers a next state keeps `P`. -/
def Keeps (P : State → Prop) : Prop := ∀ s t, P s → step s = .next t → P t

end Sys2Proof.Machine
end

