-- ==== Sys2Proof/Certificates/Slice0/Obligations.lean ====
section
/-! DEFINITION. The statements for the provers, from the numbered rules of spec/. -/

namespace Sys2Proof.Machine

/-! ### Words that the statements use -/

/-- The bits of a word, most significant first. -/
def msbFirst (w : Word) : List Bool := (List.range 32).map fun i => w.getLsbD (31 - i)

/-- The entry that a completion command answers: the kind of its role, with disposition TAKE and the words of a READ that is OK; a
dropped completion answers any DISCARD entry (08 R127, R131, R134). Every other command answers no request. -/
def answers (i : Instr) (o : Outstanding) : Bool :=
  match i with
  | .skipCompletion _ => o.isFor .skip
  | .commitRequestCompletion _ => o.isFor .entry
  | .markCompletion _ => o.isFor .mark
  | .applyCompletion _ => o.isFor .run
  | .anchorCompletion _ => o.isFor .anchor
  | .directSpanCompletion _ => o.isFor .direct
  | .readSpanCompletion c => o.role.spanNo.isSome && o.disposition == .take && o.fits c
  | .discardedCompletion _ => o.disposition == .discard
  | .recoveryAnchorReadCompletion c => o.isFor .recAnchorRead && o.fits c
  | .recoveryReadCompletion c => o.isFor .recRead && o.fits c
  | .recoveryReplayWriteCompletion _ => o.isFor .recReplay
  | .recoveryAnchorWriteCompletion _ => o.isFor .recAnchorWrite
  | _ => true

/-- The command is a completion of a Memory Port request. -/
def isCompletion : Instr → Bool
  | .skipCompletion _ | .commitRequestCompletion _ | .markCompletion _ | .applyCompletion _ | .anchorCompletion _
  | .directSpanCompletion _ | .readSpanCompletion _ | .discardedCompletion _ | .recoveryAnchorReadCompletion _
  | .recoveryReadCompletion _ | .recoveryReplayWriteCompletion _ | .recoveryAnchorWriteCompletion _ => true
  | _ => false

/-- The oldest outstanding request is removed (08 R128). -/
def State.dropHead (s : State) : State := s.setPort { s.port with outstanding := s.port.outstanding.tail }

/-- No receipt is owed a hold or a release, and the ATTN line is as 09 R147 says (the invariants LinkKept and AttnKept). -/
abbrev calm (s : State) : Prop := s.ctrl.holdWritten = none ∧ s.attnOk

/-- An attribute write burst can be sent: RESET_N is high, the link is IDLE with nothing held, and no hold or release is due. -/
abbrev ready (s : State) : Prop := s.pins.resetN = true ∧ s.link = {} ∧ s.ctrl.holdDue = none ∧ calm s

/-- The ports after the attribute write burst of one word with tag 0 and a verdict (07 R114, R122). -/
def afterOneWord (s : State) (v : Verdict) : Outputs :=
  { s.out with answer := some .accept, receipt := some (receiptWord v 0 false 1) }

/-- The master's check word of a write is awaited: the link is in CHECKING behind both header words (07 R119). -/
abbrev checkAwaited (s : State) : Prop :=
  s.link.st = .checking ∧ s.link.handshake.isSome = true ∧ s.link.isRead = false ∧ s.link.hdr1.isSome = true

/-- The burst in progress is a GUARDED write of an explicit tag, bound for the OPEN group of slot n (02 R22). -/
abbrev explicitWrite (s : State) (n : Nat) : Prop :=
  s.link.isAttr = false ∧ s.link.mode = .guarded ∧ s.link.tag ≠ 0 ∧ s.tag s.link.tag = .opened n ∧ s.link.slot = some n ∧
  n < s.groups.slots.length ∧ (s.slot n).tag = s.link.tag

/-- From s to t the record of the burst in progress, if it holds one, is FREE, every other record is unchanged, and so is what the data
store holds (01 R14). -/
def recordFreed (s t : State) : Prop :=
  (∀ r, s.link.record = some r → t.record r = {}) ∧ (∀ k, s.link.record ≠ some k → t.record k = s.record k) ∧
  t.staging.ram = s.staging.ram

/-- From s to t the explicit group of slot n closes as one unit with members ms, the slot's other values being those of g: the next close
number is taken, slot and records are CLOSED with it, the overlay takes one entry for each member in ordinal order, the unit joins the
tail of the Commit Queue, and the group's tag is FREE (02 R29, R31, 05 R79, R80). -/
def groupCloses (s t : State) (n : Nat) (g : GroupSlot) (ms : List Nat) : Prop :=
  let c := s.groups.closeCounter
  t.overlay = s.overlay ++ ms.map (fun m =>
    { start := (s.record m).start, wordCount := (s.record m).wordCount, closeNo := c, ordinal := (s.record m).ordinal.getD 1,
      record := m }) ∧
  t.queue = s.queue ++
    [{ owner := .guarded n, closeNo := c, stage := .closed, seq := none, start := none, len := none, progress := none }] ∧
  t.slot n = { g with st := .closed, members := ms, closeNo := some c, timer := none } ∧ (∀ k, k ≠ n → t.slot k = s.slot k) ∧
  t.tag g.tag = .free ∧ (∀ x, x ≠ g.tag → t.tag x = s.tag x) ∧ t.groups.closeCounter = c + 1 ∧
  (∀ m ∈ ms, t.record m = { s.record m with st := .closed, closeNo := some c })

/-- A common-space write streams, the bridge does not hold it, and it is not a CLOSE burst to a full group. -/
abbrev writeStreams (s : State) : Prop :=
  s.link.st = .streaming ∧ s.link.isAttr = false ∧ s.link.isRead = false ∧ s.link.bridgeHold = none ∧ s.link.fullClose = false

/-- The link after a word of a write has moved (R115). -/
def wordMoved (l : Link) (w : Word) : Link :=
  { l with masterHold := false, stall := none, check := checkWord l.check w, count := l.count + 1 }

/-- The link as it enters CHECKING: the handshake timer runs, nothing is held, and the rest stays (07 R117, R118, R121). -/
def checkingLink (s : State) : Link :=
  { s.link with
    st := .checking, handshake := some s.ctrl.handshakeLimit, stall := none, bridgeHold := none, masterHold := false, presented := none }

/-- The link as the bridge requests stop (07 R118). -/
def stoppingLink (s : State) (pv : Option Verdict) (cut : Bool) : Link :=
  { s.link with
    st := .stopping, pendVerdict := pv, cut := cut, handshake := some s.ctrl.handshakeLimit, stall := none, bridgeHold := none,
    masterHold := false, presented := none }

/-- A number as a word. -/
def num (n : Nat) : Word := BitVec.ofNat 32 n

/-- A flag as a number. -/
def bit (b : Bool) : Nat := if b then 1 else 0

/-- The codes of the verdicts, of a first error's cause and of the other enumerations of the words (12.1, 12.3). -/
def verdictNo : Verdict → Nat
  | .good => 0x00 | .cut => 0x01 | .checkFail => 0x10 | .stagingExhausted => 0x11 | .stallTimeout => 0x12
  | .handshakeTimeout => 0x13 | .memoryFault => 0x14 | .stopped => 0x15 | .configRefused => 0x16 | .refusedNotReady => 0x20
  | .refusedDraining => 0x21 | .refusedStopped => 0x22 | .refusedRange => 0x23 | .refusedReadOnly => 0x24 | .refusedMode => 0x25
  | .refusedNoRecord => 0x26 | .refusedNoGroup => 0x27 | .refusedFenced => 0x28 | .refusedFormat => 0x29
  | .refusedGroupFull => 0x2A

@[inherit_doc verdictNo]
def causeNo : Cause → Nat
  | .verdict v => verdictNo v | .idleExpiry => 0x30 | .drained => 0x31

@[inherit_doc verdictNo]
def modeNo : Mode → Nat
  | .guarded => 0 | .checked => 1 | .direct => 2 | .readOnly => 3

@[inherit_doc verdictNo]
def stateNo : OpState → Nat
  | .held => 0 | .recovering => 1 | .unconfigured => 2 | .armed => 3 | .draining => 4 | .faulted => 5 | .halted => 6

@[inherit_doc verdictNo]
def refusalNo : ConfigCode → Nat
  | .none => 0 | .bothRequests => 1 | .state => 2 | .modeLocked => 3 | .tableRange => 4 | .tableOverlap => 5 | .tableLocked => 6
  | .ackMismatch => 7 | .range => 8

@[inherit_doc verdictNo]
def outcomeNo : OutcomeVerdict → Nat
  | .durable => 1 | .rejected => 2 | .abandoned => 3

@[inherit_doc verdictNo]
def statusNo : RecStatus → Nat
  | .none => 0 | .running => 1 | .complete => 2 | .faulted => 3 | .halted => 4

@[inherit_doc verdictNo]
def reasonNo : EndReason → Nat
  | .none => 0 | .formatted => 1 | .clean => 2 | .torn => 3 | .mismatch => 4 | .limit => 5

@[inherit_doc verdictNo]
def requesterNo : Requester → Nat
  | .read => 0 | .direct => 1 | .commit => 2 | .anchor => 3 | .apply => 4 | .recovery => 5

/-- From s to t every span of a common read is discarded (05 R91): a slot whose request is outstanding is DISCARDING, every other one that
held a span is FREE, and no request waits. -/
def spansDropped (s t : State) : Prop :=
  t.reads.nextSpan = 0 ∧ t.port.waitRead = [] ∧
  ∀ k, t.span k =
    if (s.span k).st = .free ∨ (s.span k).st = .discarding then s.span k
    else if (s.span k).st = .filling ∧ k ∉ s.port.waitRead then { s.span k with st := .discarding } else {}

/-- From s to t a burst leaves its data phase with the link `l` and the ports `o`, and nothing else changes but the spans of a common read,
which are discarded (05 R91). -/
def dataEnds (s t : State) (l : Link) (o : Outputs) : Prop :=
  t = { s with link := l, out := o, reads := t.reads, port := { s.port with waitRead := t.port.waitRead } } ∧
  if s.link.commonRead = true then spansDropped s t else t.reads = s.reads ∧ t.port.waitRead = s.port.waitRead

/-- Every word of the extent of a read has been sent (05 R91, 07 R124). -/
abbrev extentSent (s : State) : Prop :=
  s.link.bound ≤ (if s.link.isAttr = true then s.link.offset else s.link.start) + s.link.count

/-- The bridge's stop of a read is due: its extent has been sent (05 R91; log 37). -/
abbrev stopDue (s : State) : Prop := s.link.st = .streaming ∧ s.link.isRead = true ∧ extentSent s

/-- What the Attention Unit makes of a step from s to t that reports `events`: every event and every changed live condition sets its flag,
the enables stay, and ATTN is decided anew (09 R145 to R148). -/
def noted (s t : State) (events : BitVec 16) : Prop :=
  t.attn.flags = s.attn.flags ||| events ||| (s.live ^^^ t.live) ∧ t.attn.enable = s.attn.enable ∧ t.attnOk ∧
  (s.ctrl.attnOn = true → s.ctrl.attnMode = .pulse → t.ctrl.attnOn = true → t.ctrl.attnMode = .pulse →
    t.attn.line = (s.attn.line || (t.attn.flags &&& ~~~s.attn.flags &&& s.attn.enable) != 0))

/-- The receipt of the burst in progress driven, with its count (07 R122). -/
def receiptOf (s : State) (v : Verdict) (closeTaken : Bool) : Outputs :=
  { s.out with receipt := some (receiptWord v s.link.tag closeTaken s.link.count) }

/-- Slot n as its explicit group is rejected with a first error: REJECTED, the counts kept, no members, the timer stopped (02 R34). -/
def rejectedSlot (s : State) (n : Nat) (e : FirstError) : GroupSlot :=
  { s.slot n with st := .rejected, members := [], firstError := some e, timer := none }

/-- From s to t the explicit group of slot n is rejected with a first error, and nothing else of the groups and of staging changes: its
records and record `held` are FREE, its tag is FENCED naming the slot, and its REJECTED outcome is ready (02 R34 to R36, 09 R136). -/
def groupRejected (s t : State) (n : Nat) (e : FirstError) (held : Option Nat) : Prop :=
  t.slot n = rejectedSlot s n e ∧ (∀ k, k ≠ n → t.slot k = s.slot k) ∧
  t.tag (s.slot n).tag = .fencedSlot n ∧ (∀ g, g ≠ (s.slot n).tag → t.tag g = s.tag g) ∧
  t.groups.closeCounter = s.groups.closeCounter ∧
  (∀ r, (r ∈ (s.slot n).members ∨ held = some r) → t.record r = {}) ∧
  (∀ r, r ∉ (s.slot n).members → held ≠ some r → t.record r = s.record r) ∧ t.staging.ram = s.staging.ram ∧
  t.outcomes = { s.outcomes with pendPost := s.outcomes.pendPost ++ [(rejectedSlot s n e).outcome n .rejected none] }

/-- The Control word w can be taken: none of the checks of 10 R153 and 06 R99 refuses it. -/
abbrev controlTaken (s : State) (w : Word) : Prop :=
  ¬(controlArmBit w = true ∧ controlDrainBit w = true) ∧
  (s.ctrl.opState = .armed ∨ s.ctrl.opState = .draining → controlMode w = s.ctrl.defaultMode) ∧
  (controlArmBit w = true → s.ctrl.opState = .unconfigured) ∧ (controlDrainBit w = true → s.ctrl.opState = .armed) ∧
  (controlArmBit w = true → s.tableFault = none)

/-- State Control after the burst of a Control word that is taken outside HELD, before any ARM or DRAIN of it: HOLD, the mode and the ATTN
fields are written, and with HOLD 1 a hold is due (10 R153, 07 R123). -/
def controlWritten (c : Ctrl) (w : Word) : Ctrl :=
  { c with
    hold := controlHoldBit w, defaultMode := controlMode w, attnOn := controlAttnOn w, attnMode := controlAttnMode w,
    holdDue := if controlHoldBit w then some .hold else none }

/-- The state after a hard reset or a hold, by chapters: what the rows 01 R19, 02 R41, 03 R49, 04 R64, R71, R77, 05 R79, R85, 06 R109,
07 R126, 08 R134, 09 R142, R149, 10 R152 and 11 R163 give, with the outstanding requests kept as DISCARD; `op` and `hold` are the
operating state and Control.HOLD. -/
def resetValues (s : State) (op : OpState) (hold : Bool) : State :=
  { pending := s.pending, pins := s.pins, straps := s.straps, out := s.out
    ctrl := {
      opState := op, hold := hold, defaultMode := .readOnly, attnOn := false, attnMode := .level, stallLimit := 64, handshakeLimit := 16,
      idleLimit := 1000, refusal := .none, fault := none, holdWritten := none, holdDue := none, summary := {} }
    link := {}
    region := { entries := List.replicate 8 {}, latched := .readOnly }
    staging := { ram := s.staging.ram, pool := List.range 256, records := List.replicate 32 {} }
    groups := { slots := List.replicate 8 {}, tags := List.replicate 15 .free, closeCounter := 0 }
    queue := [], commit := {}, apply := {}, overlay := [], recovery := {}
    journal := {
      tail := 2, head := 2, headSeq := 1, live := 0, nextSeq := 1, generation := 0, copy := 0, inFlight := none, due := false,
      newest := none, blockReq := none, skipGrant := none }
    reads := { slots := List.replicate 4 {}, nextSpan := 0 }
    port := {
      outstanding := s.port.outstanding.map fun o => { o with disposition := .discard }
      pointer := .recovery, waitRead := [], waitDirect := [], waitCommit := [], waitAnchor := false, waitApply := [],
      waitRecovery := none }
    outcomes := { queue := [], pendPost := [], counter := 0 }
    attn := { flags := 0, enable := 0, line := false } }

/-- The bridge right after a release from `s` with PWARN deasserted: the straps sampled, RECOVERING, and recovery's first read, of copy 0,
waiting (10 R151, 11 R163, R164). -/
def released (s : State) (cap jrn : BitVec 2) : State :=
  { s with
    straps := { cap := cap, jrn := jrn }
    ctrl := { s.ctrl with
      hold := false, holdDue := none, opState := .recovering, summary := { s.ctrl.summary with status := .running } }
    recovery := { phase := .anchor 0 }
    port := { s.port with
      waitRecovery := some
        { req := { kind := .read, addr := Straps.journalBase { cap := cap, jrn := jrn }, len := 16, words := [] }
          role := .recAnchorRead } } }

/-- The bridge right after a release with PWARN asserted: HALTED, with no recovery, and its engines STOPPED (10 R151; log 24). -/
def releasedHalted (s : State) (cap jrn : BitVec 2) : State :=
  { s with
    straps := { cap := cap, jrn := jrn }, ctrl := { s.ctrl with hold := false, holdDue := none, opState := .halted }
    commit := { st := .stopped }, apply := { st := .stopped } }

/-- From s to t the opening of a staged write at address a is accepted with record r, where the groups are g until a slot is opened for it:
the record is claimed, the write limit fixed, the stall timer runs, and a GUARDED write's slot is its OPEN group's or the lowest-numbered
FREE one, opened for its tag; the other records, the pool and the data store stay (01 R6, 02 R22 to R24, 07 R114). -/
def writeOpened (s t : State) (r a : Nat) (g : Groups) : Prop :=
  s.freeRecordNo = some r ∧
  t.record r =
    { st := .receiving, mode := s.modeAt a, slot := t.link.slot
      ordinal := t.link.slot.map fun n => if s.tag s.link.tag = .opened n then (s.slot n).burstCount + 1 else 1
      start := a } ∧
  (∀ k, k ≠ r → t.record k = s.record k) ∧ t.staging.pool = s.staging.pool ∧ t.staging.ram = s.staging.ram ∧
  t.link.st = .streaming ∧ t.link.record = some r ∧ t.link.mode = s.modeAt a ∧ t.link.bound = s.writeLimit a ∧
  t.link.stall = some s.ctrl.stallLimit ∧ (s.modeAt a ≠ .guarded → t.link.slot = none ∧ t.groups = g) ∧
  (s.modeAt a = .guarded →
    (∀ n, s.tag s.link.tag = .opened n → t.link.slot = some n ∧ t.groups = g) ∧
    ((∀ n, s.tag s.link.tag ≠ .opened n) → ∀ n, s.freeSlotNo = some n →
      t.link.slot = some n ∧ t.slot n = { st := .opened, tag := s.link.tag } ∧ (∀ k, k ≠ n → t.slot k = s.slot k) ∧
        (s.link.tag ≠ 0 → t.tag s.link.tag = .opened n) ∧ ∀ x, x ≠ s.link.tag → t.tag x = s.tag x))

end Sys2Proof.Machine

open Sys2Proof Sys2Proof.Machine

/-! ### The queue of commands -/

/-- The step runs the command at the front of the queue on the state with the queue's rest, and an empty queue idles (log 1). -/
def Obligations.StepRunsFrontCommand : Prop :=
  (∀ (c : Instr) (rest : List Instr) (s : State), step (s.setPending (c :: rest)) = exec c (s.setPending rest)) ∧
  ∀ s : State, s.pending = [] → step s = .next s

/-- A command stops exactly when it is a completion and the oldest outstanding request is not one it answers (08 R127, R131; log 9). -/
def Obligations.StopsExactlyWithoutItsRequest : Prop :=
  ∀ (i : Instr) (s : State),
    if isCompletion i = true ∧ (s.port.outstanding.head?.any (answers i)) = false then exec i s = .fault .noSuchRequest
    else ∃ t, exec i s = .next t ∧ t.pending = s.pending

/-! ### The check function (00 R1) -/

/-- R1: the register is preset to 0xFFFFFFFF, each word is fed most significant bit first with generator polynomial 0x1EDC6F41, and the
value is the register after the last word. -/
def Obligations.CheckFunction : Prop :=
  checkOf [] = 0xFFFFFFFF#32 ∧
  ∀ (ws : List Word) (w : Word),
    checkOf (ws ++ [w]) =
      (msbFirst w).foldl (fun (c : Word) (b : Bool) => if (c.msb != b) = true then (c <<< 1) ^^^ 0x1EDC6F41#32 else c <<< 1)
        (checkOf ws)

/-! ### Opening a burst (07 R110 to R114) -/

/-- R110, R112, R123: HEADER_WORD_0 in IDLE, with RESET_N high, is taken: it presets and feeds the running check and starts the stall
timer. A hold or a release that is due takes effect first, and the opening goes on in the state it leaves. In any other link state the
word changes nothing, and in IDLE every other signal of the link changes nothing. Model's choices: a signal that R110 gives no meaning
changes nothing (log 2), a due move is made at its row or at the next header word 0 (log 5), and at such a release the strap pins have
the levels last sampled (log 31). -/
def Obligations.IdleTakesHeaderWordZero : Prop :=
  ∀ (w : Word) (s : State),
    let opened (x : State) : State :=
      { x with link := { st := .opening, hdr0 := some w, check := checkOf [w], stall := some x.ctrl.stallLimit } }
    (s.link.st = .idle → s.pins.resetN = true →
      (s.ctrl.holdDue = none → exec (.headerWord0 w) s = .next (opened s)) ∧
      (s.ctrl.holdDue = some .hold → exec (.headerWord0 w) s = .next (opened (resetValues s .held true))) ∧
      (s.ctrl.holdDue = some .release →
        exec (.headerWord0 w) s =
          .next (opened
            (if s.pins.pwarn then releasedHalted s s.straps.cap s.straps.jrn else released s s.straps.cap s.straps.jrn)))) ∧
    (s.link.st ≠ .idle → exec (.headerWord0 w) s = .next s) ∧
    (s.link = {} → s.attnOk →
      ∀ i ∈ [Instr.opening w, .withheldAnswer, .writeDataWord w, .restoreReady, .readDataWord, .masterPause, .masterStop,
        .masterAcknowledge, .checkWord w, .checkReply w, .stallTimerExpiry, .handshakeTimerExpiry], exec i s = .next s)

/-- R112, R116, R118: STALL_TIMER_EXPIRY before header word 1 ends the opening with its receipt and acts on no group; in STREAMING the
bridge requests stop with pending verdict STALL_TIMEOUT, and no word moves. Model's choice: the timers hold no elapsed time, and the
expiry is the event (log 8). -/
def Obligations.StallTimerExpiry : Prop :=
  ∀ s : State, s.link.stall.isSome = true →
    (s.link.st = .opening → s.link.hdr1 = none → s.link.count = 0 → s.ctrl.holdWritten = none →
      exec .stallTimerExpiry s =
        .next { s with link := {}, out := { s.out with receipt := some (receiptWord .stallTimeout s.link.tag false 0) } }) ∧
    (s.link.st = .streaming → s.link.pendVerdict = none →
      ∃ t, exec .stallTimerExpiry s = .next t ∧ t = { s with link := t.link, reads := t.reads, port := t.port } ∧
        t.port.outstanding = s.port.outstanding ∧ t.link.st = .stopping ∧ t.link.pendVerdict = some .stallTimeout ∧
        t.link.handshake = some s.ctrl.handshakeLimit ∧ t.link.stall = none ∧ t.link.count = s.link.count ∧
        t.link.check = s.link.check)

/-- R113: the ordered checks on the opening whose header words the link holds. The first that refuses gives the verdict, a check marked
accept ends the decision, and checks that do not apply are passed over. -/
def Obligations.OpeningChecksInOrder : Prop :=
  ∀ s : State,
    let l := s.link
    let op := s.ctrl.opState
    let m := s.modeAt l.start
    (formatFault l.h0 l.h1 = true → s.decideOpening = .refuse .refusedFormat) ∧
    (formatFault l.h0 l.h1 = false →
      ((s.tag l.tag).fenced = true → s.decideOpening = .refuse .refusedFenced) ∧
      ((s.tag l.tag).fenced = false →
        (l.isAttr = true → s.decideOpening = .accept none false) ∧
        (l.isAttr = false →
          (op = .held ∨ op = .recovering ∨ (op = .unconfigured ∧ l.isRead = false) → s.decideOpening = .refuse .refusedNotReady) ∧
          (op = .draining ∧ l.isRead = false → s.decideOpening = .refuse .refusedDraining) ∧
          ((op = .faulted ∧ l.isRead = false) ∨ op = .halted → s.decideOpening = .refuse .refusedStopped) ∧
          (op = .armed ∨ (l.isRead = true ∧ (op = .unconfigured ∨ op = .draining ∨ op = .faulted)) →
            (s.straps.visible ≤ l.start → s.decideOpening = .refuse .refusedRange) ∧
            (l.start < s.straps.visible → l.isRead = true → s.decideOpening = .accept none false) ∧
            (l.start < s.straps.visible → l.isRead = false →
              (m = .readOnly → s.decideOpening = .refuse .refusedReadOnly) ∧
              (m = .checked ∨ m = .direct → l.tag ≠ 0 → s.decideOpening = .refuse .refusedMode) ∧
              (m = .direct → l.tag = 0 → s.decideOpening = .accept none false) ∧
              (∀ n, m = .guarded → s.tag l.tag = .opened n → 28 ≤ (s.slot n).members.length →
                s.decideOpening = if l.close then .accept none true else .refuse .refusedGroupFull) ∧
              (m = .guarded → s.tag l.tag = .free → s.freeSlotNo = none → s.decideOpening = .refuse .refusedNoGroup) ∧
              ((m = .checked ∧ l.tag = 0) ∨ (m = .guarded ∧ s.tag l.tag = .free ∧ s.freeSlotNo.isSome = true) ∨
                (m = .guarded ∧ ∃ n, s.tag l.tag = .opened n ∧ (s.slot n).members.length < 28) →
                (∀ r, s.freeRecordNo = some r → s.decideOpening = .accept (some r) false) ∧
                (s.freeRecordNo = none →
                  (s.anyRecord BurstRecord.leaving = true → s.decideOpening = .withhold) ∧
                  (s.anyRecord BurstRecord.leaving = false →
                    ((l.close = true ∧ ∃ n, s.tag l.tag = .opened n) → s.decideOpening = .accept none false) ∧
                    (¬(l.close = true ∧ ∃ n, s.tag l.tag = .opened n) → s.decideOpening = .refuse .refusedNoRecord)))))))))

/-- R114, R122: OPENING with a refusal and a tag that is not OPEN drives the receipt at once, with count 0 and CLOSE-TAKEN 0, and changes
nothing else. -/
def Obligations.OpeningRefused : Prop :=
  ∀ (s : State) (w : Word) (v : Verdict),
    calm s → s.link.st = .opening → s.link.count = 0 → (∀ n, s.tag s.link.tag ≠ .opened n) →
    (s.wordOneTaken w).decideOpening = .refuse v →
    exec (.opening w) s =
      .next { s with
        link := {}
        out := { s.out with answer := some .refuse, receipt := some (receiptWord v s.link.tag false 0) } }

/-- R27, R34, R35, R37: a refused opening whose tag names an OPEN group rejects it for REFUSED_FORMAT, and for a common write's
REFUSED_RANGE, REFUSED_READ_ONLY, REFUSED_MODE and REFUSED_GROUP_FULL: the slot is REJECTED with the refusal, the burst count plus 1 and
the start address as first error, its records are FREE, the tag is FENCED and GROUP_REJECTED is set. Any other refusal leaves the group
and restarts its idle timer. Model's choices: a REJECTED slot's member list is emptied (log 17), and the start address of a first error is
the low 30 bits of header word 1, also for REFUSED_FORMAT (log 20). -/
def Obligations.RefusalActsOnTheOpenGroup : Prop :=
  ∀ (s : State) (w : Word) (v : Verdict) (n : Nat),
    calm s → s.ctrl.opState ≠ .held → s.link.st = .opening → s.link.count = 0 → s.tag s.link.tag = .opened n →
    (s.slot n).tag = s.link.tag → n < s.groups.slots.length → (s.wordOneTaken w).decideOpening = .refuse v →
    ∃ t, exec (.opening w) s = .next t ∧
      t = { s with link := {}, out := t.out, groups := t.groups, staging := t.staging, outcomes := t.outcomes, attn := t.attn } ∧
      t.out = { s.out with answer := some .refuse, receipt := some (receiptWord v s.link.tag false 0) } ∧
      t.staging.ram = s.staging.ram ∧ t.outcomes.queue = s.outcomes.queue ∧ t.groups.closeCounter = s.groups.closeCounter ∧
      (∀ k, k ≠ n → t.slot k = s.slot k) ∧
      if v = .refusedFormat ∨ (s.link.commonWrite = true ∧
          (v = .refusedRange ∨ v = .refusedReadOnly ∨ v = .refusedMode ∨ v = .refusedGroupFull)) then
        (let e : FirstError := { cause := .verdict v, ordinal := some ((s.slot n).burstCount + 1), start := some (hdrStart w) }
         t.slot n = { s.slot n with st := .rejected, members := [], firstError := some e, timer := none } ∧
         t.tag s.link.tag = .fencedSlot n ∧ (∀ r ∈ (s.slot n).members, t.record r = {}) ∧
         t.outcomes.pendPost = s.outcomes.pendPost ++ [(t.slot n).outcome n .rejected none] ∧
         t.attn.flags = s.attn.flags ||| flagAt 12 true)
      else
        t.slot n = { s.slot n with timer := if s.ctrl.idleLimit = 0 then none else some s.ctrl.idleLimit } ∧
        t.groups.tags = s.groups.tags ∧ t.staging = s.staging ∧ t.outcomes = s.outcomes ∧ t.attn = s.attn

/-- R6, R22, R23, R24, R114: OPENING accepting a staged write claims the lowest-numbered FREE record for it, with mode, slot, ordinal and
start address, and a GUARDED write's slot is its OPEN group's or the lowest-numbered FREE one, opened for its tag. The write limit is
fixed and the stall timer runs; the other records, the pool and the data store stay. -/
def Obligations.OpeningAcceptsStagedWrite : Prop :=
  ∀ (s : State) (w : Word) (r : Nat),
    calm s → s.tablesOk → s.link.st = .opening → s.link.commonWrite = true →
    (s.wordOneTaken w).decideOpening = .accept (some r) false →
    ∃ t, exec (.opening w) s = .next t ∧
      t = { s with link := t.link, out := { s.out with answer := some .accept }, staging := t.staging, groups := t.groups } ∧
      writeOpened s t r (hdrStart w) (s.stopIdle s.link.tag).groups ∧
      (s.modeAt (hdrStart w) = .guarded → (∀ n, s.tag s.link.tag ≠ .opened n) → s.freeSlotNo.isSome = true)

/-- R8, R25, R102: OPENING accepting a write without a record, a DIRECT one, one that closes a full group or one that closes a group when
every record is held: the link streams, no record is claimed and no slot is opened for a DIRECT write. -/
def Obligations.OpeningAcceptsWithoutRecord : Prop :=
  ∀ (s : State) (w : Word) (f : Bool),
    calm s → s.link.st = .opening → s.link.commonWrite = true → s.link.record = none →
    (s.wordOneTaken w).decideOpening = .accept none f →
    ∃ t, exec (.opening w) s = .next t ∧
      t = { s with link := t.link, out := { s.out with answer := some .accept }, groups := (s.stopIdle s.link.tag).groups } ∧
      t.link.st = .streaming ∧ t.link.record = none ∧ t.link.fullClose = f ∧ t.link.bound = s.writeLimit (hdrStart w) ∧
      (s.modeAt (hdrStart w) = .direct → t.link.slot = none) ∧
      (∀ n, s.modeAt (hdrStart w) = .guarded → s.tag s.link.tag = .opened n → t.link.slot = some n)

/-- R84, R86, R95, R114, R123, R124: OPENING accepting a common read fixes its extent, the smaller of visible capacity and the start plus
16,384, and issues spans into FREE slots until none is FREE or the extent is covered. Streaming then reaches the first span: READY it is
SENDING, and FILLING, or without a slot, the bridge pauses (R90). An attribute opening without a format fault or a FENCED tag is accepted
in every operating state, to the earlier of offset 256 and the start offset plus 64; an attribute read takes the image of its words at this
answer. -/
def Obligations.OpeningAcceptsReadOrAttribute : Prop :=
  ∀ (s : State) (w : Word), calm s → s.link.st = .opening →
    (s.tablesOk → s.link.commonRead = true → s.link.count = 0 → s.link.bridgeHold = none → (∀ x ∈ s.reads.slots, x.atRest) →
      (s.wordOneTaken w).decideOpening = .accept none false →
      let opened : State :=
        { s with
          link := { s.link with
            hdr1 := some w, check := checkWord s.link.check w, stall := none, st := .streaming
            bound := min s.straps.visible (hdrStart w + 16384) }
          out := { s.out with answer := some .accept }, groups := (s.stopIdle s.link.tag).groups
          reads := { s.reads with nextSpan := 0 } }
      let issued := opened.issueSpan.issueSpan.issueSpan.issueSpan
      let pauses : Prop := exec (.opening w) s = .next { issued with link := { opened.link with bridgeHold := some .span } }
      (issued.freeSpanNo = none ∨ opened.link.bound ≤ hdrStart w + 16 * issued.reads.nextSpan) ∧
      (s.freeSpanNo = none → issued = opened ∧ pauses) ∧
      (∀ n, s.freeSpanNo = some n →
        issued.spanNo 0 = some n ∧ ((issued.span n).st = .ready ∨ (issued.span n).st = .filling) ∧
        ((issued.span n).st = .ready → exec (.opening w) s = .next (issued.updSpan n fun x => { x with st := .sending })) ∧
        ((issued.span n).st = .filling → pauses))) ∧
    (s.link.isAttr = true → formatFault s.link.h0 w = false → (s.tag s.link.tag).fenced = false →
      ∃ t, exec (.opening w) s = .next t ∧
        t = { s with link := t.link, out := { s.out with answer := some .accept }, groups := (s.stopIdle s.link.tag).groups } ∧
        t.link.st = .streaming ∧ t.link.bound = min 256 (hdrOffset w + 64) ∧
        (s.link.isRead = true →
          t.link.attrImage = (List.range (t.link.bound - hdrOffset w)).map fun i => s.readWord (hdrOffset w + i)) ∧
        (s.link.isRead = false → t.link.stall = some s.ctrl.stallLimit))

/-- R7: OPENING with no record FREE and some CLOSED or APPLYING is answered WITHHELD and claims nothing. WITHHELD_ANSWER then refuses with
REFUSED_STOPPED in FAULTED and HALTED, claims the lowest-numbered FREE record once there is one, with the mode, slot, ordinal and start
that an ACCEPT without the wait gives it (R6, R22, R23), and otherwise holds the answer. Model's choices: an answer not yet due changes
nothing (log 2), and the row is the bridge's own later step (log 3). -/
def Obligations.WithheldOpening : Prop :=
  (∀ (s : State) (w : Word),
    calm s → s.link.st = .opening → (s.wordOneTaken w).decideOpening = .withhold →
    ∃ t, exec (.opening w) s = .next t ∧
      t = { s with link := t.link, out := { s.out with answer := some .withheld }, groups := (s.stopIdle s.link.tag).groups } ∧
      t.link.st = .withheld ∧ t.link.stall = none) ∧
  ∀ s : State, s.link.st = .withheld →
    (s.ctrl.opState = .faulted ∨ s.ctrl.opState = .halted → s.ctrl.holdWritten = none → s.link.count = 0 →
      s.link.hdr1.isSome = true →
      exec .withheldAnswer s =
        .next { s with
          link := {}
          out := { s.out with answer := some .refuse, receipt := some (receiptWord .refusedStopped s.link.tag false 0) }
          groups := (s.startIdle s.link.tag).groups }) ∧
    (s.ctrl.opState ≠ .faulted → s.ctrl.opState ≠ .halted →
      (s.freeRecordNo = none → exec .withheldAnswer s = .next s) ∧
      (∀ r, s.freeRecordNo = some r → s.tablesOk → s.link.commonWrite = true →
        ∃ t, exec .withheldAnswer s = .next t ∧
          t = { s with link := t.link, out := { s.out with answer := some .accept }, staging := t.staging, groups := t.groups } ∧
          writeOpened s t r s.link.start s.groups))

/-! ### Regions (06 R100, R103) -/

/-- R100: the mode of an address is that of the valid entry that covers its granule, otherwise the latched Default Mode; so it is the same
at all addresses of a granule. -/
def Obligations.ModeOfAnAddress : Prop :=
  ∀ (s : State) (a : Nat),
    (∀ e ∈ s.region.entries, e.covers (a / 16384) = true →
      (∀ x ∈ s.region.entries, x.covers (a / 16384) = true → x.mode = e.mode) → s.modeAt a = e.mode) ∧
    ((∀ e ∈ s.region.entries, e.covers (a / 16384) = false) → s.modeAt a = s.region.latched) ∧
    ∀ b, b / 16384 = a / 16384 → s.modeAt b = s.modeAt a

/-- R103: the write limit of a start below visible capacity is the lowest of visible capacity, the start plus 16,384 and the first word
above the start whose mode differs. -/
def Obligations.WriteLimit : Prop :=
  ∀ (s : State) (a : Nat), a < s.straps.visible →
    a < s.writeLimit a ∧ s.writeLimit a ≤ s.straps.visible ∧ s.writeLimit a ≤ a + 16384 ∧
    (∀ x, a ≤ x → x < s.writeLimit a → s.modeAt x = s.modeAt a) ∧
    (s.writeLimit a = s.straps.visible ∨ s.writeLimit a = a + 16384 ∨ s.modeAt (s.writeLimit a) ≠ s.modeAt a)

/-! ### Words of a write (01 R9 to R12, 06 R104, R105, 07 R115) -/

/-- R2, R9, R10: WRITE_DATA_WORD below the write limit with a record and somewhere to put the word takes it: it stands in the record's last
chunk, a slot-opening word having taken one chunk from the pool, the counts rise by 1, and every other word of the data store stays. The
first word of a burst without a record claims the lowest-numbered FREE record for the burst and is its first word. -/
def Obligations.StagedWordTaken : Prop :=
  ∀ (s : State) (w : Word) (r : Nat),
    writeStreams s → s.storeOk → s.link.mode ≠ .direct → s.link.start + s.link.count < s.link.bound →
    (s.link.record = some r → (s.record r).st = .receiving → ((s.record r).wordCount % 64 = 0 → s.staging.pool ≠ []) →
      ∃ t, exec (.writeDataWord w) s = .next t ∧ t = { s with link := wordMoved s.link w, staging := t.staging } ∧
        t.record r = { s.record r with wordCount := (s.record r).wordCount + 1, chunks := (t.record r).chunks } ∧
        (∀ k, k ≠ r → t.record k = s.record k) ∧ t.staging.word (t.record r) (s.record r).wordCount = w ∧
        (∀ a, a ≠ (t.record r).wordAddr (s.record r).wordCount → ramRead t.staging.ram a = ramRead s.staging.ram a) ∧
        if (s.record r).wordCount % 64 = 0 then
          (∃ c, s.staging.pool = c :: t.staging.pool ∧ (t.record r).chunks = (s.record r).chunks ++ [c])
        else t.staging.pool = s.staging.pool ∧ (t.record r).chunks = (s.record r).chunks) ∧
    (∀ c pool, s.link.record = none → s.freeRecordNo = some r → s.staging.pool = c :: pool →
      ∃ t, exec (.writeDataWord w) s = .next t ∧
        t = { s with link := { wordMoved s.link w with record := some r }, staging := t.staging } ∧ t.staging.pool = pool ∧
        t.record r =
          { st := .receiving, mode := s.link.mode, slot := s.link.slot
            ordinal := s.link.slot.map fun n => (s.slot n).burstCount + 1
            start := s.link.start, wordCount := 1, chunks := [c] } ∧
        (∀ k, k ≠ r → t.record k = s.record k) ∧ t.staging.word (t.record r) 0 = w ∧
        ∀ a, a ≠ 64 * c → ramRead t.staging.ram a = ramRead s.staging.ram a)

/-- R9, R11, R12: a slot-opening word that finds the pool empty is not taken: the bridge withdraws ready when some CLOSED or APPLYING
record holds a chunk, and otherwise requests stop with pending verdict STAGING_EXHAUSTED. The first word of a record-less burst, with no
record FREE, is held likewise when some record is CLOSED or APPLYING, and otherwise stops the burst. R25: a word of a CLOSE burst to a
full group is not taken, and the bridge requests stop with pending verdict REFUSED_GROUP_FULL. -/
def Obligations.BridgePausesOrStops : Prop :=
  (∀ (s : State) (w : Word),
    s.link.st = .streaming → s.link.isAttr = false → s.link.isRead = false → s.link.bridgeHold = none → s.link.fullClose = true →
    s.link.mode ≠ .direct → s.link.pendVerdict = none →
    exec (.writeDataWord w) s = .next { s with link := stoppingLink s (some .refusedGroupFull) false }) ∧
  ∀ (s : State) (w : Word),
    writeStreams s → s.link.mode ≠ .direct → s.link.start + s.link.count < s.link.bound → s.link.pendVerdict = none →
    let paused (c : HoldCause) : State :=
      { s with link := { s.link with masterHold := false, stall := none, bridgeHold := some c, presented := some w } }
    let stopped : State := { s with link := stoppingLink s (some .stagingExhausted) false }
    (∀ r, s.link.record = some r → (s.record r).wordCount % 64 = 0 → s.staging.pool = [] →
      ((∃ x ∈ s.staging.records, (x.st = .closed ∨ x.st = .applying) ∧ x.chunks ≠ []) →
        exec (.writeDataWord w) s = .next (paused .chunks)) ∧
      ((∀ x ∈ s.staging.records, x.st = .closed ∨ x.st = .applying → x.chunks = []) →
        exec (.writeDataWord w) s = .next stopped)) ∧
    (s.link.record = none → s.freeRecordNo = none →
      ((∃ x ∈ s.staging.records, x.st = .closed ∨ x.st = .applying) → exec (.writeDataWord w) s = .next (paused .record)) ∧
      ((∀ x ∈ s.staging.records, x.st ≠ .closed ∧ x.st ≠ .applying) → exec (.writeDataWord w) s = .next stopped))

/-- R104, R118: a word presented at the write limit is not taken; the bridge requests stop, without a pending verdict, and the count
stays. R123: a word of an attribute write within its extent is buffered, fed and counted, and one presented at the extent's end is cut
likewise. -/
def Obligations.WordAtTheLimitIsCut : Prop :=
  (∀ (s : State) (w : Word), writeStreams s → s.link.bound ≤ s.link.start + s.link.count → s.link.pendVerdict = none →
    ∃ t, exec (.writeDataWord w) s = .next t ∧ t = { s with link := t.link, port := t.port } ∧
      t.port.outstanding = s.port.outstanding ∧ t.link.st = .stopping ∧ t.link.cut = true ∧ t.link.pendVerdict = none ∧
      t.link.count = s.link.count ∧ t.link.check = s.link.check ∧ t.link.handshake = some s.ctrl.handshakeLimit) ∧
  ∀ (s : State) (w : Word),
    s.link.st = .streaming → s.link.isAttr = true → s.link.isRead = false → s.link.bridgeHold = none →
    (s.link.offset + s.link.count < s.link.bound →
      exec (.writeDataWord w) s = .next { s with link := { wordMoved s.link w with attrBuf := s.link.attrBuf ++ [w] } }) ∧
    (s.link.bound ≤ s.link.offset + s.link.count →
      exec (.writeDataWord w) s = .next { s with link := stoppingLink s s.link.pendVerdict true })

/-- R105: a word of a DIRECT write goes to the collecting span; the 16th word hands the span over as one request at its own address when no
request waits and otherwise fills the span, and a word that finds a full span makes the bridge pause. -/
def Obligations.DirectWord : Prop :=
  ∀ (s : State) (w : Word), writeStreams s → s.link.mode = .direct → s.link.start + s.link.count < s.link.bound →
    (s.link.collecting.length < 15 ∨ (s.link.collecting.length = 15 ∧ s.port.waitDirect ≠ []) →
      exec (.writeDataWord w) s =
        .next { s with link := { wordMoved s.link w with collecting := s.link.collecting ++ [w] } }) ∧
    (s.link.collecting.length = 15 → s.port.waitDirect = [] →
      exec (.writeDataWord w) s =
        .next { s with
          link := { wordMoved s.link w with collecting := [] }
          port := { s.port with
            waitDirect := [{ addr := s.link.start + (s.link.count + 1) - 16, words := s.link.collecting ++ [w] }] } }) ∧
    (s.link.collecting.length = 16 →
      exec (.writeDataWord w) s =
        .next { s with link := { s.link with masterHold := false, stall := none, bridgeHold := some .direct, presented := some w } })

/-- R11, R115: RESTORE_READY, once the cause of the pause has cleared, takes the presented word as the link without the pause would take
it; a word for a pause on an empty pool takes the first chunk. Without a presented word the master's stall timer starts; while the cause
stands, nothing happens. Model's choices: while the cause stands nothing happens (log 2), the row is the bridge's own later step (log 3),
and without a presented word no record is claimed and no chunk taken (log 39). -/
def Obligations.RestoreReady : Prop :=
  ∀ (s : State) (c : HoldCause), s.link.st = .streaming → s.link.isRead = false → s.link.bridgeHold = some c →
    (s.causeCleared c = false → exec .restoreReady s = .next s) ∧
    (s.causeCleared c = true →
      (s.link.presented = none →
        exec .restoreReady s =
          .next { s with link := { s.link with bridgeHold := none, masterHold := true, stall := some s.ctrl.stallLimit } }) ∧
      (∀ w, s.link.presented = some w → s.link.masterHold = false → s.link.stall = none →
        exec .restoreReady s =
          exec (.writeDataWord w) { s with link := { s.link with bridgeHold := none, presented := none } } ∧
        (c = .chunks → s.link.isAttr = false → s.link.fullClose = false → s.link.mode ≠ .direct →
          s.link.start + s.link.count < s.link.bound → ∀ r, s.link.record = some r →
          ∃ t, exec .restoreReady s = .next t ∧
            t = { s with link := { wordMoved s.link w with bridgeHold := none, presented := none }, staging := t.staging })))

/-! ### Words of a read and the lookup (05 R82, R86, R90, R91, 07 R124) -/

/-- R90, R91, R124: READ_DATA_WORD strobes the next word, of the image or of the SENDING span: it is driven, fed and counted. The last word
of a span frees its slot, a further span is issued, and streaming reaches the next: a READY one becomes SENDING, and for a FILLING one the
bridge pauses; at a FAILED one the bridge requests stop with pending verdict MEMORY_FAULT (R92, R118). With every word of the extent sent
the bridge requests stop as a cut. At either stop a common read's spans are discarded. Model's choices: the row carries the master's ready
(log 14) and is one event (log 12), spans are discarded at the stop (log 10), and a cut that is due is made at the next link event (log
37). -/
def Obligations.ReadWordSent : Prop :=
  ∀ s : State, s.link.st = .streaming → s.link.isRead = true → s.link.bridgeHold = none →
    (s.link.isAttr = true →
      (s.link.offset + s.link.count < s.link.bound →
        let w := s.link.attrImage.getD s.link.count 0
        exec .readDataWord s = .next { s with link := wordMoved s.link w, out := { s.out with data := some w } }) ∧
      (s.link.bound ≤ s.link.offset + s.link.count →
        exec .readDataWord s = .next { s with link := stoppingLink s s.link.pendVerdict true })) ∧
    (s.link.isAttr = false →
      let sent := s.link.count + 1
      let issued := s.freeSpanNo = none ∨ s.link.bound ≤ s.link.start + 16 * s.reads.nextSpan
      (s.link.bound ≤ s.link.start + s.link.count →
        ∃ t, exec .readDataWord s = .next t ∧ dataEnds s t (stoppingLink s s.link.pendVerdict true) s.out) ∧
      ∀ n, s.spanNo (s.link.count / 16) = some n → s.link.start + s.link.count < s.link.bound →
        ((s.span n).st = .sending →
          let w := (s.span n).words.getD (s.link.count % 16) 0
          let moved : State := { s with link := wordMoved s.link w, out := { s.out with data := some w } }
          let next := (moved.updSpan n fun _ => {}).issueSpan
          (s.link.start + sent < s.link.bound → sent % 16 ≠ 0 → exec .readDataWord s = .next moved) ∧
          (s.link.bound ≤ s.link.start + sent → issued → exec .readDataWord s = .next next) ∧
          (s.link.start + sent < s.link.bound → sent % 16 = 0 → issued → ∀ m, next.spanNo (sent / 16) = some m →
            ((next.span m).st = .ready → exec .readDataWord s = .next (next.updSpan m fun x => { x with st := .sending })) ∧
            ((next.span m).st = .filling →
              exec .readDataWord s = .next { next with link := { wordMoved s.link w with bridgeHold := some .span } }) ∧
            ((next.span m).st = .failed →
              ∃ t, exec .readDataWord s = .next t ∧
                dataEnds next t (stoppingLink next (s.link.pendVerdict.or (some .memoryFault)) false) next.out))))

/-- R86: the issue of a span gives the lowest-numbered FREE slot its base, length and sequence position; a word for which the lookup
answers is CAPTURED and copied, and the others come from MEMORY. The slot is READY when all are CAPTURED, and otherwise FILLING with its
request waiting. -/
def Obligations.SpanIssue : Prop :=
  ∀ (s : State) (n : Nat), s.freeSpanNo = some n → s.link.start + 16 * s.reads.nextSpan < s.link.bound →
    let base := s.link.start + 16 * s.reads.nextSpan
    let len := min 16 (s.link.bound - base)
    let t := s.issueSpan
    t = { s with reads := t.reads, port := { s.port with waitRead := t.port.waitRead } } ∧
    t.reads.nextSpan = s.reads.nextSpan + 1 ∧ (∀ k, k ≠ n → t.span k = s.span k) ∧
    (t.span n).base = base ∧ (t.span n).len = len ∧ (t.span n).seq = s.reads.nextSpan ∧
    (∀ j, j < len → (t.span n).sources[j]? = some (if (s.overlayWord (base + j)).isSome then .captured else .memory)) ∧
    (∀ j w, j < len → s.overlayWord (base + j) = some w → (t.span n).words[j]? = some w) ∧
    ((∀ j, j < len → (s.overlayWord (base + j)).isSome = true) → (t.span n).st = .ready ∧ t.port.waitRead = s.port.waitRead) ∧
    (∀ j, j < len → s.overlayWord (base + j) = none →
      (t.span n).st = .filling ∧ t.port.waitRead = s.port.waitRead ++ [n])

/-- R82: among the entries that cover an address, the one with the latest close number, and among those the highest ordinal, supplies word
a minus its start of its record's burst; if some entry covers the address the lookup answers, and if none does it finds nothing. -/
def Obligations.OverlayAnswer : Prop :=
  ∀ (s : State) (a : Nat),
    (∀ e ∈ s.overlay, e.start ≤ a → a < e.start + e.wordCount →
      (∀ f ∈ s.overlay, f.start ≤ a → a < f.start + f.wordCount →
        f = e ∨ later e.closeNo f.closeNo = true ∨ (e.closeNo = f.closeNo ∧ f.ordinal < e.ordinal)) →
      s.overlayWord a = some (s.staging.word (s.record e.record) (a - e.start))) ∧
    ((∃ e ∈ s.overlay, e.start ≤ a ∧ a < e.start + e.wordCount) → (s.overlayWord a).isSome = true) ∧
    ((∀ e ∈ s.overlay, ¬(e.start ≤ a ∧ a < e.start + e.wordCount)) → s.overlayWord a = none)

/-! ### Pauses and stops by the master (07 R115 to R118) -/

/-- R91, R115 to R118: MASTER_PAUSE starts the stall timer unless the bridge holds the transfer too. MASTER_STOP ends the data phase: a
DIRECT write's collecting span is handed over, a common read's spans are discarded, the link enters CHECKING with the handshake timer
started, and for a read the bridge sends its check word. MASTER_ACKNOWLEDGE of the bridge's request does the same of the check. Where the
bridge's cut of a read is due, MASTER_STOP is taken first, and MASTER_PAUSE and MASTER_ACKNOWLEDGE come after the bridge's request.
Model's choices: MASTER_PAUSE marks the start of every gap of the master (log 13), a signal out of place changes nothing (log 2), a
common read's spans are discarded at the stop (log 10), and a cut that is due is made at the next link event (log 37). -/
def Obligations.MasterPausesAndStops : Prop :=
  ∀ s : State,
    (s.link.st = .streaming →
      (¬stopDue s →
        (s.link.masterHold = false → s.link.bridgeHold = none →
          exec .masterPause s =
            .next { s with link := { s.link with masterHold := true, presented := none, stall := some s.ctrl.stallLimit } }) ∧
        (s.link.masterHold = false → s.link.bridgeHold.isSome = true →
          exec .masterPause s = .next { s with link := { s.link with masterHold := true, presented := none, stall := none } }) ∧
        (s.link.masterHold = true → exec .masterPause s = .next s) ∧ exec .masterAcknowledge s = .next s) ∧
      (stopDue s →
        let stop := stoppingLink s s.link.pendVerdict true
        (∃ t, exec .masterPause s = .next t ∧ dataEnds s t stop s.out) ∧
        ∃ t, exec .masterAcknowledge s = .next t ∧
          dataEnds s t { stop with st := .checking } { s.out with check := some s.link.check }) ∧
      (s.link.isRead = false → (s.link.isAttr = true ∨ s.link.mode ≠ .direct ∨ s.link.collecting = []) →
        exec .masterStop s = .next { s with link := checkingLink s }) ∧
      (s.link.commonWrite = true → s.link.mode = .direct → s.link.collecting ≠ [] →
        exec .masterStop s =
          .next { s with
            link := { checkingLink s with collecting := [] }
            port := { s.port with
              waitDirect := s.port.waitDirect ++
                [{ addr := s.link.start + s.link.count - s.link.collecting.length, words := s.link.collecting }] } }) ∧
      (s.link.isRead = true →
        ∃ t, exec .masterStop s = .next t ∧ dataEnds s t (checkingLink s) { s.out with check := some s.link.check })) ∧
    (s.link.st = .stopping → ∀ i ∈ [Instr.masterAcknowledge, .masterStop],
      (s.link.isRead = false → exec i s = .next { s with link := checkingLink s }) ∧
      (s.link.isRead = true → exec i s = .next { s with link := checkingLink s, out := { s.out with check := some s.link.check } })) ∧
    (s.link.st ≠ .streaming → exec .masterPause s = .next s) ∧
    (s.link.st ≠ .streaming → s.link.st ≠ .stopping → exec .masterAcknowledge s = .next s)

/-! ### The check of a write (07 R119, 01 R14, R15, 02 R24, R28, R29, R34) -/

/-- R119, R14, R24, R26, R28, R29, R32: the check word that matches leaves a GUARDED write of an explicit tag GOOD, or CUT after a cut. With
words, its record joins the group as HELD; without words, it is FREE. With CLOSE, and not cut, a group with members closes as one unit,
one without is DURABLE with its outcome ready, the tag is FREE and CLOSE-TAKEN is 1. R123, R175: the check word that matches an attribute
write applies its words one by one in offset order, each with what it brings at once; the verdict is CONFIG_REFUSED if one was refused,
and a written HOLD then falls due. Model's choice: what a word brings at once before the next is judged (log 38). -/
def Obligations.CheckWordGood : Prop :=
  (∀ (s : State) (n : Nat), calm s → checkAwaited s → s.link.pendVerdict = none → explicitWrite s n →
    let v : Verdict := if s.link.cut then .cut else .good
    let closes := s.link.close = true ∧ s.link.cut = false
    let restarted : Option Nat := if s.ctrl.idleLimit = 0 then none else some s.ctrl.idleLimit
    (∀ r, s.link.record = some r → r < s.staging.records.length → s.link.count ≠ 0 →
      let joined : GroupSlot :=
        { s.slot n with
          members := (s.slot n).members ++ [r], burstCount := (s.slot n).burstCount + 1
          wordCount := (s.slot n).wordCount + s.link.count }
      (¬closes →
        ∃ t, exec (.checkWord s.link.check) s = .next t ∧
          t = { s with link := {}, out := receiptOf s v false, staging := t.staging, groups := t.groups } ∧
          t.slot n = { joined with timer := restarted } ∧ (∀ k, k ≠ n → t.slot k = s.slot k) ∧ t.groups.tags = s.groups.tags ∧
          t.groups.closeCounter = s.groups.closeCounter ∧ t.record r = { s.record r with st := .held } ∧
          (∀ k, k ≠ r → t.record k = s.record k) ∧ t.staging.pool = s.staging.pool ∧ t.staging.ram = s.staging.ram) ∧
      (closes → (∀ m ∈ (s.slot n).members, m < s.staging.records.length) →
        ∃ t, exec (.checkWord s.link.check) s = .next t ∧
          t = { s with
            link := {}, out := receiptOf s .good true, staging := t.staging, groups := t.groups, overlay := t.overlay
            queue := t.queue } ∧
          groupCloses s t n joined joined.members ∧ (∀ m, m ∉ joined.members → t.record m = s.record m) ∧
          t.staging.pool = s.staging.pool ∧ t.staging.ram = s.staging.ram)) ∧
    (s.link.count = 0 →
      (¬closes →
        ∃ t, exec (.checkWord s.link.check) s = .next t ∧
          t = { s with
            link := {}, out := receiptOf s v false, staging := t.staging, groups := { s.groups with slots := t.groups.slots } } ∧
          recordFreed s t ∧ t.slot n = { s.slot n with timer := restarted } ∧ ∀ k, k ≠ n → t.slot k = s.slot k) ∧
      (closes → (s.slot n).members = [] →
        ∃ t, exec (.checkWord s.link.check) s = .next t ∧
          t = { s with
            link := {}, out := receiptOf s .good true, staging := t.staging, groups := t.groups
            outcomes := { s.outcomes with pendPost := s.outcomes.pendPost ++ [(s.slot n).outcome n .durable none] } } ∧
          recordFreed s t ∧ t.slot n = { s.slot n with st := .durable, timer := none } ∧ (∀ k, k ≠ n → t.slot k = s.slot k) ∧
          t.tag s.link.tag = .free ∧ (∀ g, g ≠ s.link.tag → t.tag g = s.tag g) ∧
          t.groups.closeCounter = s.groups.closeCounter) ∧
      (closes → (s.slot n).members ≠ [] →
        (∀ m ∈ (s.slot n).members, m < s.staging.records.length ∧ s.link.record ≠ some m) →
        ∃ t, exec (.checkWord s.link.check) s = .next t ∧
          t = { s with
            link := {}, out := receiptOf s .good true, staging := t.staging, groups := t.groups, overlay := t.overlay
            queue := t.queue } ∧
          groupCloses s t n (s.slot n) (s.slot n).members ∧ (∀ r, s.link.record = some r → t.record r = {}) ∧
          (∀ m, m ∉ (s.slot n).members → s.link.record ≠ some m → t.record m = s.record m) ∧
          t.staging.ram = s.staging.ram))) ∧
  (∀ s : State, checkAwaited s → s.link.isAttr = true → s.link.pendVerdict = none →
    let x := s.applyWords s.link.offset s.link.attrBuf
    let v : Verdict := if x.link.attrRefused then .configRefused else if s.link.cut then .cut else .good
    ∃ t, exec (.checkWord s.link.check) s = .next t ∧
      t = { x with
        link := {}, out := { x.out with receipt := some (receiptWord v x.link.tag false x.link.count) }
        groups := (x.startIdle x.link.tag).groups, ctrl := t.ctrl } ∧
      t.ctrl = { x.ctrl with holdWritten := none, holdDue := t.ctrl.holdDue } ∧
      (x.ctrl.holdWritten = some true → t.ctrl.holdDue = if x.ctrl.opState = .held then none else some .hold) ∧
      (x.ctrl.holdWritten = some false → t.ctrl.holdDue = if x.ctrl.opState = .held then some .release else none) ∧
      (x.ctrl.holdWritten = none → t.ctrl.holdDue = x.ctrl.holdDue)) ∧
  ∀ (s : State) (o : Nat) (w v : Word) (ws : List Word),
    s.applyWords o [] = s ∧ s.applyWords o [w] = s.applyWord o w ∧
    s.applyWords o (w :: v :: ws) = ((s.applyWord o w).followUp o).applyWords (o + 1) (v :: ws) ∧
    (o ≠ 0x40 → o ≠ 0x59 → s.followUp o = s)

/-- R119, R14, R23, R34, R35, R120: a write but a DIRECT one that ends neither GOOD nor CUT, by a check word that does not match or by a
pending verdict, which stands whatever the check word. Its record is freed. The group of an explicit tag is rejected with the verdict, the
burst's ordinal and its start as first error; the slot of an implicit one is FREE. An attribute write applies no word. CHECK_FAIL_SEEN is
set for CHECK_FAIL, and GROUP_REJECTED for a rejection; by R149 not in HELD, where only an attribute write can be (log 21). Model's choice:
a REJECTED slot's member list is emptied (log 17). -/
def Obligations.CheckWordFails : Prop :=
  ∀ (s : State) (w : Word), calm s → checkAwaited s →
    let v := s.link.pendVerdict.getD (if w = s.link.check then (if s.link.cut then .cut else .good) else .checkFail)
    v ≠ .good → v ≠ .cut →
    (∀ n, s.ctrl.opState ≠ .held → explicitWrite s n →
      ∃ t, exec (.checkWord w) s = .next t ∧
        t = { s with
          link := {}, out := receiptOf s v false, staging := t.staging, groups := t.groups, outcomes := t.outcomes
          attn := t.attn } ∧
        groupRejected s t n { cause := .verdict v, ordinal := some ((s.slot n).burstCount + 1), start := some s.link.start }
          s.link.record ∧
        noted s t (flagAt 8 (v == .checkFail) ||| flagAt 12 true)) ∧
    (s.ctrl.opState ≠ .held → s.link.isAttr = false → s.link.mode ≠ .direct → s.link.tag = 0 →
      ∃ t, exec (.checkWord w) s = .next t ∧
        t = { s with
          link := {}, out := receiptOf s v false, staging := t.staging, groups := { s.groups with slots := t.groups.slots }
          attn := t.attn } ∧
        recordFreed s t ∧ (∀ n, s.link.slot = some n → t.slot n = {}) ∧ (∀ k, s.link.slot ≠ some k → t.slot k = s.slot k) ∧
        noted s t (flagAt 8 (v == .checkFail))) ∧
    (s.link.isAttr = true →
      ∃ t, exec (.checkWord w) s = .next t ∧
        t = { s with link := {}, out := receiptOf s v false, groups := (s.startIdle s.link.tag).groups, attn := t.attn } ∧
        noted s t (flagAt 8 (v == .checkFail && s.ctrl.opState != .held)))

/-- R15, R23, R119: the matching check word of a CHECKED write, or of an implicit GUARDED one, with words closes its unit of one record: the
record is CLOSED with the next close number, its overlay entry is inserted and the unit joins the Commit Queue; the implicit group's
slot is CLOSED with that one member. Without words, the record, and the slot of an implicit group, are FREE and nothing closes. -/
def Obligations.SingleBurstUnitCloses : Prop :=
  ∀ (s : State) (r : Nat),
    calm s → s.link.st = .checking → s.link.handshake.isSome = true → s.link.isAttr = false → s.link.isRead = false →
    s.link.tag = 0 → s.link.pendVerdict = none → s.link.record = some r → r < s.staging.records.length →
    let c := s.groups.closeCounter
    let out := receiptOf s (if s.link.cut then .cut else .good) false
    let entry : OverlayEntry :=
      { start := (s.record r).start, wordCount := (s.record r).wordCount, closeNo := c, ordinal := (s.record r).ordinal.getD 1,
        record := r }
    let unit (o : Owner) : CommitUnit :=
      { owner := o, closeNo := c, stage := .closed, seq := none, start := none, len := none, progress := none }
    (s.link.mode = .checked → s.link.slot = none → s.link.count ≠ 0 →
      ∃ t, exec (.checkWord s.link.check) s = .next t ∧
        t = { s with
          link := {}, out := out, staging := t.staging, groups := { s.groups with closeCounter := c + 1 }
          overlay := s.overlay ++ [entry], queue := s.queue ++ [unit (.checked r)] } ∧
        t.record r = { s.record r with st := .closed, closeNo := some c } ∧ (∀ k, k ≠ r → t.record k = s.record k) ∧
        t.staging.pool = s.staging.pool ∧ t.staging.ram = s.staging.ram) ∧
    (s.link.mode = .checked → s.link.slot = none → s.link.count = 0 →
      ∃ t, exec (.checkWord s.link.check) s = .next t ∧
        t = { s with link := {}, out := out, staging := t.staging } ∧ recordFreed s t) ∧
    (∀ n, s.link.mode = .guarded → s.link.slot = some n → n < s.groups.slots.length → (s.slot n).members = [] →
      (s.slot n).tag = 0 →
      (s.link.count ≠ 0 →
        ∃ t, exec (.checkWord s.link.check) s = .next t ∧
          t = { s with
            link := {}, out := out, staging := t.staging, groups := t.groups, overlay := s.overlay ++ [entry]
            queue := s.queue ++ [unit (.guarded n)] } ∧
          t.record r = { s.record r with st := .closed, closeNo := some c } ∧ (∀ k, k ≠ r → t.record k = s.record k) ∧
          t.slot n = { s.slot n with
            st := .closed, members := [r], burstCount := (s.slot n).burstCount + 1
            wordCount := (s.slot n).wordCount + s.link.count, closeNo := some c, timer := none } ∧
          (∀ k, k ≠ n → t.slot k = s.slot k) ∧ t.groups.tags = s.groups.tags ∧ t.groups.closeCounter = c + 1) ∧
      (s.link.count = 0 →
        ∃ t, exec (.checkWord s.link.check) s = .next t ∧
          t = { s with link := {}, out := out, staging := t.staging, groups := t.groups } ∧ t.record r = {} ∧ t.slot n = {} ∧
          (∀ k, k ≠ r → t.record k = s.record k) ∧ (∀ k, k ≠ n → t.slot k = s.slot k) ∧ t.groups.tags = s.groups.tags ∧
          t.groups.closeCounter = c))

/-- R120, R173: CHECK_REPLY 1 is MATCH and gives a read GOOD, or CUT after a cut; any other word gives CHECK_FAIL, and CHECK_FAIL_SEEN is
set, but by R149 not in HELD, where the unit takes no events (log 21). A pending verdict stands over both. The receipt's CLOSE-TAKEN is
0. -/
def Obligations.CheckReply : Prop :=
  ∀ (s : State) (w : Word),
    calm s → s.link.st = .checking → s.link.handshake.isSome = true → s.link.isRead = true → s.link.hdr1.isSome = true →
    let v := s.link.pendVerdict.getD (if w = 1 then (if s.link.cut then .cut else .good) else .checkFail)
    ∃ t, exec (.checkReply w) s = .next t ∧
      t = { s with link := {}, out := receiptOf s v false, groups := (s.startIdle s.link.tag).groups, attn := t.attn } ∧
      noted s t (flagAt 8 (v == .checkFail && s.ctrl.opState != .held))

/-- R38, R121: HANDSHAKE_TIMER_EXPIRY ends a burst with its pending verdict, or HANDSHAKE_TIMEOUT: the record of a staged write is freed,
the group of an explicit tag rejected and the slot of an implicit one FREE (R14, R23, R34); a read or an attribute write has no further
effect; a DIRECT write ends when it has no request left, and otherwise waits for its requests (R106). A cut of the bridge that is due comes
first (log 37). GROUP_IDLE_EXPIRY rejects the group of a slot whose timer runs with cause IDLE_EXPIRY, and no other slot's. Model's
choices: the timers hold no elapsed time (log 8); a timer that is stopped cannot expire (log 2); a REJECTED slot's member list is emptied
(log 17). -/
def Obligations.TimersEndBurstsAndGroups : Prop :=
  ∀ s : State, calm s →
    (s.link.handshake.isSome = true → s.link.st = .stopping ∨ s.link.st = .checking → s.link.hdr1.isSome = true →
      let v := s.link.pendVerdict.getD .handshakeTimeout
      (s.link.isRead = true ∨ s.link.isAttr = true →
        exec .handshakeTimerExpiry s =
          .next { s with link := {}, out := receiptOf s v false, groups := (s.startIdle s.link.tag).groups }) ∧
      (s.link.directWrite = true →
        let done := s.port.waitDirect = [] ∧ ∀ x ∈ s.port.outstanding, ¬(x.requester = .direct ∧ x.disposition = .take)
        (¬done →
          exec .handshakeTimerExpiry s =
            .next { s with link := { s.link with st := .checking, handshake := none, exchange := .timedOut } }) ∧
        (done → s.ctrl.opState ≠ .held →
          ∃ t, exec .handshakeTimerExpiry s = .next t ∧
            t = { s with
              link := {}, out := receiptOf s v false, groups := (s.startIdle s.link.tag).groups, attn := t.attn } ∧
            noted s t (flagAt 8 (v == .checkFail) ||| flagAt 9 (v == .checkFail)))) ∧
      (s.link.commonWrite = true → s.ctrl.opState ≠ .held → v ≠ .good → v ≠ .cut →
        (∀ n, explicitWrite s n →
          ∃ t, exec .handshakeTimerExpiry s = .next t ∧
            t = { s with
              link := {}, out := receiptOf s v false, staging := t.staging, groups := t.groups, outcomes := t.outcomes
              attn := t.attn } ∧
            groupRejected s t n
              { cause := .verdict v, ordinal := some ((s.slot n).burstCount + 1), start := some s.link.start } s.link.record ∧
            noted s t (flagAt 8 (v == .checkFail) ||| flagAt 12 true)) ∧
        (s.link.mode ≠ .direct → s.link.tag = 0 →
          ∃ t, exec .handshakeTimerExpiry s = .next t ∧
            t = { s with
              link := {}, out := receiptOf s v false, staging := t.staging, groups := { s.groups with slots := t.groups.slots }
              attn := t.attn } ∧
            recordFreed s t ∧ (∀ n, s.link.slot = some n → t.slot n = {}) ∧ (∀ k, s.link.slot ≠ some k → t.slot k = s.slot k) ∧
            noted s t (flagAt 8 (v == .checkFail))))) ∧
    (stopDue s → s.link.hdr1.isSome = true →
      ∃ t, exec .handshakeTimerExpiry s = .next t ∧
        dataEnds { s with groups := (s.startIdle s.link.tag).groups } t {}
          (receiptOf s (s.link.pendVerdict.getD .handshakeTimeout) false)) ∧
    ∀ k : Fin 8,
      (((s.slot k).st ≠ .opened ∨ (s.slot k).timer = none) → exec (.groupIdleExpiry k) s = .next s) ∧
      ((s.slot k).st = .opened → (s.slot k).timer.isSome = true → (s.slot k).tag ≠ 0 → s.ctrl.opState ≠ .held →
        s.tag (s.slot k).tag = .opened k → k.val < s.groups.slots.length →
        ∃ t, exec (.groupIdleExpiry k) s = .next t ∧
          t = { s with staging := t.staging, groups := t.groups, outcomes := t.outcomes, attn := t.attn } ∧
          groupRejected s t k { cause := .idleExpiry, ordinal := none, start := none } none ∧ noted s t (flagAt 12 true))

/-! ### Attribute words (07 R123, 10 R151 to R157, 06 R97, 09 R140, R146, 12 R174) -/

/-- R174: a word at an offset without a row of its own is ignored: the burst of that one word ends GOOD and changes nothing but what the
link drove. The row is the whole burst with tag 0 (log 4). R124, R139, R146, R155, R163, R173, R174, R176 and the tables of 12.1 to 12.4:
the receipt word, and the word that each offset returns to a read: the capability chain, Control, the status words, the limits, the
Outcome Window, Journal Status, the Recovery Summary, the Fault Record and the Region Table; every other offset reads 0. -/
def Obligations.AttributeWordIgnored : Prop :=
  (∀ (s : State) (o : BitVec 8) (w : Word), ready s → offsetHasRow o.toNat = false →
    exec (.attributeWordWrite o w) s = .next { s with out := afterOneWord s .good }) ∧
  (∀ (v : Verdict) (tag count : Nat) (close : Bool), tag < 16 → count < 32768 →
    receiptWord v tag close count = num (verdictNo v + 2 ^ 8 * tag + 2 ^ 12 * bit close + 2 ^ 16 * count)) ∧
  ∀ s : State,
    let cap := 2 ^ s.straps.cap.toNat
    let jrn := 2 ^ s.straps.jrn.toNat
    let c := s.ctrl
    let j := s.journal
    let y := s.ctrl.summary
    let words (first n : Nat) : List Word := (List.range n).map fun i => s.readWord (first + i)
    words 0 64 =
      [0x401, 0xC7, 0x416, 1, 0x502, num (134217728 * cap), num (16384 * jrn), num (134217728 * cap - 1048576 * jrn),
        num (8192 * cap - 64 * jrn), 0x903, 16384, 32, 8, 15, 28, 16, 8, 16384, 0x304, 0x1EDC6F41, 0xFFFFFFFF, 0x1FF] ++
        List.replicate 42 0 ∧
    s.readWord 0x40 = num (bit c.hold + 16 * modeNo c.defaultMode + 256 * bit c.attnOn + 512 * bit (c.attnMode == .pulse)) ∧
    s.readWord 0x41 = num (stateNo c.opState) ∧ s.readWord 0x42 = num (refusalNo c.refusal) ∧
    (∀ i, (s.readWord 0x44).getLsbD i =
      (s.pins.resetN && c.opState != .held &&
        [c.opState == .armed, c.opState == .unconfigured, c.opState == .faulted, c.opState == .halted, !s.outcomes.queue.isEmpty,
          decide (3 * s.straps.ringBlocks ≤ 4 * j.live), s.pins.pwarn].getD i false)) ∧
    s.readWord 0x45 = s.attn.flags.setWidth 32 ∧ s.readWord 0x46 = s.attn.enable.setWidth 32 ∧
    words 0x48 3 = [num c.stallLimit, num c.handshakeLimit, num c.idleLimit] ∧
    (s.outcomes.queue = [] → words 0x50 8 = List.replicate 8 0) ∧
    (∀ x rest, s.outcomes.queue = x :: rest → x.outcome.tag < 16 →
      let r := x.outcome
      let ord := r.firstError.bind FirstError.ordinal
      let start := r.firstError.bind FirstError.start
      words 0x50 8 =
        [num (x.number.toNat + 2 ^ 16 * outcomeNo r.verdict + 2 ^ 20 * r.tag + 2 ^ 24 * bit r.seq.isSome +
            2 ^ 25 * bit r.firstError.isSome + 2 ^ 26 * bit ord.isSome + 2 ^ 27 * bit start.isSome),
          r.seq.getD 0, num r.burstCount, num r.wordCount,
          r.firstError.elim 0 (fun e => num (causeNo e.cause + 256 * ord.getD 0)), num (start.getD 0), 0, 0]) ∧
    s.readWord 0x58 = num s.outcomes.queue.length ∧
    words 0x60 8 =
      [num j.head, num j.tail, num j.live, j.nextSeq, j.generation, s.apply.position, j.headSeq,
        num (j.copy.val + 2 * bit j.inFlight.isSome + 4 * bit j.due)] ∧
    words 0x68 8 =
      [num (statusNo y.status), num (reasonNo y.reason), num y.startBlock, num y.entries, num y.words, num y.endBlock, y.nextSeq,
        y.generation] ∧
    (c.fault = none → words 0x70 8 = List.replicate 8 0) ∧
    (∀ x, c.fault = some x →
      words 0x70 8 =
        [num (1 + 2 ^ 8 * stateNo x.stateAt + 2 ^ 16 * requesterNo x.requester + 2 ^ 20 * bit (x.kind == .read)), num x.addr,
          num x.further, num x.dropped, 0, 0, 0, 0]) ∧
    (∀ i e, i < 8 → s.region.entries[i]? = some e → e.base < 65536 →
      words (0x80 + 2 * i) 2 = [num (e.base + 65536 * e.limit), num (bit e.valid + 16 * modeNo e.mode)]) ∧
    ∀ o, o = 0x43 ∨ o = 0x47 ∨ (0x4B ≤ o ∧ o ≤ 0x4F) ∨ (0x59 ≤ o ∧ o ≤ 0x5F) ∨ (0x78 ≤ o ∧ o ≤ 0x7F) ∨ 0x90 ≤ o →
      s.readWord o = 0

/-- R153, R156: a Control word with ARM that is taken in UNCONFIGURED writes its fields, latches the Default Mode from its DEFAULT_MODE and
makes the state ARMED; the Attention Unit notes the change. The row is the whole burst (log 4). -/
def Obligations.ArmTaken : Prop :=
  ∀ (s : State) (w : Word), ready s → controlTaken s w → controlArmBit w = true →
    ∃ t, exec (.arm w) s = .next t ∧
      t = { s with
        ctrl := { controlWritten s.ctrl w with opState := .armed }, region := { s.region with latched := controlMode w }
        out := afterOneWord s .good, attn := t.attn } ∧
      noted s t 0

/-- R153, R157, R40: a Control word with DRAIN that is taken in ARMED writes its fields, makes the state DRAINING and rejects every OPEN
explicit group with cause DRAINED; every other slot stays. Model's choices: the row is the whole burst (log 4), the outcomes become ready
in slot order (log 36), the state stays DRAINING also where the conditions of R158 already hold (log 32), and a REJECTED slot's member
list is emptied (log 17). -/
def Obligations.DrainTaken : Prop :=
  ∀ (s : State) (w : Word), ready s → s.tablesOk → controlTaken s w → controlDrainBit w = true →
    (∀ n, (s.slot n).openExplicit = true → s.tag (s.slot n).tag = .opened n) →
    let e : FirstError := { cause := .drained, ordinal := none, start := none }
    let hit := (List.range 8).filter fun n => (s.slot n).openExplicit
    ∃ t, exec (.drain w) s = .next t ∧
      t = { s with
        ctrl := { controlWritten s.ctrl w with opState := .draining }, staging := t.staging, groups := t.groups
        outcomes := { s.outcomes with
          pendPost := s.outcomes.pendPost ++ hit.map fun n => (rejectedSlot s n e).outcome n .rejected none }
        out := afterOneWord s .good, attn := t.attn } ∧
      (∀ n, t.slot n = if (s.slot n).openExplicit then rejectedSlot s n e else s.slot n) ∧
      (∀ n ∈ hit, t.tag (s.slot n).tag = .fencedSlot n ∧ ∀ r ∈ (s.slot n).members, t.record r = {}) ∧
      (∀ r, (∀ n ∈ hit, r ∉ (s.slot n).members) → t.record r = s.record r) ∧ t.staging.ram = s.staging.ram ∧
      noted s t (flagAt 12 (!hit.isEmpty))

/-- R134, R152 and the reset rules of the chapters: HARD_RESET and the effect of HOLD give every block its reset value, keep the
outstanding requests as DISCARD and keep what the staging store holds; only HELD and HOLD differ. A HOLD word that is taken outside HELD
is sent as a burst first (log 4); one that is taken in HELD writes HOLD and holds nothing anew. The completion of a DISCARD entry removes
it and does nothing else. Model's choices: while RESET_N is low the state is held as RECOVERING (log 6), what the data store holds is
kept (log 7), and the outputs are silent after a reset and stay after a hold (log 25). -/
def Obligations.HoldAndReset : Prop :=
  ∀ s : State,
    exec .hardReset s = .next { resetValues s .recovering false with pins := { s.pins with resetN := false }, out := {} } ∧
    (∀ w, s.ctrl.holdDue = some .hold → exec (.hold w) s = .next (resetValues s .held true)) ∧
    (∀ w, ready s → s.ctrl.opState ≠ .held → controlTaken s w → controlHoldBit w = true →
      exec (.hold w) s = .next { resetValues s .held true with out := afterOneWord s .good }) ∧
    (∀ w, ready s → s.ctrl.opState = .held → controlTaken s w → controlHoldBit w = true →
      exec (.hold w) s = .next { s with ctrl := { s.ctrl with hold := true }, out := afterOneWord s .good }) ∧
    (∀ o rest c, s.port.outstanding = o :: rest → o.disposition = .discard →
      exec (.discardedCompletion c) s = .next { s with port := { s.port with outstanding := rest } })

/-- R151, R153: at RESET_RELEASE, and when the HOLD_RELEASE that is due takes effect, the straps are sampled and the bridge enters
RECOVERING and begins recovery, or HALTED if PWARN is asserted. A Control word with HOLD 0 in HELD is sent as a burst first (log 4).
RESET_RELEASE with RESET_N high changes nothing (log 2). Model's choices: the straps are operands (log 31), and the engines are STOPPED
after a release into HALTED (log 24). -/
def Obligations.Released : Prop :=
  ∀ (s : State) (cap jrn : BitVec 2),
    let high : State := { s with pins := { s.pins with resetN := true } }
    let sent (w : Word) : Prop := ready s ∧ s.ctrl.opState = .held ∧ controlTaken s w ∧ controlHoldBit w = false
    (s.pins.resetN = true → exec (.resetRelease cap jrn) s = .next s) ∧
    (s.pins.pwarn = false →
      (s.pins.resetN = false → exec (.resetRelease cap jrn) s = .next (released high cap jrn)) ∧
      (∀ w, s.ctrl.holdDue = some .release → exec (.holdRelease w cap jrn) s = .next (released s cap jrn)) ∧
      ∀ w, sent w → exec (.holdRelease w cap jrn) s = .next { released s cap jrn with out := afterOneWord s .good }) ∧
    (s.pins.pwarn = true →
      (s.pins.resetN = false → exec (.resetRelease cap jrn) s = .next (releasedHalted high cap jrn)) ∧
      (∀ w, s.ctrl.holdDue = some .release → exec (.holdRelease w cap jrn) s = .next (releasedHalted s cap jrn)) ∧
      ∀ w, sent w → exec (.holdRelease w cap jrn) s = .next { releasedHalted s cap jrn with out := afterOneWord s .good })

/-- R98, R147, R153: a Control word without ARM and DRAIN that is taken outside HELD writes HOLD, DEFAULT_MODE and the ATTN fields, and ATTN
is decided anew; the latched Default Mode stays. In HELD it writes HOLD alone. The rows are the whole burst (log 4). -/
def Obligations.ControlSettings : Prop :=
  ∀ (s : State) (w : Word), ready s → controlTaken s w → controlArmBit w = false → controlDrainBit w = false →
    ∀ i ∈ [Instr.defaultModeWrite w, .attnControlWrite w],
      (s.ctrl.opState ≠ .held →
        ∃ t, exec i s = .next t ∧
          t = { s with ctrl := controlWritten s.ctrl w, out := afterOneWord s .good, attn := t.attn } ∧ noted s t 0) ∧
      (s.ctrl.opState = .held →
        exec i s =
          .next { s with
            ctrl := { s.ctrl with
              hold := controlHoldBit w, holdDue := if controlHoldBit w then none else some .release }
            out := afterOneWord s .good })

/-- R99, R153, R154: a Control word is refused with BOTH_REQUESTS, else MODE_LOCKED, else STATE, else for an arm TABLE_RANGE, else
TABLE_OVERLAP. It then changes nothing but the Config Refusal Code, the CONFIG_REFUSED flag, which HELD does not set (log 21), and the
burst's verdict CONFIG_REFUSED. The rows are the whole burst (log 4). -/
def Obligations.ControlRefused : Prop :=
  ∀ (s : State) (w : Word) (c : ConfigCode) (cap jrn : BitVec 2), ready s →
    let both := controlArmBit w = true ∧ controlDrainBit w = true
    let locked := (s.ctrl.opState = .armed ∨ s.ctrl.opState = .draining) ∧ controlMode w ≠ s.ctrl.defaultMode
    let wrong :=
      (controlArmBit w = true ∧ s.ctrl.opState ≠ .unconfigured) ∨ (controlDrainBit w = true ∧ s.ctrl.opState ≠ .armed)
    let range := ∃ e ∈ s.region.entries, e.valid = true ∧ (e.limit < e.base ∨ s.straps.visibleGranules ≤ e.limit)
    let overlap := ∃ (i j : Nat) (a b : RegionEntry), i < j ∧ s.region.entries[i]? = some a ∧ s.region.entries[j]? = some b ∧
      a.valid = true ∧ b.valid = true ∧ ∃ g, a.base ≤ g ∧ g ≤ a.limit ∧ b.base ≤ g ∧ g ≤ b.limit
    ((both ∧ c = .bothRequests) ∨ (¬both ∧ locked ∧ c = .modeLocked) ∨ (¬both ∧ ¬locked ∧ wrong ∧ c = .state) ∨
      (¬both ∧ ¬locked ∧ ¬wrong ∧ controlArmBit w = true ∧ ((range ∧ c = .tableRange) ∨ (¬range ∧ overlap ∧ c = .tableOverlap)))) →
    ∀ i ∈ [Instr.arm w, .drain w, .defaultModeWrite w, .attnControlWrite w, .hold w, .holdRelease w cap jrn],
      ∃ t, exec i s = .next t ∧
        t = { s with ctrl := { s.ctrl with refusal := c }, out := afterOneWord s .configRefused, attn := t.attn } ∧
        noted s t (flagAt 11 (s.ctrl.opState != .held))

/-- R155: the limit words are taken in every state but HELD, where they are ignored; a Stall or Handshake Limit of 0 is refused with
RANGE and the limit keeps its value; only the field bits carry a value, and no running timer changes. The row is the whole burst (log 4). -/
def Obligations.LimitWritten : Prop :=
  ∀ (s : State) (w : Word), ready s →
    (s.ctrl.opState = .held → ∀ x, exec (.limitWrite x w) s = .next { s with out := afterOneWord s .good }) ∧
    (s.ctrl.opState ≠ .held →
      (w.toNat % 1024 ≠ 0 →
        exec (.limitWrite .stall w) s =
          .next { s with ctrl := { s.ctrl with stallLimit := w.toNat % 1024 }, out := afterOneWord s .good } ∧
        exec (.limitWrite .handshake w) s =
          .next { s with ctrl := { s.ctrl with handshakeLimit := w.toNat % 1024 }, out := afterOneWord s .good }) ∧
      (w.toNat % 1024 = 0 → ∀ x, x ≠ LimitName.groupIdle →
        ∃ t, exec (.limitWrite x w) s = .next t ∧
          t = { s with ctrl := { s.ctrl with refusal := .range }, out := afterOneWord s .configRefused, attn := t.attn } ∧
          noted s t (flagAt 11 true)) ∧
      exec (.limitWrite .groupIdle w) s =
        .next { s with ctrl := { s.ctrl with idleLimit := w.toNat % 65536 }, out := afterOneWord s .good })

/-- R97: in UNCONFIGURED a table word writes its own fields of its entry and no other; in every other state but HELD, where the flag is
not set (log 21), it is refused with TABLE_LOCKED and the table stays. The row is the whole burst (log 4). -/
def Obligations.RegionTableWritten : Prop :=
  ∀ (s : State) (i : Fin 16) (w : Word), ready s → s.region.entries.length = 8 →
    (s.ctrl.opState = .unconfigured →
      ∃ t, exec (.regionTableWrite i w) s = .next t ∧
        t = { s with region := { s.region with entries := t.region.entries }, out := afterOneWord s .good } ∧
        t.region.entries.length = 8 ∧ (∀ k, k ≠ i.val / 2 → t.region.entries[k]? = s.region.entries[k]?) ∧
        (∀ e, s.region.entries[i.val / 2]? = some e →
          t.region.entries[i.val / 2]? = some
            (if i.val % 2 = 0 then { e with base := w.toNat % 65536, limit := w.toNat / 65536 }
             else { e with valid := w.getLsbD 0, mode := Mode.ofCode (w.toNat / 16 % 4) }))) ∧
    (s.ctrl.opState ≠ .unconfigured → s.ctrl.opState ≠ .held →
      ∃ t, exec (.regionTableWrite i w) s = .next t ∧
        t = { s with ctrl := { s.ctrl with refusal := .tableLocked }, out := afterOneWord s .configRefused, attn := t.attn } ∧
        noted s t (flagAt 11 true)) ∧
    (s.ctrl.opState = .held →
      exec (.regionTableWrite i w) s =
        .next { s with ctrl := { s.ctrl with refusal := .tableLocked }, out := afterOneWord s .configRefused })

/-- R146, R147, R148: a Changed flags word gives each flag whose mask bit is 1 its value bit and leaves the others; an Attention Enable
word replaces all 16 enables; ATTN is decided anew. In HELD both are ignored. ATTN_PULSE_END deasserts ATTN in pulse mode with ATTN_ON.
The write rows are the whole burst (log 4), and the row's own event ends a pulse (log 27). -/
def Obligations.AttentionWords : Prop :=
  ∀ s : State,
    (s.ctrl.attnOn = true → s.ctrl.attnMode = .pulse → exec .attnPulseEnd s = .next { s with attn := { s.attn with line := false } }) ∧
    (¬(s.ctrl.attnOn = true ∧ s.ctrl.attnMode = .pulse) → exec .attnPulseEnd s = .next s) ∧
    ∀ w : Word, ready s →
      (s.ctrl.opState = .held → ∀ i ∈ [Instr.changedFlagsWrite w, .attentionEnableWrite w],
        exec i s = .next { s with out := afterOneWord s .good }) ∧
      (s.ctrl.opState ≠ .held →
        (∃ t, exec (.changedFlagsWrite w) s = .next t ∧ t = { s with attn := t.attn, out := afterOneWord s .good } ∧
          (∀ i, i < 16 → t.attn.flags.getLsbD i = if w.getLsbD (16 + i) then w.getLsbD i else s.attn.flags.getLsbD i) ∧
          t.attn.enable = s.attn.enable ∧ t.attnOk ∧
          (s.ctrl.attnOn = true → s.ctrl.attnMode = .pulse →
            t.attn.line = (s.attn.line || (t.attn.flags &&& ~~~s.attn.flags &&& s.attn.enable) != 0))) ∧
        (∃ t, exec (.attentionEnableWrite w) s = .next t ∧ t = { s with attn := t.attn, out := afterOneWord s .good } ∧
          t.attn.enable = w.setWidth 16 ∧ t.attn.flags = s.attn.flags ∧ t.attnOk ∧
          (s.ctrl.attnOn = true → s.ctrl.attnMode = .pulse → t.attn.line = s.attn.line)))

/-- R140: an Outcome Ack word whose number equals the head record's removes that record, and for a REJECTED one the tag that is FENCED with
the number becomes FREE. Otherwise it is refused with ACK_MISMATCH and the queue and the tags stay; HELD does not set the flag (log 21).
The row is the whole burst (log 4). -/
def Obligations.OutcomeAcknowledged : Prop :=
  ∀ (s : State) (w : Word), ready s →
    (∀ r rest, s.outcomes.queue = r :: rest → r.number.toNat = w.toNat % 65536 →
      ∃ t, exec (.outcomeAck w) s = .next t ∧
        t = { s with
          outcomes := { s.outcomes with queue := rest }, groups := t.groups, out := afterOneWord s .good, attn := t.attn } ∧
        t.groups.slots = s.groups.slots ∧ t.groups.closeCounter = s.groups.closeCounter ∧
        (r.outcome.verdict = .rejected → s.tag r.outcome.tag = .fencedNumber r.number →
          t.tag r.outcome.tag = .free ∧ ∀ g, g ≠ r.outcome.tag → t.tag g = s.tag g) ∧
        (r.outcome.verdict ≠ .rejected → t.groups = s.groups) ∧ noted s t 0) ∧
    ((∀ r, s.outcomes.queue.head? = some r → r.number.toNat ≠ w.toNat % 65536) →
      ∃ t, exec (.outcomeAck w) s = .next t ∧
        t = { s with ctrl := { s.ctrl with refusal := .ackMismatch }, out := afterOneWord s .configRefused, attn := t.attn } ∧
        noted s t (flagAt 11 (s.ctrl.opState != .held)))

/-! ### Outcomes, the drain and the commit path (09 R137, 10 R158, 04 R64 to R69, 03 R51, R52) -/

/-- R137, R138: with room in the queue the head of the pending-post list is posted with the counter's number; the slot of a REJECTED or
APPLIED group, and of a DURABLE empty one, becomes FREE and any other is marked posted; the fence of a REJECTED outcome's tag takes the
number. With no room, or nothing ready, nothing happens. Model's choices: the post is a command of its own (log 3), which changes nothing
with nothing to post (log 2); an APPLIED slot's member list is empty (log 17). -/
def Obligations.OutcomePosted : Prop :=
  ∀ s : State, s.attnOk →
    (s.outcomes.pendPost = [] ∨ 16 ≤ s.outcomes.queue.length → exec .outcomePost s = .next s) ∧
    (∀ o rest, s.outcomes.pendPost = o :: rest → s.outcomes.queue.length < 16 → o.slot < s.groups.slots.length →
      ∃ t, exec .outcomePost s = .next t ∧
        t = { s with
          outcomes := {
            queue := s.outcomes.queue ++ [{ number := s.outcomes.counter, outcome := o }], pendPost := rest
            counter := s.outcomes.counter + 1 }
          groups := t.groups, attn := t.attn } ∧
        (let g := s.slot o.slot
         t.slot o.slot =
          if g.st = .rejected ∨ g.st = .applied ∨ (g.st = .durable ∧ g.burstCount = 0) then {} else { g with posted := true }) ∧
        (∀ k, k ≠ o.slot → t.slot k = s.slot k) ∧ t.groups.closeCounter = s.groups.closeCounter ∧
        (o.verdict = .rejected → s.tag o.tag = .fencedSlot o.slot →
          t.tag o.tag = .fencedNumber s.outcomes.counter ∧ ∀ g, g ≠ o.tag → t.tag g = s.tag g) ∧
        (o.verdict ≠ .rejected → t.groups.tags = s.groups.tags) ∧ noted s t 0)

/-- R158: a drain completes when the Commit Queue is empty, no slot is in use, no anchor write is in flight, anchor-due is clear and the
anchored head equals the tail: the state becomes UNCONFIGURED and DRAIN_DONE is reported. Otherwise nothing happens. Model's choices: the
completion is a command of its own (log 32), which changes nothing before it is due (log 2). -/
def Obligations.DrainCompletes : Prop :=
  ∀ s : State,
    let done := s.ctrl.opState = .draining ∧ s.queue = [] ∧ (∀ g ∈ s.groups.slots, g.st = .free) ∧ s.journal.inFlight = none ∧
      s.journal.due = false ∧ s.journal.head = s.journal.tail
    (done →
      ∃ t, exec .drainComplete s = .next t ∧ t = { s with ctrl := { s.ctrl with opState := .unconfigured }, attn := t.attn } ∧
        noted s t (flagAt 14 true)) ∧
    (¬done → s.attnOk → exec .drainComplete s = .next s)

/-- R64, R65: the IDLE Commit Engine, in ARMED or DRAINING, takes the GUARDED unit nearest the front whose stage is CLOSED and asks for
its 2 + ⌈w / 64⌉ blocks; with no such unit, or else, it takes none. Model's choices: the taking is a command of its own (log 3), which
changes nothing with no unit to take (log 2). -/
def Obligations.CommitTakesUnit : Prop :=
  ∀ s : State,
    (∀ front back u n, s.commit.st = .idle → (s.ctrl.opState = .armed ∨ s.ctrl.opState = .draining) →
      s.queue = front ++ u :: back → (∀ x ∈ front, x.isGuarded = true → x.stage ≠ .closed) → u.owner = .guarded n →
      u.stage = .closed →
      exec .commitTakeUnit s =
        .next { s with
          commit := { st := .waitingSpace, inHand := some u.closeNo }
          journal := { s.journal with blockReq := some (2 + ((s.slot n).wordCount + 63) / 64) } }) ∧
    ((s.commit.st ≠ .idle ∨ (s.ctrl.opState ≠ .armed ∧ s.ctrl.opState ≠ .draining) ∨
        ∀ x ∈ s.queue, x.isGuarded = true → x.stage ≠ .closed) →
      exec .commitTakeUnit s = .next s)

/-- What the handing over of a grant does to the unit in hand: its sequence, start block and length are set and its stage is JOURNALING
(04 R65). -/
def granted (u x : CommitUnit) (seq : Word) (start len : Nat) : CommitUnit :=
  if x.closeNo = u.closeNo then { x with seq := some seq, start := some start, len := some len, stage := .journaling } else x

/-- From s to t the grant of `len` blocks at `start` with sequence `seq` is handed over to the unit u of slot n: the slot holds the
sequence and the Commit Engine writes, with the four requests of the header and of each data block waiting (04 R65, R66). -/
def handedOver (s t : State) (u : CommitUnit) (n : Nat) (seq : Word) (start len : Nat) : Prop :=
  t.queue = s.queue.map (fun x => granted u x seq start len) ∧ t.slot n = { s.slot n with journalSeq := some seq } ∧
  (∀ k, k ≠ n → t.slot k = s.slot k) ∧ t.groups.tags = s.groups.tags ∧ t.groups.closeCounter = s.groups.closeCounter ∧
  t.commit = { s.commit with st := .writing, entryCheck := 0xFFFFFFFF#32, completed := 0 } ∧
  t.port.waitCommit = entryRequests (len - 2)

/-- R51, R52: with live + S + L at most ring blocks less 1 the request of L blocks is granted: live blocks rise by S + L, the tail moves
past the entry and the next sequence is assigned; with S = 0 the grant is handed over at once, and otherwise the skip block at the old
tail is written first. Without the room the request waits. Model's choices: the grant is a command of its own (log 3), which changes
nothing without the room (log 2). -/
def Obligations.BlocksGranted : Prop :=
  ∀ (s : State) (len : Nat), s.journal.blockReq = some len →
    let j := s.journal
    let last := s.straps.lastBlock
    let skip := if j.tail + len - 1 ≤ last then 0 else last + 1 - j.tail
    (s.attnOk → s.straps.ringBlocks - 1 < j.live + skip + len → exec .blockGrant s = .next s) ∧
    (∀ u n, j.live + skip + len ≤ s.straps.ringBlocks - 1 → s.inHand = some u → u.owner = .guarded n →
      n < s.groups.slots.length →
      let start := if skip = 0 then j.tail else 2
      let j1 : Journal :=
        { j with
          tail := s.straps.nextBlock (start + len - 1), live := j.live + skip + len, nextSeq := j.nextSeq + 1, blockReq := none }
      ∃ t, exec .blockGrant s = .next t ∧ noted s t 0 ∧
        (skip = 0 →
          t = { s with
            journal := j1, queue := t.queue, groups := t.groups, commit := t.commit
            port := { s.port with waitCommit := t.port.waitCommit }, attn := t.attn } ∧
          handedOver s t u n j.nextSeq start len) ∧
        (skip ≠ 0 →
          t = { s with
            journal := { j1 with skipGrant := some { seq := j.nextSeq, len := len } }
            port := { s.port with waitCommit := s.port.waitCommit ++ [.skip j.tail j.nextSeq] }, attn := t.attn }))

/-! ### The Memory Port (08 R127 to R133) -/

/-- The requesters in the order the arbiter visits them after the one last granted (08 R130). -/
def visitOrder (p : Requester) : List Requester :=
  let all : List Requester := [.read, .direct, .commit, .anchor, .apply, .recovery]
  (all.dropWhile (· != p)).tail ++ all.takeWhile (· != p) ++ [p]

/-- Requester r has a waiting request and, for READ, fewer than 4 READ entries are outstanding (08 R130). -/
def mayIssue (s : State) (r : Requester) : Prop :=
  match r with
  | .read => s.port.waitRead ≠ [] ∧ (s.port.outstanding.filter fun o => o.requester == .read).length < 4
  | .direct => s.port.waitDirect ≠ []
  | .commit => s.port.waitCommit ≠ []
  | .anchor => s.port.waitAnchor = true ∧ s.journal.inFlight.isSome = true
  | .apply => s.port.waitApply ≠ []
  | .recovery => s.port.waitRecovery.isSome = true

/-- R128, R130, R133: ARBITER_GRANT, with fewer than 8 requests outstanding, outside HALTED and with RESET_N high, grants the oldest
waiting request of the first eligible requester after the pointer: it is appended and issued, the pointer names its requester, and every
other requester's requests wait on. The request is the one its block made: the span, the DIRECT words, the anchor in flight, the run of
the member or recovery's own. R105: at a DIRECT grant a full collecting span that waited is handed over. R72: an APPLY grant raises the
front unit's issued count. Model's choices: the grant is a command of its own (log 3), which changes nothing with nothing to grant (log
2); an entry holds its role (log 15). -/
def Obligations.ArbiterGrants : Prop :=
  ∀ s : State,
    let free := s.pins.resetN = true ∧ s.ctrl.opState ≠ .halted ∧ s.port.outstanding.length < 8
    ((¬free ∨ ∀ r, ¬mayIssue s r) → exec .arbiterGrant s = .next s) ∧
    ∀ front r back, free → visitOrder s.port.pointer = front ++ r :: back → (∀ x ∈ front, ¬mayIssue s x) → mayIssue s r →
      ∃ t q role, exec .arbiterGrant s = .next t ∧
        t = { s with port := t.port, out := { s.out with issued := some q }, link := t.link, queue := t.queue, commit := t.commit } ∧
        t.port.outstanding = s.port.outstanding ++
          [{ requester := r, kind := q.kind, addr := q.addr, len := q.len, disposition := .take, role := role }] ∧
        t.port.pointer = r ∧ (r ≠ .direct → t.link = s.link) ∧ (r ≠ .apply → t.queue = s.queue) ∧
        (r ≠ .commit → t.commit = s.commit) ∧ (r ≠ .read → t.port.waitRead = s.port.waitRead) ∧
        (r ≠ .direct → t.port.waitDirect = s.port.waitDirect) ∧ (r ≠ .commit → t.port.waitCommit = s.port.waitCommit) ∧
        (r ≠ .anchor → t.port.waitAnchor = s.port.waitAnchor) ∧ (r ≠ .apply → t.port.waitApply = s.port.waitApply) ∧
        (r ≠ .recovery → t.port.waitRecovery = s.port.waitRecovery) ∧
        (∀ n rest, r = .read → s.port.waitRead = n :: rest →
          q = { kind := .read, addr := (s.span n).base, len := (s.span n).len, words := [] } ∧ role = .span n ∧
          t.port.waitRead = rest) ∧
        (∀ d rest, r = .direct → s.port.waitDirect = d :: rest →
          q = { kind := .write, addr := d.addr, len := d.words.length, words := d.words } ∧ role = .direct ∧
          if s.link.st = .streaming ∧ s.link.collecting.length = 16 ∧ rest = [] then
            t.link = { s.link with collecting := [] } ∧
            t.port.waitDirect = [{ addr := s.link.start + s.link.count - 16, words := s.link.collecting }]
          else t.link = s.link ∧ t.port.waitDirect = rest) ∧
        (∀ c rest, r = .commit → s.port.waitCommit = c :: rest →
          t.port.waitCommit = rest ∧ t.commit = { s.commit with entryCheck := t.commit.entryCheck }) ∧
        (∀ a, r = .anchor → s.journal.inFlight = some a →
          q.kind = .write ∧ q.addr = s.straps.blockAddr a.copy.val ∧ q.words = anchorWords a.generation a.head a.headSeq ∧
          q.len = 16 ∧ role = .anchor ∧ t.port.waitAnchor = false) ∧
        (∀ a rest, r = .apply → s.port.waitApply = a :: rest →
          q.kind = .write ∧ q.addr = (s.record a.record).start + a.off ∧ q.len = a.len ∧ role = .run ∧
          (∀ i, i < a.len → q.words[i]? = some (s.staging.word (s.record a.record) (a.off + i))) ∧ t.port.waitApply = rest ∧
          ∀ u units, s.queue = u :: units →
            t.queue = { u with progress := u.progress.map fun p => { p with issued := p.issued + 1 } } :: units) ∧
        (∀ x, r = .recovery → s.port.waitRecovery = some x → q = x.req ∧ role = x.role ∧ t.port.waitRecovery = none)

/-- R45 to R48, R66: the words and the place of a COMMIT request, granted where COMMIT is the first eligible requester after the pointer. A
skip block carries its sequence. Of the unit in hand the header block holds the marker, its kind, the sequence, the burst count, the total
words, the length, the header check and one descriptor for each member in ordinal order, the data blocks the members' words in that order,
and the mark the entry check, which the header's and the data's words feed in the order they are issued. -/
def Obligations.CommitRequestIssued : Prop :=
  ∀ (s : State) (front back : List Requester) (c : CommitReq) (rest : List CommitReq),
    s.pins.resetN = true → s.ctrl.opState ≠ .halted → s.port.outstanding.length < 8 →
    visitOrder s.port.pointer = front ++ .commit :: back → (∀ x ∈ front, ¬mayIssue s x) → s.port.waitCommit = c :: rest →
    ∃ t q, exec .arbiterGrant s = .next t ∧ t.out.issued = some q ∧ q.kind = .write ∧ q.len = q.words.length ∧
      t.port.waitCommit = rest ∧
      (∀ k sq, c = .skip k sq →
        q.addr = s.straps.blockAddr k ∧ t.commit = s.commit ∧ q.words = [0x4A524E4C#32, 3, sq] ++ List.replicate 13 0) ∧
      ∀ u n b len seq, s.inHand = some u → u.owner = .guarded n → u.start = some b → u.len = some len → u.seq = some seq →
        (s.slot n).members.length ≤ 28 →
        let ms := (s.slot n).members
        let first : List Word := [0x4A524E4C, 1, seq, num ms.length, num (s.slot n).wordCount, num len]
        let descs : List Word := (List.range 56).map fun i =>
          if i / 2 < ms.length then
            let x := s.record (ms.getD (i / 2) 0)
            if i % 2 = 0 then num x.start else num x.wordCount
          else 0
        let header := first ++ [checkOf (first ++ [0] ++ descs), 0] ++ descs
        let data := ms.flatMap fun m => (List.range (s.record m).wordCount).map fun i => s.staging.word (s.record m) i
        (c = .mark →
          q.addr = s.straps.blockAddr (b + len - 1) ∧ t.commit = s.commit ∧
          q.words = [0x4A524E4C#32, 2, seq, s.commit.entryCheck] ++ List.replicate 12 0) ∧
        (∀ k, c = .header k →
          q.addr = s.straps.blockAddr b + 16 * k ∧ q.words = (header.drop (16 * k)).take 16 ∧
          t.commit = { s.commit with entryCheck := checkFeed s.commit.entryCheck q.words }) ∧
        (∀ k i, c = .data k i →
          q.addr = s.straps.blockAddr (b + 1 + k) + 16 * i ∧ q.len = 16 ∧
          (∀ x, x < 16 → q.words[x]? = some (data.getD (64 * k + 16 * i + x) 0)) ∧
          t.commit = { s.commit with entryCheck := checkFeed s.commit.entryCheck q.words })

/-- R52, R66, R67: SKIP_COMPLETION OK hands the waiting grant over at block 2; COMMIT_REQUEST_COMPLETION OK counts the request, and after
the last of the entry's header and data requests the mark is presented. -/
def Obligations.CommitRequestsComplete : Prop :=
  ∀ (s : State) (o : Outstanding) (rest : List Outstanding),
    s.attnOk → s.port.outstanding = o :: rest →
    (o.isFor .skip = true →
      (∀ g u n, s.journal.skipGrant = some g → s.inHand = some u → u.owner = .guarded n → n < s.groups.slots.length →
        ∃ t, exec (.skipCompletion .ok) s = .next t ∧
          t = { s with
            journal := { s.journal with skipGrant := none }, queue := t.queue, groups := t.groups, commit := t.commit
            port := { s.port with outstanding := rest, waitCommit := t.port.waitCommit } } ∧
          handedOver s t u n g.seq 2 g.len) ∧
      (s.journal.skipGrant = none → exec (.skipCompletion .ok) s = .next s.dropHead)) ∧
    (o.isFor .entry = true →
      (∀ u len, s.commit.st = .writing → s.inHand = some u → u.len = some len →
        (s.commit.completed + 1 = 4 * (len - 1) →
          exec (.commitRequestCompletion .ok) s =
            .next { s with
              commit := { s.commit with st := .marking, completed := s.commit.completed + 1 }
              port := { s.port with outstanding := rest, waitCommit := [.mark] } }) ∧
        (s.commit.completed + 1 ≠ 4 * (len - 1) →
          exec (.commitRequestCompletion .ok) s =
            .next { s with
              commit := { s.commit with completed := s.commit.completed + 1 }, port := { s.port with outstanding := rest } })) ∧
      (s.commit.st ≠ .writing → exec (.commitRequestCompletion .ok) s = .next s.dropHead))

/-- R67, R69: MARK_COMPLETION OK makes the JOURNALING unit in hand and its slot DURABLE and its DURABLE outcome ready. A MARKING engine
then becomes IDLE and takes the next unit at once; a STOPPED engine stays STOPPED. Where the unit was dropped at the entry to FAULTED or
HALTED, OK changes nothing. R76, R160: ERROR in FAULTED and HALTED is recorded as a further fault, or in HALTED without a first fault as
the first, and a JOURNALING unit kept for its mark is then ABANDONED and dropped, its outcome ready. Model's choice: the ABANDONED slot
holds its first error (log 18). -/
def Obligations.MarkCompletes : Prop :=
  ∀ (s : State) (o : Outstanding) (rest : List Outstanding),
    s.attnOk → s.port.outstanding = o :: rest → o.isFor .mark = true →
    let dropped : Prop := ∀ u, s.inHand = some u → u.stage ≠ .journaling
    (∀ (u : CommitUnit) (n : Nat), s.inHand = some u → u.stage = .journaling → u.owner = .guarded n → n < s.groups.slots.length →
      (∀ x ∈ s.queue, x.closeNo = u.closeNo → x = u) →
      ∃ t, exec (.markCompletion .ok) s = .next t ∧
        t = { s with
          queue := s.queue.map (fun x => if x.closeNo = u.closeNo then { x with stage := .durable } else x), groups := t.groups
          outcomes := { s.outcomes with
            pendPost := s.outcomes.pendPost ++ [({ s.slot n with st := .durable } : GroupSlot).outcome n .durable u.seq] }
          commit := t.commit, journal := t.journal, port := { s.port with outstanding := rest } } ∧
        t.slot n = { s.slot n with st := .durable } ∧ (∀ k, k ≠ n → t.slot k = s.slot k) ∧ t.groups.tags = s.groups.tags ∧
        t.groups.closeCounter = s.groups.closeCounter ∧
        (s.commit.st ≠ .marking → t.commit = s.commit ∧ t.journal = s.journal) ∧
        (s.commit.st = .marking →
          ((∀ x ∈ s.queue, x.isGuarded = true → x.stage ≠ .closed) → t.commit = {} ∧ t.journal = s.journal) ∧
          (∀ front back v m, s.ctrl.opState = .armed ∨ s.ctrl.opState = .draining → s.queue = front ++ v :: back →
            (∀ x ∈ front, x.isGuarded = true → x.stage ≠ .closed) → v.owner = .guarded m → v.stage = .closed →
            t.commit = { st := .waitingSpace, inHand := some v.closeNo } ∧
            t.journal = { s.journal with blockReq := some (2 + ((s.slot m).wordCount + 63) / 64) }))) ∧
    (dropped → s.commit.st ≠ .marking → exec (.markCompletion .ok) s = .next s.dropHead) ∧
    (s.ctrl.opState = .faulted ∨ s.ctrl.opState = .halted →
      let fault : FaultRecord :=
        match s.ctrl.fault with
        | some f => { f with further := min (f.further + 1) 65535 }
        | none => { stateAt := s.ctrl.opState, requester := o.requester, kind := o.kind, addr := o.addr, further := 0, dropped := 0 }
      let reported : State := { s with ctrl := { s.ctrl with fault := some fault }, port := { s.port with outstanding := rest } }
      (dropped → exec (.markCompletion .error) s = .next reported) ∧
      (∀ (u : CommitUnit) (n : Nat), s.inHand = some u → u.stage = .journaling → u.owner = .guarded n → n < s.groups.slots.length →
        let gone : GroupSlot :=
          { s.slot n with
            st := .abandoned, firstError := some { cause := .verdict .stopped, ordinal := none, start := none } }
        ∃ t, exec (.markCompletion .error) s = .next t ∧
          t = { reported with
            queue := s.queue.filter fun x => x.closeNo ≠ u.closeNo
            groups := t.groups
            outcomes := { s.outcomes with pendPost := s.outcomes.pendPost ++ [gone.outcome n .abandoned none] } } ∧
          t.slot n = gone ∧ (∀ k, k ≠ n → t.slot k = s.slot k) ∧ t.groups.tags = s.groups.tags ∧
          t.groups.closeCounter = s.groups.closeCounter))

/-- R71 to R74, R17, R57: APPLY_TAKE_UNIT begins the front unit as soon as it is appliable. APPLY_COMPLETION OK counts; a member's last one
removes its overlay entry, frees its record with its chunks and begins the next member; a GUARDED unit's last member finishes it: it leaves
the queue, its slot becomes APPLIED or, once posted, FREE, the Apply Position takes its sequence and the anchor past its mark is newest
finished. A CHECKED unit's member finishes it likewise, with neither slot, sequence nor anchor. The engine is then IDLE, and begins the
next front unit at once if that is appliable. Model's choices: the taking is a command of its own (log 3), and an APPLIED slot's member
list is emptied (log 17). -/
def Obligations.ApplyEngineRuns : Prop :=
  ∀ (s : State) (u : CommitUnit) (units : List CommitUnit), s.queue = u :: units →
    let begun (i : Nat) : CommitUnit := { u with stage := .applying, progress := some { ordinal := i, issued := 0, completed := 0 } }
    let member (i : Nat) : Nat := (s.membersOf u).getD (i - 1) 0
    ((s.ctrl.opState = .armed ∨ s.ctrl.opState = .draining) → s.apply.st = .idle →
      ((u.isGuarded = true ∧ u.stage = .durable) ∨ (u.isGuarded = false ∧ u.stage = .closed)) →
      exec .applyTakeUnit s =
        .next { s with
          apply := { s.apply with st := .applying }, staging := s.staging.move (member 1) .applying, queue := begun 1 :: units
          port := { s.port with waitApply := applyRuns (member 1) (s.record (member 1)).wordCount } }) ∧
    (∀ o rest p, s.attnOk → s.port.outstanding = o :: rest → o.isFor .run = true → s.apply.st = .applying → u.progress = some p →
      1 ≤ p.ordinal →
      let r := member p.ordinal
      let total := ((s.record r).wordCount + 15) / 16
      (p.completed + 1 ≠ total →
        exec (.applyCompletion .ok) s =
          .next { s with
            queue := { u with progress := some { p with completed := p.completed + 1 } } :: units
            port := { s.port with outstanding := rest } }) ∧
      (p.completed + 1 = total → p.ordinal < (s.membersOf u).length → r ≠ member (p.ordinal + 1) →
        exec (.applyCompletion .ok) s =
          .next { s with
            overlay := s.overlay.filter fun e => e.record ≠ r
            staging := (s.staging.free r).move (member (p.ordinal + 1)) .applying, queue := begun (p.ordinal + 1) :: units
            port := { s.port with
              outstanding := rest
              waitApply := applyRuns (member (p.ordinal + 1)) (s.record (member (p.ordinal + 1))).wordCount } }) ∧
      (p.completed + 1 = total → p.ordinal = (s.membersOf u).length →
        let freed : State :=
          { s with
            overlay := s.overlay.filter fun e => e.record ≠ r
            staging := s.staging.free r, queue := units, apply := { s.apply with st := .idle }
            port := { s.port with outstanding := rest } }
        let takesNext (f : State) : Prop :=
          ((∀ v more, units = v :: more →
              s.ctrl.opState = .armed ∨ s.ctrl.opState = .draining →
              ¬((v.isGuarded = true ∧ v.stage = .durable) ∨ (v.isGuarded = false ∧ v.stage = .closed))) →
            exec (.applyCompletion .ok) s = .next f) ∧
          (∀ v more, units = v :: more → s.ctrl.opState = .armed ∨ s.ctrl.opState = .draining →
            ((v.isGuarded = true ∧ v.stage = .durable) ∨ (v.isGuarded = false ∧ v.stage = .closed)) →
            let m := (f.membersOf v).getD 0 0
            exec (.applyCompletion .ok) s =
              .next { f with
                apply := { f.apply with st := .applying }, staging := f.staging.move m .applying
                queue := { v with stage := .applying, progress := some { ordinal := 1, issued := 0, completed := 0 } } :: more
                port := { f.port with waitApply := applyRuns m (f.record m).wordCount } })
        (∀ c, u.owner = .checked c → takesNext freed) ∧
        (∀ n seq b len, u.owner = .guarded n → u.seq = some seq → u.start = some b → u.len = some len →
          n < s.groups.slots.length →
          let past := s.straps.nextBlock (b + len - 1)
          let slotDone := freed.updSlot n fun g => if g.posted then {} else { g with st := .applied, members := [] }
          slotDone.slot n = (if (s.slot n).posted then {} else { s.slot n with st := .applied, members := [] }) ∧
          (∀ k, k ≠ n → slotDone.slot k = s.slot k) ∧ slotDone.groups.tags = s.groups.tags ∧
          slotDone.groups.closeCounter = s.groups.closeCounter ∧
          (s.journal.inFlight = none →
            takesNext { slotDone with
              apply := { st := .idle, position := seq }
              journal := { s.journal with
                newest := some (past, seq + 1)
                inFlight := some
                  { copy := 1 - s.journal.copy, generation := s.journal.generation + 1, head := past, headSeq := seq + 1 } }
              port := { slotDone.port with waitAnchor := true } }) ∧
          (s.journal.inFlight ≠ none →
            takesNext { slotDone with
              apply := { st := .idle, position := seq }
              journal := { s.journal with newest := some (past, seq + 1), due := true } }))))

/-- R55, R58, R59: ANCHOR_COMPLETION OK moves the anchored head and its sequence, takes the freed blocks from live blocks and makes the copy
current; a block request that now fits is then granted; a due anchor is written with newest finished, but not in FAULTED or HALTED. ERROR
leaves the pointers, and the write is no longer in flight (log 30). Model's choice: JOURNAL_PRESSURE is decided at both changes of live
blocks within the step (log 34). -/
def Obligations.AnchorCompletes : Prop :=
  ∀ (s : State) (o : Outstanding) (rest : List Outstanding) (a : AnchorWrite),
    s.port.outstanding = o :: rest → o.isFor .anchor = true → s.journal.inFlight = some a →
    let j1 : Journal :=
      { s.journal with
        head := a.head, headSeq := a.headSeq, copy := a.copy, generation := a.generation, inFlight := none
        live := s.journal.live - s.straps.ringDist s.journal.head a.head }
    let skip (len : Nat) : Nat := if j1.tail + len - 1 ≤ s.straps.lastBlock then 0 else s.straps.lastBlock + 1 - j1.tail
    let waits : Prop := ∀ len, s.journal.blockReq = some len → s.straps.ringBlocks - 1 < j1.live + skip len + len
    (waits → s.journal.due = false ∨ s.ctrl.opState = .faulted ∨ s.ctrl.opState = .halted →
      ∃ t, exec (.anchorCompletion .ok) s = .next t ∧
        t = { s with journal := j1, port := { s.port with outstanding := rest }, attn := t.attn } ∧ noted s t 0) ∧
    (∀ h q, waits → s.journal.due = true → s.ctrl.opState ≠ .faulted → s.ctrl.opState ≠ .halted →
      s.journal.newest = some (h, q) →
      ∃ t, exec (.anchorCompletion .ok) s = .next t ∧
        t = { s with
          journal := { j1 with
            due := false, inFlight := some { copy := 1 - a.copy, generation := a.generation + 1, head := h, headSeq := q } }
          port := { s.port with outstanding := rest, waitAnchor := true }, attn := t.attn } ∧
        noted s t 0) ∧
    (∀ len u n h q, s.journal.blockReq = some len → j1.live + skip len + len ≤ s.straps.ringBlocks - 1 →
      s.inHand = some u → u.owner = .guarded n → n < s.groups.slots.length → (s.journal.due = true → s.journal.newest = some (h, q)) →
      let again := s.journal.due && s.ctrl.opState != .faulted && s.ctrl.opState != .halted
      let start := if skip len = 0 then j1.tail else 2
      let j2 : Journal :=
        { j1 with
          tail := s.straps.nextBlock (start + len - 1), live := j1.live + skip len + len, nextSeq := j1.nextSeq + 1, blockReq := none
          due := if again then false else s.journal.due
          inFlight :=
            if again then some { copy := 1 - a.copy, generation := a.generation + 1, head := h, headSeq := q } else none }
      let port : Port := { s.port with outstanding := rest, waitAnchor := again || s.port.waitAnchor }
      ∃ t, exec (.anchorCompletion .ok) s = .next t ∧
        t.attn.flags = s.attn.flags ||| (s.live ^^^ { s with journal := j1 }.live) ||| (s.live ^^^ t.live) ∧
        t.attn.enable = s.attn.enable ∧ t.attnOk ∧
        (skip len = 0 →
          t = { s with
            journal := j2, queue := t.queue, groups := t.groups, commit := t.commit
            port := { port with waitCommit := t.port.waitCommit }, attn := t.attn } ∧
          handedOver s t u n j1.nextSeq start len) ∧
        (skip len ≠ 0 →
          t = { s with
            journal := { j2 with skipGrant := some { seq := j1.nextSeq, len := len } }
            port := { port with waitCommit := s.port.waitCommit ++ [.skip j1.tail j1.nextSeq] }
            attn := t.attn })) ∧
    ∃ t, exec (.anchorCompletion .error) s = .next t ∧ t.journal.inFlight = none ∧ t.journal.head = s.journal.head ∧
      t.journal.headSeq = s.journal.headSeq ∧ t.journal.live = s.journal.live ∧ t.journal.copy = s.journal.copy ∧
      t.journal.generation = s.journal.generation ∧ t.port.outstanding = rest

/-- R87, R91, R92: READ_SPAN_COMPLETION OK of a FILLING slot fills its MEMORY positions and makes it READY, and SENDING at once when the
stream waits for it; ERROR makes it FAILED, sets READ_FAULT, and stops a stream that waits for it with pending verdict MEMORY_FAULT.
Either completion of a DISCARDING slot makes it FREE, ERROR setting READ_FAULT, and a read that streams issues its next span into it.
Model's choice: a read's spans are discarded at the stop (log 10). -/
def Obligations.ReadSpanCompletes : Prop :=
  ∀ (s : State) (o : Outstanding) (rest : List Outstanding) (n : Nat),
    s.attnOk → s.ctrl.opState ≠ .held → s.port.outstanding = o :: rest → o.role = .span n → o.disposition = .take →
    n < s.reads.slots.length →
    let s1 : State := { s with port := { s.port with outstanding := rest } }
    let streams := s.link.st = .streaming ∧ s.link.commonRead = true
    let left := s.link.start + s.link.count < s.link.bound
    let issued := s.freeSpanNo = none ∨ s.link.bound ≤ s.link.start + 16 * s.reads.nextSpan
    let filled (ws : List Word) (st : SpanState) : SpanSlot :=
      { s.span n with
        st := st
        words := (List.range (s.span n).len).map fun j =>
          if (s.span n).sources.getD j .memory = .captured then (s.span n).words.getD j 0 else ws.getD j 0 }
    ((¬streams ∨ (issued ∧ ∃ m, s.spanNo (s.link.count / 16) = some m ∧ m ≠ n ∧
          ((s.span m).st = .sending ∨ (s.span m).st = .filling ∧ s.link.bridgeHold = some .span ∧ s.link.stall = none))) →
      (s.span n).st = .filling →
      (∀ ws, ws.length = o.len →
        ∃ t, exec (.readSpanCompletion (.ok ws)) s = .next t ∧ t = { s1 with reads := t.reads } ∧ t.span n = filled ws .ready ∧
          (∀ k, k ≠ n → t.span k = s.span k) ∧ t.reads.nextSpan = s.reads.nextSpan) ∧
      ∃ t, exec (.readSpanCompletion .error) s = .next t ∧ t = { s1 with reads := t.reads, attn := t.attn } ∧
        t.span n = { s.span n with st := .failed } ∧ (∀ k, k ≠ n → t.span k = s.span k) ∧
        t.reads.nextSpan = s.reads.nextSpan ∧ noted s t (flagAt 10 true)) ∧
    (streams → left → issued → s.link.bridgeHold = some .span → s.spanNo (s.link.count / 16) = some n → (s.span n).st = .filling →
      (∀ ws, ws.length = o.len →
        ∃ t, exec (.readSpanCompletion (.ok ws)) s = .next t ∧
          t = { s1 with
            link := { s.link with
              bridgeHold := none, stall := if s.link.masterHold then some s.ctrl.stallLimit else none }
            reads := t.reads } ∧
          t.span n = filled ws .sending ∧ (∀ k, k ≠ n → t.span k = s.span k) ∧ t.reads.nextSpan = s.reads.nextSpan) ∧
      ∃ t, exec (.readSpanCompletion .error) s = .next t ∧
        t = { s1 with
          link := stoppingLink s (s.link.pendVerdict.or (some .memoryFault)) false, reads := t.reads
          port := { s1.port with waitRead := [] }, attn := t.attn } ∧
        t.reads.nextSpan = 0 ∧ (∀ x ∈ t.reads.slots, x.atRest) ∧ noted s t (flagAt 10 true)) ∧
    ∀ c, (∀ ws, c = .ok ws → ws.length = o.len) → (s.span n).st = .discarding →
      (¬streams →
        ∃ t, exec (.readSpanCompletion c) s = .next t ∧ t = { s1 with reads := t.reads, attn := t.attn } ∧ t.span n = {} ∧
          (∀ k, k ≠ n → t.span k = s.span k) ∧ t.reads.nextSpan = s.reads.nextSpan ∧ noted s t (flagAt 10 (c == .error))) ∧
      (streams → issued →
        let next := (s1.updSpan n fun _ => {}).issueSpan
        ((¬left ∨ ∃ m, next.spanNo (s.link.count / 16) = some m ∧
            ((next.span m).st = .sending ∨ (next.span m).st = .filling ∧ s.link.bridgeHold = some .span ∧ s.link.stall = none)) →
          ∃ t, exec (.readSpanCompletion c) s = .next t ∧ t = { next with attn := t.attn } ∧
            noted s t (flagAt 10 (c == .error))) ∧
        (∀ m, left → s.link.bridgeHold = some .span → next.spanNo (s.link.count / 16) = some m → (next.span m).st = .ready →
          ∃ t, exec (.readSpanCompletion c) s = .next t ∧
            t = { next.updSpan m (fun x => { x with st := .sending }) with
              link := { s.link with
                bridgeHold := none, stall := if s.link.masterHold then some s.ctrl.stallLimit else none }
              attn := t.attn } ∧
            noted s t (flagAt 10 (c == .error))))

/-- R106, R119: a DIRECT write ends when its check exchange is over and every request of it has completed, be the last of the two
DIRECT_SPAN_COMPLETION OK or CHECK_WORD: with GOOD or CUT on a match and CHECK_FAIL on a mismatch, which sets CHECK_FAIL_SEEN and
DIRECT_CHECK_FAIL, unless a pending verdict stands. While requests remain, or the exchange is not over, neither ends anything. Model's
reading: a pending verdict stands (log 19). -/
def Obligations.DirectSpanCompletes : Prop :=
  ∀ s : State, calm s → s.ctrl.opState ≠ .held → s.link.hdr1.isSome = true →
    let ends (i : Instr) (rest : List Outstanding) (v : Verdict) : Prop :=
      ∃ t, exec i s = .next t ∧
        t = { s with
          link := {}, out := receiptOf s v false, groups := (s.startIdle s.link.tag).groups
          port := { s.port with outstanding := rest }, attn := t.attn } ∧
        noted s t (flagAt 8 (v == .checkFail) ||| flagAt 9 (v == .checkFail))
    let done (rest : List Outstanding) : Prop :=
      s.port.waitDirect = [] ∧ ∀ x ∈ rest, ¬(x.requester = .direct ∧ x.disposition = .take)
    let passed : Verdict := if s.link.cut then .cut else .good
    (∀ o rest, s.port.outstanding = o :: rest → o.isFor .direct = true →
      let finished := s.link.directWrite = true ∧ s.link.st = .checking ∧ s.link.handshake = none
      (¬(done rest ∧ finished) → exec (.directSpanCompletion .ok) s = .next s.dropHead) ∧
      (done rest → finished → s.link.exchange ≠ .awaited →
        ends (.directSpanCompletion .ok) rest (s.link.pendVerdict.getD
          (match s.link.exchange with
            | .matched => passed
            | .mismatched => .checkFail
            | _ => .handshakeTimeout)))) ∧
    ∀ w, checkAwaited s → s.link.directWrite = true →
      (¬done s.port.outstanding →
        exec (.checkWord w) s =
          .next { s with
            link := { s.link with handshake := none, exchange := if w = s.link.check then .matched else .mismatched } }) ∧
      (done s.port.outstanding →
        ends (.checkWord w) s.port.outstanding (s.link.pendVerdict.getD (if w = s.link.check then passed else .checkFail)))

/-! ### Faults and power (10 R159 to R161) -/

/-- The completion of a Memory Port request of State Control's concern with ERROR: every kind but a span of a read and a dropped one
(08 R132). -/
def isError : Instr → Bool
  | .skipCompletion .error | .commitRequestCompletion .error | .markCompletion .error | .applyCompletion .error
  | .anchorCompletion .error | .directSpanCompletion .error | .recoveryAnchorReadCompletion .error
  | .recoveryReadCompletion .error | .recoveryReplayWriteCompletion .error | .recoveryAnchorWriteCompletion .error => true
  | _ => false

/-- The slots of the groups that an entry to FAULTED or HALTED rejects, in slot order: every OPEN explicit group's but that of the burst in
progress (02 R40). -/
def lostGroups (s : State) : List Nat := (List.range 8).filter fun n => (s.slot n).openExplicit && s.link.slot != some n

/-- The slots of the GUARDED units that an entry drops, in queue order: those CLOSED, and those JOURNALING but for one whose mark is
outstanding at the entry to HALTED (04 R76). -/
def lostUnits (s : State) (halts : Bool) : List Nat :=
  let markOut := halts && s.port.outstanding.any fun o => o.role == .mark && o.disposition == .take
  s.queue.filterMap fun u =>
    match u.owner with
    | .guarded n => if u.stage = .closed ∨ (u.stage = .journaling ∧ markOut = false) then some n else none
    | .checked _ => none

/-- What the blocks keep of one another and an entry rests on: the tag of an OPEN explicit group is OPEN and names its slot (02 R22), every
unit has a slot or record of its own, and no unit's slot is OPEN (02 R29, 04 R62), a DIRECT write has tag 0 (07 R113), and no pending
verdict is CHECK_FAIL (07 R118). -/
abbrev tablesAgree (s : State) : Prop :=
  (∀ n, (s.slot n).openExplicit = true → s.tag (s.slot n).tag = .opened n) ∧ (s.queue.map CommitUnit.owner).Nodup ∧
  (∀ u ∈ s.queue, ∀ n, u.owner = .guarded n → n < s.groups.slots.length ∧ (s.slot n).openExplicit = false) ∧
  (s.link.directWrite = true → s.link.tag = 0) ∧ s.link.pendVerdict ≠ some .checkFail

/-- From s to t the entry to FAULTED or HALTED rejects the OPEN explicit groups with cause STOPPED and abandons the units that it drops:
members of the rejected groups are freed and every other record keeps its place, and the REJECTED outcomes in slot order and then the
ABANDONED ones in queue order become ready (01 R18, 02 R40, 04 R76, 09 R136). -/
def groupsLost (s t : State) (halts : Bool) : Prop :=
  let e : FirstError := { cause := .verdict .stopped, ordinal := none, start := none }
  let hit := lostGroups s
  let lost := lostUnits s halts
  let gone (n : Nat) : GroupSlot := { s.slot n with st := .abandoned, firstError := some e }
  (∀ n, t.slot n = if n ∈ hit then rejectedSlot s n e else if n ∈ lost then gone n else s.slot n) ∧
  (∀ n ∈ hit, t.tag (s.slot n).tag = .fencedSlot n) ∧ (∀ g, (∀ n ∈ hit, (s.slot n).tag ≠ g) → t.tag g = s.tag g) ∧
  t.groups.closeCounter = s.groups.closeCounter ∧
  (∀ r, t.record r = if (hit.any fun n => (s.slot n).members.contains r) = true then {} else s.record r) ∧
  t.staging.ram = s.staging.ram ∧
  t.outcomes = { s.outcomes with
    pendPost := s.outcomes.pendPost ++ (hit.map fun n => (rejectedSlot s n e).outcome n .rejected none) ++
      lost.map fun n => (gone n).outcome n .abandoned none } ∧
  noted s t (flagAt 12 (!hit.isEmpty))

/-- From s to t the entry to FAULTED or HALTED stops the burst in progress (07 R125, 06 R107, 05 R93): a common write that streams stops
with STOPPED, a DIRECT one losing its collecting span, and one that is stopping or checking takes STOPPED unless a pending verdict is set;
a DIRECT write that waits for its requests alone ends when none of them has been granted. A common read does so at the entry to HALTED
alone. Every other link goes on as it was. A pending verdict set before the entry stands, also for a DIRECT write (log 19). -/
def burstStopped (s t : State) (halts : Bool) : Prop :=
  let stops := s.link.commonWrite = true ∨ (s.link.commonRead = true ∧ halts = true)
  let pv := s.link.pendVerdict.or (some .stopped)
  let ends := s.link.directWrite = true ∧ s.link.st = .checking ∧ s.link.handshake = none ∧
    ∀ x ∈ t.port.outstanding, ¬(x.requester = .direct ∧ x.disposition = .take)
  (if s.link.st = .streaming ∧ s.link.commonRead = true ∧ halts = true then spansDropped s t
    else t.reads = s.reads ∧ t.port.waitRead = s.port.waitRead) ∧
  (stops → s.link.st = .streaming → t.link = { stoppingLink s pv false with collecting := [] } ∧ t.out = s.out) ∧
  (stops → ¬ends → s.link.st = .stopping ∨ s.link.st = .checking →
    t.link = { s.link with pendVerdict := pv } ∧ t.out = s.out) ∧
  (ends → s.link.hdr1.isSome = true → t.link = {} ∧ t.out = receiptOf s (s.link.pendVerdict.getD .stopped) false) ∧
  (¬stops ∨ (s.link.st ≠ .streaming ∧ s.link.st ≠ .stopping ∧ s.link.st ≠ .checking) → t.link = s.link ∧ t.out = s.out)

/-- R159, R160, R69, R75, R76, R60: a completion with ERROR in RECOVERING, ARMED or DRAINING enters FAULTED with the request as first fault
and the CHECKED units counted: the engines are STOPPED, the waiting requests but READ's are withdrawn, only DURABLE and APPLYING guarded
units stay, and the overlay stays. R125, R107: the burst in progress is stopped. R18, R40, R136: the OPEN explicit groups are rejected and
the dropped units abandoned, their outcomes ready in that order. In FAULTED and HALTED an ERROR raises the further faults, up to 65,535,
or, in HALTED without a first fault, becomes the first. Model's choices: recovery's request that waits is withdrawn too (log 33), a pending
verdict set before the entry stands over STOPPED, also for a DIRECT write (log 19), an ABANDONED slot holds its first error (log 18), and a
REJECTED slot's member list is emptied (log 17). -/
def Obligations.ErrorStops : Prop :=
  ∀ (s : State) (i : Instr) (o : Outstanding) (rest : List Outstanding),
    isError i = true → s.port.outstanding = o :: rest → answers i o = true →
    (s.ctrl.opState = .recovering ∨ s.ctrl.opState = .armed ∨ s.ctrl.opState = .draining →
      ∃ t, exec i s = .next t ∧ t.ctrl.opState = .faulted ∧
        t.ctrl.fault = some
          { stateAt := s.ctrl.opState, requester := o.requester, kind := o.kind, addr := o.addr, further := 0
            dropped := (s.queue.filter fun u => !u.isGuarded).length } ∧
        t.commit.st = .stopped ∧ t.apply.st = .stopped ∧ t.apply.position = s.apply.position ∧
        t.queue = s.queue.filter (fun u => u.isGuarded && (u.stage == .durable || u.stage == .applying)) ∧
        t.port.outstanding = rest ∧ t.port.waitDirect = [] ∧ t.port.waitCommit = [] ∧ t.port.waitAnchor = false ∧
        t.port.waitApply = [] ∧ t.port.waitRecovery = none ∧ t.journal.blockReq = none ∧ t.journal.skipGrant = none ∧
        t.journal.head = s.journal.head ∧ t.journal.tail = s.journal.tail ∧ t.overlay = s.overlay ∧ t.region = s.region ∧
        t.straps = s.straps ∧ t.pins = s.pins ∧ t.outcomes.queue = s.outcomes.queue ∧ t.staging.ram = s.staging.ram ∧
        t.ctrl.summary =
          (if s.ctrl.opState = .recovering then { s.ctrl.summary with status := .faulted } else s.ctrl.summary) ∧
        burstStopped s t false ∧ (tablesAgree s → groupsLost s t false) ∧
        (s.pins.resetN = true → t.attn.flags.getLsbD 2 = true) ∧ t.attn.enable = s.attn.enable ∧ t.attnOk) ∧
    (∀ f, s.ctrl.opState = .faulted ∨ s.ctrl.opState = .halted → s.ctrl.fault = some f →
      ∃ t, exec i s = .next t ∧ t.ctrl.opState = s.ctrl.opState ∧
        t.ctrl.fault = some { f with further := min (f.further + 1) 65535 } ∧ t.port.outstanding = rest ∧ t.attnOk) ∧
    (s.ctrl.opState = .halted → s.ctrl.fault = none →
      ∃ t, exec i s = .next t ∧ t.ctrl.opState = .halted ∧
        t.ctrl.fault = some
          { stateAt := .halted, requester := o.requester, kind := o.kind, addr := o.addr, further := 0, dropped := 0 } ∧
        t.port.outstanding = rest ∧ t.attnOk)

/-- R161, R162, R125: PWARN_ASSERT in HELD, in HALTED and while RESET_N is low only sets the pin. In every other state the bridge enters
HALTED: the engines are STOPPED, waiting requests but READ's are withdrawn, every OPEN explicit group but that of the burst in progress is
rejected with cause STOPPED, guarded units that are DURABLE or APPLYING stay, and so does a JOURNALING one whose mark is outstanding. R93,
R107, R125: the burst in progress is stopped. R18, R136: members of rejected groups are freed, every other record stays, and the REJECTED
outcomes in slot order and the ABANDONED ones in queue order become ready. PWARN_DEASSERT only clears the pin. Model's choices: recovery's
request that waits is withdrawn too (log 33), a pending verdict set before the entry stands over STOPPED, also for a DIRECT write (log 19),
an ABANDONED slot holds its first error (log 18), and a REJECTED slot's member list is emptied (log 17). -/
def Obligations.PowerWarning : Prop :=
  ∀ s : State,
    (∃ t, exec .pwarnDeassert s = .next t ∧ t = { s with pins := { s.pins with pwarn := false }, attn := t.attn } ∧ noted s t 0) ∧
    (s.pins.resetN = false ∨ s.ctrl.opState = .held ∨ s.ctrl.opState = .halted →
      ∃ t, exec .pwarnAssert s = .next t ∧ t = { s with pins := { s.pins with pwarn := true }, attn := t.attn } ∧ noted s t 0) ∧
    (s.pins.resetN = true → s.ctrl.opState ≠ .held → s.ctrl.opState ≠ .halted →
      let markOut := s.port.outstanding.any fun o => o.role == .mark && o.disposition == .take
      ∃ t, exec .pwarnAssert s = .next t ∧ t.pins = { s.pins with pwarn := true } ∧ t.ctrl.opState = .halted ∧
        t.commit.st = .stopped ∧ t.apply.st = .stopped ∧
        t.queue = s.queue.filter (fun u =>
          u.isGuarded && (u.stage == .durable || u.stage == .applying || (u.stage == .journaling && markOut))) ∧
        t.port.outstanding = s.port.outstanding ∧ t.port.waitDirect = [] ∧ t.port.waitCommit = [] ∧ t.port.waitAnchor = false ∧
        t.port.waitApply = [] ∧ t.port.waitRecovery = none ∧ t.ctrl.fault = s.ctrl.fault ∧ t.overlay = s.overlay ∧
        t.region = s.region ∧ t.straps = s.straps ∧ t.outcomes.queue = s.outcomes.queue ∧ t.staging.ram = s.staging.ram ∧
        (∀ n, n < 8 → (s.slot n).openExplicit = true → s.link.slot ≠ some n → s.groups.slots.length = 8 →
          (∀ u ∈ s.queue, u.owner ≠ .guarded n) → (s.link.directWrite = true → s.link.tag = 0) →
          t.slot n = rejectedSlot s n { cause := .verdict .stopped, ordinal := none, start := none }) ∧
        t.ctrl.summary =
          (if s.ctrl.opState = .recovering then { s.ctrl.summary with status := .halted } else s.ctrl.summary) ∧
        burstStopped s t true ∧ (tablesAgree s → groupsLost s t true) ∧ t.attn.flags.getLsbD 3 = true ∧
        t.attn.flags.getLsbD 6 = (s.attn.flags.getLsbD 6 || !s.pins.pwarn) ∧
        t.attn.enable = s.attn.enable ∧ t.attnOk)

/-! ### Recovery (11 R163 to R171) -/

/-- From s to t recovery's next request waits, and its other values are `r` (11 R163). -/
def recoveryAsks (s t : State) (rest : List Outstanding) (q : Request) (role : Role) (x : Summary) : Prop :=
  t = { s with
    recovery := t.recovery, ctrl := { s.ctrl with summary := x }
    port := { s.port with outstanding := rest, waitRecovery := some { req := q, role := role } } }

/-- The read of the first 16 words of ring block b (11 R166). -/
def firstRead (s : State) (b : Nat) : Request :=
  { kind := .read, addr := s.straps.blockAddr b, len := 16, words := [] }

/-- The write of an anchor copy (03 R56, 11 R170). -/
def anchorWrite (s : State) (copy : Fin 2) (gen : Word) (head : Nat) (headSeq : Word) : Request :=
  { kind := .write, addr := s.straps.blockAddr copy.val, len := 16, words := anchorWords gen head headSeq }

/-- R164 to R170: what recovery does at a read that is OK. After copy 0 it reads copy 1; after both it scans from the head of the valid copy,
of the later of two, or of copy 0 where neither is later, and with none it formats copy 0. A first block without marker, kind or the
expected sequence ends the scan CLEAN; a SKIP that fits goes on at block 2. Of an ENTRY the header's quarters are read and judged: TORN by
its check, MISMATCH by its shape, LIMIT past one ring; then its data, which feeds the entry check, then its mark: TORN, MISMATCH by the
descriptors, or replay, which reads the data again and writes each run. The end writes the anchor to the copy not selected. Model's
choice: the order of replay reads and writes (log 16). -/
def Obligations.RecoveryReads : Prop :=
  ∀ (s : State) (o : Outstanding) (rest : List Outstanding) (ws : List Word),
    s.attnOk → s.port.outstanding = o :: rest → ws.length = o.len →
    let r := s.recovery
    let x := s.ctrl.summary
    let goes (i : Instr) (y : Recovery) (q : Request) (role : Role) (z : Summary) : Prop :=
      ∃ t, exec i s = .next t ∧ t.recovery = y ∧ recoveryAsks s t rest q role z
    let ends (i : Instr) (why : EndReason) : Prop :=
      goes i { r with phase := .anchorWrite } (anchorWrite s (1 - r.sel) (r.selGen + 1) r.pos r.expected) .recAnchorWrite
        { x with reason := why, endBlock := r.pos, nextSeq := r.expected }
    (o.isFor .recAnchorRead = true →
      let next := Instr.recoveryAnchorReadCompletion (.ok ws)
      (r.phase = .anchor 0 → goes next { phase := .anchor 1, block := ws } (firstRead s 1) .recAnchorRead x) ∧
      (∀ (c : Fin 2) (sel other : List Word), r.phase = .anchor 1 →
        (sel, other) = (if c = 0 then (r.block, ws) else (ws, r.block)) → anchorValid s.straps sel = true →
        (anchorValid s.straps other = false ∨ later (blockWord sel 2) (blockWord other 2) = true ∨
          (c = 0 ∧ later (blockWord other 2) (blockWord sel 2) = false)) →
        goes next
          { phase := .first, sel := c, selGen := blockWord sel 2, pos := (blockWord sel 3).toNat, expected := blockWord sel 4 }
          (firstRead s (blockWord sel 3).toNat) .recRead { x with startBlock := (blockWord sel 3).toNat }) ∧
      (r.phase = .anchor 1 → anchorValid s.straps r.block = false → anchorValid s.straps ws = false →
        goes next { phase := .formatWrite } (anchorWrite s 0 1 2 1) .recAnchorWrite x)) ∧
    (o.isFor .recRead = true →
      let next := Instr.recoveryReadCompletion (.ok ws)
      let b := r.block ++ ws
      let quarter (block q : Nat) : Request := { firstRead s block with addr := s.straps.blockAddr block + 16 * q }
      (r.phase = .first →
        (blockWord ws 0 ≠ 0x4A524E4C#32 ∨ (blockWord ws 1 ≠ 1 ∧ blockWord ws 1 ≠ 3) ∨ blockWord ws 2 ≠ r.expected →
          ends next .clean) ∧
        (blockWord ws 0 = 0x4A524E4C#32 → blockWord ws 1 = 3 → blockWord ws 2 = r.expected →
          let skipped := s.straps.lastBlock + 1 - r.pos
          (s.straps.ringBlocks - 1 < r.consumed + skipped → ends next .limit) ∧
          (r.consumed + skipped ≤ s.straps.ringBlocks - 1 →
            goes next
              { r with
                phase := .first, block := [], header := [], pos := 2, consumed := r.consumed + skipped, check := 0xFFFFFFFF#32
                runs := [] }
              (firstRead s 2) .recRead x)) ∧
        (blockWord ws 0 = 0x4A524E4C#32 → blockWord ws 1 = 1 → blockWord ws 2 = r.expected →
          goes next { r with phase := .header 1, block := ws } (quarter r.pos 1) .recRead x)) ∧
      (∀ q, r.phase = .header q → q < 3 →
        goes next { r with phase := .header (q + 1), block := b } (quarter r.pos (q + 1)) .recRead x) ∧
      (r.phase = .header 3 →
        let bursts := (blockWord b 3).toNat
        let total := (blockWord b 4).toNat
        let len := (blockWord b 5).toNat
        let good := checkOf (b.take 6 ++ (b.drop 7).take 57) = blockWord b 6
        let fits := 1 ≤ bursts ∧ bursts ≤ 28 ∧ 1 ≤ total ∧ total ≤ 16384 ∧ len = 2 + (total + 63) / 64 ∧
          r.pos + len - 1 ≤ s.straps.lastBlock
        (¬good → ends next .torn) ∧ (good → ¬fits → ends next .mismatch) ∧
        (good → fits → s.straps.ringBlocks - 1 < r.consumed + len → ends next .limit) ∧
        (good → fits → r.consumed + len ≤ s.straps.ringBlocks - 1 →
          goes next { r with phase := .data 0 0, header := b, block := [], check := checkOf b } (firstRead s (r.pos + 1))
            .recRead x)) ∧
      (∀ k q, r.phase = .data k q → q ≤ 3 →
        let fed : Recovery := { r with check := checkFeed r.check ws }
        let len := (blockWord r.header 5).toNat
        (q < 3 → goes next { fed with phase := .data k (q + 1) } (quarter (r.pos + 1 + k) (q + 1)) .recRead x) ∧
        (q = 3 → k + 1 < len - 2 → goes next { fed with phase := .data (k + 1) 0 } (firstRead s (r.pos + 2 + k)) .recRead x) ∧
        (q = 3 → len - 2 ≤ k + 1 → goes next { fed with phase := .mark } (firstRead s (r.pos + len - 1)) .recRead x)) ∧
      (r.phase = .mark →
        (blockWord ws 0 ≠ 0x4A524E4C#32 ∨ blockWord ws 1 ≠ 2 ∨ blockWord ws 2 ≠ r.expected ∨ blockWord ws 3 ≠ r.check →
          ends next .torn) ∧
        (blockWord ws 0 = 0x4A524E4C#32 → blockWord ws 1 = 2 → blockWord ws 2 = r.expected → blockWord ws 3 = r.check →
          let descs := (List.range (blockWord r.header 3).toNat).map fun i =>
            ((blockWord r.header (8 + 2 * i)).toNat, (blockWord r.header (9 + 2 * i)).toNat)
          let fit := (∀ d ∈ descs, 1 ≤ d.2 ∧ d.1 + d.2 ≤ s.straps.visible) ∧
            (descs.map Prod.snd).sum = (blockWord r.header 4).toNat
          let runs := descs.flatMap fun d =>
            (List.range ((d.2 + 15) / 16)).map fun i => { addr := d.1 + 16 * i, len := min 16 (d.2 - 16 * i) }
          (¬fit → ends next .mismatch) ∧
          (fit →
            goes next { r with phase := .replayRead 0 0, block := [], runs := runs } (firstRead s (r.pos + 1)) .recRead x))) ∧
      (∀ k q, r.phase = .replayRead k q → q ≤ 3 →
        (q < 3 →
          goes next { r with phase := .replayRead k (q + 1), block := b } (quarter (r.pos + 1 + k) (q + 1)) .recRead x) ∧
        (∀ run runs, q = 3 → r.runs = run :: runs →
          (run.len ≤ b.length →
            goes next { r with phase := .replayWrite (k + 1), block := b.drop run.len, runs := runs }
              { kind := .write, addr := run.addr, len := run.len, words := b.take run.len } .recReplay x) ∧
          (b.length < run.len →
            goes next { r with phase := .replayRead (k + 1) 0, block := b } (firstRead s (r.pos + 2 + k)) .recRead x))))

/-- R168, R171, R61: a replay write that is OK is followed by the next run whose words are at hand, or, where they are not, by the read of
the next data block's first quarter; after the last one the entry counts as replayed and the scan goes on past it. The anchor write that is
OK, and the formatting write, complete recovery: the Journal Controller starts empty at the end block, the Apply Position is the next
sequence less 1, the state is UNCONFIGURED and RECOVERY_DONE is set. Model's choice: the order of replay reads and writes (log 16). -/
def Obligations.RecoveryWrites : Prop :=
  ∀ (s : State) (o : Outstanding) (rest : List Outstanding), s.port.outstanding = o :: rest →
    let r := s.recovery
    let x := s.ctrl.summary
    (∀ k, s.attnOk → o.isFor .recReplay = true → r.phase = .replayWrite k →
      (∀ run runs, r.runs = run :: runs → run.len ≤ r.block.length →
        ∃ t, exec (.recoveryReplayWriteCompletion .ok) s = .next t ∧
          t.recovery = { r with block := r.block.drop run.len, runs := runs } ∧
          recoveryAsks s t rest { kind := .write, addr := run.addr, len := run.len, words := r.block.take run.len } .recReplay x) ∧
      (∀ run runs, r.runs = run :: runs → r.block.length < run.len →
        ∃ t, exec (.recoveryReplayWriteCompletion .ok) s = .next t ∧ t.recovery = { r with phase := .replayRead k 0 } ∧
          recoveryAsks s t rest (firstRead s (r.pos + 1 + k)) .recRead x) ∧
      (r.runs = [] →
        let past := s.straps.nextBlock (r.pos + hdrLen r.header - 1)
        ∃ t, exec (.recoveryReplayWriteCompletion .ok) s = .next t ∧ t.recovery.phase = .first ∧ t.recovery.pos = past ∧
          t.recovery.expected = r.expected + 1 ∧ t.recovery.consumed = r.consumed + hdrLen r.header ∧
          recoveryAsks s t rest (firstRead s past) .recRead
            { x with entries := x.entries + 1, words := x.words + hdrTotal r.header })) ∧
    (o.isFor .recAnchorWrite = true → s.ctrl.opState ≠ .held →
      let completes (y : Summary) (copy : Fin 2) (gen : Word) : Prop :=
        ∃ t, exec (.recoveryAnchorWriteCompletion .ok) s = .next t ∧
          t = { s with
            journal := {
              tail := y.endBlock, head := y.endBlock, headSeq := y.nextSeq, live := 0, nextSeq := y.nextSeq, generation := gen
              copy := copy, inFlight := none, due := false, newest := none, blockReq := none, skipGrant := none }
            apply := { s.apply with position := y.nextSeq - 1 }, recovery := {}
            ctrl := { s.ctrl with opState := .unconfigured, summary := { y with generation := gen, status := .complete } }
            port := { s.port with outstanding := rest }, attn := t.attn } ∧
          noted s t (flagAt 13 true)
      (r.phase = .anchorWrite → completes x (1 - r.sel) (r.selGen + 1)) ∧
      (r.phase = .formatWrite → completes { x with reason := .formatted, startBlock := 2, endBlock := 2, nextSeq := 1 } 0 1))

/-! ### Invariants -/

/-- The reset state meets the invariants that every step keeps. Model's choices: the reset state is that with RESET_N low (log 6), with
every word of the data store 0 (log 7). -/
def Obligations.ResetMeetsInvariants : Prop :=
  State.reset.storeOk ∧ State.reset.chunksOk ∧ State.reset.tablesOk ∧ State.reset.boundsOk ∧ State.reset.limitsOk ∧
  State.reset.attnOk ∧ State.reset.linkOk

/-- R3, R4: every step keeps the 256 chunks each in exactly one place, the pool or one record's list, with none on a FREE record; and keeps
the data store in its one form (log 7). -/
def Obligations.StagingKept : Prop := Keeps State.storeOk ∧ Keeps State.chunksOk

/-- Every step keeps the fixed tables at their sizes, the outstanding list, READ's part of it and the Outcome Queue within their bounds, and
the limits and the further-faults count in their ranges (01 R4, 02 R20, R21, 05 R85, 06 R96, 08 R128, R130, 09 R139, 10 R155, R160). -/
def Obligations.CountsKept : Prop := Keeps State.tablesOk ∧ Keeps State.boundsOk ∧ Keeps State.limitsOk

/-- R147: every step leaves ATTN deasserted while ATTN_ON is 0, and in level mode asserted exactly when some Changed flag and its enable are
both set. -/
def Obligations.AttnKept : Prop := Keeps State.attnOk

/-- R110, R91, R123: every step leaves a link in IDLE without anything held, no receipt undriven, and the Read Assembly at rest outside
the streaming of a common read. Model's choices: the receipt is driven within the step that ends a burst (log 29), and spans are at rest
from the end of the data phase on (log 10). -/
def Obligations.LinkKept : Prop := Keeps State.linkOk
end

