-- ==== Sys2Proof/Laws/State.lean ====
section
/-! SUPPORT. One lemma per field per block update of the state, each true by rfl. -/

namespace Sys2Proof.Machine

@[simp] theorem State.setPending_pending (s : State) (v : List Instr) : (s.setPending v).pending = v := rfl
@[simp] theorem State.setPending_pins (s : State) (v : List Instr) : (s.setPending v).pins = s.pins := rfl
@[simp] theorem State.setPending_straps (s : State) (v : List Instr) : (s.setPending v).straps = s.straps := rfl
@[simp] theorem State.setPending_ctrl (s : State) (v : List Instr) : (s.setPending v).ctrl = s.ctrl := rfl
@[simp] theorem State.setPending_link (s : State) (v : List Instr) : (s.setPending v).link = s.link := rfl
@[simp] theorem State.setPending_region (s : State) (v : List Instr) : (s.setPending v).region = s.region := rfl
@[simp] theorem State.setPending_staging (s : State) (v : List Instr) : (s.setPending v).staging = s.staging := rfl
@[simp] theorem State.setPending_groups (s : State) (v : List Instr) : (s.setPending v).groups = s.groups := rfl
@[simp] theorem State.setPending_queue (s : State) (v : List Instr) : (s.setPending v).queue = s.queue := rfl
@[simp] theorem State.setPending_commit (s : State) (v : List Instr) : (s.setPending v).commit = s.commit := rfl
@[simp] theorem State.setPending_apply (s : State) (v : List Instr) : (s.setPending v).apply = s.apply := rfl
@[simp] theorem State.setPending_journal (s : State) (v : List Instr) : (s.setPending v).journal = s.journal := rfl
@[simp] theorem State.setPending_overlay (s : State) (v : List Instr) : (s.setPending v).overlay = s.overlay := rfl
@[simp] theorem State.setPending_reads (s : State) (v : List Instr) : (s.setPending v).reads = s.reads := rfl
@[simp] theorem State.setPending_port (s : State) (v : List Instr) : (s.setPending v).port = s.port := rfl
@[simp] theorem State.setPending_outcomes (s : State) (v : List Instr) : (s.setPending v).outcomes = s.outcomes := rfl
@[simp] theorem State.setPending_attn (s : State) (v : List Instr) : (s.setPending v).attn = s.attn := rfl
@[simp] theorem State.setPending_recovery (s : State) (v : List Instr) : (s.setPending v).recovery = s.recovery := rfl
@[simp] theorem State.setPending_out (s : State) (v : List Instr) : (s.setPending v).out = s.out := rfl

@[simp] theorem State.setPins_pending (s : State) (v : Pins) : (s.setPins v).pending = s.pending := rfl
@[simp] theorem State.setPins_pins (s : State) (v : Pins) : (s.setPins v).pins = v := rfl
@[simp] theorem State.setPins_straps (s : State) (v : Pins) : (s.setPins v).straps = s.straps := rfl
@[simp] theorem State.setPins_ctrl (s : State) (v : Pins) : (s.setPins v).ctrl = s.ctrl := rfl
@[simp] theorem State.setPins_link (s : State) (v : Pins) : (s.setPins v).link = s.link := rfl
@[simp] theorem State.setPins_region (s : State) (v : Pins) : (s.setPins v).region = s.region := rfl
@[simp] theorem State.setPins_staging (s : State) (v : Pins) : (s.setPins v).staging = s.staging := rfl
@[simp] theorem State.setPins_groups (s : State) (v : Pins) : (s.setPins v).groups = s.groups := rfl
@[simp] theorem State.setPins_queue (s : State) (v : Pins) : (s.setPins v).queue = s.queue := rfl
@[simp] theorem State.setPins_commit (s : State) (v : Pins) : (s.setPins v).commit = s.commit := rfl
@[simp] theorem State.setPins_apply (s : State) (v : Pins) : (s.setPins v).apply = s.apply := rfl
@[simp] theorem State.setPins_journal (s : State) (v : Pins) : (s.setPins v).journal = s.journal := rfl
@[simp] theorem State.setPins_overlay (s : State) (v : Pins) : (s.setPins v).overlay = s.overlay := rfl
@[simp] theorem State.setPins_reads (s : State) (v : Pins) : (s.setPins v).reads = s.reads := rfl
@[simp] theorem State.setPins_port (s : State) (v : Pins) : (s.setPins v).port = s.port := rfl
@[simp] theorem State.setPins_outcomes (s : State) (v : Pins) : (s.setPins v).outcomes = s.outcomes := rfl
@[simp] theorem State.setPins_attn (s : State) (v : Pins) : (s.setPins v).attn = s.attn := rfl
@[simp] theorem State.setPins_recovery (s : State) (v : Pins) : (s.setPins v).recovery = s.recovery := rfl
@[simp] theorem State.setPins_out (s : State) (v : Pins) : (s.setPins v).out = s.out := rfl

@[simp] theorem State.setStraps_pending (s : State) (v : Straps) : (s.setStraps v).pending = s.pending := rfl
@[simp] theorem State.setStraps_pins (s : State) (v : Straps) : (s.setStraps v).pins = s.pins := rfl
@[simp] theorem State.setStraps_straps (s : State) (v : Straps) : (s.setStraps v).straps = v := rfl
@[simp] theorem State.setStraps_ctrl (s : State) (v : Straps) : (s.setStraps v).ctrl = s.ctrl := rfl
@[simp] theorem State.setStraps_link (s : State) (v : Straps) : (s.setStraps v).link = s.link := rfl
@[simp] theorem State.setStraps_region (s : State) (v : Straps) : (s.setStraps v).region = s.region := rfl
@[simp] theorem State.setStraps_staging (s : State) (v : Straps) : (s.setStraps v).staging = s.staging := rfl
@[simp] theorem State.setStraps_groups (s : State) (v : Straps) : (s.setStraps v).groups = s.groups := rfl
@[simp] theorem State.setStraps_queue (s : State) (v : Straps) : (s.setStraps v).queue = s.queue := rfl
@[simp] theorem State.setStraps_commit (s : State) (v : Straps) : (s.setStraps v).commit = s.commit := rfl
@[simp] theorem State.setStraps_apply (s : State) (v : Straps) : (s.setStraps v).apply = s.apply := rfl
@[simp] theorem State.setStraps_journal (s : State) (v : Straps) : (s.setStraps v).journal = s.journal := rfl
@[simp] theorem State.setStraps_overlay (s : State) (v : Straps) : (s.setStraps v).overlay = s.overlay := rfl
@[simp] theorem State.setStraps_reads (s : State) (v : Straps) : (s.setStraps v).reads = s.reads := rfl
@[simp] theorem State.setStraps_port (s : State) (v : Straps) : (s.setStraps v).port = s.port := rfl
@[simp] theorem State.setStraps_outcomes (s : State) (v : Straps) : (s.setStraps v).outcomes = s.outcomes := rfl
@[simp] theorem State.setStraps_attn (s : State) (v : Straps) : (s.setStraps v).attn = s.attn := rfl
@[simp] theorem State.setStraps_recovery (s : State) (v : Straps) : (s.setStraps v).recovery = s.recovery := rfl
@[simp] theorem State.setStraps_out (s : State) (v : Straps) : (s.setStraps v).out = s.out := rfl

@[simp] theorem State.setCtrl_pending (s : State) (v : Ctrl) : (s.setCtrl v).pending = s.pending := rfl
@[simp] theorem State.setCtrl_pins (s : State) (v : Ctrl) : (s.setCtrl v).pins = s.pins := rfl
@[simp] theorem State.setCtrl_straps (s : State) (v : Ctrl) : (s.setCtrl v).straps = s.straps := rfl
@[simp] theorem State.setCtrl_ctrl (s : State) (v : Ctrl) : (s.setCtrl v).ctrl = v := rfl
@[simp] theorem State.setCtrl_link (s : State) (v : Ctrl) : (s.setCtrl v).link = s.link := rfl
@[simp] theorem State.setCtrl_region (s : State) (v : Ctrl) : (s.setCtrl v).region = s.region := rfl
@[simp] theorem State.setCtrl_staging (s : State) (v : Ctrl) : (s.setCtrl v).staging = s.staging := rfl
@[simp] theorem State.setCtrl_groups (s : State) (v : Ctrl) : (s.setCtrl v).groups = s.groups := rfl
@[simp] theorem State.setCtrl_queue (s : State) (v : Ctrl) : (s.setCtrl v).queue = s.queue := rfl
@[simp] theorem State.setCtrl_commit (s : State) (v : Ctrl) : (s.setCtrl v).commit = s.commit := rfl
@[simp] theorem State.setCtrl_apply (s : State) (v : Ctrl) : (s.setCtrl v).apply = s.apply := rfl
@[simp] theorem State.setCtrl_journal (s : State) (v : Ctrl) : (s.setCtrl v).journal = s.journal := rfl
@[simp] theorem State.setCtrl_overlay (s : State) (v : Ctrl) : (s.setCtrl v).overlay = s.overlay := rfl
@[simp] theorem State.setCtrl_reads (s : State) (v : Ctrl) : (s.setCtrl v).reads = s.reads := rfl
@[simp] theorem State.setCtrl_port (s : State) (v : Ctrl) : (s.setCtrl v).port = s.port := rfl
@[simp] theorem State.setCtrl_outcomes (s : State) (v : Ctrl) : (s.setCtrl v).outcomes = s.outcomes := rfl
@[simp] theorem State.setCtrl_attn (s : State) (v : Ctrl) : (s.setCtrl v).attn = s.attn := rfl
@[simp] theorem State.setCtrl_recovery (s : State) (v : Ctrl) : (s.setCtrl v).recovery = s.recovery := rfl
@[simp] theorem State.setCtrl_out (s : State) (v : Ctrl) : (s.setCtrl v).out = s.out := rfl

@[simp] theorem State.setLink_pending (s : State) (v : Link) : (s.setLink v).pending = s.pending := rfl
@[simp] theorem State.setLink_pins (s : State) (v : Link) : (s.setLink v).pins = s.pins := rfl
@[simp] theorem State.setLink_straps (s : State) (v : Link) : (s.setLink v).straps = s.straps := rfl
@[simp] theorem State.setLink_ctrl (s : State) (v : Link) : (s.setLink v).ctrl = s.ctrl := rfl
@[simp] theorem State.setLink_link (s : State) (v : Link) : (s.setLink v).link = v := rfl
@[simp] theorem State.setLink_region (s : State) (v : Link) : (s.setLink v).region = s.region := rfl
@[simp] theorem State.setLink_staging (s : State) (v : Link) : (s.setLink v).staging = s.staging := rfl
@[simp] theorem State.setLink_groups (s : State) (v : Link) : (s.setLink v).groups = s.groups := rfl
@[simp] theorem State.setLink_queue (s : State) (v : Link) : (s.setLink v).queue = s.queue := rfl
@[simp] theorem State.setLink_commit (s : State) (v : Link) : (s.setLink v).commit = s.commit := rfl
@[simp] theorem State.setLink_apply (s : State) (v : Link) : (s.setLink v).apply = s.apply := rfl
@[simp] theorem State.setLink_journal (s : State) (v : Link) : (s.setLink v).journal = s.journal := rfl
@[simp] theorem State.setLink_overlay (s : State) (v : Link) : (s.setLink v).overlay = s.overlay := rfl
@[simp] theorem State.setLink_reads (s : State) (v : Link) : (s.setLink v).reads = s.reads := rfl
@[simp] theorem State.setLink_port (s : State) (v : Link) : (s.setLink v).port = s.port := rfl
@[simp] theorem State.setLink_outcomes (s : State) (v : Link) : (s.setLink v).outcomes = s.outcomes := rfl
@[simp] theorem State.setLink_attn (s : State) (v : Link) : (s.setLink v).attn = s.attn := rfl
@[simp] theorem State.setLink_recovery (s : State) (v : Link) : (s.setLink v).recovery = s.recovery := rfl
@[simp] theorem State.setLink_out (s : State) (v : Link) : (s.setLink v).out = s.out := rfl

@[simp] theorem State.setRegion_pending (s : State) (v : Region) : (s.setRegion v).pending = s.pending := rfl
@[simp] theorem State.setRegion_pins (s : State) (v : Region) : (s.setRegion v).pins = s.pins := rfl
@[simp] theorem State.setRegion_straps (s : State) (v : Region) : (s.setRegion v).straps = s.straps := rfl
@[simp] theorem State.setRegion_ctrl (s : State) (v : Region) : (s.setRegion v).ctrl = s.ctrl := rfl
@[simp] theorem State.setRegion_link (s : State) (v : Region) : (s.setRegion v).link = s.link := rfl
@[simp] theorem State.setRegion_region (s : State) (v : Region) : (s.setRegion v).region = v := rfl
@[simp] theorem State.setRegion_staging (s : State) (v : Region) : (s.setRegion v).staging = s.staging := rfl
@[simp] theorem State.setRegion_groups (s : State) (v : Region) : (s.setRegion v).groups = s.groups := rfl
@[simp] theorem State.setRegion_queue (s : State) (v : Region) : (s.setRegion v).queue = s.queue := rfl
@[simp] theorem State.setRegion_commit (s : State) (v : Region) : (s.setRegion v).commit = s.commit := rfl
@[simp] theorem State.setRegion_apply (s : State) (v : Region) : (s.setRegion v).apply = s.apply := rfl
@[simp] theorem State.setRegion_journal (s : State) (v : Region) : (s.setRegion v).journal = s.journal := rfl
@[simp] theorem State.setRegion_overlay (s : State) (v : Region) : (s.setRegion v).overlay = s.overlay := rfl
@[simp] theorem State.setRegion_reads (s : State) (v : Region) : (s.setRegion v).reads = s.reads := rfl
@[simp] theorem State.setRegion_port (s : State) (v : Region) : (s.setRegion v).port = s.port := rfl
@[simp] theorem State.setRegion_outcomes (s : State) (v : Region) : (s.setRegion v).outcomes = s.outcomes := rfl
@[simp] theorem State.setRegion_attn (s : State) (v : Region) : (s.setRegion v).attn = s.attn := rfl
@[simp] theorem State.setRegion_recovery (s : State) (v : Region) : (s.setRegion v).recovery = s.recovery := rfl
@[simp] theorem State.setRegion_out (s : State) (v : Region) : (s.setRegion v).out = s.out := rfl

@[simp] theorem State.setStaging_pending (s : State) (v : Staging) : (s.setStaging v).pending = s.pending := rfl
@[simp] theorem State.setStaging_pins (s : State) (v : Staging) : (s.setStaging v).pins = s.pins := rfl
@[simp] theorem State.setStaging_straps (s : State) (v : Staging) : (s.setStaging v).straps = s.straps := rfl
@[simp] theorem State.setStaging_ctrl (s : State) (v : Staging) : (s.setStaging v).ctrl = s.ctrl := rfl
@[simp] theorem State.setStaging_link (s : State) (v : Staging) : (s.setStaging v).link = s.link := rfl
@[simp] theorem State.setStaging_region (s : State) (v : Staging) : (s.setStaging v).region = s.region := rfl
@[simp] theorem State.setStaging_staging (s : State) (v : Staging) : (s.setStaging v).staging = v := rfl
@[simp] theorem State.setStaging_groups (s : State) (v : Staging) : (s.setStaging v).groups = s.groups := rfl
@[simp] theorem State.setStaging_queue (s : State) (v : Staging) : (s.setStaging v).queue = s.queue := rfl
@[simp] theorem State.setStaging_commit (s : State) (v : Staging) : (s.setStaging v).commit = s.commit := rfl
@[simp] theorem State.setStaging_apply (s : State) (v : Staging) : (s.setStaging v).apply = s.apply := rfl
@[simp] theorem State.setStaging_journal (s : State) (v : Staging) : (s.setStaging v).journal = s.journal := rfl
@[simp] theorem State.setStaging_overlay (s : State) (v : Staging) : (s.setStaging v).overlay = s.overlay := rfl
@[simp] theorem State.setStaging_reads (s : State) (v : Staging) : (s.setStaging v).reads = s.reads := rfl
@[simp] theorem State.setStaging_port (s : State) (v : Staging) : (s.setStaging v).port = s.port := rfl
@[simp] theorem State.setStaging_outcomes (s : State) (v : Staging) : (s.setStaging v).outcomes = s.outcomes := rfl
@[simp] theorem State.setStaging_attn (s : State) (v : Staging) : (s.setStaging v).attn = s.attn := rfl
@[simp] theorem State.setStaging_recovery (s : State) (v : Staging) : (s.setStaging v).recovery = s.recovery := rfl
@[simp] theorem State.setStaging_out (s : State) (v : Staging) : (s.setStaging v).out = s.out := rfl

@[simp] theorem State.setGroups_pending (s : State) (v : Groups) : (s.setGroups v).pending = s.pending := rfl
@[simp] theorem State.setGroups_pins (s : State) (v : Groups) : (s.setGroups v).pins = s.pins := rfl
@[simp] theorem State.setGroups_straps (s : State) (v : Groups) : (s.setGroups v).straps = s.straps := rfl
@[simp] theorem State.setGroups_ctrl (s : State) (v : Groups) : (s.setGroups v).ctrl = s.ctrl := rfl
@[simp] theorem State.setGroups_link (s : State) (v : Groups) : (s.setGroups v).link = s.link := rfl
@[simp] theorem State.setGroups_region (s : State) (v : Groups) : (s.setGroups v).region = s.region := rfl
@[simp] theorem State.setGroups_staging (s : State) (v : Groups) : (s.setGroups v).staging = s.staging := rfl
@[simp] theorem State.setGroups_groups (s : State) (v : Groups) : (s.setGroups v).groups = v := rfl
@[simp] theorem State.setGroups_queue (s : State) (v : Groups) : (s.setGroups v).queue = s.queue := rfl
@[simp] theorem State.setGroups_commit (s : State) (v : Groups) : (s.setGroups v).commit = s.commit := rfl
@[simp] theorem State.setGroups_apply (s : State) (v : Groups) : (s.setGroups v).apply = s.apply := rfl
@[simp] theorem State.setGroups_journal (s : State) (v : Groups) : (s.setGroups v).journal = s.journal := rfl
@[simp] theorem State.setGroups_overlay (s : State) (v : Groups) : (s.setGroups v).overlay = s.overlay := rfl
@[simp] theorem State.setGroups_reads (s : State) (v : Groups) : (s.setGroups v).reads = s.reads := rfl
@[simp] theorem State.setGroups_port (s : State) (v : Groups) : (s.setGroups v).port = s.port := rfl
@[simp] theorem State.setGroups_outcomes (s : State) (v : Groups) : (s.setGroups v).outcomes = s.outcomes := rfl
@[simp] theorem State.setGroups_attn (s : State) (v : Groups) : (s.setGroups v).attn = s.attn := rfl
@[simp] theorem State.setGroups_recovery (s : State) (v : Groups) : (s.setGroups v).recovery = s.recovery := rfl
@[simp] theorem State.setGroups_out (s : State) (v : Groups) : (s.setGroups v).out = s.out := rfl

@[simp] theorem State.setQueue_pending (s : State) (v : List CommitUnit) : (s.setQueue v).pending = s.pending := rfl
@[simp] theorem State.setQueue_pins (s : State) (v : List CommitUnit) : (s.setQueue v).pins = s.pins := rfl
@[simp] theorem State.setQueue_straps (s : State) (v : List CommitUnit) : (s.setQueue v).straps = s.straps := rfl
@[simp] theorem State.setQueue_ctrl (s : State) (v : List CommitUnit) : (s.setQueue v).ctrl = s.ctrl := rfl
@[simp] theorem State.setQueue_link (s : State) (v : List CommitUnit) : (s.setQueue v).link = s.link := rfl
@[simp] theorem State.setQueue_region (s : State) (v : List CommitUnit) : (s.setQueue v).region = s.region := rfl
@[simp] theorem State.setQueue_staging (s : State) (v : List CommitUnit) : (s.setQueue v).staging = s.staging := rfl
@[simp] theorem State.setQueue_groups (s : State) (v : List CommitUnit) : (s.setQueue v).groups = s.groups := rfl
@[simp] theorem State.setQueue_queue (s : State) (v : List CommitUnit) : (s.setQueue v).queue = v := rfl
@[simp] theorem State.setQueue_commit (s : State) (v : List CommitUnit) : (s.setQueue v).commit = s.commit := rfl
@[simp] theorem State.setQueue_apply (s : State) (v : List CommitUnit) : (s.setQueue v).apply = s.apply := rfl
@[simp] theorem State.setQueue_journal (s : State) (v : List CommitUnit) : (s.setQueue v).journal = s.journal := rfl
@[simp] theorem State.setQueue_overlay (s : State) (v : List CommitUnit) : (s.setQueue v).overlay = s.overlay := rfl
@[simp] theorem State.setQueue_reads (s : State) (v : List CommitUnit) : (s.setQueue v).reads = s.reads := rfl
@[simp] theorem State.setQueue_port (s : State) (v : List CommitUnit) : (s.setQueue v).port = s.port := rfl
@[simp] theorem State.setQueue_outcomes (s : State) (v : List CommitUnit) : (s.setQueue v).outcomes = s.outcomes := rfl
@[simp] theorem State.setQueue_attn (s : State) (v : List CommitUnit) : (s.setQueue v).attn = s.attn := rfl
@[simp] theorem State.setQueue_recovery (s : State) (v : List CommitUnit) : (s.setQueue v).recovery = s.recovery := rfl
@[simp] theorem State.setQueue_out (s : State) (v : List CommitUnit) : (s.setQueue v).out = s.out := rfl

@[simp] theorem State.setCommit_pending (s : State) (v : CommitEngine) : (s.setCommit v).pending = s.pending := rfl
@[simp] theorem State.setCommit_pins (s : State) (v : CommitEngine) : (s.setCommit v).pins = s.pins := rfl
@[simp] theorem State.setCommit_straps (s : State) (v : CommitEngine) : (s.setCommit v).straps = s.straps := rfl
@[simp] theorem State.setCommit_ctrl (s : State) (v : CommitEngine) : (s.setCommit v).ctrl = s.ctrl := rfl
@[simp] theorem State.setCommit_link (s : State) (v : CommitEngine) : (s.setCommit v).link = s.link := rfl
@[simp] theorem State.setCommit_region (s : State) (v : CommitEngine) : (s.setCommit v).region = s.region := rfl
@[simp] theorem State.setCommit_staging (s : State) (v : CommitEngine) : (s.setCommit v).staging = s.staging := rfl
@[simp] theorem State.setCommit_groups (s : State) (v : CommitEngine) : (s.setCommit v).groups = s.groups := rfl
@[simp] theorem State.setCommit_queue (s : State) (v : CommitEngine) : (s.setCommit v).queue = s.queue := rfl
@[simp] theorem State.setCommit_commit (s : State) (v : CommitEngine) : (s.setCommit v).commit = v := rfl
@[simp] theorem State.setCommit_apply (s : State) (v : CommitEngine) : (s.setCommit v).apply = s.apply := rfl
@[simp] theorem State.setCommit_journal (s : State) (v : CommitEngine) : (s.setCommit v).journal = s.journal := rfl
@[simp] theorem State.setCommit_overlay (s : State) (v : CommitEngine) : (s.setCommit v).overlay = s.overlay := rfl
@[simp] theorem State.setCommit_reads (s : State) (v : CommitEngine) : (s.setCommit v).reads = s.reads := rfl
@[simp] theorem State.setCommit_port (s : State) (v : CommitEngine) : (s.setCommit v).port = s.port := rfl
@[simp] theorem State.setCommit_outcomes (s : State) (v : CommitEngine) : (s.setCommit v).outcomes = s.outcomes := rfl
@[simp] theorem State.setCommit_attn (s : State) (v : CommitEngine) : (s.setCommit v).attn = s.attn := rfl
@[simp] theorem State.setCommit_recovery (s : State) (v : CommitEngine) : (s.setCommit v).recovery = s.recovery := rfl
@[simp] theorem State.setCommit_out (s : State) (v : CommitEngine) : (s.setCommit v).out = s.out := rfl

@[simp] theorem State.setApply_pending (s : State) (v : ApplyEngine) : (s.setApply v).pending = s.pending := rfl
@[simp] theorem State.setApply_pins (s : State) (v : ApplyEngine) : (s.setApply v).pins = s.pins := rfl
@[simp] theorem State.setApply_straps (s : State) (v : ApplyEngine) : (s.setApply v).straps = s.straps := rfl
@[simp] theorem State.setApply_ctrl (s : State) (v : ApplyEngine) : (s.setApply v).ctrl = s.ctrl := rfl
@[simp] theorem State.setApply_link (s : State) (v : ApplyEngine) : (s.setApply v).link = s.link := rfl
@[simp] theorem State.setApply_region (s : State) (v : ApplyEngine) : (s.setApply v).region = s.region := rfl
@[simp] theorem State.setApply_staging (s : State) (v : ApplyEngine) : (s.setApply v).staging = s.staging := rfl
@[simp] theorem State.setApply_groups (s : State) (v : ApplyEngine) : (s.setApply v).groups = s.groups := rfl
@[simp] theorem State.setApply_queue (s : State) (v : ApplyEngine) : (s.setApply v).queue = s.queue := rfl
@[simp] theorem State.setApply_commit (s : State) (v : ApplyEngine) : (s.setApply v).commit = s.commit := rfl
@[simp] theorem State.setApply_apply (s : State) (v : ApplyEngine) : (s.setApply v).apply = v := rfl
@[simp] theorem State.setApply_journal (s : State) (v : ApplyEngine) : (s.setApply v).journal = s.journal := rfl
@[simp] theorem State.setApply_overlay (s : State) (v : ApplyEngine) : (s.setApply v).overlay = s.overlay := rfl
@[simp] theorem State.setApply_reads (s : State) (v : ApplyEngine) : (s.setApply v).reads = s.reads := rfl
@[simp] theorem State.setApply_port (s : State) (v : ApplyEngine) : (s.setApply v).port = s.port := rfl
@[simp] theorem State.setApply_outcomes (s : State) (v : ApplyEngine) : (s.setApply v).outcomes = s.outcomes := rfl
@[simp] theorem State.setApply_attn (s : State) (v : ApplyEngine) : (s.setApply v).attn = s.attn := rfl
@[simp] theorem State.setApply_recovery (s : State) (v : ApplyEngine) : (s.setApply v).recovery = s.recovery := rfl
@[simp] theorem State.setApply_out (s : State) (v : ApplyEngine) : (s.setApply v).out = s.out := rfl

@[simp] theorem State.setJournal_pending (s : State) (v : Journal) : (s.setJournal v).pending = s.pending := rfl
@[simp] theorem State.setJournal_pins (s : State) (v : Journal) : (s.setJournal v).pins = s.pins := rfl
@[simp] theorem State.setJournal_straps (s : State) (v : Journal) : (s.setJournal v).straps = s.straps := rfl
@[simp] theorem State.setJournal_ctrl (s : State) (v : Journal) : (s.setJournal v).ctrl = s.ctrl := rfl
@[simp] theorem State.setJournal_link (s : State) (v : Journal) : (s.setJournal v).link = s.link := rfl
@[simp] theorem State.setJournal_region (s : State) (v : Journal) : (s.setJournal v).region = s.region := rfl
@[simp] theorem State.setJournal_staging (s : State) (v : Journal) : (s.setJournal v).staging = s.staging := rfl
@[simp] theorem State.setJournal_groups (s : State) (v : Journal) : (s.setJournal v).groups = s.groups := rfl
@[simp] theorem State.setJournal_queue (s : State) (v : Journal) : (s.setJournal v).queue = s.queue := rfl
@[simp] theorem State.setJournal_commit (s : State) (v : Journal) : (s.setJournal v).commit = s.commit := rfl
@[simp] theorem State.setJournal_apply (s : State) (v : Journal) : (s.setJournal v).apply = s.apply := rfl
@[simp] theorem State.setJournal_journal (s : State) (v : Journal) : (s.setJournal v).journal = v := rfl
@[simp] theorem State.setJournal_overlay (s : State) (v : Journal) : (s.setJournal v).overlay = s.overlay := rfl
@[simp] theorem State.setJournal_reads (s : State) (v : Journal) : (s.setJournal v).reads = s.reads := rfl
@[simp] theorem State.setJournal_port (s : State) (v : Journal) : (s.setJournal v).port = s.port := rfl
@[simp] theorem State.setJournal_outcomes (s : State) (v : Journal) : (s.setJournal v).outcomes = s.outcomes := rfl
@[simp] theorem State.setJournal_attn (s : State) (v : Journal) : (s.setJournal v).attn = s.attn := rfl
@[simp] theorem State.setJournal_recovery (s : State) (v : Journal) : (s.setJournal v).recovery = s.recovery := rfl
@[simp] theorem State.setJournal_out (s : State) (v : Journal) : (s.setJournal v).out = s.out := rfl

@[simp] theorem State.setOverlay_pending (s : State) (v : List OverlayEntry) : (s.setOverlay v).pending = s.pending := rfl
@[simp] theorem State.setOverlay_pins (s : State) (v : List OverlayEntry) : (s.setOverlay v).pins = s.pins := rfl
@[simp] theorem State.setOverlay_straps (s : State) (v : List OverlayEntry) : (s.setOverlay v).straps = s.straps := rfl
@[simp] theorem State.setOverlay_ctrl (s : State) (v : List OverlayEntry) : (s.setOverlay v).ctrl = s.ctrl := rfl
@[simp] theorem State.setOverlay_link (s : State) (v : List OverlayEntry) : (s.setOverlay v).link = s.link := rfl
@[simp] theorem State.setOverlay_region (s : State) (v : List OverlayEntry) : (s.setOverlay v).region = s.region := rfl
@[simp] theorem State.setOverlay_staging (s : State) (v : List OverlayEntry) : (s.setOverlay v).staging = s.staging := rfl
@[simp] theorem State.setOverlay_groups (s : State) (v : List OverlayEntry) : (s.setOverlay v).groups = s.groups := rfl
@[simp] theorem State.setOverlay_queue (s : State) (v : List OverlayEntry) : (s.setOverlay v).queue = s.queue := rfl
@[simp] theorem State.setOverlay_commit (s : State) (v : List OverlayEntry) : (s.setOverlay v).commit = s.commit := rfl
@[simp] theorem State.setOverlay_apply (s : State) (v : List OverlayEntry) : (s.setOverlay v).apply = s.apply := rfl
@[simp] theorem State.setOverlay_journal (s : State) (v : List OverlayEntry) : (s.setOverlay v).journal = s.journal := rfl
@[simp] theorem State.setOverlay_overlay (s : State) (v : List OverlayEntry) : (s.setOverlay v).overlay = v := rfl
@[simp] theorem State.setOverlay_reads (s : State) (v : List OverlayEntry) : (s.setOverlay v).reads = s.reads := rfl
@[simp] theorem State.setOverlay_port (s : State) (v : List OverlayEntry) : (s.setOverlay v).port = s.port := rfl
@[simp] theorem State.setOverlay_outcomes (s : State) (v : List OverlayEntry) : (s.setOverlay v).outcomes = s.outcomes := rfl
@[simp] theorem State.setOverlay_attn (s : State) (v : List OverlayEntry) : (s.setOverlay v).attn = s.attn := rfl
@[simp] theorem State.setOverlay_recovery (s : State) (v : List OverlayEntry) : (s.setOverlay v).recovery = s.recovery := rfl
@[simp] theorem State.setOverlay_out (s : State) (v : List OverlayEntry) : (s.setOverlay v).out = s.out := rfl

@[simp] theorem State.setReads_pending (s : State) (v : Reads) : (s.setReads v).pending = s.pending := rfl
@[simp] theorem State.setReads_pins (s : State) (v : Reads) : (s.setReads v).pins = s.pins := rfl
@[simp] theorem State.setReads_straps (s : State) (v : Reads) : (s.setReads v).straps = s.straps := rfl
@[simp] theorem State.setReads_ctrl (s : State) (v : Reads) : (s.setReads v).ctrl = s.ctrl := rfl
@[simp] theorem State.setReads_link (s : State) (v : Reads) : (s.setReads v).link = s.link := rfl
@[simp] theorem State.setReads_region (s : State) (v : Reads) : (s.setReads v).region = s.region := rfl
@[simp] theorem State.setReads_staging (s : State) (v : Reads) : (s.setReads v).staging = s.staging := rfl
@[simp] theorem State.setReads_groups (s : State) (v : Reads) : (s.setReads v).groups = s.groups := rfl
@[simp] theorem State.setReads_queue (s : State) (v : Reads) : (s.setReads v).queue = s.queue := rfl
@[simp] theorem State.setReads_commit (s : State) (v : Reads) : (s.setReads v).commit = s.commit := rfl
@[simp] theorem State.setReads_apply (s : State) (v : Reads) : (s.setReads v).apply = s.apply := rfl
@[simp] theorem State.setReads_journal (s : State) (v : Reads) : (s.setReads v).journal = s.journal := rfl
@[simp] theorem State.setReads_overlay (s : State) (v : Reads) : (s.setReads v).overlay = s.overlay := rfl
@[simp] theorem State.setReads_reads (s : State) (v : Reads) : (s.setReads v).reads = v := rfl
@[simp] theorem State.setReads_port (s : State) (v : Reads) : (s.setReads v).port = s.port := rfl
@[simp] theorem State.setReads_outcomes (s : State) (v : Reads) : (s.setReads v).outcomes = s.outcomes := rfl
@[simp] theorem State.setReads_attn (s : State) (v : Reads) : (s.setReads v).attn = s.attn := rfl
@[simp] theorem State.setReads_recovery (s : State) (v : Reads) : (s.setReads v).recovery = s.recovery := rfl
@[simp] theorem State.setReads_out (s : State) (v : Reads) : (s.setReads v).out = s.out := rfl

@[simp] theorem State.setPort_pending (s : State) (v : Port) : (s.setPort v).pending = s.pending := rfl
@[simp] theorem State.setPort_pins (s : State) (v : Port) : (s.setPort v).pins = s.pins := rfl
@[simp] theorem State.setPort_straps (s : State) (v : Port) : (s.setPort v).straps = s.straps := rfl
@[simp] theorem State.setPort_ctrl (s : State) (v : Port) : (s.setPort v).ctrl = s.ctrl := rfl
@[simp] theorem State.setPort_link (s : State) (v : Port) : (s.setPort v).link = s.link := rfl
@[simp] theorem State.setPort_region (s : State) (v : Port) : (s.setPort v).region = s.region := rfl
@[simp] theorem State.setPort_staging (s : State) (v : Port) : (s.setPort v).staging = s.staging := rfl
@[simp] theorem State.setPort_groups (s : State) (v : Port) : (s.setPort v).groups = s.groups := rfl
@[simp] theorem State.setPort_queue (s : State) (v : Port) : (s.setPort v).queue = s.queue := rfl
@[simp] theorem State.setPort_commit (s : State) (v : Port) : (s.setPort v).commit = s.commit := rfl
@[simp] theorem State.setPort_apply (s : State) (v : Port) : (s.setPort v).apply = s.apply := rfl
@[simp] theorem State.setPort_journal (s : State) (v : Port) : (s.setPort v).journal = s.journal := rfl
@[simp] theorem State.setPort_overlay (s : State) (v : Port) : (s.setPort v).overlay = s.overlay := rfl
@[simp] theorem State.setPort_reads (s : State) (v : Port) : (s.setPort v).reads = s.reads := rfl
@[simp] theorem State.setPort_port (s : State) (v : Port) : (s.setPort v).port = v := rfl
@[simp] theorem State.setPort_outcomes (s : State) (v : Port) : (s.setPort v).outcomes = s.outcomes := rfl
@[simp] theorem State.setPort_attn (s : State) (v : Port) : (s.setPort v).attn = s.attn := rfl
@[simp] theorem State.setPort_recovery (s : State) (v : Port) : (s.setPort v).recovery = s.recovery := rfl
@[simp] theorem State.setPort_out (s : State) (v : Port) : (s.setPort v).out = s.out := rfl

@[simp] theorem State.setOutcomes_pending (s : State) (v : Outcomes) : (s.setOutcomes v).pending = s.pending := rfl
@[simp] theorem State.setOutcomes_pins (s : State) (v : Outcomes) : (s.setOutcomes v).pins = s.pins := rfl
@[simp] theorem State.setOutcomes_straps (s : State) (v : Outcomes) : (s.setOutcomes v).straps = s.straps := rfl
@[simp] theorem State.setOutcomes_ctrl (s : State) (v : Outcomes) : (s.setOutcomes v).ctrl = s.ctrl := rfl
@[simp] theorem State.setOutcomes_link (s : State) (v : Outcomes) : (s.setOutcomes v).link = s.link := rfl
@[simp] theorem State.setOutcomes_region (s : State) (v : Outcomes) : (s.setOutcomes v).region = s.region := rfl
@[simp] theorem State.setOutcomes_staging (s : State) (v : Outcomes) : (s.setOutcomes v).staging = s.staging := rfl
@[simp] theorem State.setOutcomes_groups (s : State) (v : Outcomes) : (s.setOutcomes v).groups = s.groups := rfl
@[simp] theorem State.setOutcomes_queue (s : State) (v : Outcomes) : (s.setOutcomes v).queue = s.queue := rfl
@[simp] theorem State.setOutcomes_commit (s : State) (v : Outcomes) : (s.setOutcomes v).commit = s.commit := rfl
@[simp] theorem State.setOutcomes_apply (s : State) (v : Outcomes) : (s.setOutcomes v).apply = s.apply := rfl
@[simp] theorem State.setOutcomes_journal (s : State) (v : Outcomes) : (s.setOutcomes v).journal = s.journal := rfl
@[simp] theorem State.setOutcomes_overlay (s : State) (v : Outcomes) : (s.setOutcomes v).overlay = s.overlay := rfl
@[simp] theorem State.setOutcomes_reads (s : State) (v : Outcomes) : (s.setOutcomes v).reads = s.reads := rfl
@[simp] theorem State.setOutcomes_port (s : State) (v : Outcomes) : (s.setOutcomes v).port = s.port := rfl
@[simp] theorem State.setOutcomes_outcomes (s : State) (v : Outcomes) : (s.setOutcomes v).outcomes = v := rfl
@[simp] theorem State.setOutcomes_attn (s : State) (v : Outcomes) : (s.setOutcomes v).attn = s.attn := rfl
@[simp] theorem State.setOutcomes_recovery (s : State) (v : Outcomes) : (s.setOutcomes v).recovery = s.recovery := rfl
@[simp] theorem State.setOutcomes_out (s : State) (v : Outcomes) : (s.setOutcomes v).out = s.out := rfl

@[simp] theorem State.setAttn_pending (s : State) (v : Attn) : (s.setAttn v).pending = s.pending := rfl
@[simp] theorem State.setAttn_pins (s : State) (v : Attn) : (s.setAttn v).pins = s.pins := rfl
@[simp] theorem State.setAttn_straps (s : State) (v : Attn) : (s.setAttn v).straps = s.straps := rfl
@[simp] theorem State.setAttn_ctrl (s : State) (v : Attn) : (s.setAttn v).ctrl = s.ctrl := rfl
@[simp] theorem State.setAttn_link (s : State) (v : Attn) : (s.setAttn v).link = s.link := rfl
@[simp] theorem State.setAttn_region (s : State) (v : Attn) : (s.setAttn v).region = s.region := rfl
@[simp] theorem State.setAttn_staging (s : State) (v : Attn) : (s.setAttn v).staging = s.staging := rfl
@[simp] theorem State.setAttn_groups (s : State) (v : Attn) : (s.setAttn v).groups = s.groups := rfl
@[simp] theorem State.setAttn_queue (s : State) (v : Attn) : (s.setAttn v).queue = s.queue := rfl
@[simp] theorem State.setAttn_commit (s : State) (v : Attn) : (s.setAttn v).commit = s.commit := rfl
@[simp] theorem State.setAttn_apply (s : State) (v : Attn) : (s.setAttn v).apply = s.apply := rfl
@[simp] theorem State.setAttn_journal (s : State) (v : Attn) : (s.setAttn v).journal = s.journal := rfl
@[simp] theorem State.setAttn_overlay (s : State) (v : Attn) : (s.setAttn v).overlay = s.overlay := rfl
@[simp] theorem State.setAttn_reads (s : State) (v : Attn) : (s.setAttn v).reads = s.reads := rfl
@[simp] theorem State.setAttn_port (s : State) (v : Attn) : (s.setAttn v).port = s.port := rfl
@[simp] theorem State.setAttn_outcomes (s : State) (v : Attn) : (s.setAttn v).outcomes = s.outcomes := rfl
@[simp] theorem State.setAttn_attn (s : State) (v : Attn) : (s.setAttn v).attn = v := rfl
@[simp] theorem State.setAttn_recovery (s : State) (v : Attn) : (s.setAttn v).recovery = s.recovery := rfl
@[simp] theorem State.setAttn_out (s : State) (v : Attn) : (s.setAttn v).out = s.out := rfl

@[simp] theorem State.setRecovery_pending (s : State) (v : Recovery) : (s.setRecovery v).pending = s.pending := rfl
@[simp] theorem State.setRecovery_pins (s : State) (v : Recovery) : (s.setRecovery v).pins = s.pins := rfl
@[simp] theorem State.setRecovery_straps (s : State) (v : Recovery) : (s.setRecovery v).straps = s.straps := rfl
@[simp] theorem State.setRecovery_ctrl (s : State) (v : Recovery) : (s.setRecovery v).ctrl = s.ctrl := rfl
@[simp] theorem State.setRecovery_link (s : State) (v : Recovery) : (s.setRecovery v).link = s.link := rfl
@[simp] theorem State.setRecovery_region (s : State) (v : Recovery) : (s.setRecovery v).region = s.region := rfl
@[simp] theorem State.setRecovery_staging (s : State) (v : Recovery) : (s.setRecovery v).staging = s.staging := rfl
@[simp] theorem State.setRecovery_groups (s : State) (v : Recovery) : (s.setRecovery v).groups = s.groups := rfl
@[simp] theorem State.setRecovery_queue (s : State) (v : Recovery) : (s.setRecovery v).queue = s.queue := rfl
@[simp] theorem State.setRecovery_commit (s : State) (v : Recovery) : (s.setRecovery v).commit = s.commit := rfl
@[simp] theorem State.setRecovery_apply (s : State) (v : Recovery) : (s.setRecovery v).apply = s.apply := rfl
@[simp] theorem State.setRecovery_journal (s : State) (v : Recovery) : (s.setRecovery v).journal = s.journal := rfl
@[simp] theorem State.setRecovery_overlay (s : State) (v : Recovery) : (s.setRecovery v).overlay = s.overlay := rfl
@[simp] theorem State.setRecovery_reads (s : State) (v : Recovery) : (s.setRecovery v).reads = s.reads := rfl
@[simp] theorem State.setRecovery_port (s : State) (v : Recovery) : (s.setRecovery v).port = s.port := rfl
@[simp] theorem State.setRecovery_outcomes (s : State) (v : Recovery) : (s.setRecovery v).outcomes = s.outcomes := rfl
@[simp] theorem State.setRecovery_attn (s : State) (v : Recovery) : (s.setRecovery v).attn = s.attn := rfl
@[simp] theorem State.setRecovery_recovery (s : State) (v : Recovery) : (s.setRecovery v).recovery = v := rfl
@[simp] theorem State.setRecovery_out (s : State) (v : Recovery) : (s.setRecovery v).out = s.out := rfl

@[simp] theorem State.setOut_pending (s : State) (v : Outputs) : (s.setOut v).pending = s.pending := rfl
@[simp] theorem State.setOut_pins (s : State) (v : Outputs) : (s.setOut v).pins = s.pins := rfl
@[simp] theorem State.setOut_straps (s : State) (v : Outputs) : (s.setOut v).straps = s.straps := rfl
@[simp] theorem State.setOut_ctrl (s : State) (v : Outputs) : (s.setOut v).ctrl = s.ctrl := rfl
@[simp] theorem State.setOut_link (s : State) (v : Outputs) : (s.setOut v).link = s.link := rfl
@[simp] theorem State.setOut_region (s : State) (v : Outputs) : (s.setOut v).region = s.region := rfl
@[simp] theorem State.setOut_staging (s : State) (v : Outputs) : (s.setOut v).staging = s.staging := rfl
@[simp] theorem State.setOut_groups (s : State) (v : Outputs) : (s.setOut v).groups = s.groups := rfl
@[simp] theorem State.setOut_queue (s : State) (v : Outputs) : (s.setOut v).queue = s.queue := rfl
@[simp] theorem State.setOut_commit (s : State) (v : Outputs) : (s.setOut v).commit = s.commit := rfl
@[simp] theorem State.setOut_apply (s : State) (v : Outputs) : (s.setOut v).apply = s.apply := rfl
@[simp] theorem State.setOut_journal (s : State) (v : Outputs) : (s.setOut v).journal = s.journal := rfl
@[simp] theorem State.setOut_overlay (s : State) (v : Outputs) : (s.setOut v).overlay = s.overlay := rfl
@[simp] theorem State.setOut_reads (s : State) (v : Outputs) : (s.setOut v).reads = s.reads := rfl
@[simp] theorem State.setOut_port (s : State) (v : Outputs) : (s.setOut v).port = s.port := rfl
@[simp] theorem State.setOut_outcomes (s : State) (v : Outputs) : (s.setOut v).outcomes = s.outcomes := rfl
@[simp] theorem State.setOut_attn (s : State) (v : Outputs) : (s.setOut v).attn = s.attn := rfl
@[simp] theorem State.setOut_recovery (s : State) (v : Outputs) : (s.setOut v).recovery = s.recovery := rfl
@[simp] theorem State.setOut_out (s : State) (v : Outputs) : (s.setOut v).out = v := rfl

end Sys2Proof.Machine
end

