-- ==== Sys2Proof/Laws/Attention.lean ====
section
/-! SUPPORT. What the Attention Unit makes of a step: the fields that `observe` leaves, the flags and the line it sets, and when it leaves
the unit as it was. -/

namespace Sys2Proof.Machine

@[simp] theorem State.settleAttn_pending (a b : State) : (State.settleAttn a b).pending = b.pending := rfl
@[simp] theorem State.settleAttn_pins (a b : State) : (State.settleAttn a b).pins = b.pins := rfl
@[simp] theorem State.settleAttn_straps (a b : State) : (State.settleAttn a b).straps = b.straps := rfl
@[simp] theorem State.settleAttn_ctrl (a b : State) : (State.settleAttn a b).ctrl = b.ctrl := rfl
@[simp] theorem State.settleAttn_link (a b : State) : (State.settleAttn a b).link = b.link := rfl
@[simp] theorem State.settleAttn_region (a b : State) : (State.settleAttn a b).region = b.region := rfl
@[simp] theorem State.settleAttn_staging (a b : State) : (State.settleAttn a b).staging = b.staging := rfl
@[simp] theorem State.settleAttn_groups (a b : State) : (State.settleAttn a b).groups = b.groups := rfl
@[simp] theorem State.settleAttn_queue (a b : State) : (State.settleAttn a b).queue = b.queue := rfl
@[simp] theorem State.settleAttn_commit (a b : State) : (State.settleAttn a b).commit = b.commit := rfl
@[simp] theorem State.settleAttn_apply (a b : State) : (State.settleAttn a b).apply = b.apply := rfl
@[simp] theorem State.settleAttn_journal (a b : State) : (State.settleAttn a b).journal = b.journal := rfl
@[simp] theorem State.settleAttn_overlay (a b : State) : (State.settleAttn a b).overlay = b.overlay := rfl
@[simp] theorem State.settleAttn_reads (a b : State) : (State.settleAttn a b).reads = b.reads := rfl
@[simp] theorem State.settleAttn_port (a b : State) : (State.settleAttn a b).port = b.port := rfl
@[simp] theorem State.settleAttn_outcomes (a b : State) : (State.settleAttn a b).outcomes = b.outcomes := rfl
@[simp] theorem State.settleAttn_recovery (a b : State) : (State.settleAttn a b).recovery = b.recovery := rfl
@[simp] theorem State.settleAttn_out (a b : State) : (State.settleAttn a b).out = b.out := rfl
@[simp] theorem State.settleAttn_enable (a b : State) : (State.settleAttn a b).attn.enable = b.attn.enable := rfl
@[simp] theorem State.settleAttn_live (a b : State) : (State.settleAttn a b).live = b.live := rfl

/-- The flags after a step: those it left, and every live condition that it changed (09 R145). -/
theorem State.settleAttn_flags (a b : State) : (State.settleAttn a b).attn.flags = b.attn.flags ||| (a.live ^^^ b.live) := rfl

/-- `observe` is `settleAttn` of what the step did. -/
theorem observe_eq (f : State → State) (s : State) : observe f s = State.settleAttn s (f s) := rfl

/-- After the Attention Unit's part the line is as 09 R147 says, whatever it was. -/
theorem State.settleAttn_attnOk (a b : State) : (State.settleAttn a b).attnOk := by
  refine ⟨fun h => ?_, fun h m => ?_⟩
  · have h' : b.ctrl.attnOn = false := h
    show attnLine a (b.noteChanges a.live) = false
    unfold attnLine
    rw [show (b.noteChanges a.live).ctrl.attnOn = false from h']
    rfl
  · have h' : b.ctrl.attnOn = true := h
    have m' : b.ctrl.attnMode = .level := m
    show attnLine a (b.noteChanges a.live) = (b.noteChanges a.live).attn.raised
    unfold attnLine
    rw [show (b.noteChanges a.live).ctrl.attnOn = true from h', show (b.noteChanges a.live).ctrl.attnMode = .level from m']
    rfl

/-- In pulse mode, before and after with ATTN_ON, the line is driven on or by a newly set enabled flag (09 R148). -/
theorem State.settleAttn_pulse (a b : State) (h1 : a.ctrl.attnOn = true) (h2 : a.ctrl.attnMode = .pulse) (h3 : b.ctrl.attnOn = true)
    (h4 : b.ctrl.attnMode = .pulse) :
    (State.settleAttn a b).attn.line =
      (a.attn.line || ((State.settleAttn a b).attn.flags &&& ~~~a.attn.flags &&& b.attn.enable) != 0) := by
  show attnLine a (b.noteChanges a.live) = _
  unfold attnLine
  rw [show (b.noteChanges a.live).ctrl.attnOn = true from h3, show (b.noteChanges a.live).ctrl.attnMode = .pulse from h4, h1, h2]
  simp only [Bool.true_and, Bool.and_true, beq_self_eq_true]
  rw [Bool.or_comm]
  rfl

/-- A step that leaves the unit's fields and the live conditions as they were leaves the whole state as it made it. -/
theorem State.settleAttn_same (a b : State) (h : a.attnOk) (hf : b.attn = a.attn) (hl : b.live = a.live)
    (ho : b.ctrl.attnOn = a.ctrl.attnOn) (hm : b.ctrl.attnMode = a.ctrl.attnMode) : State.settleAttn a b = b := by
  obtain ⟨h1, h2⟩ := h
  have e : b.noteChanges a.live = b := by
    unfold State.noteChanges
    rw [hl]
    simp [State.setAttn]
  have hl : attnLine a b = b.attn.line := by
    unfold attnLine
    rw [ho, hm, hf]
    cases h3 : a.ctrl.attnOn
    · simp [h1 h3]
    · cases h4 : a.ctrl.attnMode
      · simp [h2 h3 h4]
      · simp
  show (b.noteChanges a.live).setAttn { (b.noteChanges a.live).attn with line := attnLine a (b.noteChanges a.live) } = b
  rw [e, hl]
  rfl

/-- The same of `observe`. -/
theorem observe_same (f : State → State) (s : State) (h : s.attnOk) (hf : (f s).attn = s.attn) (hl : (f s).live = s.live)
    (ho : (f s).ctrl.attnOn = s.ctrl.attnOn) (hm : (f s).ctrl.attnMode = s.ctrl.attnMode) : observe f s = f s :=
  State.settleAttn_same s (f s) h hf hl ho hm

/-- A step that does nothing is observed as nothing. -/
theorem observe_nothing (f : State → State) (s : State) (h : s.attnOk) (hf : f s = s) : observe f s = s := by
  rw [observe_same f s h] <;> simp [hf]

/-- The live conditions depend on the pins, the operating state, the Outcome Queue, the straps and the live blocks alone (09 R143). -/
theorem State.live_congr (s t : State) (h1 : t.pins = s.pins) (h2 : t.ctrl.opState = s.ctrl.opState)
    (h3 : t.outcomes.queue = s.outcomes.queue) (h4 : t.straps = s.straps) (h5 : t.journal.live = s.journal.live) : t.live = s.live := by
  unfold State.live State.journalPressure
  rw [h1, h2, h3, h4, h5]

end Sys2Proof.Machine
end

