-- ==== Sys2Proof/Laws/Ram.lean ====
section
/-! SUPPORT. The staging data store: a write keeps its one form, and what each address reads as after a write. -/

namespace Sys2Proof.Machine

/-- Reading after a write: the word at its address, and every other address as before. -/
theorem ramRead_ramWrite (m : List (Nat × Word)) (lo a b : Nat) (w : Word) (h : ramWfFrom lo m = true) :
    ramRead (ramWrite m a w) b = if a = b then w else ramRead m b := by
  have below : ∀ (m : List (Nat × Word)) (lo b : Nat), ramWfFrom lo m = true → b < lo → ramRead m b = ramDefault := by
    intro m
    induction m with
    | nil => intros; rfl
    | cons e m ih =>
      obtain ⟨k, v⟩ := e
      intro lo b h hb
      simp only [ramWfFrom, Bool.and_eq_true, decide_eq_true_eq] at h
      simp only [ramRead]
      rw [if_neg (by omega)]
      exact ih (k + 1) b h.2 (by omega)
  induction m generalizing lo with
  | nil =>
    unfold ramWrite
    split
    · rename_i hw
      subst hw
      split <;> rfl
    · simp [ramRead]
  | cons e m ih =>
    obtain ⟨k, v⟩ := e
    simp only [ramWfFrom, Bool.and_eq_true, decide_eq_true_eq] at h
    obtain ⟨⟨hk, hv⟩, hm⟩ := h
    unfold ramWrite
    by_cases h1 : a < k
    · rw [if_pos h1]
      split
      · rename_i hw
        subst hw
        by_cases hab : a = b
        · subst hab
          rw [if_pos rfl]
          simp only [ramRead]
          rw [if_neg (by omega)]
          exact below m (k + 1) a hm (by omega)
        · rw [if_neg hab]
      · simp only [ramRead]
    · rw [if_neg h1]
      by_cases h2 : a = k
      · subst h2
        rw [if_pos rfl]
        split
        · rename_i hw
          subst hw
          by_cases hab : a = b
          · subst hab
            rw [if_pos rfl]
            exact below m (a + 1) a hm (by omega)
          · simp only [ramRead, if_neg hab]
        · simp only [ramRead]
          split <;> rfl
      · rw [if_neg h2]
        simp only [ramRead]
        by_cases hkb : k = b
        · rw [if_pos hkb, if_pos hkb, if_neg (by omega)]
        · rw [if_neg hkb, if_neg hkb]
          exact ih (k + 1) hm

/-- A write keeps the one form. -/
theorem ramWfFrom_ramWrite (m : List (Nat × Word)) (lo a : Nat) (w : Word) (h : ramWfFrom lo m = true) (ha : lo ≤ a) :
    ramWfFrom lo (ramWrite m a w) = true := by
  induction m generalizing lo with
  | nil =>
    unfold ramWrite
    split
    · rfl
    · rename_i hw
      simp [ramWfFrom, ha, hw]
  | cons e m ih =>
    obtain ⟨k, v⟩ := e
    have h' := h
    simp only [ramWfFrom, Bool.and_eq_true, decide_eq_true_eq] at h
    obtain ⟨⟨hk, hv⟩, hm⟩ := h
    unfold ramWrite
    by_cases h1 : a < k
    · rw [if_pos h1]
      split
      · exact h'
      · rename_i hw
        simp only [ramWfFrom, Bool.and_eq_true, decide_eq_true_eq]
        exact ⟨⟨ha, hw⟩, ⟨by omega, hv⟩, hm⟩
    · rw [if_neg h1]
      by_cases h2 : a = k
      · subst h2
        rw [if_pos rfl]
        have weaken : ∀ (m : List (Nat × Word)) (x y : Nat), x ≤ y → ramWfFrom y m = true → ramWfFrom x m = true := by
          intro m x y hxy hm
          cases m with
          | nil => rfl
          | cons e m =>
            obtain ⟨k, v⟩ := e
            simp only [ramWfFrom, Bool.and_eq_true, decide_eq_true_eq] at hm ⊢
            exact ⟨⟨by omega, hm.1.2⟩, hm.2⟩
        split
        · exact weaken m lo (a + 1) (by omega) hm
        · rename_i hw
          simp only [ramWfFrom, Bool.and_eq_true, decide_eq_true_eq]
          exact ⟨⟨hk, hw⟩, hm⟩
      · rw [if_neg h2]
        simp only [ramWfFrom, Bool.and_eq_true, decide_eq_true_eq]
        exact ⟨⟨hk, hv⟩, ih (k + 1) hm (by omega)⟩

/-- A write keeps the store in its one form. -/
theorem ramWf_ramWrite (m : List (Nat × Word)) (a : Nat) (w : Word) (h : ramWf m = true) : ramWf (ramWrite m a w) = true :=
  ramWfFrom_ramWrite m 0 a w h (Nat.zero_le a)

end Sys2Proof.Machine
end

