-- ==== Sys2Proof/Laws/Tables.lean ====
section
/-! SUPPORT. Tables indexed by number: what `upd` and `firstWhere` do. -/

namespace Sys2Proof.Machine

@[simp] theorem upd_length {α : Type} (xs : List α) (i : Nat) (f : α → α) : (upd xs i f).length = xs.length := by
  induction xs generalizing i with
  | nil => rfl
  | cons a as ih => cases i <;> simp [upd, ih]

theorem upd_getElem? {α : Type} (xs : List α) (i k : Nat) (f : α → α) :
    (upd xs i f)[k]? = if k = i then xs[k]?.map f else xs[k]? := by
  induction xs generalizing i k with
  | nil => simp [upd]
  | cons a as ih => cases i <;> cases k <;> simp [upd, ih]

/-- Entry i itself. -/
theorem upd_getD_self {α : Type} (xs : List α) (i : Nat) (f : α → α) (d : α) (h : i < xs.length) :
    (upd xs i f).getD i d = f (xs.getD i d) := by
  simp [List.getD, upd_getElem?, List.getElem?_eq_getElem h]

/-- Entry i itself where the default is unchanged by `f`. -/
theorem upd_getD_default {α : Type} (xs : List α) (i : Nat) (f : α → α) (d : α) (h : f d = d) :
    (upd xs i f).getD i d = f (xs.getD i d) := by
  by_cases hi : i < xs.length
  · exact upd_getD_self xs i f d hi
  · simp [List.getD, upd_getElem?, List.getElem?_eq_none (Nat.le_of_not_lt hi), h]

/-- Every other entry. -/
theorem upd_getD_ne {α : Type} (xs : List α) (i k : Nat) (f : α → α) (d : α) (h : k ≠ i) : (upd xs i f).getD k d = xs.getD k d := by
  simp [List.getD, upd_getElem?, h]

/-- A number beyond the table changes nothing. -/
theorem upd_beyond {α : Type} (xs : List α) (i : Nat) (f : α → α) (h : xs.length ≤ i) : upd xs i f = xs := by
  induction xs generalizing i with
  | nil => rfl
  | cons a as ih =>
    cases i with
    | zero => simp at h
    | succ i => simp [upd, ih i (by simpa using h)]

/-- A member of an updated table is a member of the table or the changed entry. -/
theorem mem_upd {α : Type} {xs : List α} {i : Nat} {f : α → α} {a : α} (h : a ∈ upd xs i f) :
    a ∈ xs ∨ ∃ b, xs[i]? = some b ∧ a = f b := by
  induction xs generalizing i with
  | nil => simp [upd] at h
  | cons b bs ih =>
    cases i with
    | zero =>
      simp only [upd, List.mem_cons] at h
      rcases h with rfl | h
      · exact .inr ⟨b, rfl, rfl⟩
      · exact .inl (List.mem_cons_of_mem _ h)
    | succ i =>
      simp only [upd, List.mem_cons] at h
      rcases h with rfl | h
      · exact .inl List.mem_cons_self
      · rcases ih h with h | ⟨c, hc, e⟩
        · exact .inl (List.mem_cons_of_mem _ h)
        · exact .inr ⟨c, by simpa using hc, e⟩

/-- The number found is in the table, and its entry satisfies the test. -/
theorem firstWhere_some {α : Type} {p : α → Bool} {xs : List α} {n : Nat} (h : firstWhere p xs = some n) :
    ∃ a, xs[n]? = some a ∧ p a = true := by
  induction xs generalizing n with
  | nil => simp [firstWhere] at h
  | cons b bs ih =>
    unfold firstWhere at h
    by_cases hb : p b = true
    · rw [if_pos hb] at h
      cases h
      exact ⟨b, rfl, hb⟩
    · rw [if_neg hb] at h
      cases hn : firstWhere p bs with
      | none => simp [hn] at h
      | some m =>
        simp only [hn, Option.map_some, Option.some.injEq] at h
        subst h
        simpa using ih hn

/-- No number is found exactly when no entry satisfies the test. -/
theorem firstWhere_none {α : Type} {p : α → Bool} {xs : List α} : firstWhere p xs = none ↔ ∀ a ∈ xs, p a = false := by
  induction xs with
  | nil => simp [firstWhere]
  | cons b bs ih =>
    unfold firstWhere
    by_cases hb : p b = true
    · simp [hb]
    · simp [hb, ih]

/-- The number found is the lowest. -/
theorem firstWhere_lowest {α : Type} {p : α → Bool} {xs : List α} {n k : Nat} {a : α} (h : firstWhere p xs = some n) (hk : k < n)
    (ha : xs[k]? = some a) : p a = false := by
  induction xs generalizing n k with
  | nil => simp [firstWhere] at h
  | cons b bs ih =>
    unfold firstWhere at h
    by_cases hb : p b = true
    · rw [if_pos hb] at h
      cases h
      exact absurd hk (Nat.not_lt_zero k)
    · rw [if_neg hb] at h
      cases hn : firstWhere p bs with
      | none => simp [hn] at h
      | some m =>
        simp only [hn, Option.map_some, Option.some.injEq] at h
        subst h
        cases k with
        | zero =>
          simp only [List.getElem?_cons_zero, Option.some.injEq] at ha
          subst ha
          simpa using hb
        | succ k => exact ih hn (Nat.lt_of_succ_lt_succ hk) (by simpa using ha)

end Sys2Proof.Machine
end

