-- ==== Sys2Proof/Laws/Staging.lean ====
section
/-! SUPPORT. The Staging Buffer's operations: the table keeps its 32 records, the store its one form, and the 256 chunks stay each in one
place. -/

namespace Sys2Proof.Machine

/-- What every operation of the Staging Buffer keeps: the number of records, the one form of the store, and the chunks. -/
structure Staging.Kept (g g' : Staging) : Prop where
  records : g'.records.length = g.records.length
  store : ramWf g.ram = true → ramWf g'.ram = true
  chunks : (∀ r ∈ g.records, r.st = .free → r.chunks = []) →
    (g'.pool ++ chunksHeld g'.records).Perm (g.pool ++ chunksHeld g.records) ∧ ∀ r ∈ g'.records, r.st = .free → r.chunks = []

theorem Staging.Kept.refl (g : Staging) : Staging.Kept g g := ⟨rfl, id, fun h => ⟨.refl _, h⟩⟩

theorem Staging.Kept.trans {a b c : Staging} (h : Staging.Kept a b) (k : Staging.Kept b c) : Staging.Kept a c :=
  ⟨k.records.trans h.records, k.store ∘ h.store, fun hf =>
    let ⟨p, hb⟩ := h.chunks hf
    let ⟨q, hc⟩ := k.chunks hb
    ⟨q.trans p, hc⟩⟩

/-- The chunks that the table holds after one record changes: those before, with the record's list replaced. -/
theorem chunksHeld_upd (rs : List BurstRecord) (r : Nat) (f : BurstRecord → BurstRecord) (h : r < rs.length) :
    (chunksHeld (upd rs r f) ++ (rs.getD r {}).chunks).Perm (chunksHeld rs ++ (f (rs.getD r {})).chunks) := by
  induction rs generalizing r with
  | nil => simp at h
  | cons x xs ih =>
    cases r with
    | zero =>
      simp only [upd, chunksHeld, List.flatMap_cons, List.getD_cons_zero]
      rw [List.perm_iff_count]
      intro a
      simp only [List.count_append]
      omega
    | succ r =>
      simp only [upd, chunksHeld, List.flatMap_cons, List.getD_cons_succ, List.append_assoc]
      exact .append_left _ (ih r (by simpa using h))

/-- One record changed and chunks moved between the pool and its list: what Kept asks of that. -/
theorem Staging.kept_upd (g g' : Staging) (r : Nat) (f : BurstRecord → BurstRecord)
    (hr : g'.records = upd g.records r f) (hs : ramWf g.ram = true → ramWf g'.ram = true)
    (hc : (∀ x ∈ g.records, x.st = .free → x.chunks = []) → r < g.records.length →
      (g'.pool ++ (f (g.records.getD r {})).chunks).Perm (g.pool ++ (g.records.getD r {}).chunks) ∧
      ((f (g.records.getD r {})).st = .free → (f (g.records.getD r {})).chunks = []))
    (hb : g.records.length ≤ r → g'.pool = g.pool) : Staging.Kept g g' := by
  refine ⟨by simp [hr], hs, fun hf => ?_⟩
  by_cases h : r < g.records.length
  · obtain ⟨p, q⟩ := hc hf h
    constructor
    · have u := chunksHeld_upd g.records r f h
      rw [List.perm_iff_count] at p u ⊢
      intro a
      have p := p a
      have u := u a
      simp only [List.count_append, hr] at p u ⊢
      omega
    · intro x hx
      rw [hr] at hx
      rcases mem_upd hx with hx | ⟨b, hb, rfl⟩
      · exact hf x hx
      · have : g.records.getD r {} = b := by simp [List.getD, hb]
        rw [← this]
        exact q
  · have h := Nat.le_of_not_lt h
    rw [hr, upd_beyond _ _ _ h, hb h]
    exact ⟨.refl _, hf⟩

/-- A change of one record that leaves its chunks, and leaves it FREE only if it was. -/
theorem Staging.kept_field (g g' : Staging) (r : Nat) (f : BurstRecord → BurstRecord) (hr : g'.records = upd g.records r f)
    (hp : g'.pool = g.pool) (hs : ramWf g.ram = true → ramWf g'.ram = true) (hc : ∀ x, (f x).chunks = x.chunks)
    (hf : ∀ x, (f x).st = .free → x.st = .free) : Staging.Kept g g' := by
  refine Staging.kept_upd g g' r f hr hs (fun hfree h => ?_) (fun _ => hp)
  rw [hp, hc]
  refine ⟨.refl _, fun h' => hfree _ ?_ (hf _ h')⟩
  rw [List.getD, List.getElem?_eq_getElem h]
  exact List.getElem_mem h

/-- A claim keeps them when the record is FREE (R6). -/
theorem Staging.claim_kept (g : Staging) (r : Nat) (m : Mode) (n o : Option Nat) (a : Nat) (h : (g.records.getD r {}).st = .free) :
    Staging.Kept g (g.claim r m n o a) := by
  refine Staging.kept_upd g _ r _ rfl id (fun hf hr => ?_) (fun _ => rfl)
  have : (g.records.getD r {}).chunks = [] := hf _ (by rw [List.getD, List.getElem?_eq_getElem hr]; exact List.getElem_mem hr) h
  rw [this]
  exact ⟨.refl _, fun _ => rfl⟩

/-- Taking a chunk moves it from the pool to the record's list (R10). -/
theorem Staging.takeChunk_kept (g : Staging) (r : Nat) : Staging.Kept g (g.takeChunk r) := by
  unfold Staging.takeChunk
  split
  · exact .refl g
  · rename_i c rest hp
    split
    · rename_i hst
      refine Staging.kept_upd g _ r _ rfl id (fun _ _ => ?_) (fun h => ?_)
      · constructor
        · rw [List.perm_iff_count]
          intro a
          simp only [hp, List.count_append, List.count_cons, List.count_nil]
          omega
        · intro h
          rw [hst] at h
          cases h
      · rw [List.getD, List.getElem?_eq_none h] at hst
        cases hst
    · exact .refl g

/-- Writing a word keeps them (R2). -/
theorem Staging.put_kept (g : Staging) (r : Nat) (w : Word) : Staging.Kept g (g.put r w) :=
  Staging.kept_field g _ r _ rfl rfl (ramWf_ramWrite g.ram _ w) (fun _ => rfl) (fun _ h => h)

/-- Taking a word keeps them (R10). -/
theorem Staging.take_kept (g : Staging) (r : Nat) (w : Word) : Staging.Kept g (g.take r w) := by
  unfold Staging.take
  split
  · exact (g.takeChunk_kept r).trans (Staging.put_kept _ r w)
  · exact g.put_kept r w

/-- Moving a record to a state other than FREE keeps them (R14, R17). -/
theorem Staging.move_kept (g : Staging) (r : Nat) (st : RecState) (h : st ≠ .free) : Staging.Kept g (g.move r st) :=
  Staging.kept_field g _ r _ rfl rfl id (fun _ => rfl) (fun _ h' => absurd h' h)

/-- Closing a record keeps them (R16). -/
theorem Staging.close_kept (g : Staging) (r : Nat) (c : Word) : Staging.Kept g (g.close r c) :=
  Staging.kept_field g _ r _ rfl rfl id (fun _ => rfl) (fun _ h => by cases h)

/-- Freeing a record returns its chunks to the pool (R3). -/
theorem Staging.free_kept (g : Staging) (r : Nat) : Staging.Kept g (g.free r) := by
  refine Staging.kept_upd g _ r _ rfl id (fun _ _ => ⟨?_, fun _ => rfl⟩) (fun h => ?_)
  · simp [Staging.free]
  · show g.pool ++ (g.records.getD r {}).chunks = g.pool
    rw [List.getD, List.getElem?_eq_none h]
    exact List.append_nil g.pool

/-- Freeing records in order keeps them. -/
theorem Staging.freeAll_kept (g : Staging) (rs : List Nat) : Staging.Kept g (rs.foldl Staging.free g) := by
  induction rs generalizing g with
  | nil => exact .refl g
  | cons r rs ih => exact (g.free_kept r).trans (ih (g.free r))

/-- Closing records in order keeps them. -/
theorem Staging.closeAll_kept (g : Staging) (rs : List Nat) (c : Word) : Staging.Kept g (rs.foldl (fun g r => g.close r c) g) := by
  induction rs generalizing g with
  | nil => exact .refl g
  | cons r rs ih => exact (g.close_kept r c).trans (ih (g.close r c))

/-- A freed record is blank. -/
theorem Staging.free_record (g : Staging) (r : Nat) : (g.free r).records.getD r {} = {} :=
  upd_getD_default g.records r _ {} rfl

/-- Freeing a record leaves the others and the store. -/
theorem Staging.free_other (g : Staging) (r k : Nat) (h : k ≠ r) : (g.free r).records.getD k {} = g.records.getD k {} :=
  upd_getD_ne g.records r k _ {} h

/-- Freeing records in order leaves the store. -/
theorem Staging.freeAll_ram (g : Staging) (rs : List Nat) : (rs.foldl Staging.free g).ram = g.ram := by
  induction rs generalizing g with
  | nil => rfl
  | cons r rs ih => exact ih (g.free r)

/-- After records are freed in order each of them is blank and every other one is as before. -/
theorem Staging.freeAll_record (g : Staging) (rs : List Nat) (k : Nat) :
    (rs.foldl Staging.free g).records.getD k {} = if k ∈ rs then {} else g.records.getD k {} := by
  induction rs generalizing g with
  | nil => simp
  | cons r rs ih =>
    rw [List.foldl_cons, ih]
    by_cases hk : k ∈ rs
    · simp [hk]
    · by_cases hr : k = r
      · subst hr
        rw [if_neg hk, g.free_record k, if_pos List.mem_cons_self]
      · rw [if_neg hk, g.free_other r k hr, if_neg (by simp [hk, hr])]

end Sys2Proof.Machine
end

