-- ==== Sys2Proof/Laws/Groups.lean ====
section
/-! SUPPORT. The Group Manager's operations: reading a slot or a tag after an update, and everything that rejecting a group does. -/

namespace Sys2Proof.Machine

/-- A report changes the Changed flags alone. -/
theorem State.report_eq (s : State) (e : Event) :
    s.report e = { s with attn := { s.attn with
      flags := if s.ctrl.opState = .held then s.attn.flags else s.attn.flags ||| flagAt e.pos true } } := by
  unfold State.report
  split <;> simp [State.setAttn]

/-- A slot after a slot is changed. -/
theorem State.updSlot_slot (s : State) (n k : Nat) (f : GroupSlot → GroupSlot) (h : n < s.groups.slots.length) :
    (s.updSlot n f).slot k = if k = n then f (s.slot n) else s.slot k := by
  unfold State.slot State.updSlot
  simp only [State.setGroups_groups]
  split
  · rename_i hk
    subst hk
    exact upd_getD_self _ _ _ _ h
  · rename_i hk
    exact upd_getD_ne _ _ _ _ _ hk

/-- Every other slot after a slot is changed. -/
theorem State.updSlot_other (s : State) (n k : Nat) (f : GroupSlot → GroupSlot) (h : k ≠ n) : (s.updSlot n f).slot k = s.slot k :=
  upd_getD_ne _ _ _ _ _ h

/-- A tag that is not FREE has an entry. -/
theorem State.tag_inTable (s : State) (t : Nat) (h : s.tag t ≠ .free) : t ≠ 0 ∧ t - 1 < s.groups.tags.length := by
  unfold State.tag at h
  split at h
  · exact absurd rfl h
  · rename_i ht
    refine ⟨ht, Nat.lt_of_not_le fun hl => h ?_⟩
    rw [List.getD, List.getElem?_eq_none hl]
    rfl

/-- A tag after an entry is set. -/
theorem State.setTag_tag (s : State) (t g : Nat) (x : TagState) (h : s.tag t ≠ .free) :
    (s.setTag t x).tag g = if g = t then x else s.tag g := by
  obtain ⟨h0, hl⟩ := s.tag_inTable t h
  unfold State.setTag
  rw [if_neg h0]
  unfold State.tag
  simp only [State.setGroups_groups]
  split
  · rename_i hg
    rw [if_neg (by omega)]
  · rename_i hg
    split
    · rename_i hgt
      subst hgt
      exact upd_getD_self _ _ _ _ hl
    · rename_i hgt
      exact upd_getD_ne _ _ _ _ _ (by omega)

/-- Every other tag after an entry is set. -/
theorem State.setTag_other (s : State) (t g : Nat) (x : TagState) (h : g ≠ t) : (s.setTag t x).tag g = s.tag g := by
  unfold State.setTag
  split
  · rfl
  · unfold State.tag
    simp only [State.setGroups_groups]
    split
    · rfl
    · exact upd_getD_ne _ _ _ _ _ (by omega)

/-- A tag set to FREE is FREE. -/
theorem State.setTag_free (s : State) (t : Nat) : (s.setTag t .free).tag t = .free := by
  unfold State.setTag
  split
  · rename_i h
    simp [State.tag, h]
  · unfold State.tag
    simp only [State.setGroups_groups]
    split
    · rfl
    · by_cases hl : t - 1 < s.groups.tags.length
      · exact upd_getD_self _ _ _ _ hl
      · rw [List.getD, List.getElem?_eq_none (by simpa using hl)]
        rfl

/-- Setting a tag changes the Tag Table alone. -/
theorem State.setTag_eq (s : State) (t : Nat) (x : TagState) :
    s.setTag t x = { s with groups := { s.groups with tags := (s.setTag t x).groups.tags } } := by
  unfold State.setTag
  split <;> rfl

/-- Everything that rejecting a group changes: its slot, the records of its members, its tag's entry, one outcome made ready, and the flag
GROUP_REJECTED (02 R34). -/
theorem State.rejectGroup_eq (s : State) (n : Nat) (e : FirstError) :
    s.rejectGroup n e = { s with
      staging := (s.slot n).members.foldl Staging.free s.staging
      groups := { s.groups with
        slots := upd s.groups.slots n fun _ =>
          { s.slot n with st := .rejected, members := [], firstError := some e, timer := none }
        tags := (s.setTag (s.slot n).tag (.fencedSlot n)).groups.tags }
      outcomes := { s.outcomes with
        pendPost := s.outcomes.pendPost ++
          [({ s.slot n with st := .rejected, members := [], firstError := some e, timer := none } : GroupSlot).outcome n .rejected
            none] }
      attn := { s.attn with flags := if s.ctrl.opState = .held then s.attn.flags else s.attn.flags ||| flagAt 12 true } } := by
  unfold State.rejectGroup
  rw [State.report_eq]
  unfold State.setTag
  dsimp only
  split
  · rfl
  · rfl

end Sys2Proof.Machine
end

