-- ==== Sys2Proof/Laws/Link.lean ====
section
/-! SUPPORT. The Link Interface's shared operations: what the idle timers, the receipt, the stops and the end of a data phase can
change, when a stop, a hold or a release is due, and what the words of an attribute write bring with them. -/

namespace Sys2Proof.Machine

/-- Stopping an idle timer changes slots of the Group Table alone. -/
theorem State.stopIdle_eq (s : State) (t : Nat) :
    s.stopIdle t = { s with groups := { s.groups with slots := (s.stopIdle t).groups.slots } } := by
  unfold State.stopIdle
  split <;> rfl

/-- Starting an idle timer changes slots of the Group Table alone. -/
theorem State.startIdle_eq (s : State) (t : Nat) :
    s.startIdle t = { s with groups := { s.groups with slots := (s.startIdle t).groups.slots } } := by
  unfold State.startIdle
  split <;> rfl

/-- No timer of an OPEN group starts when the tag is not OPEN. -/
theorem State.startIdle_closed (s : State) (t : Nat) (h : ∀ n, s.tag t ≠ .opened n) : s.startIdle t = s := by
  unfold State.startIdle
  split
  · rename_i n hn
    exact absurd hn (h n)
  · rfl

/-- The same of stopping. -/
theorem State.stopIdle_closed (s : State) (t : Nat) (h : ∀ n, s.tag t ≠ .opened n) : s.stopIdle t = s := by
  unfold State.stopIdle
  split
  · rename_i n hn
    exact absurd hn (h n)
  · rfl

/-- Nothing falls due when no HOLD field has been written. -/
theorem Ctrl.fallDue_none (c : Ctrl) (h : c.holdWritten = none) : c.fallDue = c := by
  obtain ⟨⟩ := c
  simp only at h
  subst h
  rfl

/-- What the link drives has no part in starting an idle timer. -/
theorem State.startIdle_setOut (s : State) (o : Outputs) (t : Nat) : (s.setOut o).startIdle t = (s.startIdle t).setOut o := by
  unfold State.startIdle
  simp only [show (s.setOut o).tag t = s.tag t from rfl]
  split <;> rfl

/-- A receipt leaves the link blank, drives the receipt word and may start the idle timer of the tag's OPEN group; nothing else changes
when no HOLD field has been written. -/
theorem State.driveReceipt_eq (s : State) (v : Verdict) (c : Bool) (h : s.ctrl.holdWritten = none) :
    s.driveReceipt v c =
      { s with
        link := {}, out := { s.out with receipt := some (receiptWord v s.link.tag c s.link.count) }
        groups := if s.link.hdr1.isSome then (s.startIdle s.link.tag).groups else s.groups } := by
  have hc : (s.startIdle s.link.tag).ctrl = s.ctrl := by rw [State.startIdle_eq]
  unfold State.driveReceipt
  by_cases h1 : s.link.hdr1.isSome = true
  · simp only [h1, if_true, State.startIdle_setOut]
    simp only [State.setOut_ctrl, hc, Ctrl.fallDue_none _ h]
    rw [State.startIdle_eq]
    rfl
  · simp only [h1]
    simp only [Bool.false_eq_true, if_false, State.setOut_ctrl, Ctrl.fallDue_none _ h]
    rfl

/-- The end of a data phase changes the collecting span, the Read Assembly and the waiting requests of READ and DIRECT alone. -/
theorem State.endData_eq (s : State) :
    s.endData = { s with
      link := { s.link with collecting := s.endData.link.collecting }, reads := s.endData.reads
      port := { s.port with waitRead := s.endData.port.waitRead, waitDirect := s.endData.port.waitDirect } } := by
  unfold State.endData State.discardSpans State.handCollecting
  split
  · rfl
  · split
    · dsimp only
      split <;> rfl
    · rfl

/-- A bridge's stop request changes the link, the Read Assembly and the waiting requests of READ and DIRECT alone, and of the link its state,
the pending verdict, the cut, the timers, the holds and the collecting span. -/
theorem State.bridgeStop_eq (s : State) (pv : Option Verdict) (cut : Bool) :
    s.bridgeStop pv cut = { s with
      link := { s.link with
        st := .stopping, pendVerdict := s.link.pendVerdict.or pv, cut := cut, handshake := some s.ctrl.handshakeLimit, stall := none
        bridgeHold := none, masterHold := false, presented := none, collecting := (s.bridgeStop pv cut).link.collecting }
      reads := (s.bridgeStop pv cut).reads
      port := { s.port with
        waitRead := (s.bridgeStop pv cut).port.waitRead, waitDirect := (s.bridgeStop pv cut).port.waitDirect } } := by
  unfold State.bridgeStop
  rw [State.endData_eq]
  rfl

/-- A slot given up at the end of a read burst is FREE or DISCARDING (05 R91). -/
theorem SpanSlot.discard_atRest (x : SpanSlot) (b : Bool) : (x.discard b).atRest := by
  unfold SpanSlot.discard SpanSlot.atRest
  cases h : x.st <;> cases b <;> simp [h]

/-- After the spans are discarded the Read Assembly is at rest and no READ request waits (05 R91). -/
theorem State.discardSpans_atRest (s : State) : (∀ x ∈ s.discardSpans.reads.slots, x.atRest) ∧ s.discardSpans.port.waitRead = [] := by
  refine ⟨fun x hx => ?_, rfl⟩
  simp only [State.discardSpans, State.setPort_reads, State.setReads_reads, List.mem_mapIdx] at hx
  obtain ⟨i, h, rfl⟩ := hx
  exact SpanSlot.discard_atRest _ _

/-- The end of a common read's data phase leaves the Read Assembly at rest. -/
theorem State.endData_atRest (s : State) (h : s.link.commonRead = true) :
    (∀ x ∈ s.endData.reads.slots, x.atRest) ∧ s.endData.port.waitRead = [] := by
  unfold State.endData
  rw [if_pos h]
  exact s.discardSpans_atRest

/-- A stop of the bridge that is due is a cut: the burst is a read that streams, and its words are all sent (05 R91, 07 R124). -/
theorem State.requestDue_eq (s : State) (h : s.link.st = .streaming) (hr : s.link.isRead = true) (he : s.link.exhausted = true) :
    s.requestDue = s.bridgeStop none true := by
  unfold State.requestDue
  rw [if_pos ⟨h, hr, he⟩]

/-- No stop is due while words of the extent remain. -/
theorem State.requestDue_none (s : State) (he : s.link.exhausted = false) : s.requestDue = s := by
  unfold State.requestDue
  simp [he]

/-- Streaming that reaches a FAILED span stops the burst with MEMORY_FAULT, whether it waits for the span or not (05 R92, 07 R118). -/
theorem State.reachSpan_failed (s : State) (n : Nat) (h : s.link.st = .streaming) (hc : s.link.commonRead = true)
    (he : s.link.exhausted = false) (hn : s.spanNo (s.link.count / Config.spanWords) = some n) (hf : (s.span n).st = .failed) :
    s.reachSpan = s.bridgeStop (some .memoryFault) false := by
  unfold State.reachSpan
  simp [h, hc, he, hn, hf]

/-- No stop of the bridge is due outside STREAMING, or of a write. -/
theorem State.requestDue_other (s : State) (h : s.link.st = .streaming → s.link.isRead = false) : s.requestDue = s := by
  unfold State.requestDue
  split
  · rename_i hc
    simp [h hc.1] at hc
  · rfl

/-- With no hold or release due a header word 0 finds the state as it is (07 R123). -/
theorem State.settleDue_none (s : State) (h : s.ctrl.holdDue = none) : s.settleDue = s := by
  unfold State.settleDue State.takeHold State.takeRelease
  simp [h]

/-- A word brings nothing of its own with it except after a Control word and an Outcome Ack. -/
theorem State.followUp_other (s : State) (o : Nat) (h : o ≠ 0x40) (k : o ≠ 0x59) : s.followUp o = s := by
  unfold State.followUp
  rw [if_neg (by omega)]

/-- Nothing is posted where no outcome waits (09 R137). -/
theorem State.postAll_nil (s : State) (h : s.outcomes.pendPost = []) : s.postAll = s := by
  unfold State.postAll
  rw [h]
  rfl

/-- The words of an attribute write, one at a time (12 R175). -/
theorem State.applyWords_cons (s : State) (o : Nat) (w v : Word) (ws : List Word) :
    s.applyWords o (w :: v :: ws) = ((s.applyWord o w).followUp o).applyWords (o + 1) (v :: ws) := rfl

end Sys2Proof.Machine
end

