-- ==== Sys2Proof/Laws/PerInstr.lean ====
section
/-! SUPPORT. One lemma per constructor of Instr, for the statements about all commands. -/

namespace Sys2Proof.Laws.OperandChecks

/-- The commands whose operands a check can refuse: an attribute word at an offset with a row of its own, a Control word for another row,
and a READ's words (12 R174, 10 R153, 08 R127). -/
def checked : Instr → Bool
  | .attributeWordWrite _ _ | .arm _ | .drain _ | .hold _ | .holdRelease _ _ _ | .defaultModeWrite _ | .attnControlWrite _
  | .readSpanCompletion _ | .recoveryAnchorReadCompletion _ | .recoveryReadCompletion _ => true
  | _ => false

/-- A command outside the checked rows is well-formed, whatever its operands. -/
def Statement (i : Instr) : Prop := checked i = false → i.wellFormed = true

theorem headerWord0 (w : Word) : Statement (.headerWord0 w) := fun _ => rfl
theorem opening (w : Word) : Statement (.opening w) := fun _ => rfl
theorem withheldAnswer : Statement (.withheldAnswer) := fun _ => rfl
theorem writeDataWord (w : Word) : Statement (.writeDataWord w) := fun _ => rfl
theorem restoreReady : Statement (.restoreReady) := fun _ => rfl
theorem readDataWord : Statement (.readDataWord) := fun _ => rfl
theorem masterPause : Statement (.masterPause) := fun _ => rfl
theorem masterStop : Statement (.masterStop) := fun _ => rfl
theorem masterAcknowledge : Statement (.masterAcknowledge) := fun _ => rfl
theorem checkWord (w : Word) : Statement (.checkWord w) := fun _ => rfl
theorem checkReply (w : Word) : Statement (.checkReply w) := fun _ => rfl
theorem stallTimerExpiry : Statement (.stallTimerExpiry) := fun _ => rfl
theorem handshakeTimerExpiry : Statement (.handshakeTimerExpiry) := fun _ => rfl
theorem groupIdleExpiry (slot : Fin 8) : Statement (.groupIdleExpiry slot) := fun _ => rfl
theorem attributeWordWrite (offset : BitVec 8) (w : Word) : Statement (.attributeWordWrite offset w) := fun h => nomatch h
theorem arm (w : Word) : Statement (.arm w) := fun h => nomatch h
theorem drain (w : Word) : Statement (.drain w) := fun h => nomatch h
theorem drainComplete : Statement (.drainComplete) := fun _ => rfl
theorem hold (w : Word) : Statement (.hold w) := fun h => nomatch h
theorem holdRelease (w : Word) (cap jrn : BitVec 2) : Statement (.holdRelease w cap jrn) := fun h => nomatch h
theorem defaultModeWrite (w : Word) : Statement (.defaultModeWrite w) := fun h => nomatch h
theorem attnControlWrite (w : Word) : Statement (.attnControlWrite w) := fun h => nomatch h
theorem limitWrite (which : LimitName) (w : Word) : Statement (.limitWrite which w) := fun _ => rfl
theorem regionTableWrite (index : Fin 16) (w : Word) : Statement (.regionTableWrite index w) := fun _ => rfl
theorem changedFlagsWrite (w : Word) : Statement (.changedFlagsWrite w) := fun _ => rfl
theorem attentionEnableWrite (w : Word) : Statement (.attentionEnableWrite w) := fun _ => rfl
theorem outcomeAck (w : Word) : Statement (.outcomeAck w) := fun _ => rfl
theorem outcomePost : Statement (.outcomePost) := fun _ => rfl
theorem commitTakeUnit : Statement (.commitTakeUnit) := fun _ => rfl
theorem blockGrant : Statement (.blockGrant) := fun _ => rfl
theorem arbiterGrant : Statement (.arbiterGrant) := fun _ => rfl
theorem skipCompletion (st : Status) : Statement (.skipCompletion st) := fun _ => rfl
theorem commitRequestCompletion (st : Status) : Statement (.commitRequestCompletion st) := fun _ => rfl
theorem markCompletion (st : Status) : Statement (.markCompletion st) := fun _ => rfl
theorem applyTakeUnit : Statement (.applyTakeUnit) := fun _ => rfl
theorem applyCompletion (st : Status) : Statement (.applyCompletion st) := fun _ => rfl
theorem anchorCompletion (st : Status) : Statement (.anchorCompletion st) := fun _ => rfl
theorem readSpanCompletion (c : Completion) : Statement (.readSpanCompletion c) := fun h => nomatch h
theorem directSpanCompletion (st : Status) : Statement (.directSpanCompletion st) := fun _ => rfl
theorem discardedCompletion (c : Completion) : Statement (.discardedCompletion c) := fun _ => rfl
theorem hardReset : Statement (.hardReset) := fun _ => rfl
theorem resetRelease (cap jrn : BitVec 2) : Statement (.resetRelease cap jrn) := fun _ => rfl
theorem pwarnAssert : Statement (.pwarnAssert) := fun _ => rfl
theorem pwarnDeassert : Statement (.pwarnDeassert) := fun _ => rfl
theorem recoveryAnchorReadCompletion (c : Completion) : Statement (.recoveryAnchorReadCompletion c) := fun h => nomatch h
theorem recoveryReadCompletion (c : Completion) : Statement (.recoveryReadCompletion c) := fun h => nomatch h
theorem recoveryReplayWriteCompletion (st : Status) : Statement (.recoveryReplayWriteCompletion st) := fun _ => rfl
theorem recoveryAnchorWriteCompletion (st : Status) : Statement (.recoveryAnchorWriteCompletion st) := fun _ => rfl
theorem attnPulseEnd : Statement (.attnPulseEnd) := fun _ => rfl

end Sys2Proof.Laws.OperandChecks
end

