-- ==== Sys2Proof/Tests/Slice0.lean ====
section
/-! SUPPORT. The model's own tests: the operand checks, the formats of the spec, one step of each command on a small state, and for every
statement a state and operands that meet its hypotheses. -/

set_option Elab.async false

namespace Sys2Proof.Machine

/-! ### The checks of a command's operands refuse an ill-formed command -/

theorem test_wf_attribute_offset_with_a_row : (Instr.attributeWordWrite 0x40 0).wellFormed = false := by decide
theorem test_wf_attribute_offset_of_the_table : (Instr.attributeWordWrite 0x8F 0).wellFormed = false := by decide
theorem test_wf_attribute_offset_without_a_row : (Instr.attributeWordWrite 0x90 0).wellFormed = true := by decide
theorem test_wf_arm_without_its_bit : (Instr.arm 0xFFFFFFFD).wellFormed = false := by decide
theorem test_wf_drain_without_its_bit : (Instr.drain 0xFFFFFFFB).wellFormed = false := by decide
theorem test_wf_hold_without_its_bit : (Instr.hold 0xFFFFFFFE).wellFormed = false := by decide
theorem test_wf_release_with_hold : (Instr.holdRelease 1 0 0).wellFormed = false := by decide
theorem test_wf_mode_with_arm : (Instr.defaultModeWrite 2).wellFormed = false := by decide
theorem test_wf_mode_with_drain : (Instr.defaultModeWrite 4).wellFormed = false := by decide
theorem test_wf_attn_with_arm : (Instr.attnControlWrite 2).wellFormed = false := by decide
theorem test_wf_attn_with_drain : (Instr.attnControlWrite 4).wellFormed = false := by decide
theorem test_wf_span_of_no_words : (Instr.readSpanCompletion (.ok [])).wellFormed = false := by decide
theorem test_wf_span_of_17_words : (Instr.readSpanCompletion (.ok (List.replicate 17 0))).wellFormed = false := by decide
theorem test_wf_anchor_read_of_no_words : (Instr.recoveryAnchorReadCompletion (.ok [])).wellFormed = false := by decide
theorem test_wf_recovery_read_of_17_words : (Instr.recoveryReadCompletion (.ok (List.replicate 17 0))).wellFormed = false := by decide
theorem test_wf_span_of_16_words : (Instr.readSpanCompletion (.ok (List.replicate 16 0))).wellFormed = true := by decide

/-! ### Formats (00 R1, 03 R42, 12.1 to 12.5) -/

theorem test_check_of_a_zero_word : checkOf [0] = 0x1C2D19ED#32 := by decide +kernel
theorem test_check_of_a_word : checkOf [0x12345678] = 0x57E25AD4#32 := by decide +kernel
theorem test_check_of_an_anchor : checkOf [0x4A524E4C, 4, 1, 2, 1] = 0x67B08C99#32 := by decide +kernel
theorem test_geometry_of_cap0_jrn0 :
    let p : Straps := { cap := 0, jrn := 0 }
    p.downWords = 134217728 ∧ p.visible = 133169152 ∧ p.visibleGranules = 8128 ∧ p.journalBlocks = 16384 ∧ p.ringBlocks = 16382 ∧
    p.blockAddr 2 = 133169280 := by decide
theorem test_geometry_of_cap3_jrn0 : (Straps.mk 3 0).visibleGranules = 65472 ∧ (Straps.mk 3 3).journalBlocks = 131072 := by decide
theorem test_capability_heads :
    let c := capabilityChain { cap := 0, jrn := 0 }
    c.length = 22 ∧ c.getD 0 0 = 0x00000401#32 ∧ c.getD 4 0 = 0x00000502#32 ∧ c.getD 9 0 = 0x00000903#32 ∧ c.getD 18 0 = 0x00000304#32 ∧
    c.getD 21 0 = 0x000001FF#32 := by decide
theorem test_header_word_fields :
    let w : Word := 0b0111_0101
    hdrTag w = 5 ∧ hdrClose w = true ∧ hdrAttr w = true ∧ hdrRead w = true ∧ formatFault w 0xFF = false ∧ formatFault w 0x100 = true ∧
    formatFault 0x80 0 = true ∧ formatFault 0 0x3FFFFFFF = false ∧ formatFault 0 0x40000000 = true := by decide
theorem test_receipt_word : receiptWord .refusedGroupFull 3 true 16384 = 0x4000132A#32 := by decide
theorem test_window_after_reset :
    let s := State.reset
    s.readWord 0x40 = 0x30#32 ∧ s.readWord 0x41 = 1#32 ∧ s.readWord 0x48 = 64#32 ∧ s.readWord 0x49 = 16#32 ∧ s.readWord 0x4A = 1000#32 ∧
    s.readWord 0x80 = 0#32 ∧ s.readWord 0x81 = 0x30#32 ∧ s.readWord 0x60 = 2#32 ∧ s.readWord 0x61 = 2#32 ∧ s.readWord 0x63 = 1#32 ∧
    s.readWord 0x66 = 1#32 ∧ s.readWord 0x43 = 0#32 ∧ s.readWord 0xFF = 0#32 := by decide
theorem test_later_wraps : later 0 0xFFFFFFFF = true ∧ later 0xFFFFFFFF 0 = false ∧ later 5 5 = false ∧ later 0x80000000 0 = false := by
  decide

/-! ### Small states -/

/-- The bridge out of reset in an operating state, with nothing in progress. -/
def tBridge (op : OpState) : State := { State.reset with pins := { resetN := true, pwarn := false }, ctrl := Ctrl.init op false }

/-- ARMED with every address of one mode. -/
def tArmed (m : Mode) : State := { tBridge .armed with region := { Region.init with latched := m } }

/-- A state with its link in OPENING behind header word 0. -/
def tOpening (s : State) (h : Word) : State :=
  s.setLink { st := .opening, hdr0 := some h, check := checkOf [h], stall := some 64 }

/-- A state whose link streams a burst of the two header words, paused by the master. -/
def tStreaming (s : State) (h0 h1 : Word) (m : Mode) (bound : Nat) : State :=
  s.setLink { st := .streaming, hdr0 := some h0, hdr1 := some h1, check := 7, bound := bound, mode := m, masterHold := true, stall := some 64 }

/-- A state whose link changes by `f`. -/
def State.mapLink (s : State) (f : Link → Link) : State := s.setLink (f s.link)

/-- Record 0 claimed for a burst of a mode and a slot. -/
def tRecord (s : State) (m : Mode) (n : Option Nat) : State :=
  (s.setStaging (s.staging.claim 0 m n (n.map fun _ => 1) 0)).mapLink fun l => { l with record := some 0, slot := n }

/-- Every record in a state. -/
def tRecords (s : State) (st : RecState) : State :=
  s.setStaging { s.staging with records := s.staging.records.map fun r => { r with st := st } }

/-- The write of tag 1 into GUARDED memory, in CHECKING with one word counted. -/
def tChecking (s : State) (h0 : Word) : State :=
  (tRecord ((s.openGroup 0 1).setLink
    { st := .checking, hdr0 := some h0, hdr1 := some 0, check := 7, count := 1, bound := 16384, mode := .guarded,
      handshake := some 16 }) .guarded (some 0))

/-- One request outstanding, and the requests that wait as they were. -/
def tOutstanding (s : State) (r : Requester) (k : ReqKind) (role : Role) : State :=
  s.setPort { s.port with
    outstanding := [{ requester := r, kind := k, addr := 5, len := 16, disposition := .take, role := role }] }

/-- A GUARDED unit of slot 0 in the queue and in hand, in a stage, with its grant of three blocks at block 2. -/
def tUnit (s : State) (st : Stage) (c : CommitState) : State :=
  let t := ((s.openGroup 0 1).updSlot 0 fun g =>
    { g with st := .closed, members := [0], burstCount := 1, wordCount := 17, closeNo := some 0, journalSeq := some 1 }).setTag 1 .free
  let u := (t.setStaging (t.staging.claim 0 .guarded (some 0) (some 1) 0)).updRecord 0 fun r =>
    { r with st := .closed, wordCount := 17, closeNo := some 0 }
  (u.setQueue
    [{ owner := .guarded 0, closeNo := 0, stage := st, seq := some 1, start := some 2, len := some 3, progress := none }]).setCommit
    { st := c, inHand := some 0 }

/-- The state after one command. -/
def tAfter (s : State) (i : Instr) : State :=
  match exec i s with
  | .next t => t
  | _ => s

/-! ### One step of each command -/

theorem test_headerWord0 :
    let t := tAfter (tArmed .guarded) (.headerWord0 1)
    t.link.st = .opening ∧ t.link.stall = some 64 ∧ t.link.check = checkOf [1] := by decide +kernel
theorem test_opening_accepts_a_guarded_write :
    let t := tAfter (tOpening (tArmed .guarded) 0x11) (.opening 16000)
    t.link.st = .streaming ∧ t.link.record = some 0 ∧ t.link.slot = some 0 ∧ t.link.bound = 32384 ∧ t.tag 1 = .opened 0 ∧
    (t.record 0).ordinal = some 1 ∧ t.out.answer = some .accept := by decide +kernel
theorem test_opening_refuses_out_of_range :
    (tAfter (tOpening (tArmed .guarded) 0x11) (.opening 133169152)).out.receipt = some 0x00000123#32 := by decide +kernel
theorem test_withheldAnswer :
    let s := (tOpening (tArmed .guarded) 0x1).mapLink fun l => { l with st := .withheld, hdr1 := some 0, stall := none }
    (tAfter s .withheldAnswer).link.st = .streaming ∧
    (tAfter (s.setCtrl { s.ctrl with opState := .halted }) .withheldAnswer).out.receipt = some 0x00000122#32 := by decide +kernel
theorem test_writeDataWord :
    let s := tRecord ((tStreaming (tArmed .guarded) 0 0 .guarded 16384).openGroup 0 0) .guarded (some 0)
    let t := tAfter s (.writeDataWord 5)
    t.link.count = 1 ∧ (t.record 0).chunks = [0] ∧ t.staging.word (t.record 0) 0 = 5#32 ∧ t.staging.pool.length = 255 := by
  decide +kernel
theorem test_writeDataWord_at_the_limit :
    let t := tAfter (tRecord (tStreaming (tArmed .checked) 0 0 .checked 0) .checked none) (.writeDataWord 5)
    t.link.st = .stopping ∧ t.link.cut = true ∧ t.link.count = 0 := by decide +kernel
theorem test_restoreReady :
    let s := (tRecord (tStreaming (tArmed .checked) 0 0 .checked 9) .checked none).mapLink fun l =>
      { l with bridgeHold := some .chunks, masterHold := false, stall := none, presented := some 5 }
    (tAfter s .restoreReady).link.count = 1 ∧
    tAfter (s.setStaging { s.staging with pool := [] }) .restoreReady = s.setStaging { s.staging with pool := [] } := by decide +kernel
theorem test_readDataWord :
    let s := (tStreaming (tArmed .guarded) 0x60 0x40 .readOnly 66).mapLink fun l => { l with attrImage := [0x30, 3] }
    let t := tAfter s .readDataWord
    let u := tAfter t .readDataWord
    t.out.data = some 0x30#32 ∧ t.link.count = 1 ∧ u.out.data = some 3#32 ∧ u.link.st = .streaming ∧
    (tAfter u .readDataWord).link.cut = true ∧ (tAfter u .masterAcknowledge).link.cut = true ∧
    (tAfter u .masterStop).link.cut = false ∧ (tAfter u .masterStop).link.count = 2 := by decide +kernel
theorem test_masterPause :
    let s := (tStreaming (tArmed .guarded) 0x40 0 .readOnly 9).mapLink fun l => { l with masterHold := false, stall := none }
    (tAfter s .masterPause).link.stall = some 64 := by decide
theorem test_masterStop_of_a_direct_write :
    let s := (tStreaming (tArmed .direct) 0 0x100 .direct 16384).mapLink fun l => { l with collecting := [8, 9], count := 18 }
    let t := tAfter s .masterStop
    t.link.st = .checking ∧ t.link.collecting = [] ∧ t.port.waitDirect = [{ addr := 0x110, words := [8, 9] }] := by decide
theorem test_masterAcknowledge_of_a_read :
    let s := (tStreaming (tArmed .guarded) 0x40 0 .readOnly 9).mapLink fun l => { l with st := .stopping, handshake := some 16 }
    (tAfter s .masterAcknowledge).out.check = some 7#32 ∧ (tAfter s .masterAcknowledge).link.st = .checking := by decide
theorem test_checkWord_joins_the_group :
    let t := tAfter (tChecking (tArmed .guarded) 1) (.checkWord 7)
    (t.slot 0).members = [0] ∧ (t.slot 0).wordCount = 1 ∧ (t.record 0).st = .held ∧ t.out.receipt = some 0x00010100#32 := by decide +kernel
theorem test_checkWord_closes_the_group :
    let t := tAfter (tChecking (tArmed .guarded) 0x11) (.checkWord 7)
    (t.slot 0).st = .closed ∧ (t.record 0).closeNo = some 0#32 ∧ t.queue.length = 1 ∧ t.tag 1 = .free ∧
    t.out.receipt = some 0x00011100#32 ∧ t.overlay.length = 1 := by decide +kernel
theorem test_checkReply_of_two_is_a_mismatch :
    let s := (tStreaming (tArmed .guarded) 0x60 0 .readOnly 9).mapLink fun l => { l with st := .checking, handshake := some 16 }
    (tAfter s (.checkReply 2)).out.receipt = some 0x00000010#32 ∧ (tAfter s (.checkReply 2)).attn.flags = 0x100#16 ∧
    (tAfter s (.checkReply 1)).out.receipt = some 0#32 := by decide +kernel
theorem test_stallTimerExpiry :
    (tAfter (tOpening (tArmed .guarded) 3) .stallTimerExpiry).out.receipt = some 0x00000312#32 ∧
    (tAfter (tStreaming (tArmed .checked) 0 0 .checked 9) .stallTimerExpiry).link.pendVerdict = some .stallTimeout := by decide +kernel
theorem test_handshakeTimerExpiry :
    let t := tAfter (tChecking (tArmed .guarded) 1) .handshakeTimerExpiry
    (t.slot 0).st = .rejected ∧ t.tag 1 = .fencedSlot 0 ∧ t.record 0 = {} ∧ t.out.receipt = some 0x00010113#32 := by decide +kernel
theorem test_groupIdleExpiry :
    let s := ((tArmed .guarded).openGroup 0 1).startIdle 1
    ((tAfter s (.groupIdleExpiry 0)).slot 0).firstError = some (bareError .idleExpiry) ∧ tAfter s (.groupIdleExpiry 1) = s := by
  decide +kernel
theorem test_attributeWordWrite :
    tAfter (tArmed .guarded) (.attributeWordWrite 0x41 9) =
      (tArmed .guarded).setOut { answer := some .accept, receipt := some 0x00010000#32 } := by decide +kernel
theorem test_arm :
    let t := tAfter (tBridge .unconfigured) (.arm 0x12)
    t.ctrl.opState = .armed ∧ t.region.latched = .checked ∧ t.attn.flags = 3#16 := by decide +kernel
theorem test_arm_refused :
    let t := tAfter (tArmed .guarded) (.arm 0x32)
    t.ctrl.refusal = .state ∧ t.out.receipt = some 0x00010016#32 := by decide +kernel
theorem test_drain :
    let t := tAfter ((tArmed .guarded).openGroup 0 1) (.drain 0x34)
    t.ctrl.opState = .draining ∧ (t.slot 0).st = .rejected ∧ t.attn.flags = 0x1001#16 := by decide +kernel
/-- A burst whose words 0x40 to 0x45 drain with nothing left and then clear DRAIN_DONE: the drain completes before the later word (R158,
R175). -/
theorem test_drain_completes_within_its_burst :
    let s := (tChecking (tArmed .guarded) 0x20).setGroups Groups.init
    let b := s.mapLink fun l => { l with hdr1 := some 0x40, count := 6, slot := none, record := none }
    let t (ws : List Word) := tAfter (b.mapLink fun l => { l with attrBuf := ws }) (.checkWord 7)
    (t [0x34]).ctrl.opState = .draining ∧ (t [0x34, 0, 0, 0, 0, 0]).ctrl.opState = .unconfigured ∧
    (t [0x34, 0, 0, 0, 0, 0]).attn.flags = 0x4003#16 ∧ (t [0x34, 0, 0, 0, 0, 0x40000000]).attn.flags = 3#16 := by decide +kernel
theorem test_drainComplete :
    let t := tAfter (tBridge .draining) .drainComplete
    t.ctrl.opState = .unconfigured ∧ t.attn.flags = 0x4002#16 := by decide +kernel
theorem test_hold :
    let t := tAfter (tArmed .guarded) (.hold 0x31)
    t.ctrl.opState = .held ∧ t.readWord 0x40 = 0x31#32 := by decide +kernel
theorem test_holdRelease :
    let t := tAfter ((tBridge .held).setCtrl (Ctrl.init .held true)) (.holdRelease 0x30 1 2)
    t.ctrl.opState = .recovering ∧ t.straps = { cap := 1, jrn := 2 } ∧ t.recovery.phase = .anchor 0 := by decide +kernel
theorem test_defaultModeWrite :
    (tAfter (tBridge .unconfigured) (.defaultModeWrite 0x20)).ctrl.defaultMode = .direct ∧
    (tAfter (tArmed .guarded) (.defaultModeWrite 0x20)).ctrl.refusal = .modeLocked := by decide +kernel
theorem test_attnControlWrite :
    let s := (tArmed .guarded).setAttn { flags := 1, enable := 1, line := false }
    (tAfter s (.attnControlWrite 0x130)).attn.line = true ∧ (tAfter s (.attnControlWrite 0x330)).attn.line = false := by decide +kernel
theorem test_limitWrite :
    (tAfter (tArmed .guarded) (.limitWrite .stall 1023)).ctrl.stallLimit = 1023 ∧
    (tAfter (tArmed .guarded) (.limitWrite .handshake 1024)).ctrl.refusal = .range ∧
    (tAfter (tArmed .guarded) (.limitWrite .groupIdle 0)).ctrl.idleLimit = 0 := by decide +kernel
theorem test_regionTableWrite :
    ((tAfter (tBridge .unconfigured) (.regionTableWrite 14 0x00030002)).region.entries.getD 7 {}).limit = 3 ∧
    (tAfter (tBridge .unconfigured) (.regionTableWrite 15 0x21)).region.word 15 = 0x21#32 := by decide +kernel
theorem test_changedFlagsWrite :
    let s := (tArmed .guarded).setAttn { flags := 0x00F0, enable := 0, line := false }
    (tAfter s (.changedFlagsWrite 0x003C0005)).attn.flags = 0xC4#16 := by decide +kernel
theorem test_attentionEnableWrite : (tAfter (tArmed .guarded) (.attentionEnableWrite 0xFFFF8001)).attn.enable = 0x8001#16 := by
  decide +kernel

/-- A REJECTED outcome of slot 0 and tag 1. -/
def tOutcome : ReadyOutcome :=
  { slot := 0, verdict := .rejected, tag := 1, seq := none, burstCount := 0, wordCount := 0, firstError := none }

theorem test_outcomeAck :
    let s := (tArmed .guarded).setOutcomes { queue := [{ number := 7, outcome := tOutcome }], pendPost := [], counter := 8 }
    let t := tAfter (s.setTag 1 (.fencedNumber 7)) (.outcomeAck 7)
    t.outcomes.queue = [] ∧ t.tag 1 = .free ∧ (tAfter s (.outcomeAck 8)).ctrl.refusal = .ackMismatch := by decide +kernel
theorem test_outcomePost :
    let s := (((tArmed .guarded).ready tOutcome).updSlot 0 fun g => { g with st := .rejected }).setTag 1 (.fencedSlot 0)
    let t := tAfter s .outcomePost
    t.outcomes.queue.length = 1 ∧ t.outcomes.counter = 1#16 ∧ t.tag 1 = .fencedNumber 0 ∧ t.slot 0 = {} := by decide +kernel
theorem test_commitTakeUnit :
    let t := tAfter (tUnit (tArmed .guarded) .closed .idle) .commitTakeUnit
    t.commit.st = .waitingSpace ∧ t.journal.blockReq = some 3 := by decide +kernel
theorem test_blockGrant :
    let s := tUnit (tArmed .guarded) .closed .waitingSpace
    let t := tAfter (s.setJournal { s.journal with blockReq := some 3 }) .blockGrant
    t.journal.tail = 5 ∧ t.journal.live = 3 ∧ t.port.waitCommit.length = 8 ∧ t.commit.st = .writing := by decide +kernel
theorem test_blockGrant_with_a_skip :
    let s := tUnit (tArmed .guarded) .closed .waitingSpace
    let t := tAfter (s.setJournal { s.journal with blockReq := some 3, tail := 16382 }) .blockGrant
    t.journal.tail = 5 ∧ t.journal.live = 5 ∧ t.port.waitCommit = [.skip 16382 1] := by decide +kernel
theorem test_arbiterGrant_of_a_mark :
    let s := tUnit (tArmed .guarded) .journaling .marking
    let t := tAfter (s.setPort { s.port with waitCommit := [.mark] }) .arbiterGrant
    t.out.issued.map Request.addr = some 133169408 ∧ t.port.outstanding.length = 1 ∧ t.port.pointer = .commit ∧
    (t.out.issued.map fun q => q.words.take 4) = some [0x4A524E4C, 2, 1, 0xFFFFFFFF] := by decide +kernel
theorem test_skipCompletion :
    let s := tOutstanding (tUnit (tArmed .guarded) .closed .waitingSpace) .commit .write .skip
    let t := tAfter (s.setJournal { s.journal with skipGrant := some { seq := 9, len := 3 } }) (.skipCompletion .ok)
    t.commit.st = .writing ∧ (t.slot 0).journalSeq = some 9#32 ∧ t.port.outstanding = [] := by decide +kernel
theorem test_commitRequestCompletion :
    let s := tOutstanding (tUnit (tArmed .guarded) .journaling .writing) .commit .write .entry
    (tAfter s (.commitRequestCompletion .ok)).commit.completed = 1 ∧
    (tAfter (s.setCommit { s.commit with completed := 7 }) (.commitRequestCompletion .ok)).port.waitCommit = [.mark] := by decide +kernel
theorem test_markCompletion :
    let t := tAfter (tOutstanding (tUnit (tArmed .guarded) .journaling .marking) .commit .write .mark) (.markCompletion .ok)
    (t.slot 0).st = .durable ∧ t.outcomes.pendPost.length = 1 ∧ t.commit = {} := by decide +kernel
theorem test_markCompletion_with_error :
    let t := tAfter (tOutstanding (tUnit (tArmed .guarded) .journaling .marking) .commit .write .mark) (.markCompletion .error)
    (t.slot 0).st = .abandoned ∧ t.ctrl.opState = .faulted ∧ t.queue = [] ∧ t.attn.flags = 5#16 := by decide +kernel
theorem test_applyTakeUnit :
    let t := tAfter (tUnit (tArmed .guarded) .durable .idle) .applyTakeUnit
    (t.record 0).st = .applying ∧ t.port.waitApply.map ApplyRun.len = [16, 1] := by decide +kernel

/-- The unit of tUnit being applied, with `done` of its two home writes completed and one outstanding. -/
def tApplying (s : State) (done : Nat) : State :=
  let u := ((tUnit s .applying .idle).setApply { st := .applying, position := 0 }).updFront fun u =>
    { u with progress := some { ordinal := 1, issued := 2, completed := done } }
  tOutstanding u .apply .write .run

theorem test_applyCompletion :
    let t := tAfter (tApplying (tArmed .guarded) 1) (.applyCompletion .ok)
    t.queue = [] ∧ (t.slot 0).st = .applied ∧ t.record 0 = {} ∧ t.apply.position = 1#32 ∧ t.port.waitAnchor = true := by decide +kernel
theorem test_anchorCompletion :
    let s := tOutstanding (tArmed .guarded) .anchor .write .anchor
    let t := tAfter (s.setJournal { s.journal with
      tail := 5, live := 3, nextSeq := 2, inFlight := some { copy := 1, generation := 1, head := 5, headSeq := 2 } })
      (.anchorCompletion .ok)
    t.journal.head = 5 ∧ t.journal.live = 0 ∧ t.journal.copy = 1 ∧ t.journal.inFlight = none := by decide +kernel

/-- A common read that waits for its first span, of one captured and one memory word, whose request is outstanding. -/
def tReading (s : State) : State :=
  let l := (tStreaming s 0x40 0 .readOnly 2).mapLink fun l => { l with bridgeHold := some .span, stall := none }
  (tOutstanding l .read .read (.span 0)).setReads
    { slots := { st := .filling, base := 0, len := 2, sources := [.captured, .memory], words := [4, 0] } ::
        List.replicate 3 { st := .discarding }, nextSpan := 1 }

theorem test_readSpanCompletion :
    let t := tAfter (tReading (tArmed .guarded)) (.readSpanCompletion (.ok (List.replicate 16 9)))
    (t.span 0).st = .sending ∧ (t.span 0).words = [4, 9] ∧ t.link.stall = some 64 := by decide +kernel
theorem test_readSpanCompletion_with_error :
    let t := tAfter (tReading (tArmed .guarded)) (.readSpanCompletion .error)
    t.link.pendVerdict = some .memoryFault ∧ t.attn.flags = 0x400#16 := by decide +kernel

/-- A DIRECT write whose check exchange has matched and whose last request is outstanding. -/
def tDirect (s : State) : State :=
  tOutstanding ((tStreaming s 0 0 .direct 16384).mapLink fun l =>
    { l with st := .checking, masterHold := false, stall := none, exchange := .matched, count := 3 }) .direct .write .direct

theorem test_directSpanCompletion :
    let t := tAfter (tDirect (tArmed .direct)) (.directSpanCompletion .ok)
    t.link = {} ∧ t.out.receipt = some 0x00030000#32 := by decide +kernel
theorem test_discardedCompletion :
    let s := tAfter (tOutstanding (tArmed .guarded) .apply .write .run) .hardReset
    (tAfter s (.discardedCompletion .error)).port.outstanding = [] ∧ s.port.outstanding.length = 1 ∧ s.pins.resetN = false := by
  decide +kernel
theorem test_hardReset : tAfter (tArmed .guarded) .hardReset = State.reset := by decide +kernel
theorem test_resetRelease :
    let t := tAfter State.reset (.resetRelease 0 0)
    t.ctrl.summary.status = .running ∧ t.port.waitRecovery.map (fun x => x.req.addr) = some 133169152 := by decide +kernel
theorem test_pwarnAssert :
    let t := tAfter (tArmed .guarded) .pwarnAssert
    t.ctrl.opState = .halted ∧ t.attn.flags = 0x49#16 := by decide +kernel
theorem test_pwarnDeassert :
    (tAfter (tAfter (tArmed .guarded) .pwarnAssert) .pwarnDeassert).ctrl.opState = .halted := by decide +kernel

/-- Recovery in a phase, its request outstanding. -/
def tRecovery (r : Recovery) (k : ReqKind) (role : Role) : State := (tOutstanding (tBridge .recovering) .recovery k role).setRecovery r

theorem test_recoveryAnchorReadCompletion :
    let t := tAfter (tRecovery { phase := .anchor 1, block := List.replicate 16 0 } .read .recAnchorRead)
      (.recoveryAnchorReadCompletion (.ok (anchorWords 4 9 3)))
    t.recovery.phase = .first ∧ t.recovery.pos = 9 ∧ t.recovery.expected = 3#32 ∧ t.recovery.sel = 1 := by decide +kernel
theorem test_recoveryReadCompletion :
    let t := tAfter (tRecovery { phase := .first, pos := 9, expected := 3 } .read .recRead) (.recoveryReadCompletion (.ok (skipWords 3)))
    t.recovery.pos = 2 ∧ t.recovery.consumed = 16375 := by decide +kernel
theorem test_recoveryReplayWriteCompletion :
    let r : Recovery := { phase := .replayWrite 1, block := [7, 8], runs := [{ addr := 50, len := 2 }] }
    (tAfter (tRecovery r .write .recReplay) (.recoveryReplayWriteCompletion .ok)).port.waitRecovery.map (fun x => x.req.words) =
      some [7, 8] := by decide +kernel
theorem test_recoveryAnchorWriteCompletion :
    let t := tAfter (tRecovery { phase := .formatWrite } .write .recAnchorWrite) (.recoveryAnchorWriteCompletion .ok)
    t.ctrl.opState = .unconfigured ∧ t.journal.generation = 1#32 ∧ t.attn.flags = 0x2002#16 ∧ t.ctrl.summary.reason = .formatted := by
  decide +kernel
theorem test_attnPulseEnd :
    let s := ((tArmed .guarded).setCtrl { Ctrl.init .armed false with attnOn := true, attnMode := .pulse }).setAttn
      { flags := 1, enable := 1, line := true }
    (tAfter s .attnPulseEnd).attn.line = false := by decide
theorem test_a_completion_without_its_request : exec (.applyCompletion .ok) State.reset = .fault .noSuchRequest := rfl
theorem test_an_empty_queue_idles : step State.reset = .next State.reset := rfl

/-! ### A state and operands that meet the hypotheses of each statement, clause by clause -/

/-- A state whose link holds the two header words of an opening. -/
def tHeaders (s : State) (h0 h1 : Word) : State := (tOpening s h0).mapLink fun l => { l with hdr1 := some h1 }

/-- A group of tag 1 open in slot 0. -/
def tGroup (s : State) : State := s.openGroup 0 1

/-- An open group of tag 1 with as many members as given. -/
def tFull (s : State) (n : Nat) : State := (tGroup s).updSlot 0 fun g => { g with members := List.range n }

theorem test_hyps_StepRunsFrontCommand : State.reset.pending = [] := rfl
theorem test_hyps_StopsExactlyWithoutItsRequest :
    let s := tOutstanding (tArmed .guarded) .apply .write .run
    (isCompletion (.markCompletion .ok) = true ∧ (s.port.outstanding.head?.any (answers (.markCompletion .ok))) = false) ∧
    (isCompletion (.applyCompletion .ok) = true ∧ (s.port.outstanding.head?.any (answers (.applyCompletion .ok))) = true) := by decide
theorem test_hyps_IdleTakesHeaderWordZero :
    let s := tArmed .guarded
    let due (m : HoldMove) := s.setCtrl { s.ctrl with holdDue := some m }
    let up := (due .release).setPins { s.pins with pwarn := true }
    (s.link.st = .idle ∧ s.pins.resetN = true ∧ s.ctrl.holdDue = none) ∧ (tOpening s 0).link.st ≠ .idle ∧
    (s.link = {} ∧ s.attnOk) ∧ ((due .hold).ctrl.holdDue = some .hold ∧ (tAfter (due .hold) (.headerWord0 1)).ctrl.opState = .held) ∧
    ((due .release).ctrl.holdDue = some .release ∧ (tAfter (due .release) (.headerWord0 1)).ctrl.opState = .recovering) ∧
    (up.pins.pwarn = true ∧ (tAfter up (.headerWord0 1)).ctrl.opState = .halted) := by decide +kernel
theorem test_hyps_StallTimerExpiry :
    let a := tOpening (tArmed .guarded) 0
    let b := tStreaming (tArmed .direct) 0 0 .direct 16384
    (a.link.stall.isSome = true ∧ a.link.st = .opening ∧ a.link.hdr1 = none ∧ a.link.count = 0 ∧ a.ctrl.holdWritten = none) ∧
    (b.link.stall.isSome = true ∧ b.link.st = .streaming ∧ b.link.pendVerdict = none) := by decide +kernel

/-- The clauses of the ordered checks, at their boundary values: each state meets the condition that its clause names, and the decision is
the clause's. -/
theorem test_hyps_OpeningChecksInOrder_states :
    let g := tArmed .guarded
    (formatFault 0x80 0 = true ∧ (tHeaders g 0x80 0).decideOpening = .refuse .refusedFormat) ∧
    (((g.setTag 15 (.fencedSlot 0)).tag 15).fenced = true ∧
      (tHeaders (g.setTag 15 (.fencedSlot 0)) 0xF 0).decideOpening = .refuse .refusedFenced) ∧
    (tHeaders (tBridge .held) 0x20 0xFF).decideOpening = .accept none false ∧
    ((tHeaders (tBridge .held) 0x40 0).decideOpening = .refuse .refusedNotReady ∧
      (tHeaders (tBridge .recovering) 0 0).decideOpening = .refuse .refusedNotReady ∧
      (tHeaders (tBridge .unconfigured) 0 0).decideOpening = .refuse .refusedNotReady) ∧
    (tHeaders (tBridge .draining) 0 0).decideOpening = .refuse .refusedDraining ∧
    ((tHeaders (tBridge .faulted) 0 0).decideOpening = .refuse .refusedStopped ∧
      (tHeaders (tBridge .halted) 0x40 0).decideOpening = .refuse .refusedStopped) ∧
    (g.straps.visible ≤ hdrStart 133169152 ∧ (tHeaders g 0 133169152).decideOpening = .refuse .refusedRange) ∧
    (hdrStart 133169151 < g.straps.visible ∧ (tHeaders g 0x40 133169151).decideOpening = .accept none false ∧
      (tHeaders (tBridge .faulted) 0x40 133169151).decideOpening = .accept none false) := by decide +kernel
theorem test_hyps_OpeningChecksInOrder_writes :
    let g := tArmed .guarded
    let c := tArmed .checked
    (tHeaders (tArmed .readOnly) 0 0).decideOpening = .refuse .refusedReadOnly ∧ (tHeaders c 1 0).decideOpening = .refuse .refusedMode ∧
    (tHeaders (tArmed .direct) 1 0).decideOpening = .refuse .refusedMode ∧ (tHeaders (tArmed .direct) 0 0).decideOpening = .accept none false ∧
    (28 ≤ ((tFull g 28).slot 0).members.length ∧ (tHeaders (tFull g 28) 1 0).decideOpening = .refuse .refusedGroupFull ∧
      (tHeaders (tFull g 28) 0x11 0).decideOpening = .accept none true) ∧
    ((tFull g 27).tag 1 = .opened 0 ∧ ((tFull g 27).slot 0).members.length < 28 ∧
      (tHeaders (tFull g 27) 1 0).decideOpening = .accept (some 0) false) ∧
    (let n := g.setGroups { g.groups with slots := List.replicate 8 { st := .closed } }
     n.freeSlotNo = none ∧ (tHeaders n 1 0).decideOpening = .refuse .refusedNoGroup) ∧
    ((tRecords c .closed).freeRecordNo = none ∧ (tHeaders (tRecords c .closed) 0 0).decideOpening = .withhold) ∧
    ((tRecords g .held).anyRecord BurstRecord.leaving = false ∧ (tHeaders (tRecords g .held) 1 0).decideOpening = .refuse .refusedNoRecord ∧
      (tHeaders (tRecords (tGroup g) .held) 0x11 0).decideOpening = .accept none false ∧
      (tHeaders (tRecords (tGroup g) .held) 1 0).decideOpening = .refuse .refusedNoRecord) := by decide +kernel
theorem test_hyps_OpeningRefused :
    let s := tOpening (tArmed .guarded) 1
    (calm s ∧ s.link.st = .opening ∧ s.link.count = 0 ∧ (s.wordOneTaken 133169152).decideOpening = .refuse .refusedRange) ∧
    ∀ n, s.tag s.link.tag ≠ .opened n := by
  refine ⟨by decide +kernel, fun n h => ?_⟩
  have e : (tOpening (tArmed .guarded) 1).tag (tOpening (tArmed .guarded) 1).link.tag = .free := by decide
  rw [e] at h
  cases h
theorem test_hyps_RefusalActsOnTheOpenGroup :
    let s := tOpening (tGroup (tArmed .guarded)) 1
    let full := tOpening (tFull (tArmed .guarded) 28) 1
    let none' := tOpening (tRecords (tGroup (tArmed .guarded)) .held) 1
    (calm s ∧ s.ctrl.opState ≠ .held ∧ s.link.st = .opening ∧ s.link.count = 0 ∧ s.tag s.link.tag = .opened 0 ∧
      (s.slot 0).tag = s.link.tag ∧ 0 < s.groups.slots.length ∧ (s.wordOneTaken 133169152).decideOpening = .refuse .refusedRange) ∧
    (calm full ∧ full.tag full.link.tag = .opened 0 ∧ (full.wordOneTaken 0).decideOpening = .refuse .refusedGroupFull) ∧
    (calm none' ∧ none'.tag none'.link.tag = .opened 0 ∧ (none'.wordOneTaken 0).decideOpening = .refuse .refusedNoRecord) := by decide +kernel
theorem test_hyps_OpeningAcceptsStagedWrite :
    let a := tOpening (tArmed .guarded) 1
    let b := tOpening (tGroup (tArmed .guarded)) 0x11
    let c := tOpening (tArmed .checked) 0
    (calm a ∧ a.tablesOk ∧ a.link.st = .opening ∧ a.link.commonWrite = true ∧ (a.wordOneTaken 0).decideOpening = .accept (some 0) false ∧
      a.tag a.link.tag = .free) ∧
    (calm b ∧ b.tablesOk ∧ b.link.commonWrite = true ∧ (b.wordOneTaken 0).decideOpening = .accept (some 0) false ∧
      b.tag b.link.tag = .opened 0) ∧
    (calm c ∧ c.tablesOk ∧ c.link.commonWrite = true ∧ (c.wordOneTaken 133169151).decideOpening = .accept (some 0) false ∧
      c.modeAt (hdrStart 133169151) ≠ .guarded) := by decide +kernel
theorem test_hyps_OpeningAcceptsWithoutRecord :
    let a := tOpening (tArmed .direct) 0
    let b := tOpening (tFull (tArmed .guarded) 28) 0x11
    (calm a ∧ a.link.st = .opening ∧ a.link.commonWrite = true ∧ a.link.record = none ∧
      (a.wordOneTaken 0).decideOpening = .accept none false ∧ a.modeAt 0 = .direct) ∧
    (calm b ∧ b.link.st = .opening ∧ b.link.commonWrite = true ∧ b.link.record = none ∧
      (b.wordOneTaken 0).decideOpening = .accept none true ∧ b.modeAt 0 = .guarded ∧ b.tag b.link.tag = .opened 0) := by decide +kernel
theorem test_hyps_OpeningAcceptsReadOrAttribute :
    let a := tOpening (tArmed .guarded) 0x40
    let b := a.setReads { a.reads with slots := List.replicate 4 { st := .discarding } }
    let c := tOpening (tBridge .held) 0x60
    let d := tOpening (tBridge .recovering) 0x20
    (calm a ∧ a.tablesOk ∧ a.link.st = .opening ∧ a.link.commonRead = true ∧ a.link.count = 0 ∧ a.link.bridgeHold = none ∧
      (∀ x ∈ a.reads.slots, x.atRest) ∧ (a.wordOneTaken 133169151).decideOpening = .accept none false ∧ a.freeSpanNo.isSome = true) ∧
    (calm b ∧ (∀ x ∈ b.reads.slots, x.atRest) ∧ (b.wordOneTaken 0).decideOpening = .accept none false ∧ b.freeSpanNo = none) ∧
    (calm c ∧ c.link.isAttr = true ∧ formatFault c.link.h0 0xFF = false ∧ (c.tag c.link.tag).fenced = false ∧ c.link.isRead = true) ∧
    (calm d ∧ d.link.isAttr = true ∧ formatFault d.link.h0 0 = false ∧ d.link.isRead = false) := by decide +kernel
/-- A common read of 20 words before visible capacity whose first span lies in a closed burst of 16, with one slot FREE or all of them: the
first span is SENDING, and the second one's request waits. -/
theorem test_openingRead_spans :
    let a := (tOpening (tArmed .guarded) 0x40).setOverlay
      [{ start := 133169132, wordCount := 16, closeNo := 0, ordinal := 1, record := 0 }]
    let b := a.setReads { a.reads with slots := { st := .free } :: List.replicate 3 { st := .discarding } }
    let t := tAfter a (.opening 133169132)
    let u := tAfter b (.opening 133169132)
    let v := tAfter a (.opening 133169140)
    ((t.span 0).st = .sending ∧ (t.span 1).st = .filling ∧ (t.span 1).len = 4 ∧ t.reads.nextSpan = 2 ∧ t.port.waitRead = [1] ∧
      t.link.bridgeHold = none) ∧
    ((u.span 0).st = .sending ∧ (u.span 1).st = .discarding ∧ u.reads.nextSpan = 1) ∧
    ((v.span 0).st = .filling ∧ v.link.bridgeHold = some .span ∧ v.port.waitRead = [0]) := by decide +kernel
theorem test_hyps_WithheldOpening :
    let a := tOpening (tRecords (tArmed .checked) .closed) 0
    let h := (tHeaders (tArmed .checked) 0 0).mapLink fun l => { l with st := .withheld, stall := none }
    let i := h.setCtrl { h.ctrl with opState := .faulted }
    let j := tRecords h .applying
    (calm a ∧ a.link.st = .opening ∧ (a.wordOneTaken 0).decideOpening = .withhold) ∧
    (i.link.st = .withheld ∧ i.ctrl.opState = .faulted ∧ i.ctrl.holdWritten = none ∧ i.link.count = 0 ∧ i.link.hdr1.isSome = true) ∧
    (j.link.st = .withheld ∧ j.ctrl.opState ≠ .faulted ∧ j.ctrl.opState ≠ .halted ∧ j.freeRecordNo = none) ∧
    (h.link.st = .withheld ∧ h.ctrl.opState ≠ .faulted ∧ h.ctrl.opState ≠ .halted ∧ h.freeRecordNo = some 0 ∧ h.tablesOk ∧
      h.link.commonWrite = true ∧ h.modeAt h.link.start ≠ .guarded) := by decide +kernel
theorem test_hyps_WithheldOpening_guarded :
    let h (s : State) := (tHeaders s 1 0).mapLink fun l => { l with st := .withheld, stall := none }
    let n := h (tArmed .guarded)
    let o := h (tGroup (tArmed .guarded))
    (n.freeRecordNo = some 0 ∧ n.tablesOk ∧ n.link.commonWrite = true ∧ n.modeAt n.link.start = .guarded ∧
      n.tag n.link.tag = .free ∧ n.freeSlotNo = some 0) ∧
    (o.freeRecordNo = some 0 ∧ o.tablesOk ∧ o.link.commonWrite = true ∧ o.modeAt o.link.start = .guarded ∧
      o.tag o.link.tag = .opened 0) := by decide +kernel

/-- A Region Table whose first entry is granules 3 to 5 in DIRECT mode. -/
def tTable : Region := { Region.init with entries := { valid := true, base := 3, limit := 5, mode := .direct } :: List.replicate 7 {} }

theorem test_hyps_ModeOfAnAddress :
    let s := (tBridge .armed).setRegion tTable
    ((∀ x ∈ s.region.entries, x.covers (98303 / 16384) = true → x.mode = .direct) ∧ s.modeAt 98303 = .direct) ∧
    ((∀ e ∈ s.region.entries, e.covers (98304 / 16384) = false) ∧ s.modeAt 98304 = .readOnly) := by decide
theorem test_hyps_WriteLimit :
    let s := (tBridge .armed).setRegion tTable
    (49152 < s.straps.visible ∧ s.writeLimit 49152 = 65536) ∧ s.writeLimit 98303 = 98304 ∧
    (133169151 < s.straps.visible ∧ s.writeLimit 133169151 = 133169152) := by decide +kernel
theorem test_hyps_StagedWordTaken :
    let s := tRecord (tStreaming (tArmed .checked) 0 0 .checked 1) .checked none
    let t := (s.setStaging (s.staging.take 0 5)).mapLink fun l => { l with count := 1, bound := 2 }
    let f := tStreaming (tArmed .checked) 0 0 .checked 1
    (writeStreams s ∧ s.storeOk ∧ s.link.mode ≠ .direct ∧ s.link.record = some 0 ∧ (s.record 0).st = .receiving ∧
      s.link.start + s.link.count < s.link.bound ∧ (s.record 0).wordCount % 64 = 0 ∧ s.staging.pool ≠ []) ∧
    (writeStreams t ∧ t.storeOk ∧ t.link.mode ≠ .direct ∧ t.link.record = some 0 ∧ (t.record 0).st = .receiving ∧
      t.link.start + t.link.count < t.link.bound ∧ (t.record 0).wordCount % 64 ≠ 0) ∧
    (writeStreams f ∧ f.storeOk ∧ f.link.mode ≠ .direct ∧ f.link.start + f.link.count < f.link.bound ∧ f.link.record = none ∧
      f.freeRecordNo = some 0 ∧ f.staging.pool.head? = some 0) := by decide +kernel
theorem test_hyps_BridgePausesOrStops :
    let s := tRecord (tStreaming (tArmed .checked) 0 0 .checked 1) .checked none
    let b := s.setStaging { s.staging with pool := [] }
    let a := b.updRecord 31 fun r => { r with st := .closed, chunks := [0] }
    let d := tRecords (tStreaming (tArmed .checked) 0 0 .checked 1) .held
    let c := d.updRecord 31 fun r => { r with st := .applying }
    let full := (tStreaming (tFull (tArmed .guarded) 28) 0x11 0 .guarded 9).mapLink fun l => { l with fullClose := true, slot := some 0 }
    (full.link.st = .streaming ∧ full.link.isAttr = false ∧ full.link.isRead = false ∧ full.link.bridgeHold = none ∧
      full.link.mode ≠ .direct ∧ full.link.pendVerdict = none) ∧
    (writeStreams a ∧ a.link.mode ≠ .direct ∧ a.link.start + a.link.count < a.link.bound ∧ a.link.pendVerdict = none ∧
      a.link.record = some 0 ∧ (a.record 0).wordCount % 64 = 0 ∧ a.staging.pool = [] ∧
      ∃ x ∈ a.staging.records, (x.st = .closed ∨ x.st = .applying) ∧ x.chunks ≠ []) ∧
    (writeStreams b ∧ b.link.record = some 0 ∧ b.staging.pool = [] ∧
      ∀ x ∈ b.staging.records, x.st = .closed ∨ x.st = .applying → x.chunks = []) ∧
    (writeStreams c ∧ c.link.record = none ∧ c.freeRecordNo = none ∧ ∃ x ∈ c.staging.records, x.st = .closed ∨ x.st = .applying) ∧
    (writeStreams d ∧ d.link.mode ≠ .direct ∧ d.link.start + d.link.count < d.link.bound ∧ d.link.pendVerdict = none ∧
      d.link.record = none ∧ d.freeRecordNo = none ∧ ∀ x ∈ d.staging.records, x.st ≠ .closed ∧ x.st ≠ .applying) := by decide +kernel
theorem test_hyps_WordAtTheLimitIsCut :
    let s := tRecord (tStreaming (tArmed .checked) 0 5 .checked 5) .checked none
    let a (n : Nat) := (tStreaming (tBridge .held) 0x20 0xFE .readOnly 256).mapLink fun l => { l with count := n }
    (writeStreams s ∧ s.link.bound ≤ s.link.start + s.link.count ∧ s.link.pendVerdict = none) ∧
    ((a 1).link.st = .streaming ∧ (a 1).link.isAttr = true ∧ (a 1).link.isRead = false ∧ (a 1).link.bridgeHold = none ∧
      (a 1).link.offset + (a 1).link.count < (a 1).link.bound) ∧
    ((a 2).link.isAttr = true ∧ (a 2).link.bound ≤ (a 2).link.offset + (a 2).link.count) := by decide +kernel
theorem test_hyps_DirectWord :
    let s (n : Nat) := (tStreaming (tArmed .direct) 0 0 .direct 16384).mapLink fun l => { l with count := n, collecting := List.replicate n 0 }
    (writeStreams (s 14) ∧ (s 14).link.mode = .direct ∧ (s 14).link.start + (s 14).link.count < (s 14).link.bound ∧
      (s 14).link.collecting.length < 15) ∧
    (writeStreams (s 15) ∧ (s 15).link.collecting.length = 15 ∧ (s 15).port.waitDirect = []) ∧
    (let w := (s 15).setPort { (s 15).port with waitDirect := [{ addr := 0, words := [1] }] }
     writeStreams w ∧ w.link.collecting.length = 15 ∧ w.port.waitDirect ≠ []) ∧
    (writeStreams (s 16) ∧ (s 16).link.start + (s 16).link.count < (s 16).link.bound ∧ (s 16).link.collecting.length = 16) := by
  decide +kernel
theorem test_hyps_RestoreReady :
    let s := (tRecord (tStreaming (tArmed .checked) 0 0 .checked 9) .checked none).mapLink fun l =>
      { l with bridgeHold := some .chunks, masterHold := false, stall := none, presented := some 5 }
    let n := s.mapLink fun l => { l with presented := none, masterHold := true }
    let e := s.setStaging { s.staging with pool := [] }
    (e.link.st = .streaming ∧ e.link.isRead = false ∧ e.link.bridgeHold = some .chunks ∧ e.causeCleared .chunks = false) ∧
    (n.link.st = .streaming ∧ n.link.bridgeHold = some .chunks ∧ n.causeCleared .chunks = true ∧ n.link.presented = none) ∧
    (s.link.st = .streaming ∧ s.link.isRead = false ∧ s.link.bridgeHold = some .chunks ∧ s.causeCleared .chunks = true ∧
      s.link.presented = some 5 ∧ s.link.masterHold = false ∧ s.link.stall = none ∧ s.link.isAttr = false ∧ s.link.fullClose = false ∧
      s.link.mode ≠ .direct ∧ s.link.start + s.link.count < s.link.bound ∧ s.link.record = some 0) := by decide +kernel
/-- A common read of the words up to `bound`, with `n` words sent, from two spans: the first SENDING and the second in a state. -/
def tSending (n bound : Nat) (st : SpanState) : State :=
  ((tStreaming (tArmed .guarded) 0x40 0 .readOnly bound).mapLink fun l =>
    { l with count := n, masterHold := false, stall := none }).setReads
    { slots :=
        { st := .sending, base := 0, len := 16, sources := List.replicate 16 .memory, words := List.replicate 16 9 } ::
        { st := st, base := 16, len := 16, seq := 1, sources := List.replicate 16 .memory, words := List.replicate 16 9 } ::
        List.replicate 2 { st := .discarding }
      nextSpan := 2 }

theorem test_hyps_ReadWordSent :
    let a (n : Nat) := (tStreaming (tArmed .guarded) 0x60 0x40 .readOnly 66).mapLink fun l => { l with attrImage := [0x30, 3], count := n }
    ((a 1).link.st = .streaming ∧ (a 1).link.isRead = true ∧ (a 1).link.bridgeHold = none ∧ (a 1).link.isAttr = true ∧
      (a 1).link.offset + (a 1).link.count < (a 1).link.bound) ∧
    ((a 2).link.isAttr = true ∧ (a 2).link.bound ≤ (a 2).link.offset + (a 2).link.count) ∧
    (let c := tSending 14 32 .ready
     c.link.st = .streaming ∧ c.link.isRead = true ∧ c.link.bridgeHold = none ∧ c.link.isAttr = false ∧
      c.spanNo (c.link.count / 16) = some 0 ∧ (c.span 0).st = .sending ∧ c.link.start + 15 < c.link.bound ∧ 15 % 16 ≠ 0) ∧
    (let e := tSending 15 16 .ready
     (e.span 0).st = .sending ∧ e.link.start + e.link.count < e.link.bound ∧ e.link.bound ≤ e.link.start + 16 ∧
      e.link.bound ≤ e.link.start + 16 * e.reads.nextSpan) ∧
    (let d := tSending 16 16 .free
     d.link.st = .streaming ∧ d.link.isRead = true ∧ d.link.bridgeHold = none ∧ d.link.bound ≤ d.link.start + d.link.count) := by decide +kernel
theorem test_hyps_ReadWordSent_spans :
    ∀ st ∈ [SpanState.ready, .filling, .failed],
      let c := tSending 15 33 st
      let next := (({ c with link := wordMoved c.link 9, out := { c.out with data := some 9 } } : State).updSpan 0 fun _ => {}).issueSpan
      (c.spanNo (c.link.count / 16) = some 0 ∧ (c.span 0).st = .sending ∧ c.freeSpanNo = none ∧ c.link.start + 16 < c.link.bound) ∧
      next.spanNo (16 / 16) = some 1 ∧ (next.span 1).st = st ∧ (next.span 0).seq = 2 := by decide +kernel

/-- A closed burst of 17 words at address 16, in the overlay with a close number and an ordinal. -/
def tOverlay (s : State) (c : Word) (o : Nat) : State :=
  s.setOverlay ({ start := 16, wordCount := 17, closeNo := c, ordinal := o, record := 0 } :: s.overlay)

theorem test_hyps_SpanIssue :
    let a := tOverlay (tStreaming (tArmed .guarded) 0x40 16 .readOnly 48) 0 1
    let b := tStreaming (tArmed .guarded) 0x40 16 .readOnly 17
    (a.freeSpanNo = some 0 ∧ a.link.start + 16 * a.reads.nextSpan < a.link.bound ∧
      ∀ j, j < min 16 (a.link.bound - 16) → (a.overlayWord (16 + j)).isSome = true) ∧
    (b.freeSpanNo = some 0 ∧ b.link.start + 16 * b.reads.nextSpan < b.link.bound ∧ 0 < min 16 (b.link.bound - 16) ∧
      b.overlayWord 16 = none) := by decide +kernel
theorem test_hyps_OverlayAnswer :
    let s := tOverlay (tOverlay (tOverlay (tArmed .guarded) 0xFFFFFFFF 9) 0 1) 0 2
    let e : OverlayEntry := { start := 16, wordCount := 17, closeNo := 0, ordinal := 2, record := 0 }
    (e ∈ s.overlay ∧ e.start ≤ 32 ∧ 32 < e.start + e.wordCount ∧
      ∀ f ∈ s.overlay, f.start ≤ 32 → 32 < f.start + f.wordCount →
        f = e ∨ later e.closeNo f.closeNo = true ∨ (e.closeNo = f.closeNo ∧ f.ordinal < e.ordinal)) ∧
    (∀ e ∈ s.overlay, ¬(e.start ≤ 33 ∧ 33 < e.start + e.wordCount)) ∧
    (∀ e ∈ s.overlay, ¬(e.start ≤ 15 ∧ 15 < e.start + e.wordCount)) := by decide
theorem test_hyps_MasterPausesAndStops :
    let run (h : Word) (m : Mode) := (tStreaming (tArmed .guarded) h 0 m 16384).mapLink fun l => { l with masterHold := false, stall := none }
    let held := (run 0x40 .readOnly).mapLink fun l => { l with bridgeHold := some .span }
    let span := (run 0 .direct).mapLink fun l => { l with collecting := [5], count := 1 }
    let stop := (run 0x40 .readOnly).mapLink fun l => { l with st := .stopping }
    ((run 0 .guarded).link.st = .streaming ∧ (run 0 .guarded).link.masterHold = false ∧ (run 0 .guarded).link.bridgeHold = none ∧
      (run 0 .guarded).link.isRead = false ∧ (run 0 .guarded).link.mode ≠ .direct) ∧
    (held.link.st = .streaming ∧ held.link.masterHold = false ∧ held.link.bridgeHold.isSome = true ∧ held.link.commonRead = true ∧
      held.link.start + held.link.count < held.link.bound ∧ held.spanNo 0 = none) ∧
    (tStreaming (tArmed .guarded) 0 0 .guarded 9).link.masterHold = true ∧
    (span.link.commonWrite = true ∧ span.link.mode = .direct ∧ span.link.collecting ≠ []) ∧
    ((run 0x60 .readOnly).link.isRead = true ∧ (run 0x60 .readOnly).link.isAttr = true) ∧
    (stop.link.st = .stopping ∧ stop.link.isRead = true) ∧
    (((run 0 .guarded).mapLink fun l => { l with st := .stopping }).link.isRead = false) := by decide +kernel
theorem test_hyps_stopDue : ¬stopDue (tStreaming (tArmed .guarded) 0 0 .guarded 9) ∧ stopDue (tSending 16 16 .free) := by
  decide +kernel
/-- The word before a FAILED span stops the read with MEMORY_FAULT, which stands over the master's stop and PWARN (05 R92, 07 R118). -/
theorem test_failedSpan_stops :
    let t := tAfter (tSending 15 33 .failed) .readDataWord
    (t.link.st = .stopping ∧ t.link.pendVerdict = some .memoryFault ∧ t.link.count = 16 ∧ ∀ x ∈ t.reads.slots, x.atRest) ∧
    ((tAfter t .masterStop).link.st = .checking ∧ (tAfter t .masterStop).link.pendVerdict = some .memoryFault) ∧
    (tAfter t .pwarnAssert).link.pendVerdict = some .memoryFault := by decide +kernel
theorem test_hyps_CheckWordGood :
    let a := tChecking (tArmed .guarded) 1
    let b := tChecking (tArmed .guarded) 0x11
    let c := b.mapLink fun l => { l with cut := true }
    let z (s : State) := s.mapLink fun l => { l with count := 0 }
    let m := (z b).updSlot 0 fun g => { g with members := [31] }
    let w := (tChecking (tArmed .guarded) 0x20).mapLink fun l => { l with attrBuf := [0x31] }
    (calm a ∧ checkAwaited a ∧ a.link.pendVerdict = none ∧ explicitWrite a 0 ∧ a.link.record = some 0 ∧
      0 < a.staging.records.length ∧ a.link.count ≠ 0 ∧ a.link.close = false) ∧
    (explicitWrite c 0 ∧ c.link.close = true ∧ c.link.cut = true) ∧
    (calm b ∧ checkAwaited b ∧ explicitWrite b 0 ∧ b.link.count ≠ 0 ∧ b.link.close = true ∧ b.link.cut = false ∧
      ∀ m ∈ (b.slot 0).members, m < b.staging.records.length) ∧
    (explicitWrite (z a) 0 ∧ (z a).link.count = 0 ∧ (z a).link.close = false) ∧
    (explicitWrite (z b) 0 ∧ (z b).link.count = 0 ∧ (z b).link.close = true ∧ ((z b).slot 0).members = []) ∧
    (explicitWrite m 0 ∧ m.link.count = 0 ∧ m.link.close = true ∧ m.link.cut = false ∧
      ∀ r ∈ (m.slot 0).members, r < m.staging.records.length ∧ m.link.record ≠ some r) ∧
    (checkAwaited w ∧ w.link.isAttr = true ∧ w.link.pendVerdict = none) := by
  refine ⟨?_, ?_, ?_, ?_, ?_, ?_, ?_⟩ <;> decide +kernel
theorem test_hyps_CheckWordFails :
    let a := tChecking (tArmed .guarded) 0x11
    let p := a.mapLink fun l => { l with pendVerdict := some .refusedGroupFull, record := none }
    let c := tRecord ((tArmed .checked).setLink
      { st := .checking, hdr0 := some 0, hdr1 := some 0, mode := .checked, handshake := some 16 }) .checked none
    let w := tChecking (tArmed .guarded) 0x20
    let h := tChecking (tBridge .held) 0x20
    (calm a ∧ a.ctrl.opState ≠ .held ∧ checkAwaited a ∧ a.link.pendVerdict = none ∧ explicitWrite a 0 ∧ (8 : Word) ≠ a.link.check) ∧
    (calm p ∧ checkAwaited p ∧ explicitWrite p 0 ∧ p.link.pendVerdict = some .refusedGroupFull) ∧
    (calm c ∧ checkAwaited c ∧ c.link.isAttr = false ∧ c.link.mode ≠ .direct ∧ c.link.tag = 0 ∧ (8 : Word) ≠ c.link.check) ∧
    (calm w ∧ checkAwaited w ∧ w.link.isAttr = true ∧ (8 : Word) ≠ w.link.check) ∧
    (calm h ∧ h.ctrl.opState = .held ∧ checkAwaited h ∧ h.link.isAttr = true ∧ (8 : Word) ≠ h.link.check) := by
  refine ⟨?_, ?_, ?_, ?_, ?_⟩ <;> decide +kernel
theorem test_hyps_SingleBurstUnitCloses :
    let l (m : Mode) (n : Nat) : Link :=
      { st := .checking, hdr0 := some 0, hdr1 := some 0, count := n, bound := 16384, mode := m, handshake := some 16 }
    let a := tRecord ((tArmed .checked).setLink (l .checked 1)) .checked none
    let b (n : Nat) := tRecord (((tArmed .guarded).openGroup 7 0).setLink (l .guarded n)) .guarded (some 7)
    (calm a ∧ a.link.st = .checking ∧ a.link.handshake.isSome = true ∧ a.link.isAttr = false ∧ a.link.isRead = false ∧ a.link.tag = 0 ∧
      a.link.pendVerdict = none ∧ a.link.record = some 0 ∧ 0 < a.staging.records.length ∧ a.link.mode = .checked ∧
      a.link.slot = none ∧ a.link.count ≠ 0) ∧ (a.mapLink fun l => { l with count := 0 }).link.count = 0 ∧
    (calm (b 1) ∧ (b 1).link.tag = 0 ∧ (b 1).link.record = some 0 ∧ (b 1).link.mode = .guarded ∧ (b 1).link.slot = some 7 ∧
      7 < (b 1).groups.slots.length ∧ ((b 1).slot 7).members = [] ∧ ((b 1).slot 7).tag = 0 ∧ (b 1).link.count ≠ 0) ∧
    (calm (b 0) ∧ (b 0).link.slot = some 7 ∧ ((b 0).slot 7).members = [] ∧ (b 0).link.count = 0) := by decide +kernel
theorem test_hyps_CheckReply :
    let s := (tStreaming (tArmed .guarded) 0x40 0 .readOnly 9).mapLink fun l => { l with st := .checking, handshake := some 16 }
    calm s ∧ s.link.st = .checking ∧ s.link.handshake.isSome = true ∧ s.link.isRead = true ∧ s.link.hdr1.isSome = true := by
  decide +kernel
theorem test_hyps_TimersEndBurstsAndGroups :
    let a := tChecking (tArmed .guarded) 1
    let b := a.mapLink fun l => { l with pendVerdict := some .stagingExhausted, record := none }
    let d := (tStreaming (tArmed .direct) 0 0 .direct 9).mapLink fun l => { l with st := .stopping, handshake := some 16 }
    let e := d.setPort { d.port with waitDirect := [{ addr := 0, words := [1] }] }
    let f := tOutstanding d .direct .write .direct
    let r := (tStreaming (tArmed .guarded) 0x60 0 .readOnly 9).mapLink fun l => { l with st := .checking, handshake := some 16 }
    let c := tRecord ((tArmed .checked).setLink
      { st := .checking, hdr0 := some 0, hdr1 := some 0, mode := .checked, handshake := some 16 }) .checked none
    let m := tRecord (((tArmed .guarded).openGroup 7 0).setLink
      { st := .stopping, hdr0 := some 0, hdr1 := some 0, slot := some 7, handshake := some 16, pendVerdict := some .stallTimeout })
      .guarded (some 7)
    let g := (tGroup (tArmed .guarded)).startIdle 1
    let waits (s : State) : Prop := calm s ∧ s.ctrl.opState ≠ .held ∧ s.link.handshake.isSome = true ∧
      (s.link.st = .stopping ∨ s.link.st = .checking) ∧ s.link.hdr1.isSome = true
    (waits r ∧ r.link.isRead = true) ∧
    (waits e ∧ e.link.directWrite = true ∧ e.port.waitDirect ≠ []) ∧
    (waits f ∧ f.link.directWrite = true ∧ ∃ x ∈ f.port.outstanding, x.requester = .direct ∧ x.disposition = .take) ∧
    (waits d ∧ d.link.directWrite = true ∧ d.port.waitDirect = [] ∧ d.port.outstanding = []) ∧
    (waits a ∧ a.link.commonWrite = true ∧ a.link.pendVerdict = none ∧ a.link.record = some 0 ∧ explicitWrite a 0) ∧
    (waits b ∧ b.link.commonWrite = true ∧ explicitWrite b 0) ∧
    (waits c ∧ c.link.commonWrite = true ∧ c.link.mode ≠ .direct ∧ c.link.tag = 0 ∧ c.link.slot = none) ∧
    (waits m ∧ m.link.commonWrite = true ∧ m.link.mode ≠ .direct ∧ m.link.tag = 0 ∧ m.link.slot = some 7) ∧
    (calm g ∧ g.ctrl.opState ≠ .held ∧ (g.slot 0).st = .opened ∧ (g.slot 0).timer.isSome = true ∧ (g.slot 0).tag ≠ 0 ∧
      g.tag (g.slot 0).tag = .opened 0 ∧ 0 < g.groups.slots.length ∧ (g.slot 7).st ≠ .opened) := by
  refine ⟨?_, ?_, ?_, ?_, ?_, ?_, ?_, ?_, ?_⟩ <;> decide +kernel
theorem test_hyps_AttributeWordIgnored : ready (tBridge .held) ∧ ready (tArmed .guarded) ∧ offsetHasRow 0x3F = false ∧
    offsetHasRow 0x90 = false := by decide +kernel
theorem test_hyps_AttributeWordIgnored_window :
    let o : OutcomeRecord := { number := 7, outcome := { tOutcome with tag := 15, firstError := some (bareError .drained) } }
    let f : FaultRecord := { stateAt := .armed, requester := .apply, kind := .write, addr := 5, further := 1, dropped := 2 }
    let s := ((tArmed .guarded).setOutcomes { queue := [o], pendPost := [], counter := 8 }).setRegion tTable
    let t := s.setCtrl { s.ctrl with fault := some f }
    t.outcomes.queue = [o] ∧ o.outcome.tag < 16 ∧ t.ctrl.fault = some f ∧ (t.region.entries.getD 0 {}).base < 65536 ∧
    t.readWord 0x50 = 0x02F20007#32 ∧ t.readWord 0x54 = 0x31#32 ∧ t.readWord 0x70 = 0x00040301#32 ∧ t.readWord 0x80 = 0x00050003#32 ∧
    t.readWord 0x81 = 0x21#32 := by decide +kernel
theorem test_hyps_ArmTaken :
    let s := (tBridge .unconfigured).setRegion tTable
    ready s ∧ controlTaken s 0x333 ∧ controlArmBit 0x333 = true := by decide +kernel
theorem test_hyps_DrainTaken :
    let s := tGroup (tArmed .guarded)
    (ready s ∧ s.tablesOk ∧ controlTaken s 0x34 ∧ controlDrainBit 0x34 = true ∧ (s.slot 0).openExplicit = true) ∧
    ∀ n, (s.slot n).openExplicit = true → s.tag (s.slot n).tag = .opened n := by
  refine ⟨by decide +kernel, fun n h => ?_⟩
  cases n with
  | zero => decide +kernel
  | succ n =>
    have e : ((tGroup (tArmed .guarded)).slot (n + 1)).openExplicit = false := by
      by_cases hn : n < 7
      · exact (by decide +kernel : ∀ n < 7, ((tGroup (tArmed .guarded)).slot (n + 1)).openExplicit = false) n hn
      · have l : (tGroup (tArmed .guarded)).groups.slots.length = 8 := by decide +kernel
        unfold State.slot
        rw [List.getD, List.getElem?_eq_none (by omega)]
        rfl
    rw [e] at h
    cases h
theorem test_hyps_HoldAndReset :
    let d := (tArmed .guarded).setCtrl { Ctrl.init .armed true with holdDue := some .hold }
    let o := tAfter (tOutstanding (tArmed .guarded) .apply .write .run) .hardReset
    d.ctrl.holdDue = some .hold ∧
    (ready (tArmed .guarded) ∧ (tArmed .guarded).ctrl.opState ≠ .held ∧ controlTaken (tArmed .guarded) 0x31 ∧ controlHoldBit 0x31 = true) ∧
    (ready (tBridge .held) ∧ (tBridge .held).ctrl.opState = .held ∧ controlTaken (tBridge .held) 0x31) ∧
    (o.port.outstanding.length = 1 ∧ ∀ x ∈ o.port.outstanding, x.disposition = .discard) := by decide +kernel
theorem test_hyps_Released :
    let h := (tBridge .held).setCtrl (Ctrl.init .held true)
    let d := h.setCtrl { h.ctrl with hold := false, holdDue := some .release }
    let up := h.setPins { h.pins with pwarn := true }
    (State.reset.pins.resetN = false ∧ State.reset.pins.pwarn = false) ∧ h.pins.resetN = true ∧
    (d.pins.pwarn = false ∧ d.ctrl.holdDue = some .release) ∧
    (ready h ∧ h.ctrl.opState = .held ∧ controlTaken h 0x30 ∧ controlHoldBit 0x30 = false ∧ h.pins.pwarn = false) ∧
    (ready up ∧ up.ctrl.opState = .held ∧ controlTaken up 0x30 ∧ up.pins.pwarn = true) := by decide +kernel
theorem test_hyps_ControlSettings :
    let h := (tBridge .held).setCtrl (Ctrl.init .held true)
    (ready (tArmed .guarded) ∧ controlTaken (tArmed .guarded) 0x331 ∧ controlArmBit 0x331 = false ∧ controlDrainBit 0x331 = false ∧
      (tArmed .guarded).ctrl.opState ≠ .held) ∧
    (ready h ∧ controlTaken h 0x12 = False ∧ controlTaken h 0x10 ∧ h.ctrl.opState = .held) := by
  refine ⟨by decide +kernel, by decide +kernel, ?_, by decide +kernel, by decide +kernel⟩
  exact eq_false (by decide +kernel)
theorem test_hyps_ControlRefused :
    let u := tBridge .unconfigured
    let e (b l : Nat) : RegionEntry := { valid := true, base := b, limit := l, mode := .direct }
    let range := u.setRegion { u.region with entries := e 0 8128 :: List.replicate 7 {} }
    let lap := u.setRegion { u.region with entries := [e 0 5, {}, {}, {}, {}, {}, {}, e 5 8127] }
    (ready u ∧ controlArmBit 6 = true ∧ controlDrainBit 6 = true) ∧
    (ready (tArmed .guarded) ∧ controlMode 0x22 ≠ (tArmed .guarded).ctrl.defaultMode) ∧
    (controlArmBit 0x32 = true ∧ controlMode 0x32 = (tArmed .guarded).ctrl.defaultMode ∧ (tArmed .guarded).ctrl.opState ≠ .unconfigured) ∧
    (ready range ∧ ∃ e ∈ range.region.entries, e.valid = true ∧ (e.limit < e.base ∨ range.straps.visibleGranules ≤ e.limit)) ∧
    (ready lap ∧ lap.region.entries.getD 0 {} = e 0 5 ∧ lap.region.entries.getD 7 {} = e 5 8127) ∧
    (lap.region.entries.any fun e => e.rangeFault lap.straps.visibleGranules) = false := by
  refine ⟨?_, ?_, ?_, ?_, ?_, ?_⟩ <;> decide +kernel
theorem test_hyps_LimitWritten :
    (ready (tBridge .held) ∧ (tBridge .held).ctrl.opState = .held) ∧
    (ready (tArmed .guarded) ∧ (tArmed .guarded).ctrl.opState ≠ .held ∧ (0xFFFFFFFF : Word).toNat % 1024 = 1023 ∧
      (0xFFFFFC00 : Word).toNat % 1024 = 0) := by decide +kernel
theorem test_hyps_RegionTableWritten :
    (ready (tBridge .unconfigured) ∧ (tBridge .unconfigured).region.entries.length = 8 ∧
      (tBridge .unconfigured).ctrl.opState = .unconfigured) ∧
    (ready (tArmed .guarded) ∧ (tArmed .guarded).ctrl.opState ≠ .unconfigured ∧ (tArmed .guarded).ctrl.opState ≠ .held) ∧
    (ready (tBridge .held) ∧ (tBridge .held).region.entries.length = 8) := by decide +kernel
theorem test_hyps_AttentionWords :
    let p := (tArmed .guarded).setCtrl { Ctrl.init .armed false with attnOn := true, attnMode := .pulse }
    (p.ctrl.attnOn = true ∧ p.ctrl.attnMode = .pulse ∧ ready p ∧ p.ctrl.opState ≠ .held) ∧
    ¬((tArmed .guarded).ctrl.attnOn = true ∧ (tArmed .guarded).ctrl.attnMode = .pulse) ∧
    (ready (tBridge .held) ∧ (tBridge .held).ctrl.opState = .held) := by decide +kernel
theorem test_hyps_OutcomeAcknowledged :
    let s := (tArmed .guarded).setOutcomes { queue := [{ number := 0xFFFF, outcome := tOutcome }], pendPost := [], counter := 0 }
    let t := s.setTag 1 (.fencedNumber 0xFFFF)
    (ready t ∧ t.outcomes.queue = [{ number := 0xFFFF, outcome := tOutcome }] ∧ (0x1FFFF : Word).toNat % 65536 = 65535 ∧
      t.tag tOutcome.tag = .fencedNumber 0xFFFF) ∧
    (ready s ∧ ∀ r ∈ s.outcomes.queue.head?, r.number.toNat ≠ (0 : Word).toNat % 65536) := by decide +kernel
theorem test_hyps_OutcomePosted :
    let o : OutcomeRecord := { number := 0, outcome := tOutcome }
    let s (n : Nat) := (((tArmed .guarded).setOutcomes { queue := List.replicate n o, pendPost := [tOutcome], counter := 0xFFFF }).updSlot 0
      fun g => { g with st := .rejected }).setTag 1 (.fencedSlot 0)
    ((s 15).attnOk ∧ (s 15).outcomes.pendPost = [tOutcome] ∧ (s 15).outcomes.queue.length < 16 ∧
      tOutcome.slot < (s 15).groups.slots.length ∧ (s 15).tag 1 = .fencedSlot 0) ∧
    ((s 16).attnOk ∧ 16 ≤ (s 16).outcomes.queue.length) ∧ (tArmed .guarded).outcomes.pendPost = [] := by decide +kernel
theorem test_hyps_DrainCompletes :
    let s := tBridge .draining
    (s.ctrl.opState = .draining ∧ s.queue = [] ∧ (∀ g ∈ s.groups.slots, g.st = .free) ∧ s.journal.inFlight = none ∧
      s.journal.due = false ∧ s.journal.head = s.journal.tail) ∧
    ((tGroup s).attnOk ∧ ¬∀ g ∈ (tGroup s).groups.slots, g.st = .free) := by decide +kernel
theorem test_hyps_CommitTakesUnit :
    let s := tUnit (tArmed .guarded) .closed .idle
    let u : CommitUnit := { owner := .guarded 0, closeNo := 0, stage := .closed, seq := some 1, start := some 2, len := some 3, progress := none }
    (s.commit.st = .idle ∧ s.ctrl.opState = .armed ∧ s.queue = [] ++ u :: [] ∧ u.owner = .guarded 0 ∧ u.stage = .closed) ∧
    (tUnit (tArmed .guarded) .closed .stopped).commit.st ≠ .idle := by decide +kernel
theorem test_hyps_BlocksGranted :
    let s (tail live : Nat) :=
      (tUnit (tArmed .guarded) .closed .waitingSpace).setJournal { tail := tail, live := live, blockReq := some 3 }
    ((s 16381 16378).journal.live + 0 + 3 = 16381 ∧ (s 16381 16378).journal.tail + 3 - 1 ≤ (s 16381 16378).straps.lastBlock ∧
      (s 16381 16378).journal.blockReq = some 3 ∧ ((s 16381 16378).inHand.map CommitUnit.owner) = some (.guarded 0) ∧
      0 < (s 16381 16378).groups.slots.length ∧ (s 16381 16378).straps.ringBlocks - 1 = 16381) ∧
    (¬(s 16382 5).journal.tail + 3 - 1 ≤ (s 16382 5).straps.lastBlock ∧
      (s 16382 5).journal.live + ((s 16382 5).straps.lastBlock + 1 - 16382) + 3 ≤ (s 16382 5).straps.ringBlocks - 1) ∧
    ((s 5 16379).attnOk ∧ (s 5 16379).straps.ringBlocks - 1 < (s 5 16379).journal.live + 0 + 3) := by decide +kernel

/-- The states that `test_hyps_ArbiterGrants` uses: every requester but the one named waits for nothing. -/
def tWaiting (r : Requester) : State :=
  let s := tUnit (tArmed .guarded) .applying .marking
  match r with
  | .read => s.setPort { s.port with waitRead := [0], pointer := .read }
  | .direct => s.setPort { s.port with waitDirect := [{ addr := 1, words := [1] }] }
  | .commit => s.setPort { s.port with waitCommit := [.mark], pointer := .direct }
  | .anchor =>
    (s.setPort { s.port with waitAnchor := true }).setJournal
      { s.journal with inFlight := some { copy := 1, generation := 1, head := 5, headSeq := 2 } }
  | .apply => s.setPort { s.port with waitApply := [{ record := 0, off := 0, len := 16 }] }
  | .recovery =>
    s.setPort { s.port with
      waitRecovery := some { req := { kind := .read, addr := 0, len := 16, words := [] }, role := .recRead } }

theorem test_hyps_ArbiterGrants :
    (∀ r ∈ [Requester.read, .direct, .commit, .anchor, .apply, .recovery],
      ((tWaiting r).pins.resetN = true ∧ (tWaiting r).ctrl.opState ≠ .halted ∧ (tWaiting r).port.outstanding.length < 8) ∧
      (visitOrder (tWaiting r).port.pointer).find? (tWaiting r).eligible = some r) ∧
    visitOrder .recovery = [] ++ .read :: [.direct, .commit, .anchor, .apply, .recovery] ∧
    visitOrder .read = [.direct, .commit, .anchor, .apply, .recovery] ++ .read :: [] ∧
    (tArmed .guarded).eligible .read = false ∧ (tBridge .halted).ctrl.opState = .halted ∧ (tWaiting .apply).queue.length = 1 ∧
    (let d := (tWaiting .direct).setLink { st := .streaming, collecting := List.replicate 16 5 }
     d.link.st = .streaming ∧ d.link.collecting.length = 16 ∧ d.port.waitDirect = [{ addr := 1, words := [1] }]) := by decide +kernel
theorem test_hyps_ArbiterGrants_mayIssue : mayIssue (tWaiting .read) .read ∧ ¬mayIssue (tWaiting .read) .recovery ∧
    mayIssue (tWaiting .anchor) .anchor := by
  refine ⟨⟨by decide, by decide +kernel⟩, ?_, ⟨by decide, by decide⟩⟩
  exact (by decide : ¬((tWaiting .read).port.waitRecovery.isSome = true))
theorem test_hyps_CommitRequestIssued :
    let s (c : CommitReq) := (tWaiting .commit).setPort { (tWaiting .commit).port with waitCommit := [c] }
    (∀ c ∈ [CommitReq.mark, .skip 16383 9, .header 0, .header 3, .data 0 0, .data 0 3],
      (s c).pins.resetN = true ∧ (s c).ctrl.opState ≠ .halted ∧ (s c).port.outstanding.length < 8 ∧
      visitOrder (s c).port.pointer = [] ++ .commit :: [.anchor, .apply, .recovery, .read, .direct] ∧
      (s c).port.waitCommit = c :: []) ∧
    ((s .mark).inHand.map fun u => (u.owner, u.start, u.len, u.seq)) = some (.guarded 0, some 2, some 3, some 1) ∧
    ((s .mark).slot 0).members.length ≤ 28 := by decide +kernel
/-- The header block of the unit of `tUnit`: one burst of 17 words at address 0 (R45, 12.5). -/
theorem test_the_header_of_an_entry :
    let s := (tWaiting .commit).setPort { (tWaiting .commit).port with waitCommit := [.header 0] }
    ((tAfter s .arbiterGrant).out.issued.map fun q => q.words.take 6 ++ q.words.drop 7) =
      some [0x4A524E4C, 1, 1, 1, 17, 3, 0, 0, 17, 0, 0, 0, 0, 0, 0] := by decide +kernel
theorem test_hyps_CommitRequestsComplete :
    let k := tOutstanding (tUnit (tArmed .guarded) .closed .waitingSpace) .commit .write .skip
    let g := k.setJournal { k.journal with skipGrant := some { seq := 9, len := 3 } }
    let e (n : Nat) := (tOutstanding (tUnit (tArmed .guarded) .journaling .writing) .commit .write .entry).setCommit
      { st := .writing, inHand := some 0, completed := n }
    (g.attnOk ∧ (g.port.outstanding.head?.any fun o => o.isFor .skip) = true ∧ g.journal.skipGrant = some { seq := 9, len := 3 } ∧
      (g.inHand.map CommitUnit.owner) = some (.guarded 0) ∧ 0 < g.groups.slots.length) ∧ k.journal.skipGrant = none ∧
    ((e 7).attnOk ∧ ((e 7).port.outstanding.head?.any fun o => o.isFor .entry) = true ∧ (e 7).commit.st = .writing ∧
      ((e 7).inHand.bind CommitUnit.len) = some 3 ∧ (e 7).commit.completed + 1 = 4 * (3 - 1)) ∧
    ((e 6).commit.completed + 1 ≠ 4 * (3 - 1)) ∧
    (tUnit (tArmed .guarded) .journaling .stopped).commit.st ≠ .writing := by decide +kernel
theorem test_hyps_MarkCompletes :
    let s (c : CommitState) := tOutstanding (tUnit (tArmed .guarded) .journaling c) .commit .write .mark
    let u : CommitUnit := { owner := .guarded 1, closeNo := 1, stage := .closed, seq := none, start := none, len := none, progress := none }
    let t := (s .marking).setQueue ((s .marking).queue ++ [u])
    ((s .stopped).attnOk ∧ ((s .stopped).port.outstanding.head?.any fun o => o.isFor .mark) = true ∧
      ((s .stopped).inHand.map fun u => (u.stage, u.owner)) = some (.journaling, .guarded 0) ∧ 0 < (s .stopped).groups.slots.length ∧
      (∀ x ∈ (s .stopped).queue, x.closeNo = 0 → some x = (s .stopped).inHand) ∧ (s .stopped).commit.st ≠ .marking) ∧
    ((s .marking).commit.st = .marking ∧ ∀ x ∈ (s .marking).queue, x.isGuarded = true → x.stage ≠ .closed) ∧
    (t.commit.st = .marking ∧ t.ctrl.opState = .armed ∧ t.queue = (s .marking).queue ++ u :: [] ∧
      (∀ x ∈ (s .marking).queue, x.isGuarded = true → x.stage ≠ .closed) ∧ u.owner = .guarded 1 ∧ u.stage = .closed) := by decide +kernel
theorem test_hyps_MarkCompletes_stopped :
    let s (o : OpState) (f : Option FaultRecord) :=
      let t := tOutstanding (tUnit (tArmed .guarded) .journaling .stopped) .commit .write .mark
      t.setCtrl { t.ctrl with opState := o, fault := f }
    let r : FaultRecord := { stateAt := .armed, requester := .apply, kind := .write, addr := 5, further := 65535, dropped := 2 }
    let e := (s .faulted (some r)).setQueue []
    (e.attnOk ∧ (e.port.outstanding.head?.any fun o => o.isFor .mark) = true ∧ e.inHand = none ∧ e.commit.st ≠ .marking ∧
      e.ctrl.opState = .faulted ∧ e.ctrl.fault = some r) ∧
    ∀ f ∈ [none, some r], (s .halted f).attnOk ∧ (s .halted f).ctrl.fault = f ∧
      ((s .halted f).inHand.map fun u => (u.stage, u.owner)) = some (.journaling, .guarded 0) := by decide +kernel
theorem test_hyps_ApplyEngineRuns :
    let t := tUnit (tArmed .guarded) .durable .idle
    let c := t.setQueue (t.queue.map fun u => { u with owner := .checked 0, stage := .closed })
    let a (n : Nat) := tApplying (tArmed .guarded) n
    let two := (a 1).updSlot 0 fun g => { g with members := [0, 1] }
    let fly := (a 1).setJournal { (a 1).journal with inFlight := some { copy := 1, generation := 1, head := 5, headSeq := 2 } }
    (t.ctrl.opState = .armed ∧ t.apply.st = .idle ∧ (t.queue.head?.any CommitUnit.appliable) = true) ∧
    (c.apply.st = .idle ∧ (c.queue.head?.any fun u => !u.isGuarded && u.stage == .closed) = true) ∧
    ((a 0).attnOk ∧ ((a 0).port.outstanding.head?.any fun o => o.isFor .run) = true ∧ (a 0).apply.st = .applying ∧
      ((a 0).queue.head?.bind CommitUnit.progress) = some { ordinal := 1, issued := 2, completed := 0 } ∧
      ((a 0).record 0).wordCount = 17 ∧ 0 + 1 ≠ (17 + 15) / 16) ∧
    ((two.slot 0).members = [0, 1] ∧ 1 + 1 = (17 + 15) / 16 ∧ (two.queue.head?.map two.membersOf) = some [0, 1]) ∧
    (((a 1).queue.head?.map fun u => (u.owner, u.seq, u.start, u.len)) = some (.guarded 0, some 1, some 2, some 3) ∧
      (a 1).queue.length = 1 ∧ (a 1).journal.inFlight = none) ∧ fly.journal.inFlight ≠ none := by decide +kernel
/-- A CHECKED unit's only member is written home: the unit leaves the queue, and the next unit, CHECKED or DURABLE, is begun at once. -/
theorem test_applyTakesNext :
    let c := ((tApplying (tArmed .guarded) 1).updFront fun u => { u with owner := .checked 0, seq := none, start := none, len := none }).updSlot
      1 fun g => { g with st := .durable, members := [4] }
    let u (o : Owner) (st : Stage) : CommitUnit :=
      { owner := o, closeNo := 1, stage := st, seq := none, start := none, len := none, progress := none }
    let t (v : CommitUnit) := tAfter (c.setQueue (c.queue ++ [v])) (.applyCompletion .ok)
    ((c.queue.head?.map c.membersOf) = some [0] ∧ (tAfter c (.applyCompletion .ok)).queue = [] ∧
      (tAfter c (.applyCompletion .ok)).apply = { st := .idle, position := 0 } ∧
      (tAfter c (.applyCompletion .ok)).port.waitAnchor = false) ∧
    ((t (u (.checked 5) .closed)).apply.st = .applying ∧ ((t (u (.checked 5) .closed)).record 5).st = .applying) ∧
    ((t (u (.guarded 1) .durable)).apply.st = .applying ∧ ((t (u (.guarded 1) .durable)).record 4).st = .applying) ∧
    (t (u (.guarded 1) .closed)).apply.st = .idle := by decide +kernel
theorem test_hyps_AnchorCompletes :
    let s := tOutstanding (tArmed .guarded) .anchor .write .anchor
    let t := s.setJournal { tail := 9, live := 7, nextSeq := 3, inFlight := some { copy := 1, generation := 1, head := 5, headSeq := 2 } }
    let d := t.setJournal { t.journal with due := true, newest := some (9, 3) }
    ((t.port.outstanding.head?.any fun o => o.isFor .anchor) = true ∧ t.journal.inFlight.isSome = true ∧ t.journal.blockReq = none ∧
      t.journal.due = false) ∧
    ((d.port.outstanding.head?.any fun o => o.isFor .anchor) = true ∧ d.journal.blockReq = none ∧ d.journal.due = true ∧
      d.ctrl.opState ≠ .faulted ∧ d.ctrl.opState ≠ .halted ∧ d.journal.newest = some (9, 3)) := by decide +kernel
/-- A bridge whose anchor write at block 200 completes, with a request of 3 blocks waiting at a given tail. -/
def tAnchorGrant (tail : Nat) : State :=
  let s := tOutstanding (tUnit (tArmed .guarded) .closed .waitingSpace) .anchor .write .anchor
  s.setJournal
    { tail := tail, head := 200, live := 12290, blockReq := some 3
      inFlight := some { copy := 1, generation := 1, head := 200, headSeq := 2 } }
theorem test_hyps_AnchorGrants :
    let s := tAnchorGrant 100
    let k := tAnchorGrant 16382
    ((s.port.outstanding.head?.any fun o => o.isFor .anchor) = true ∧ s.journal.inFlight.isSome = true ∧ s.journal.due = false ∧
      s.journal.blockReq = some 3 ∧ (s.inHand.map CommitUnit.owner) = some (.guarded 0) ∧ 0 < s.groups.slots.length ∧
      s.journal.tail + 3 - 1 ≤ s.straps.lastBlock ∧ s.journal.live + 3 ≤ s.straps.ringBlocks - 1) ∧
    ((k.port.outstanding.head?.any fun o => o.isFor .anchor) = true ∧ k.journal.blockReq = some 3 ∧
      ¬k.journal.tail + 3 - 1 ≤ k.straps.lastBlock ∧ k.journal.live + (k.straps.lastBlock + 1 - 16382) + 3 ≤ k.straps.ringBlocks - 1) ∧
    (s.setJournal { s.journal with live := 16379 }).straps.ringBlocks - 1 < 16379 + 3 ∧
    (let d := s.setJournal { s.journal with due := true, newest := some (202, 4) }
     d.journal.due = true ∧ d.journal.newest = some (202, 4) ∧ d.journal.blockReq = some 3 ∧ d.ctrl.opState ≠ .faulted ∧
      d.ctrl.opState ≠ .halted) := by
  refine ⟨?_, ?_, ?_, ?_⟩ <;> decide +kernel
/-- JOURNAL_PRESSURE goes false at the anchor and true at the grant of one step: its flag is set (R55). -/
theorem test_pressureDecidedTwice :
    let s := (tOutstanding (tUnit (tArmed .guarded) .closed .waitingSpace) .anchor .write .anchor).setJournal
      { tail := 100, head := 200, live := 12290, blockReq := some 3
        inFlight := some { copy := 1, generation := 1, head := 204, headSeq := 2 } }
    let t := tAfter s (.anchorCompletion .ok)
    s.live = t.live ∧ t.journal.live = 12289 ∧ t.attn.flags.getLsbD 5 = true := by decide +kernel
theorem test_hyps_ReadSpanCompletes :
    let s := tReading (tArmed .guarded)
    let i := s.setLink {}
    let j := i.setReads { i.reads with slots := List.replicate 4 { st := .discarding } }
    (i.attnOk ∧ i.ctrl.opState ≠ .held ∧ (i.port.outstanding.head?.map fun o => (o.role, o.disposition, o.len)) = some (.span 0, .take, 16) ∧
      0 < i.reads.slots.length ∧ i.link.st ≠ .streaming ∧ (i.span 0).st = .filling) ∧
    (j.attnOk ∧ j.link.st ≠ .streaming ∧ (j.span 0).st = .discarding) ∧
    (s.attnOk ∧ s.link.st = .streaming ∧ s.link.commonRead = true ∧ s.link.bridgeHold = some .span ∧
      s.link.start + s.link.count < s.link.bound ∧ s.spanNo (s.link.count / 16) = some 0 ∧ (s.span 0).st = .filling ∧
      s.freeSpanNo = none) := by decide +kernel
theorem test_hyps_ReadSpanCompletes_ahead :
    let c := tOutstanding (tSending 3 33 .filling) .read .read (.span 1)
    c.attnOk ∧ c.link.st = .streaming ∧ c.link.commonRead = true ∧ c.freeSpanNo = none ∧ c.spanNo (c.link.count / 16) = some 0 ∧
      (c.span 0).st = .sending ∧ (c.span 1).st = .filling ∧ 1 < c.reads.slots.length ∧
      (c.port.outstanding.head?.map fun o => (o.role, o.disposition)) = some (.span 1, .take) := by decide +kernel
/-- A DISCARDING slot completes while a read streams: its next span is issued into the slot, and the read goes on, waits, or sends. -/
theorem test_hyps_ReadSpanCompletes_discarding :
    let c := tOutstanding (tSending 3 33 .filling) .read .read (.span 2)
    let next (s : State) := ((s.setPort { s.port with outstanding := [] }).updSpan 2 fun _ => {}).issueSpan
    let w := ((tOutstanding (tStreaming (tArmed .guarded) 0x40 16 .readOnly 48) .read .read (.span 2)).mapLink fun l =>
      { l with bridgeHold := some .span, stall := none }).setReads { slots := List.replicate 4 { st := .discarding }, nextSpan := 0 }
    let r := tOverlay w 0 1
    ((c.span 2).st = .discarding ∧ c.freeSpanNo = none ∧ (next c).spanNo 0 = some 0 ∧ ((next c).span 0).st = .sending ∧
      ((next c).span 2).seq = 2) ∧
    (w.attnOk ∧ w.link.start + w.link.count < w.link.bound ∧ (next w).spanNo 0 = some 2 ∧ ((next w).span 2).st = .filling) ∧
    ((r.span 2).st = .discarding ∧ (next r).spanNo 0 = some 2 ∧ ((next r).span 2).st = .ready) := by decide +kernel
theorem test_hyps_DirectSpanCompletes :
    let s := tDirect (tArmed .direct)
    let t := s.setPort { s.port with waitDirect := [{ addr := 0, words := [1] }] }
    (calm s ∧ s.ctrl.opState ≠ .held ∧ (s.port.outstanding.head?.any fun o => o.isFor .direct) = true ∧ s.link.hdr1.isSome = true ∧
      s.port.waitDirect = [] ∧ s.port.outstanding.tail = [] ∧ s.link.directWrite = true ∧ s.link.st = .checking ∧
      s.link.handshake = none ∧ s.link.exchange ≠ .awaited) ∧
    (calm t ∧ t.port.waitDirect ≠ []) ∧
    (let c (s : State) := s.mapLink fun l => { l with handshake := some 16, exchange := .awaited }
     let e := (c s).setPort { s.port with outstanding := [] }
     (checkAwaited e ∧ e.link.directWrite = true ∧ e.port.waitDirect = [] ∧ e.port.outstanding = []) ∧
     (checkAwaited (c t) ∧ (c t).link.directWrite = true ∧ (c t).port.waitDirect ≠ [])) := by decide +kernel
theorem test_hyps_ErrorStops :
    let s := tOutstanding (tUnit (tArmed .guarded) .journaling .marking) .commit .write .mark
    let r := tRecovery { phase := .first } .read .recRead
    let f := s.setCtrl { s.ctrl with
      opState := .faulted, fault := some { stateAt := .armed, requester := .apply, kind := .write, addr := 0, further := 65535, dropped := 0 } }
    (isError (.markCompletion .error) = true ∧ (s.port.outstanding.head?.any (answers (.markCompletion .error))) = true ∧
      s.ctrl.opState = .armed ∧ s.pins.resetN = true) ∧
    ((r.port.outstanding.head?.any (answers (.recoveryReadCompletion .error))) = true ∧ r.ctrl.opState = .recovering) ∧
    (f.ctrl.opState = .faulted ∧ f.ctrl.fault.isSome = true) ∧
    (let h := s.setCtrl { s.ctrl with opState := .halted }
     h.ctrl.opState = .halted ∧ h.ctrl.fault = none ∧ (h.port.outstanding.head?.any (answers (.markCompletion .error))) = true) := by
  decide +kernel
/-- A GUARDED unit of slot 0 being journaled, its mark outstanding, beside an OPEN group of tag 2 in slot 7. -/
def tLosing : State := tOutstanding (tUnit ((tArmed .guarded).openGroup 7 2) .journaling .marking) .commit .write .mark

theorem test_tLosing_slots (n : Nat) (h : (tLosing.slot n).openExplicit = true) : tLosing.tag (tLosing.slot n).tag = .opened n := by
  by_cases hn : n < 8
  · exact (by decide +kernel : ∀ n < 8, (tLosing.slot n).openExplicit = true → tLosing.tag (tLosing.slot n).tag = .opened n) n hn h
  · have l : tLosing.groups.slots.length = 8 := by decide +kernel
    rw [State.slot, List.getD, List.getElem?_eq_none (by omega)] at h
    cases h
theorem test_tLosing_units (u : CommitUnit) (hu : u ∈ tLosing.queue) (n : Nat) (hn : u.owner = .guarded n) :
    n < tLosing.groups.slots.length ∧ (tLosing.slot n).openExplicit = false := by
  have o : u.owner = .guarded 0 := (by decide +kernel : ∀ u ∈ tLosing.queue, u.owner = .guarded 0) u hu
  cases o.symm.trans hn
  decide +kernel
/-- Its tables agree; an ERROR rejects the group and abandons the unit, which a power warning keeps. -/
theorem test_hyps_tablesAgree :
    tablesAgree tLosing ∧ lostGroups tLosing = [7] ∧ lostUnits tLosing false = [0] ∧ lostUnits tLosing true = [] :=
  ⟨⟨test_tLosing_slots, by decide +kernel, test_tLosing_units, by decide +kernel, by decide +kernel⟩, by decide +kernel,
    by decide +kernel, by decide +kernel⟩
theorem test_an_error_rejects_and_abandons :
    let t := tAfter tLosing (.markCompletion .error)
    t.outcomes.pendPost.map (fun o => (o.slot, o.verdict)) = [(7, .rejected), (0, .abandoned)] ∧ t.tag 2 = .fencedSlot 7 ∧
    (t.record 0).st = .closed := by decide +kernel
/-- Streaming writes and a HALTED read stop with STOPPED, and a FAULTED read streams on. -/
theorem test_an_entry_stops_the_burst :
    let w := tAfter (tRecord (tStreaming (tArmed .checked) 0 0 .checked 9) .checked none) .pwarnAssert
    let r := tOutstanding (tSending 3 33 .filling) .commit .write .mark
    w.link.pendVerdict = some .stopped ∧ w.link.st = .stopping ∧ (tAfter r .pwarnAssert).link.pendVerdict = some .stopped ∧
    (tAfter r (.markCompletion .error)).link = r.link ∧ (tAfter r (.markCompletion .error)).ctrl.opState = .faulted := by decide +kernel
theorem test_hyps_PowerWarning :
    let s := tUnit ((tArmed .guarded).openGroup 7 2) .journaling .marking
    (State.reset.pins.resetN = false ∧ (tBridge .held).ctrl.opState = .held ∧ (tBridge .halted).ctrl.opState = .halted) ∧
    (s.pins.resetN = true ∧ s.ctrl.opState ≠ .held ∧ s.ctrl.opState ≠ .halted ∧ (s.slot 7).openExplicit = true ∧ s.link.slot ≠ some 7 ∧
      s.groups.slots.length = 8 ∧ (∀ u ∈ s.queue, u.owner ≠ .guarded 7) ∧ (s.link.directWrite = true → s.link.tag = 0)) := by
  decide +kernel
theorem test_hyps_RecoveryReads :
    let p : Straps := { cap := 0, jrn := 0 }
    let z : List Word := List.replicate 16 0
    let a (n : Fin 2) := tRecovery { phase := .anchor n, block := z } .read .recAnchorRead
    let f := tRecovery { phase := .first, pos := 16383, expected := 3 } .read .recRead
    let m := tRecovery { phase := .mark, expected := 3, check := 5 } .read .recRead
    ((a 0).attnOk ∧ (a 0).recovery.phase = .anchor 0 ∧ ((a 0).port.outstanding.head?.any fun o => o.isFor .recAnchorRead && o.len == 16) = true) ∧
    (anchorValid p (anchorWords 4 2 3) = true ∧ anchorValid p (anchorWords 4 16383 3) = true ∧ anchorValid p (anchorWords 4 1 3) = false ∧
      anchorValid p (anchorWords 4 16384 3) = false ∧ anchorValid p z = false ∧ later 0 0xFFFFFFFF = true ∧ later 4 4 = false) ∧
    ((f.port.outstanding.head?.any fun o => o.isFor .recRead && o.len == 16) = true ∧ f.recovery.phase = .first ∧
      blockWord z 0 ≠ 0x4A524E4C#32 ∧ blockWord (skipWords 3) 0 = 0x4A524E4C#32 ∧ blockWord (skipWords 3) 1 = 3 ∧
      blockWord (skipWords 3) 2 = f.recovery.expected ∧ blockWord (skipWords 4) 2 ≠ f.recovery.expected ∧
      f.recovery.consumed + (f.straps.lastBlock + 1 - f.recovery.pos) ≤ f.straps.ringBlocks - 1) ∧
    (m.recovery.phase = .mark ∧ blockWord (markWords 3 5) 1 = 2 ∧ blockWord (markWords 3 5) 2 = m.recovery.expected ∧
      blockWord (markWords 3 5) 3 = m.recovery.check ∧ descriptorsFit m.straps m.recovery.header = true) := by decide +kernel

/-- Two valid anchor copies of one generation: copy 0 is taken (R164). -/
theorem test_equal_generations_take_copy_0 :
    let s := tRecovery { phase := .anchor 1, block := anchorWords 4 9 3 } .read .recAnchorRead
    (tAfter s (.recoveryAnchorReadCompletion (.ok (anchorWords 4 7 3)))).recovery.pos = 9 := by decide +kernel

/-- The block of an entry of one burst of `w` words, in the last quarter of its read. -/
def tLastQuarter (w len : Nat) : State :=
  let h := headerBlock 3 [(0, w)] w len
  tRecovery { phase := .header 3, block := h.take 48, pos := 16380, expected := 3 } .read .recRead

/-- The last quarter of the header of one burst of `w` words judged. -/
def tJudged (w len : Nat) : State := tAfter (tLastQuarter w len) (.recoveryReadCompletion (.ok (List.replicate 16 0)))

set_option maxRecDepth 100000 in
theorem test_recovery_judges_a_header :
    ((tLastQuarter 64 3).recovery.phase = .header 3 ∧ (tJudged 64 3).recovery.phase = .data 0 0) ∧
    (tJudged 64 4).ctrl.summary.reason = .mismatch ∧ (tJudged 65 4).recovery.phase = .data 0 0 ∧
    (tJudged 129 5).ctrl.summary.reason = .mismatch ∧
    (tAfter (tLastQuarter 64 3) (.recoveryReadCompletion (.ok (List.replicate 16 1)))).ctrl.summary.reason = .torn ∧
    (let l := (tLastQuarter 64 3).setRecovery { (tLastQuarter 64 3).recovery with consumed := 16379 }
     (tAfter l (.recoveryReadCompletion (.ok (List.replicate 16 0)))).ctrl.summary.reason = .limit) := by
  refine ⟨?_, ?_, ?_, ?_, ?_, ?_⟩ <;> decide +kernel
theorem test_recovery_reads_data_and_replays :
    let d (k q : Nat) :=
      tAfter (tRecovery { phase := .data k q, header := headerBlock 3 [(0, 65)] 65 4, pos := 9 } .read .recRead)
        (.recoveryReadCompletion (.ok (List.replicate 16 0)))
    let r (n : Nat) :=
      tAfter (tRecovery { phase := .replayRead 0 3, block := List.replicate 8 0, runs := [{ addr := 5, len := n }], pos := 9 } .read .recRead)
        (.recoveryReadCompletion (.ok (List.replicate 16 0)))
    ((d 0 0).recovery.phase = .data 0 1 ∧ (d 0 3).recovery.phase = .data 1 0 ∧ (d 1 3).recovery.phase = .mark) ∧
    (r 16).recovery.phase = .replayWrite 1 ∧ (r 25).recovery.phase = .replayRead 1 0 := by decide +kernel
theorem test_hyps_RecoveryWrites :
    let w (rs : List HomeRun) := tRecovery { phase := .replayWrite 1, block := [7, 8], runs := rs } .write .recReplay
    let a := tRecovery { phase := .anchorWrite, pos := 5, expected := 3 } .write .recAnchorWrite
    let f := tRecovery { phase := .formatWrite } .write .recAnchorWrite
    ((w [{ addr := 50, len := 2 }]).attnOk ∧ ((w []).port.outstanding.head?.any fun o => o.isFor .recReplay) = true ∧
      (w []).recovery.phase = .replayWrite 1 ∧ (w []).recovery.runs = [] ∧ 2 ≤ (w []).recovery.block.length) ∧
    ((w [{ addr := 50, len := 3 }]).recovery.runs = [{ addr := 50, len := 3 }] ∧ (w []).recovery.block.length < 3) ∧
    ((a.port.outstanding.head?.any fun o => o.isFor .recAnchorWrite) = true ∧ a.recovery.phase = .anchorWrite ∧ a.ctrl.opState ≠ .held) ∧
    f.recovery.phase = .formatWrite := by decide +kernel
theorem test_hyps_StagingKept : State.reset.storeOk ∧ State.reset.chunksOk := by decide +kernel
theorem test_hyps_CountsKept : State.reset.tablesOk ∧ State.reset.boundsOk := by decide +kernel
theorem test_hyps_AttnKept :
    let p := ((tArmed .guarded).setCtrl { Ctrl.init .armed false with attnOn := true }).setAttn { flags := 1, enable := 1, line := true }
    p.attnOk ∧ step p = .next p := ⟨by decide, rfl⟩
theorem test_hyps_LinkKept : (tReading (tArmed .guarded)).linkOk := by
  refine ⟨by decide, by decide, by decide, .inl ⟨by decide, by decide +kernel⟩⟩

end Sys2Proof.Machine
end

