-- ==== Sys2Proof/Proofs/Check.lean ====
section
/-! PROOF. The check function of the link and the journal (spec/00_scope.md R1). -/

namespace Sys2Proof.Machine

/-- One bit is fed by a left shift, with the polynomial of R1 added when the bit shifted out differs from the bit fed. -/
theorem checkBit_eq_ite (c : Word) (b : Bool) :
    checkBit c b = if (c.msb != b) = true then (c <<< 1) ^^^ 0x1EDC6F41#32 else c <<< 1 := by
  have xor_is_bne : (c.msb ^^ b) = (c.msb != b) := by cases c.msb <;> cases b <;> rfl
  simp only [checkBit, checkPoly, xor_is_bne]

/-- A word is fed by feeding its bits, most significant first (R1). -/
theorem checkWord_eq_foldl_msbFirst (c w : Word) : checkWord c w = (msbFirst w).foldl checkBit c := by
  rw [checkWord, msbFirst, List.foldl_map]

@[simp] theorem checkFeed_append (c : Word) (us vs : List Word) : checkFeed c (us ++ vs) = checkFeed (checkFeed c us) vs :=
  List.foldl_append

/-- Before the first word the register holds the preset (R1). -/
@[simp] theorem checkOf_nil : checkOf [] = checkPreset := rfl

/-- The check function of a longer sequence goes on from the register after the shorter one (R1). -/
theorem checkOf_append (us vs : List Word) : checkOf (us ++ vs) = checkFeed (checkOf us) vs :=
  checkFeed_append checkPreset us vs

/-- One more word at the end feeds that word into the register (R1). -/
theorem checkOf_concat (ws : List Word) (w : Word) : checkOf (ws ++ [w]) = checkWord (checkOf ws) w :=
  checkOf_append ws [w]

/-- Settles O3: the model feeds a last word by `checkOf_concat`, its bits in the order of `checkWord_eq_foldl_msbFirst`, and each bit
as `checkBit_eq_ite` says. -/
theorem checkFunction : Obligations.CheckFunction := by
  refine ⟨checkOf_nil, fun ws w => ?_⟩
  calc checkOf (ws ++ [w])
      = checkWord (checkOf ws) w := checkOf_concat ws w
    _ = (msbFirst w).foldl checkBit (checkOf ws) := checkWord_eq_foldl_msbFirst _ w
    _ = _ := congrArg (fun feed => (msbFirst w).foldl feed (checkOf ws)) (funext₂ checkBit_eq_ite)

end Sys2Proof.Machine
end

