-- ==== Sys2Proof/Proofs/Opening.lean ====
section
/-! PROOF. The decision on an opening (spec/07_the_burst_link.md R113): what each of the ordered checks answers once the checks before it
have let the opening pass. -/

namespace Sys2Proof.Machine

/-! ### Checks 1 to 3: format, fence and space -/

/-- Check 1 refuses a format fault (R111). -/
theorem State.decideOpening_formatFault {s : State} (hf : formatFault s.link.h0 s.link.h1 = true) :
    s.decideOpening = .refuse .refusedFormat := by
  simp [State.decideOpening, hf]

/-- Check 2 refuses a FENCED tag, whatever the direction and space. -/
theorem State.decideOpening_fenced {s : State} (hf : formatFault s.link.h0 s.link.h1 = false)
    (ht : (s.tag s.link.tag).fenced = true) : s.decideOpening = .refuse .refusedFenced := by
  simp [State.decideOpening, hf, ht]

/-- Check 3 accepts an attribute burst. -/
theorem State.decideOpening_attr {s : State} (hf : formatFault s.link.h0 s.link.h1 = false)
    (ht : (s.tag s.link.tag).fenced = false) (ha : s.link.isAttr = true) : s.decideOpening = .accept none false := by
  simp [State.decideOpening, hf, ht, ha]

/-- The opening passes checks 1 to 3: it has no format fault, its tag is not FENCED, and it is in common space. -/
structure State.ReachesStateCheck (s : State) : Prop where
  format : formatFault s.link.h0 s.link.h1 = false
  unfenced : (s.tag s.link.tag).fenced = false
  common : s.link.isAttr = false

/-! ### Check 4: the operating state -/

/-- HELD and RECOVERING refuse every common opening with REFUSED_NOT_READY, and UNCONFIGURED refuses a write so. -/
theorem stateRefusal_notReady {op : OpState} {read : Bool}
    (h : op = .held ∨ op = .recovering ∨ (op = .unconfigured ∧ read = false)) :
    stateRefusal op read = some .refusedNotReady := by
  obtain rfl | rfl | ⟨rfl, rfl⟩ := h <;> rfl

/-- DRAINING refuses a write. -/
theorem stateRefusal_draining {op : OpState} {read : Bool} (h : op = .draining ∧ read = false) :
    stateRefusal op read = some .refusedDraining := by
  obtain ⟨rfl, rfl⟩ := h
  rfl

/-- FAULTED refuses a write, and HALTED every common opening. -/
theorem stateRefusal_stopped {op : OpState} {read : Bool} (h : (op = .faulted ∧ read = false) ∨ op = .halted) :
    stateRefusal op read = some .refusedStopped := by
  obtain ⟨rfl, rfl⟩ | rfl := h <;> rfl

/-- ARMED passes every common opening; UNCONFIGURED, DRAINING and FAULTED pass a read. -/
theorem stateRefusal_none {op : OpState} {read : Bool}
    (h : op = .armed ∨ (read = true ∧ (op = .unconfigured ∨ op = .draining ∨ op = .faulted))) :
    stateRefusal op read = none := by
  obtain rfl | ⟨rfl, rfl | rfl | rfl⟩ := h <;> rfl

/-- Check 4 gives the refusal of the operating state. -/
theorem State.ReachesStateCheck.refused {s : State} (h : s.ReachesStateCheck) {v : Verdict}
    (hv : stateRefusal s.ctrl.opState s.link.isRead = some v) : s.decideOpening = .refuse v := by
  simp [State.decideOpening, h.format, h.unfenced, h.common, hv]

/-- The opening passes check 4 as well. -/
structure State.ReachesRangeCheck (s : State) : Prop extends s.ReachesStateCheck where
  allowed : stateRefusal s.ctrl.opState s.link.isRead = none

/-! ### Checks 5 to 8: range, direction and mode -/

/-- Check 5 refuses a start address at or beyond the visible capacity. -/
theorem State.ReachesRangeCheck.beyond {s : State} (h : s.ReachesRangeCheck) (hr : s.straps.visible ≤ s.link.start) :
    s.decideOpening = .refuse .refusedRange := by
  simp [State.decideOpening, h.format, h.unfenced, h.common, h.allowed, hr]

/-- Check 6 accepts a common read. -/
theorem State.ReachesRangeCheck.read {s : State} (h : s.ReachesRangeCheck) (hr : s.link.start < s.straps.visible)
    (hread : s.link.isRead = true) : s.decideOpening = .accept none false := by
  have allowed := h.allowed
  rw [hread] at allowed
  simp [State.decideOpening, h.format, h.unfenced, h.common, allowed, Nat.not_le.mpr hr, hread]

/-- The opening is a common write that passes checks 5 and 6 as well. -/
structure State.ReachesModeCheck (s : State) : Prop extends s.ReachesRangeCheck where
  inRange : s.link.start < s.straps.visible
  write : s.link.isRead = false

/-- A common write in range is decided by its mode, its tag and then checks 9 and 10. -/
theorem State.ReachesModeCheck.decideOpening_eq {s : State} (h : s.ReachesModeCheck) :
    s.decideOpening =
      if s.modeAt s.link.start = .readOnly then .refuse .refusedReadOnly
      else if s.link.tag ≠ 0 ∧ s.modeAt s.link.start ≠ .guarded then .refuse .refusedMode
      else s.decideWrite s.link.tag s.link.close (s.modeAt s.link.start) := by
  have allowed := h.allowed
  rw [h.write] at allowed
  simp [State.decideOpening, h.format, h.unfenced, h.common, allowed, Nat.not_le.mpr h.inRange, h.write]

/-- Check 7 refuses a write into READ_ONLY memory. -/
theorem State.ReachesModeCheck.readOnly {s : State} (h : s.ReachesModeCheck) (hm : s.modeAt s.link.start = .readOnly) :
    s.decideOpening = .refuse .refusedReadOnly := by
  rw [h.decideOpening_eq, if_pos hm]

/-- Check 8 refuses an explicit tag outside GUARDED memory. -/
theorem State.ReachesModeCheck.wrongMode {s : State} (h : s.ReachesModeCheck)
    (hm : s.modeAt s.link.start = .checked ∨ s.modeAt s.link.start = .direct) (ht : s.link.tag ≠ 0) :
    s.decideOpening = .refuse .refusedMode := by
  rw [h.decideOpening_eq]
  obtain hm | hm := hm <;> simp [hm, ht]

/-- Checks 9 and 10 decide a write into GUARDED memory. -/
theorem State.ReachesModeCheck.guarded {s : State} (h : s.ReachesModeCheck) (hm : s.modeAt s.link.start = .guarded) :
    s.decideOpening = s.decideWrite s.link.tag s.link.close .guarded := by
  rw [h.decideOpening_eq]
  simp [hm]

/-- Checks 9 and 10 decide a write of tag 0 that READ_ONLY does not refuse. -/
theorem State.ReachesModeCheck.tagZero {s : State} (h : s.ReachesModeCheck) (hm : s.modeAt s.link.start ≠ .readOnly)
    (ht : s.link.tag = 0) : s.decideOpening = s.decideWrite s.link.tag s.link.close (s.modeAt s.link.start) := by
  rw [h.decideOpening_eq, if_neg hm, if_neg fun k => k.1 ht]

/-! ### Check 9: the group -/

/-- Tag 0 has no entry in the Tag Table and reads FREE (02 R21). -/
theorem State.tag_zero_free {s : State} {t : Nat} (ht : t = 0) : s.tag t = .free := if_pos ht

/-- A group of 28 members takes a burst with CLOSE, without a record (02 R25), and refuses any other. -/
theorem State.decideWrite_full {s : State} {t n : Nat} (close : Bool) (m : Mode) (ht : s.tag t = .opened n)
    (hfull : 28 ≤ (s.slot n).members.length) :
    s.decideWrite t close m = if close then .accept none true else .refuse .refusedGroupFull := by
  cases close <;> simp [State.decideWrite, ht, Config.burstsPerGroup, hfull]

/-- A new group is refused when no slot is FREE (02 R22). -/
theorem State.decideWrite_noSlot {s : State} {t : Nat} (close : Bool) (ht : s.tag t = .free) (hn : s.freeSlotNo = none) :
    s.decideWrite t close .guarded = .refuse .refusedNoGroup := by
  simp [State.decideWrite, ht, hn]

/-- Check 9 lets a write of tag `t` into memory of mode `m` pass: its OPEN group has room for a member, or its tag is FREE and a slot
is there for the new group, where GUARDED memory asks for one. -/
def State.GroupHasRoom (s : State) (t : Nat) (m : Mode) : Prop :=
  (∃ n, s.tag t = .opened n ∧ (s.slot n).members.length < 28) ∨
    (s.tag t = .free ∧ (m = .guarded → s.freeSlotNo.isSome = true))

/-! ### Check 10: the record -/

/-- A DIRECT write claims no record. -/
theorem State.decideWrite_direct {s : State} {t : Nat} (close : Bool) (ht : s.tag t = .free) :
    s.decideWrite t close .direct = .accept none false := by
  simp [State.decideWrite, ht]

/-- Check 10 on a staged write of tag `t`: the lowest-numbered FREE record is claimed; without one the write waits for a record that is
leaving (01 R7), or else is accepted without a record when it closes its OPEN group (01 R8). -/
def State.decideRecord (s : State) (t : Nat) (close : Bool) : Decision :=
  match s.freeRecordNo with
  | some r => .accept (some r) false
  | none =>
    if s.anyRecord BurstRecord.leaving then .withhold
    else
      match s.tag t with
      | .opened _ => if close then .accept none false else .refuse .refusedNoRecord
      | _ => .refuse .refusedNoRecord

/-- A staged write that passes check 9 is decided by the records. -/
theorem State.decideWrite_eq_decideRecord {s : State} {t : Nat} (close : Bool) {m : Mode} (hg : s.GroupHasRoom t m)
    (hm : m ≠ .direct) : s.decideWrite t close m = s.decideRecord t close := by
  obtain ⟨n, ht, hroom⟩ | ⟨ht, hslot⟩ := hg
  case inl =>
    simp only [State.decideWrite, State.decideRecord, ht, Config.burstsPerGroup, Nat.not_le.mpr hroom, hm, if_false] <;> rfl
  case inr =>
    have hpass : ¬(m = .guarded ∧ s.freeSlotNo = none) := fun ⟨hguarded, hnone⟩ => by
      simpa [hnone] using hslot hguarded
    simp only [State.decideWrite, State.decideRecord, ht, hpass, hm, if_false] <;> rfl

/-- A FREE record is claimed (01 R6). -/
theorem State.decideRecord_claims {s : State} {r : Nat} (t : Nat) (close : Bool) (hr : s.freeRecordNo = some r) :
    s.decideRecord t close = .accept (some r) false := by
  simp [State.decideRecord, hr]

/-- Without a FREE record the answer is withheld while some record is CLOSED or APPLYING (01 R7). -/
theorem State.decideRecord_withholds {s : State} (t : Nat) (close : Bool) (hr : s.freeRecordNo = none)
    (hl : s.anyRecord BurstRecord.leaving = true) : s.decideRecord t close = .withhold := by
  simp [State.decideRecord, hr, hl]

/-- With no record to wait for, CLOSE of an OPEN group is accepted without a record (01 R8). -/
theorem State.decideRecord_closes {s : State} {t : Nat} {close : Bool} (hr : s.freeRecordNo = none)
    (hl : s.anyRecord BurstRecord.leaving = false) (hc : close = true ∧ ∃ n, s.tag t = .opened n) :
    s.decideRecord t close = .accept none false := by
  obtain ⟨rfl, n, ht⟩ := hc
  simp [State.decideRecord, hr, hl, ht]

/-- Any other write with no record to wait for is refused. -/
theorem State.decideRecord_noRecord {s : State} {t : Nat} {close : Bool} (hr : s.freeRecordNo = none)
    (hl : s.anyRecord BurstRecord.leaving = false) (hc : ¬(close = true ∧ ∃ n, s.tag t = .opened n)) :
    s.decideRecord t close = .refuse .refusedNoRecord := by
  cases ht : s.tag t with
  | opened n =>
    have hopen : close = false := Bool.eq_false_iff.mpr fun hclose => hc ⟨hclose, n, ht⟩
    simp [State.decideRecord, hr, hl, ht, hopen]
  | free | fencedSlot n | fencedNumber n => simp [State.decideRecord, hr, hl, ht]

/-! ### The decision -/

/-- A staged write that check 9 lets pass is decided by the records: tag 0 into CHECKED memory, or GUARDED memory with a slot or a member
left for it. -/
theorem State.ReachesModeCheck.staged {s : State} (h : s.ReachesModeCheck)
    (hg : (s.modeAt s.link.start = .checked ∧ s.link.tag = 0) ∨
      (s.modeAt s.link.start = .guarded ∧ s.tag s.link.tag = .free ∧ s.freeSlotNo.isSome = true) ∨
      (s.modeAt s.link.start = .guarded ∧ ∃ n, s.tag s.link.tag = .opened n ∧ (s.slot n).members.length < 28)) :
    s.decideOpening = s.decideRecord s.link.tag s.link.close := by
  obtain ⟨hm, ht⟩ | ⟨hm, ht, hslot⟩ | ⟨hm, hopen⟩ := hg
  · rw [h.tagZero (by simp [hm]) ht, hm]
    exact decideWrite_eq_decideRecord _ (.inr ⟨tag_zero_free ht, nofun⟩) nofun
  · rw [h.guarded hm]
    exact decideWrite_eq_decideRecord _ (.inr ⟨ht, fun _ => hslot⟩) nofun
  · rw [h.guarded hm]
    exact decideWrite_eq_decideRecord _ (.inl hopen) nofun

/-- Settles O6: each clause is the lemma of its check, on an opening that the checks before it let pass. -/
theorem openingChecksInOrder : Obligations.OpeningChecksInOrder := by
  intro s
  refine ⟨State.decideOpening_formatFault, fun hf => ⟨State.decideOpening_fenced hf, fun ht =>
    ⟨State.decideOpening_attr hf ht, fun ha => ?_⟩⟩⟩
  have hstate : s.ReachesStateCheck := ⟨hf, ht, ha⟩
  refine ⟨fun h => hstate.refused (stateRefusal_notReady h), fun h => hstate.refused (stateRefusal_draining h),
    fun h => hstate.refused (stateRefusal_stopped h), fun hop => ?_⟩
  have hrange : s.ReachesRangeCheck := ⟨hstate, stateRefusal_none hop⟩
  refine ⟨hrange.beyond, hrange.read, fun hr hw => ?_⟩
  have hmode : s.ReachesModeCheck := ⟨hrange, hr, hw⟩
  refine ⟨hmode.readOnly, hmode.wrongMode, fun hm ht0 => ?direct, fun n hm hn hfull => ?full, fun hm hfree hno => ?noSlot,
    fun hg => ?staged⟩
  case direct =>
    rw [hmode.tagZero (by simp [hm]) ht0, hm]
    exact State.decideWrite_direct _ (State.tag_zero_free ht0)
  case full => exact (hmode.guarded hm).trans (State.decideWrite_full _ _ hn hfull)
  case noSlot => exact (hmode.guarded hm).trans (State.decideWrite_noSlot _ hfree hno)
  case staged =>
    rw [hmode.staged hg]
    exact ⟨fun _ => State.decideRecord_claims _ _, fun hr => ⟨State.decideRecord_withholds _ _ hr, fun hl =>
      ⟨State.decideRecord_closes hr hl, State.decideRecord_noRecord hr hl⟩⟩⟩

end Sys2Proof.Machine
end

