-- ==== Sys2Proof/Proofs/AttentionFrame.lean ====
section
/-! PROOF. What leaves the Attention Unit alone: the operations of the link, the engines, the Memory Port and the release change neither
the unit's own fields nor the ATTN fields of Control, except where a word, a completion or an event is observed (spec/09 R145 to R147). -/

namespace Sys2Proof.Machine

/-- All that decides whether the ATTN line is as 09 R147 says: ATTN_ON, ATTN_MODE and the Attention Unit. -/
def State.attnView (s : State) : Bool × AttnMode × Attn := (s.ctrl.attnOn, s.ctrl.attnMode, s.attn)

/-- R147 speaks of these values alone, so a line that is right stays right while they stay. -/
theorem State.attnOk_congr {s t : State} (h : t.attnView = s.attnView) (hs : s.attnOk) : t.attnOk := by
  obtain ⟨hon, hmode, hattn⟩ : t.ctrl.attnOn = s.ctrl.attnOn ∧ t.ctrl.attnMode = s.ctrl.attnMode ∧ t.attn = s.attn := by
    simpa [State.attnView] using h
  unfold State.attnOk
  rwa [hon, hmode, hattn]

/-! ### The updates of a block -/

@[simp] theorem State.setPending_attnView (s : State) (v : List Instr) : (s.setPending v).attnView = s.attnView := rfl
@[simp] theorem State.setPins_attnView (s : State) (v : Pins) : (s.setPins v).attnView = s.attnView := rfl
@[simp] theorem State.setLink_attnView (s : State) (v : Link) : (s.setLink v).attnView = s.attnView := rfl
@[simp] theorem State.setStaging_attnView (s : State) (v : Staging) : (s.setStaging v).attnView = s.attnView := rfl
@[simp] theorem State.setCommit_attnView (s : State) (v : CommitEngine) : (s.setCommit v).attnView = s.attnView := rfl
@[simp] theorem State.setApply_attnView (s : State) (v : ApplyEngine) : (s.setApply v).attnView = s.attnView := rfl
@[simp] theorem State.setJournal_attnView (s : State) (v : Journal) : (s.setJournal v).attnView = s.attnView := rfl
@[simp] theorem State.setReads_attnView (s : State) (v : Reads) : (s.setReads v).attnView = s.attnView := rfl
@[simp] theorem State.setPort_attnView (s : State) (v : Port) : (s.setPort v).attnView = s.attnView := rfl
@[simp] theorem State.setOut_attnView (s : State) (v : Outputs) : (s.setOut v).attnView = s.attnView := rfl

@[simp] theorem State.updSlot_attnView (s : State) (n : Nat) (f : GroupSlot → GroupSlot) : (s.updSlot n f).attnView = s.attnView := rfl
@[simp] theorem State.updSpan_attnView (s : State) (n : Nat) (f : SpanSlot → SpanSlot) : (s.updSpan n f).attnView = s.attnView := rfl
@[simp] theorem State.updFront_attnView (s : State) (f : CommitUnit → CommitUnit) : (s.updFront f).attnView = s.attnView := rfl

@[simp] theorem State.setTag_attnView (s : State) (t : Nat) (x : TagState) : (s.setTag t x).attnView = s.attnView := by
  rw [State.setTag_eq]
  rfl

/-! ### Idle timers and the receipt -/

@[simp] theorem State.startIdle_attnView (s : State) (t : Nat) : (s.startIdle t).attnView = s.attnView := by
  rw [State.startIdle_eq]
  rfl

@[simp] theorem State.stopIdle_attnView (s : State) (t : Nat) : (s.stopIdle t).attnView = s.attnView := by
  rw [State.stopIdle_eq]
  rfl

/-- The hold or release that falls due leaves the ATTN fields of Control. -/
theorem State.fallDue_attnView (s : State) : ((s.setLink {}).setCtrl s.ctrl.fallDue).attnView = s.attnView := rfl

/-- A receipt may start an idle timer and makes a hold or release fall due, neither of which the Attention Unit sees. -/
@[simp] theorem State.driveReceipt_attnView (s : State) (v : Verdict) (c : Bool) : (s.driveReceipt v c).attnView = s.attnView := by
  unfold State.driveReceipt
  dsimp only
  rw [State.fallDue_attnView]
  split <;> simp

/-! ### Stops and the end of a data phase -/

@[simp] theorem State.endData_attnView (s : State) : s.endData.attnView = s.attnView := by
  rw [State.endData_eq]
  rfl

@[simp] theorem State.bridgeStop_attnView (s : State) (pv : Option Verdict) (cut : Bool) :
    (s.bridgeStop pv cut).attnView = s.attnView := by
  rw [State.bridgeStop_eq]
  rfl

@[simp] theorem State.handCollecting_attnView (s : State) : s.handCollecting.attnView = s.attnView := by
  unfold State.handCollecting
  dsimp only
  split <;> rfl

@[simp] theorem State.enterChecking_attnView (s : State) : s.enterChecking.attnView = s.attnView := by
  unfold State.enterChecking
  dsimp only
  split <;> rfl

@[simp] theorem State.requestDue_attnView (s : State) : s.requestDue.attnView = s.attnView := by
  unfold State.requestDue
  split <;> simp

/-! ### The Read Path -/

@[simp] theorem State.issueSpan_attnView (s : State) : s.issueSpan.attnView = s.attnView := by
  unfold State.issueSpan
  dsimp only
  split
  case h_1 => rfl
  case h_2 n _ =>
    split
    · rfl
    · split <;> rfl

@[simp] theorem State.issueSpans_attnView (s : State) : s.issueSpans.attnView = s.attnView := by
  unfold State.issueSpans
  split <;> simp

@[simp] theorem State.hold_attnView (s : State) (c : HoldCause) : (s.hold c).attnView = s.attnView := rfl
@[simp] theorem State.unhold_attnView (s : State) : s.unhold.attnView = s.attnView := rfl

@[simp] theorem State.reachSpan_attnView (s : State) : s.reachSpan.attnView = s.attnView := by
  unfold State.reachSpan
  split
  case isTrue =>
    split
    case h_1 n _ =>
      split
      case h_2 => dsimp only; split <;> simp
      all_goals simp
    case h_2 => simp
  case isFalse => rfl

@[simp] theorem State.sendWord_attnView (s : State) (w : Word) : (s.sendWord w).attnView = s.attnView := rfl

@[simp] theorem State.afterWord_attnView (s : State) (n : Nat) : (s.afterWord n).attnView = s.attnView := by
  unfold State.afterWord
  split <;> simp

@[simp] theorem State.readCommon_attnView (s : State) : s.readCommon.attnView = s.attnView := by
  unfold State.readCommon
  split
  · split <;> simp
  · rfl

@[simp] theorem State.readWordOut_attnView (s : State) : s.readWordOut.attnView = s.attnView := by
  unfold State.readWordOut State.readAttr
  split
  · split
    · simp
    · split <;> simp
  · rfl

/-! ### The words of a write -/

@[simp] theorem State.claimRecord_attnView (s : State) (r : Nat) : (s.claimRecord r).attnView = s.attnView := rfl
@[simp] theorem State.holdWord_attnView (s : State) (c : HoldCause) (w : Word) : (s.holdWord c w).attnView = s.attnView := rfl

@[simp] theorem State.offerAttr_attnView (s : State) (w : Word) : (s.offerAttr w).attnView = s.attnView := by
  unfold State.offerAttr
  split <;> simp

@[simp] theorem State.offerDirect_attnView (s : State) (w : Word) : (s.offerDirect w).attnView = s.attnView := by
  unfold State.offerDirect
  dsimp only
  split
  · simp
  · split <;> simp

@[simp] theorem State.offerRecord_attnView (s : State) (r : Nat) (w : Word) : (s.offerRecord r w).attnView = s.attnView := by
  unfold State.offerRecord
  split
  · split <;> simp
  · simp

@[simp] theorem State.offerStaged_attnView (s : State) (w : Word) : (s.offerStaged w).attnView = s.attnView := by
  unfold State.offerStaged
  split
  case h_1 r _ => simp
  case h_2 =>
    split
    · simp
    · split <;> simp

/-- A presented word, whatever the kind of write. -/
@[simp] theorem State.offer_attnView (s : State) (w : Word) : (s.offer w).attnView = s.attnView := by
  unfold State.offer
  split_ifs <;> simp

@[simp] theorem State.strobe_attnView (s : State) (w : Word) : (s.strobe w).attnView = s.attnView := by
  unfold State.strobe
  split
  · split <;> simp
  · rfl

@[simp] theorem State.restoreReady_attnView (s : State) : s.restoreReady.attnView = s.attnView := by
  unfold State.restoreReady
  split
  case h_1 c _ =>
    split
    · split <;> simp
    · rfl
  case h_2 => rfl

/-! ### Pauses and stops by the master -/

@[simp] theorem State.masterPause_attnView (s : State) : s.masterPause.attnView = s.attnView := by
  unfold State.masterPause
  split
  · split <;> simp
  · rfl

@[simp] theorem State.acknowledge_attnView (s : State) : s.acknowledge.attnView = s.attnView := by
  unfold State.acknowledge
  split <;> simp

@[simp] theorem State.masterStop_attnView (s : State) : s.masterStop.attnView = s.attnView := by
  unfold State.masterStop
  split <;> simp

@[simp] theorem State.stallExpired_attnView (s : State) : s.stallExpired.attnView = s.attnView := by
  unfold State.stallExpired
  split_ifs <;> simp

/-! ### The answer to an opening -/

@[simp] theorem State.bindGroup_attnView (s : State) (t : Nat) (slot : Option Nat) : (s.bindGroup t slot).attnView = s.attnView := by
  unfold State.bindGroup
  split
  case h_2 => simp [State.openGroup]
  all_goals rfl

@[simp] theorem State.acceptWrite_attnView (s : State) (record : Option Nat) (fullClose : Bool) :
    (s.acceptWrite record fullClose).attnView = s.attnView := by
  unfold State.acceptWrite
  cases record <;> simp

@[simp] theorem State.acceptRead_attnView (s : State) : s.acceptRead.attnView = s.attnView := by
  simp [State.acceptRead]

@[simp] theorem State.acceptAttr_attnView (s : State) : s.acceptAttr.attnView = s.attnView := by
  unfold State.acceptAttr
  dsimp only
  split <;> rfl

@[simp] theorem State.accept_attnView (s : State) (record : Option Nat) (fullClose : Bool) :
    (s.accept record fullClose).attnView = s.attnView := by
  unfold State.accept
  dsimp only
  split
  · simp
  · split <;> simp

/-- A refusal reports GROUP_REJECTED alone, and only where it rejects an OPEN group of its tag (02 R27). -/
theorem State.refuse_attnView {s : State} {v : Verdict} (h : s.link.tag = 0 ∨ v.rejects s.link.commonWrite = false) :
    (s.refuse v).attnView = s.attnView := by
  unfold State.refuse
  dsimp only
  split
  case h_1 n hn =>
    obtain htag | hv := h
    · have not_opened : s.tag s.link.tag = .free := State.tag_zero_free htag
      exact absurd (not_opened.symm.trans hn) nofun
    · rw [if_neg (by simp [hv])]
      simp
  case h_2 => simp

/-- A held answer rejects no group: its only refusal is REFUSED_STOPPED. -/
@[simp] theorem State.answerWithheld_attnView (s : State) : s.answerWithheld.attnView = s.attnView := by
  unfold State.answerWithheld
  split
  case isTrue =>
    split
    case isTrue => exact State.refuse_attnView (.inr (by cases s.link.commonWrite <;> rfl))
    case isFalse => split <;> simp
  case isFalse => rfl

@[simp] theorem State.wordOneTaken_attnView (s : State) (w : Word) : (s.wordOneTaken w).attnView = s.attnView := by
  simp [State.wordOneTaken]

/-- Header word 1 leaves the tag, which header word 0 gives. -/
theorem State.wordOneTaken_tag (s : State) (w : Word) : (s.wordOneTaken w).link.tag = s.link.tag := by
  unfold State.wordOneTaken
  dsimp only
  rw [State.stopIdle_eq]
  rfl

/-- An opening with tag 0 rejects no group, whatever its answer. -/
theorem State.takeOpening_attnView {s : State} (w : Word) (h : s.link.tag = 0) : (s.takeOpening w).attnView = s.attnView := by
  unfold State.takeOpening
  split
  case isTrue =>
    cases (s.wordOneTaken w).decideOpening with
    | refuse v => exact (State.refuse_attnView (.inl ((s.wordOneTaken_tag w).trans h))).trans (s.wordOneTaken_attnView w)
    | withhold | accept r f => simp [State.answer]
  case isFalse => rfl

/-! ### The engines and the arbiter -/

@[simp] theorem State.commitTake_attnView (s : State) : s.commitTake.attnView = s.attnView := by
  unfold State.commitTake
  split
  · split <;> simp
  · rfl

@[simp] theorem State.startMember_attnView (s : State) (u : CommitUnit) (i : Nat) : (s.startMember u i).attnView = s.attnView := rfl

@[simp] theorem State.applyTake_attnView (s : State) : s.applyTake.attnView = s.attnView := by
  unfold State.applyTake
  split
  · split
    · split <;> simp
    · rfl
  · rfl

@[simp] theorem State.issue_attnView (s : State) (r : Requester) (q : Request) (role : Role) :
    (s.issue r q role).attnView = s.attnView := rfl

/-- A grant, whichever requester it goes to. -/
@[simp] theorem State.grantTo_attnView (s : State) (r : Requester) : (s.grantTo r).attnView = s.attnView := by
  cases r with
  | read =>
    simp only [State.grantTo, State.grantRead]
    split <;> simp
  | direct =>
    simp only [State.grantTo, State.grantDirect]
    split
    · split <;> simp
    · rfl
  | commit =>
    simp only [State.grantTo, State.grantCommit]
    split
    · split <;> simp
    · rfl
  | anchor =>
    simp only [State.grantTo, State.grantAnchor]
    split <;> simp
  | apply =>
    simp only [State.grantTo, State.grantApply]
    split <;> simp
  | recovery =>
    simp only [State.grantTo, State.grantRecovery]
    split <;> simp

@[simp] theorem State.arbitrate_attnView (s : State) : s.arbitrate.attnView = s.attnView := by
  unfold State.arbitrate
  split
  · split <;> simp
  · rfl

/-! ### A release -/

@[simp] theorem State.release_attnView (s : State) (cap jrn : BitVec 2) : (s.release cap jrn).attnView = s.attnView := by
  unfold State.release
  dsimp only
  split <;> rfl

@[simp] theorem State.takeRelease_attnView (s : State) (cap jrn : BitVec 2) : (s.takeRelease cap jrn).attnView = s.attnView := by
  unfold State.takeRelease
  split <;> simp

end Sys2Proof.Machine
end

