-- ==== Sys2Proof/Proofs/Attention.lean ====
section
/-! PROOF. Every step keeps the ATTN line as spec/09 R147 says: a step either passes through the Attention Unit, which decides the line
anew, or resets the unit with its Control fields, or leaves both alone. -/

namespace Sys2Proof.Machine

/-! ### The three ways in which the line stays right -/

/-- The Attention Unit decides the line anew, whatever the event did. -/
theorem observe_attnOk (f : State → State) (s : State) : (observe f s).attnOk := State.settleAttn_attnOk s (f s)

/-- A reset deasserts ATTN and clears ATTN_ON. -/
theorem State.resetBlocks_attnOk (s : State) (op : OpState) (hold : Bool) : (s.resetBlocks (Ctrl.init op hold)).attnOk :=
  ⟨fun _ => rfl, nofun⟩

/-- Deasserting ATTN in pulse mode leaves nothing for R147 to say. -/
theorem State.deassert_attnOk {s : State} (h : s.ctrl.attnMode = .pulse) : (s.setAttn { s.attn with line := false }).attnOk :=
  ⟨fun _ => rfl, fun _ hlevel => nomatch h.symm.trans hlevel⟩

/-! ### Holds, releases and header word 0 -/

theorem State.takeHold_attnOk {s : State} (h : s.attnOk) : s.takeHold.attnOk := by
  unfold State.takeHold
  split
  · exact s.resetBlocks_attnOk _ _
  · exact h

theorem State.takeRelease_attnOk {s : State} (cap jrn : BitVec 2) (h : s.attnOk) : (s.takeRelease cap jrn).attnOk :=
  State.attnOk_congr (s.takeRelease_attnView cap jrn) h

theorem State.settleDue_attnOk {s : State} (h : s.attnOk) : s.settleDue.attnOk :=
  State.takeRelease_attnOk _ _ (State.takeHold_attnOk h)

theorem State.takeHeader_attnOk {s : State} (w : Word) (h : s.attnOk) : (s.takeHeader w).attnOk := by
  unfold State.takeHeader
  split
  · exact State.attnOk_congr (State.setLink_attnView _ _) (State.settleDue_attnOk h)
  · exact h

/-- Header word 0, once taken, gives the tag. -/
theorem State.takeHeader_tag {s : State} (w : Word) (hr : s.pins.resetN = true) (hi : s.link.st = .idle) :
    (s.takeHeader w).link.tag = hdrTag w := by
  unfold State.takeHeader
  rw [if_pos ⟨hr, hi⟩]
  rfl

/-! ### The end of a burst -/

/-- The words of an attribute write: the Attention Unit decides the line after each of them. -/
theorem State.applyWords_attnOk {s : State} (o : Nat) (ws : List Word) (h : s.attnOk) : (s.applyWords o ws).attnOk := by
  induction ws generalizing s o with
  | nil => exact h
  | cons w ws ih =>
    have applied : (s.applyWord o w).attnOk := observe_attnOk _ s
    cases ws with
    | nil => exact applied
    | cons v ws =>
      have followed : ((s.applyWord o w).followUp o).attnOk := by
        unfold State.followUp
        split
        · exact observe_attnOk _ _
        · exact applied
      rw [State.applyWords_cons]
      exact ih _ followed

theorem State.driveReceipt_attnOk {s : State} (v : Verdict) (c : Bool) (h : s.attnOk) : (s.driveReceipt v c).attnOk :=
  State.attnOk_congr (s.driveReceipt_attnView v c) h

theorem State.finishWrite_attnOk {s : State} (v : Verdict) (h : s.attnOk) : (s.finishWrite v).attnOk := by
  unfold State.finishWrite
  split
  case isTrue =>
    split
    · exact State.driveReceipt_attnOk _ _ (State.applyWords_attnOk _ _ h)
    · exact observe_attnOk _ s
  case isFalse => exact observe_attnOk _ s

theorem State.takeCheck_attnOk {s : State} (w : Word) (h : s.attnOk) : (s.takeCheck w).attnOk := by
  unfold State.takeCheck
  dsimp only
  split
  case isTrue =>
    split
    · exact observe_attnOk _ s
    · exact State.finishWrite_attnOk _ h
  case isFalse => exact h

theorem State.takeReply_attnOk {s : State} (w : Word) (h : s.attnOk) : (s.takeReply w).attnOk := by
  unfold State.takeReply
  split
  · exact observe_attnOk _ s
  · exact h

theorem State.handshakeExpired_attnOk {s : State} (h : s.attnOk) : s.handshakeExpired.attnOk := by
  unfold State.handshakeExpired
  dsimp only
  split
  case isTrue =>
    split
    · exact observe_attnOk _ s
    · split
      · exact observe_attnOk _ s
      · exact State.driveReceipt_attnOk _ _ h
  case isFalse => exact h

/-- The burst of one attribute word: its opening has tag 0 and so rejects no group, and its word is observed when the check word is
taken. -/
theorem State.attrWrite_attnOk {s : State} (o : Nat) (w : Word) (h : s.attnOk) : (s.attrWrite o w).attnOk := by
  unfold State.attrWrite
  split
  case isTrue hsent =>
    have tag_zero : (s.takeHeader attrHeader).link.tag = 0 := State.takeHeader_tag attrHeader hsent.1 hsent.2
    refine State.takeCheck_attnOk _ (State.attnOk_congr ?_ (State.takeHeader_attnOk attrHeader h))
    rw [State.masterStop_attnView, State.strobe_attnView, State.takeOpening_attnView _ tag_zero]
  case isFalse => exact h

/-! ### The commands -/

/-- Whatever next state an outcome holds, its ATTN line is as R147 says. -/
def AttnOkAfter (o : Host.Outcome State Fault Refusal) : Prop := ∀ t, o = .next t → t.attnOk

theorem AttnOkAfter.next {t : State} (h : t.attnOk) : AttnOkAfter (.next t) := fun _ e => Host.Outcome.next.inj e ▸ h

theorem AttnOkAfter.fault (r : Fault) : AttnOkAfter (.fault r) := fun _ e => nomatch e

/-- A command that leaves the Attention Unit and the ATTN fields of Control alone. -/
theorem AttnOkAfter.frame {s t : State} (h : s.attnOk) (e : t.attnView = s.attnView) : AttnOkAfter (.next t) :=
  .next (State.attnOk_congr e h)

/-- A command that is one observed event. -/
theorem AttnOkAfter.observed (f : State → State) (s : State) : AttnOkAfter (.next (observe f s)) := .next (observe_attnOk f s)

/-- A completion is observed, or answers no request. -/
theorem State.withHead_attnOkAfter (s : State) (p : Outstanding → Bool) (k : Outstanding → State → State) :
    AttnOkAfter (s.withHead p k) := by
  unfold State.withHead
  split
  case h_1 o rest _ =>
    split
    · exact .observed _ s
    · exact .fault _
  case h_2 => exact .fault _

theorem State.writeCompletion_attnOkAfter (s : State) (r : Role) (st : Status) (done lost : State → State) :
    AttnOkAfter (s.writeCompletion r st done lost) := s.withHead_attnOkAfter _ _

theorem State.readCompletion_attnOkAfter (s : State) (r : Role) (c : Completion) (done : List Word → State → State) :
    AttnOkAfter (s.readCompletion r c done) := s.withHead_attnOkAfter _ _

theorem execReadSpanCompletion_attnOkAfter (s : State) (c : Completion) : AttnOkAfter (execReadSpanCompletion c s) :=
  s.withHead_attnOkAfter _ _

theorem execDiscardedCompletion_attnOkAfter {s : State} (c : Completion) (h : s.attnOk) :
    AttnOkAfter (execDiscardedCompletion c s) := by
  unfold execDiscardedCompletion
  split
  case h_1 o rest _ =>
    split
    · exact .frame h (s.setPort_attnView _)
    · exact .fault _
  case h_2 => exact .fault _

theorem execHold_attnOkAfter {s : State} (w : Word) (h : s.attnOk) : AttnOkAfter (execHold w s) := by
  refine .next ?_
  split
  · exact State.takeHold_attnOk h
  · exact State.takeHold_attnOk (State.attrWrite_attnOk _ w h)

theorem execHoldRelease_attnOkAfter {s : State} (w : Word) (cap jrn : BitVec 2) (h : s.attnOk) :
    AttnOkAfter (execHoldRelease w cap jrn s) := by
  refine .next ?_
  split
  · exact State.takeRelease_attnOk cap jrn h
  · exact State.takeRelease_attnOk cap jrn (State.attrWrite_attnOk _ w h)

theorem execResetRelease_attnOkAfter {s : State} (cap jrn : BitVec 2) (h : s.attnOk) : AttnOkAfter (execResetRelease cap jrn s) := by
  refine .frame h ?_
  split
  · rfl
  · rw [State.release_attnView, State.setPins_attnView]

theorem execAttnPulseEnd_attnOkAfter {s : State} (h : s.attnOk) : AttnOkAfter (execAttnPulseEnd s) := by
  refine .next ?_
  split
  case isTrue hpulse => exact State.deassert_attnOk hpulse.2
  case isFalse => exact h

/-- Every command, in the groups of the three ways above: those that leave the unit alone, those that are one observed event, the bursts
of one attribute word, and the few that do one or the other. -/
theorem exec_attnOkAfter (i : Instr) {s : State} (h : s.attnOk) : AttnOkAfter (exec i s) := by
  cases i with
  | withheldAnswer => exact .frame h s.answerWithheld_attnView
  | writeDataWord w => exact .frame h (s.strobe_attnView w)
  | restoreReady => exact .frame h s.restoreReady_attnView
  | readDataWord => exact .frame h s.readWordOut_attnView
  | masterPause => exact .frame h (s.requestDue.masterPause_attnView.trans s.requestDue_attnView)
  | masterStop => exact .frame h s.masterStop_attnView
  | masterAcknowledge => exact .frame h (s.requestDue.acknowledge_attnView.trans s.requestDue_attnView)
  | stallTimerExpiry => exact .frame h s.stallExpired_attnView
  | commitTakeUnit => exact .frame h s.commitTake_attnView
  | applyTakeUnit => exact .frame h s.applyTake_attnView
  | arbiterGrant => exact .frame h s.arbitrate_attnView
  | discardedCompletion c => exact execDiscardedCompletion_attnOkAfter c h
  | opening | groupIdleExpiry | drainComplete | outcomePost | blockGrant | pwarnAssert | pwarnDeassert => exact .observed _ s
  | skipCompletion st | commitRequestCompletion st | markCompletion st | applyCompletion st | anchorCompletion st
  | directSpanCompletion st | recoveryReplayWriteCompletion st | recoveryAnchorWriteCompletion st =>
    exact s.writeCompletion_attnOkAfter _ st _ _
  | recoveryAnchorReadCompletion c | recoveryReadCompletion c => exact s.readCompletion_attnOkAfter _ c _
  | readSpanCompletion c => exact execReadSpanCompletion_attnOkAfter s c
  | attributeWordWrite _ w | arm w | drain w | defaultModeWrite w | attnControlWrite w | limitWrite _ w | regionTableWrite _ w
  | changedFlagsWrite w | attentionEnableWrite w | outcomeAck w => exact .next (State.attrWrite_attnOk _ w h)
  | hold w => exact execHold_attnOkAfter w h
  | holdRelease w cap jrn => exact execHoldRelease_attnOkAfter w cap jrn h
  | headerWord0 w => exact .next (State.takeHeader_attnOk w h)
  | checkWord w => exact .next (State.takeCheck_attnOk w h)
  | checkReply w => exact .next (State.takeReply_attnOk w h)
  | handshakeTimerExpiry => exact .next (State.handshakeExpired_attnOk (State.attnOk_congr s.requestDue_attnView h))
  | hardReset => exact .next (s.resetBlocks_attnOk _ _)
  | resetRelease cap jrn => exact execResetRelease_attnOkAfter cap jrn h
  | attnPulseEnd => exact execAttnPulseEnd_attnOkAfter h

/-- Settles O59: an empty queue idles, and the front command keeps the line by `exec_attnOkAfter`; taking it from the queue has no part in
R147. -/
theorem attnKept : Obligations.AttnKept := by
  intro s t hs hstep
  unfold step at hstep
  split at hstep
  case h_1 => exact AttnOkAfter.next hs t hstep
  case h_2 i rest _ => exact exec_attnOkAfter i (State.attnOk_congr (s.setPending_attnView rest) hs) t hstep

end Sys2Proof.Machine
end

