-- ==== Sys2Proof/Proofs/Kept.lean ====
section
/-! PROOF. What every operation of the bridge keeps: the queue of commands, the Staging Buffer's store and chunks, the sizes of the tables,
the bounds of the lists and the ranges of the limits. Most operations touch none of what these rest on (`State.keptView`). -/

namespace Sys2Proof.Machine

/-- The queue of commands stays, and each of the invariants of storage and of counting survives from s to t. -/
structure State.Kept (s t : State) : Prop where
  pending : t.pending = s.pending
  store : s.storeOk → t.storeOk
  chunks : s.chunksOk → t.chunksOk
  tables : s.tablesOk → t.tablesOk
  bounds : s.boundsOk → t.boundsOk
  limits : s.limitsOk → t.limitsOk

@[simp] theorem State.Kept.refl (s : State) : s.Kept s := ⟨rfl, id, id, id, id, id⟩

theorem State.Kept.trans {a b c : State} (h : a.Kept b) (k : b.Kept c) : a.Kept c :=
  ⟨k.pending.trans h.pending, k.store ∘ h.store, k.chunks ∘ h.chunks, k.tables ∘ h.tables, k.bounds ∘ h.bounds, k.limits ∘ h.limits⟩

/-- All that the kept invariants speak of: the tables by their sizes alone. -/
structure KeptView where
  pending : List Instr
  staging : Staging
  slots : Nat
  tags : Nat
  spans : Nat
  regions : Nat
  outstanding : List Outstanding
  outcomes : List OutcomeRecord
  limits : Nat × Nat × Nat
  fault : Option FaultRecord

def State.keptView (s : State) : KeptView :=
  { pending := s.pending, staging := s.staging, slots := s.groups.slots.length, tags := s.groups.tags.length
    spans := s.reads.slots.length, regions := s.region.entries.length, outstanding := s.port.outstanding
    outcomes := s.outcomes.queue, limits := (s.ctrl.stallLimit, s.ctrl.handshakeLimit, s.ctrl.idleLimit), fault := s.ctrl.fault }

/-- An operation that leaves all of this keeps every invariant. -/
theorem State.Kept.of_view {s t : State} (h : t.keptView = s.keptView) : s.Kept t := by
  simp only [State.keptView, KeptView.mk.injEq, Prod.mk.injEq] at h
  obtain ⟨hp, hg, hs, ht, hr, he, ho, hq, ⟨h1, h2, h3⟩, hf⟩ := h
  refine ⟨hp, ?_, ?_, ?_, ?_, ?_⟩
  · rw [State.storeOk, State.storeOk, hg]; exact id
  · rw [State.chunksOk, State.chunksOk, hg]; exact id
  · rw [State.tablesOk, State.tablesOk, hg, hs, ht, hr, he]; exact id
  · rw [State.boundsOk, State.boundsOk, ho, hq]; exact id
  · rw [State.limitsOk, State.limitsOk, h1, h2, h3, hf]; exact id

/-- What is kept depends on the view of the state reached alone. -/
theorem State.kept_congr {s t u : State} (h : u.keptView = t.keptView) : s.Kept u ↔ s.Kept t :=
  ⟨fun k => k.trans (.of_view h.symm), fun k => k.trans (.of_view h)⟩

/-- A further operation that leaves the view as it is. -/
theorem State.Kept.view {s a t : State} (h : s.Kept a) (e : t.keptView = a.keptView) : s.Kept t := (State.kept_congr e).mpr h

/-! ### The updates of a block -/

@[simp] theorem State.kept_setPins {s a : State} (v : Pins) : s.Kept (a.setPins v) ↔ s.Kept a := State.kept_congr rfl
@[simp] theorem State.kept_setStraps {s a : State} (v : Straps) : s.Kept (a.setStraps v) ↔ s.Kept a := State.kept_congr rfl
@[simp] theorem State.kept_setLink {s a : State} (v : Link) : s.Kept (a.setLink v) ↔ s.Kept a := State.kept_congr rfl
@[simp] theorem State.kept_setQueue {s a : State} (v : List CommitUnit) : s.Kept (a.setQueue v) ↔ s.Kept a := State.kept_congr rfl
@[simp] theorem State.kept_setCommit {s a : State} (v : CommitEngine) : s.Kept (a.setCommit v) ↔ s.Kept a := State.kept_congr rfl
@[simp] theorem State.kept_setApply {s a : State} (v : ApplyEngine) : s.Kept (a.setApply v) ↔ s.Kept a := State.kept_congr rfl
@[simp] theorem State.kept_setJournal {s a : State} (v : Journal) : s.Kept (a.setJournal v) ↔ s.Kept a := State.kept_congr rfl
@[simp] theorem State.kept_setOverlay {s a : State} (v : List OverlayEntry) : s.Kept (a.setOverlay v) ↔ s.Kept a :=
  State.kept_congr rfl
@[simp] theorem State.kept_setAttn {s a : State} (v : Attn) : s.Kept (a.setAttn v) ↔ s.Kept a := State.kept_congr rfl
@[simp] theorem State.kept_setRecovery {s a : State} (v : Recovery) : s.Kept (a.setRecovery v) ↔ s.Kept a := State.kept_congr rfl
@[simp] theorem State.kept_setOut {s a : State} (v : Outputs) : s.Kept (a.setOut v) ↔ s.Kept a := State.kept_congr rfl

/-- The outcomes changed with a queue no longer than before. -/
theorem State.Kept.setOutcomes {s a : State} {v : Outcomes} (h : s.Kept a)
    (hv : v.queue.length ≤ a.outcomes.queue.length ∨ v.queue.length ≤ Config.outcomeDepth) : s.Kept (a.setOutcomes v) := by
  refine h.trans ⟨rfl, id, id, id, fun ⟨h1, h2, h3⟩ => ⟨h1, h2, ?_⟩, id⟩
  exact hv.elim (fun hv => hv.trans h3) id

/-- The Staging Buffer changed by an operation that keeps its store and its chunks. -/
theorem State.Kept.setStaging {s a : State} {g : Staging} (h : s.Kept a) (hg : Staging.Kept a.staging g) :
    s.Kept (a.setStaging g) := by
  refine h.trans ⟨rfl, hg.store, fun ⟨hp, hf⟩ => ?_, fun ⟨h1, h2⟩ => ⟨hg.records.trans h1, h2⟩, id, id⟩
  obtain ⟨kp, kf⟩ := hg.chunks hf
  exact ⟨kp.trans hp, kf⟩

/-- The oldest outstanding request removed. -/
theorem State.Kept.dropOldest {s : State} {o : Outstanding} {rest : List Outstanding} (h : s.port.outstanding = o :: rest) :
    s.Kept (s.setPort { s.port with outstanding := rest }) := by
  refine ⟨rfl, id, id, id, fun ⟨h1, h2, h3⟩ => ⟨?_, ?_, h3⟩, id⟩
  · rw [h] at h1
    exact (Nat.le_succ _).trans h1
  · refine le_trans (List.Sublist.length_le (List.Sublist.filter _ ?_)) h2
    rw [h]
    exact List.sublist_cons_self o rest

@[simp] theorem State.kept_updFront {s a : State} (f : CommitUnit → CommitUnit) : s.Kept (a.updFront f) ↔ s.Kept a := by
  simp [State.updFront]

@[simp] theorem State.kept_updUnit {s a : State} (c : Word) (f : CommitUnit → CommitUnit) : s.Kept (a.updUnit c f) ↔ s.Kept a := by
  simp [State.updUnit]

@[simp] theorem State.kept_dropUnit {s a : State} (c : Word) : s.Kept (a.dropUnit c) ↔ s.Kept a := by simp [State.dropUnit]

@[simp] theorem State.kept_updSlot {s a : State} (n : Nat) (f : GroupSlot → GroupSlot) : s.Kept (a.updSlot n f) ↔ s.Kept a :=
  State.kept_congr (by simp [State.keptView, State.updSlot])

@[simp] theorem State.kept_updSpan {s a : State} (n : Nat) (f : SpanSlot → SpanSlot) : s.Kept (a.updSpan n f) ↔ s.Kept a :=
  State.kept_congr (by simp [State.keptView, State.updSpan])

@[simp] theorem State.kept_setTag {s a : State} (t : Nat) (x : TagState) : s.Kept (a.setTag t x) ↔ s.Kept a := by
  refine State.kept_congr ?_
  unfold State.setTag
  split <;> simp [State.keptView]

@[simp] theorem State.kept_report {s a : State} (e : Event) : s.Kept (a.report e) ↔ s.Kept a := by
  unfold State.report
  split <;> simp

@[simp] theorem State.kept_reportIf {s a : State} (b : Bool) (e : Event) : s.Kept (a.reportIf b e) ↔ s.Kept a := by
  unfold State.reportIf
  split <;> simp

@[simp] theorem State.kept_settleAttn {s a b : State} : s.Kept (State.settleAttn a b) ↔ s.Kept b := State.kept_congr rfl

@[simp] theorem State.kept_noteChanges {s a : State} (c : BitVec 16) : s.Kept (a.noteChanges c) ↔ s.Kept a := State.kept_congr rfl

@[simp] theorem State.kept_ready {s a : State} (o : ReadyOutcome) : s.Kept (a.ready o) ↔ s.Kept a := State.kept_congr rfl

@[simp] theorem State.kept_updSummary {s a : State} (f : Summary → Summary) : s.Kept (a.updSummary f) ↔ s.Kept a :=
  State.kept_congr rfl

@[simp] theorem State.kept_recPresent {s a : State} (q : Request) (role : Role) (r : Recovery) :
    s.Kept (a.recPresent q role r) ↔ s.Kept a := State.kept_congr rfl

@[simp] theorem State.kept_startIdle {s a : State} (t : Nat) : s.Kept (a.startIdle t) ↔ s.Kept a := by
  unfold State.startIdle
  split <;> simp

@[simp] theorem State.kept_stopIdle {s a : State} (t : Nat) : s.Kept (a.stopIdle t) ↔ s.Kept a := by
  unfold State.stopIdle
  split <;> simp

/-! ### Records and groups (01, 02) -/

theorem State.freeRecord_kept (s : State) (r : Nat) : s.Kept (s.freeRecord r) := (State.Kept.refl s).setStaging (Staging.free_kept _ r)

theorem State.freeRecords_kept (s : State) (rs : List Nat) : s.Kept (s.freeRecords rs) :=
  (State.Kept.refl s).setStaging (Staging.freeAll_kept _ rs)

theorem State.freeOptRecord_kept (s : State) (r : Option Nat) : s.Kept (s.freeOptRecord r) := by
  cases r with
  | none => exact .refl s
  | some r => exact s.freeRecord_kept r

theorem State.joinGroup_kept (s : State) (n r words : Nat) : s.Kept (s.joinGroup n r words) := by
  simpa [State.joinGroup] using (State.Kept.refl s).setStaging (s.staging.move_kept r .held nofun)

theorem State.closeUnit_kept (s : State) (o : Owner) (ms : List Nat) : s.Kept (s.closeUnit o ms) := by
  have closed := (State.Kept.refl s).setStaging (s.staging.closeAll_kept ms s.groups.closeCounter)
  exact closed.view rfl

theorem State.closeGroup_kept (s : State) (n : Nat) : s.Kept (s.closeGroup n) := by
  simpa [State.closeGroup] using s.closeUnit_kept _ _

theorem State.closeEmpty_kept (s : State) (n : Nat) : s.Kept (s.closeEmpty n) := by simp [State.closeEmpty]

theorem State.rejectGroup_kept (s : State) (n : Nat) (e : FirstError) : s.Kept (s.rejectGroup n e) := by
  simpa [State.rejectGroup] using s.freeRecords_kept _

theorem State.rejectOpen_kept (s : State) (c : Cause) (spared : Option Nat) : s.Kept (s.rejectOpen c spared) := by
  unfold State.rejectOpen
  generalize List.range Config.slots = ns
  induction ns generalizing s with
  | nil => exact .refl s
  | cons n ns ih =>
    have first : s.Kept (s.rejectIfOpen c spared n) := by
      unfold State.rejectIfOpen
      split
      · exact s.rejectGroup_kept n _
      · exact .refl s
    exact first.trans (ih _)

/-! ### Outcomes and the drain (09, 10) -/

theorem State.post_kept (s : State) : s.Kept s.post := by
  unfold State.post
  split
  case h_1 => exact .refl s
  case h_2 o rest _ =>
    split
    case isTrue room =>
      unfold State.numberFence
      dsimp only
      have posted : s.Kept (s.setOutcomes
          { queue := s.outcomes.queue ++ [{ number := s.outcomes.counter, outcome := o }], pendPost := rest
            counter := s.outcomes.counter + 1 }) :=
        (State.Kept.refl s).setOutcomes (.inr (by simpa using room))
      split <;> simpa using posted
    case isFalse => exact .refl s

theorem State.drainComplete_kept (s : State) : s.Kept s.drainComplete := by
  unfold State.drainComplete
  split
  · exact (State.kept_report _).mpr (.of_view rfl)
  · exact .refl s

theorem observe_kept {f : State → State} {s : State} (h : s.Kept (f s)) : s.Kept (observe f s) := by
  simpa [observe_eq] using h

theorem State.postAll_kept (s : State) : s.Kept s.postAll := by
  unfold State.postAll
  generalize s.outcomes.pendPost = os
  induction os generalizing s with
  | nil => exact .refl s
  | cons o os ih => exact (observe_kept s.post_kept).trans (ih _)

theorem State.followUp_kept (s : State) (o : Nat) : s.Kept (s.followUp o) := by
  unfold State.followUp
  split
  · exact s.postAll_kept.trans (observe_kept (State.drainComplete_kept _))
  · exact .refl s

/-! ### Attribute words (10 R153 to R157, 06 R97, 09 R140, R146) -/

@[simp] theorem State.kept_refuseWord {s a : State} (c : ConfigCode) : s.Kept (a.refuseWord c) ↔ s.Kept a :=
  (State.kept_report _).trans (State.kept_congr rfl)

theorem State.arm_kept (s : State) : s.Kept s.arm := .of_view rfl

theorem State.drain_kept (s : State) : s.Kept s.drain := by
  refine State.Kept.trans ?_ (State.rejectOpen_kept _ .drained none)
  exact .of_view rfl

theorem State.applyControl_kept (s : State) (w : Word) : s.Kept (s.applyControl w) := by
  unfold State.applyControl
  split
  case h_1 => simp
  case h_2 =>
    have written : s.Kept (s.writeControl w) := by
      unfold State.writeControl
      dsimp only
      split <;> exact .of_view rfl
    dsimp only
    split
    · exact written.trans (State.arm_kept _)
    · split
      · exact written.trans (State.drain_kept _)
      · exact written

/-- A field of a word is less than its power of two. -/
theorem fieldOf_lt (w : Word) (lo n : Nat) : fieldOf w lo n < 2 ^ n := (w.extractLsb' lo n).isLt

theorem State.applyLimit_kept (s : State) (which : LimitName) (w : Word) : s.Kept (s.applyLimit which w) := by
  have ten := fieldOf_lt w 0 10
  have sixteen := fieldOf_lt w 0 16
  unfold State.applyLimit
  split
  · exact .refl s
  · cases which with
    | stall | handshake =>
      dsimp only
      split
      · simp
      · refine ⟨rfl, id, id, id, id, fun ⟨h1, h2, h3, h4⟩ => ?_⟩
        simp only [State.limitsOk, State.setCtrl]
        exact ⟨by omega, by omega, h3, h4⟩
    | groupIdle =>
      refine ⟨rfl, id, id, id, id, fun ⟨h1, h2, h3, h4⟩ => ?_⟩
      simp only [State.limitsOk, State.setCtrl]
      exact ⟨h1, h2, by omega, h4⟩

theorem State.applyTable_kept (s : State) (i : Nat) (w : Word) : s.Kept (s.applyTable i w) := by
  unfold State.applyTable
  split
  · exact .of_view (by simp [State.keptView])
  · simp

theorem State.applyAck_kept (s : State) (w : Word) : s.Kept (s.applyAck w) := by
  unfold State.applyAck
  dsimp only
  split
  case h_1 => simp
  case h_2 r rest hq =>
    have removed : s.Kept (s.setOutcomes { s.outcomes with queue := rest }) :=
      (State.Kept.refl s).setOutcomes (.inl (by simp [hq]))
    split
    · split <;> simpa using removed
    · simp

theorem State.applyRaw_kept (s : State) (o : Nat) (w : Word) : s.Kept (s.applyRaw o w) := by
  unfold State.applyRaw
  split_ifs
  · exact s.applyControl_kept w
  · unfold State.applyFlags; split <;> simp
  · unfold State.applyEnable; split <;> simp
  · exact s.applyLimit_kept _ w
  · exact s.applyLimit_kept _ w
  · exact s.applyLimit_kept _ w
  · exact s.applyAck_kept w
  · exact s.applyTable_kept _ w
  · exact .refl s

theorem State.applyWords_kept (s : State) (o : Nat) (ws : List Word) : s.Kept (s.applyWords o ws) := by
  induction ws generalizing s o with
  | nil => exact .refl s
  | cons w ws ih =>
    have applied : s.Kept (s.applyWord o w) := observe_kept (s.applyRaw_kept o w)
    cases ws with
    | nil => exact applied
    | cons v ws => exact (applied.trans (State.followUp_kept _ o)).trans (ih _ _)

/-! ### The link (05, 07) -/

@[simp] theorem State.kept_driveReceipt {s a : State} (v : Verdict) (c : Bool) : s.Kept (a.driveReceipt v c) ↔ s.Kept a := by
  refine State.kept_congr ?_
  unfold State.driveReceipt
  dsimp only
  split
  · rw [State.startIdle_setOut, State.startIdle_eq]
    simp only [State.keptView, State.startIdle]
    split <;> simp [State.setOut, State.setLink, State.setCtrl, Ctrl.fallDue, State.updSlot, State.setGroups]
  · rfl

@[simp] theorem State.kept_issueSpan {s a : State} : s.Kept a.issueSpan ↔ s.Kept a := by
  refine State.kept_congr ?_
  unfold State.issueSpan
  dsimp only
  split
  case h_1 => rfl
  case h_2 n _ =>
    split
    · rfl
    · split <;> simp [State.keptView]

@[simp] theorem State.kept_issueSpans {s a : State} : s.Kept a.issueSpans ↔ s.Kept a := by
  unfold State.issueSpans
  split <;> simp

@[simp] theorem State.kept_endData {s a : State} : s.Kept a.endData ↔ s.Kept a := by
  refine State.kept_congr ?_
  unfold State.endData State.discardSpans State.handCollecting
  split
  · simp [State.keptView]
  · split
    · dsimp only
      split <;> rfl
    · rfl

@[simp] theorem State.kept_bridgeStop {s a : State} (pv : Option Verdict) (cut : Bool) : s.Kept (a.bridgeStop pv cut) ↔ s.Kept a := by
  simp [State.bridgeStop]

@[simp] theorem State.kept_requestDue {s a : State} : s.Kept a.requestDue ↔ s.Kept a := by
  unfold State.requestDue
  split <;> simp

@[simp] theorem State.kept_handCollecting {s a : State} : s.Kept a.handCollecting ↔ s.Kept a := by
  refine State.kept_congr ?_
  unfold State.handCollecting
  dsimp only
  split <;> rfl

@[simp] theorem State.kept_enterChecking {s a : State} : s.Kept a.enterChecking ↔ s.Kept a := by
  unfold State.enterChecking
  dsimp only
  split <;> simp

@[simp] theorem State.kept_reachSpan {s a : State} : s.Kept a.reachSpan ↔ s.Kept a := by
  unfold State.reachSpan State.hold State.unhold
  split
  case isTrue =>
    split
    case h_1 n _ =>
      split
      case h_2 => dsimp only; split <;> simp
      all_goals simp
    case h_2 => simp
  case isFalse => rfl

/-! ### The end of a burst (07 R119 to R123) -/

theorem State.stagedTaken_kept (s : State) (v : Verdict) : s.Kept (s.stagedTaken v) := by
  have freed := s.freeOptRecord_kept s.link.record
  unfold State.stagedTaken
  dsimp only
  split
  case h_1 =>
    split
    · exact freed
    · split
      · exact s.closeUnit_kept _ _
      · exact .refl s
  case h_2 n _ =>
    split
    case isTrue =>
      split_ifs
      · simpa using freed
      · exact freed.trans (State.closeEmpty_kept _ n)
      · exact freed.trans (State.closeGroup_kept _ n)
      · exact freed
    case isFalse =>
      cases s.link.record with
      | none =>
        split
        · exact s.closeGroup_kept n
        · exact .refl s
      | some r =>
        have joined := s.joinGroup_kept n r s.link.count
        split
        · exact joined.trans (State.closeGroup_kept _ n)
        · exact joined

theorem State.stagedFailed_kept (s : State) (v : Verdict) : s.Kept (s.stagedFailed v) := by
  have freed := s.freeOptRecord_kept s.link.record
  unfold State.stagedFailed
  dsimp only
  split
  · exact freed
  · split
    · simpa using freed
    · exact freed.trans (State.rejectGroup_kept _ _ _)

theorem State.finishStaged_kept (s : State) (v : Verdict) : s.Kept (s.finishStaged v) := by
  have reported : s.Kept (s.reportIf (v == .checkFail) .checkFailSeen) := by simp
  unfold State.finishStaged
  dsimp only
  rw [State.kept_driveReceipt]
  split
  · exact reported.trans (State.stagedTaken_kept _ v)
  · exact reported.trans (State.stagedFailed_kept _ v)

@[simp] theorem State.kept_settleDirect {s a : State} : s.Kept a.settleDirect ↔ s.Kept a := by
  unfold State.settleDirect
  dsimp only
  split <;> simp

theorem State.finishWrite_kept (s : State) (v : Verdict) : s.Kept (s.finishWrite v) := by
  unfold State.finishWrite
  split_ifs
  · simpa [State.finishAttrWrite] using s.applyWords_kept _ _
  · exact observe_kept (by simp [State.finishPlain])
  · exact observe_kept (s.finishStaged_kept v)

theorem State.takeCheck_kept (s : State) (w : Word) : s.Kept (s.takeCheck w) := by
  unfold State.takeCheck
  dsimp only
  split
  · split
    · exact observe_kept (by simp [State.exchangeDone])
    · exact s.finishWrite_kept _
  · exact .refl s

theorem State.takeReply_kept (s : State) (w : Word) : s.Kept (s.takeReply w) := by
  unfold State.takeReply
  split
  · exact observe_kept (by simp [State.finishPlain])
  · exact .refl s

theorem State.stallExpired_kept (s : State) : s.Kept s.stallExpired := by
  unfold State.stallExpired
  split_ifs <;> simp

theorem State.handshakeExpired_kept (s : State) : s.Kept s.handshakeExpired := by
  unfold State.handshakeExpired
  dsimp only
  split_ifs
  · exact observe_kept (by simp [State.exchangeDone])
  · exact observe_kept (s.finishStaged_kept _)
  · simp
  · exact .refl s

theorem State.idleExpired_kept (n : Nat) (s : State) : s.Kept (s.idleExpired n) := by
  unfold State.idleExpired
  split
  · exact s.rejectGroup_kept n _
  · exact .refl s

/-! ### Resets, releases and header word 0 (10 R151, R152) -/

theorem State.resetBlocks_kept (s : State) (op : OpState) (hold : Bool) : s.Kept (s.resetBlocks (Ctrl.init op hold)) := by
  have none_held : chunksHeld (List.replicate Config.records {}) = [] := by simp [chunksHeld]
  refine ⟨rfl, id, fun _ => ⟨.of_eq (by simp [State.resetBlocks, Staging.init, none_held]), fun r hr _ => ?_⟩,
    fun _ => ⟨rfl, rfl, rfl, rfl, rfl⟩, fun ⟨h1, h2, _⟩ => ⟨?_, ?_, Nat.zero_le _⟩, fun _ => ⟨⟨?_, ?_⟩, ⟨?_, ?_⟩, ?_, nofun⟩⟩
  · rw [List.eq_of_mem_replicate hr]
  · simpa [State.resetBlocks, Port.init, discardAll] using h1
  · simpa [State.resetBlocks, Port.init, discardAll, List.filter_map, Function.comp_def] using h2
  all_goals simp [State.resetBlocks, Ctrl.init]

theorem State.release_kept (s : State) (cap jrn : BitVec 2) : s.Kept (s.release cap jrn) := by
  unfold State.release
  dsimp only
  split
  · exact .of_view rfl
  · exact .of_view rfl

theorem State.takeHold_kept (s : State) : s.Kept s.takeHold := by
  unfold State.takeHold
  split
  · exact s.resetBlocks_kept _ _
  · exact .refl s

theorem State.takeRelease_kept (s : State) (cap jrn : BitVec 2) : s.Kept (s.takeRelease cap jrn) := by
  unfold State.takeRelease
  split
  · exact s.release_kept cap jrn
  · exact .refl s

theorem State.takeHeader_kept (s : State) (w : Word) : s.Kept (s.takeHeader w) := by
  unfold State.takeHeader
  split
  · rw [State.kept_setLink]
    exact s.takeHold_kept.trans (State.takeRelease_kept _ _ _)
  · exact .refl s

/-! ### The opening (07 R112 to R114) -/

theorem State.refuse_kept (s : State) (v : Verdict) : s.Kept (s.refuse v) := by
  unfold State.refuse
  dsimp only
  rw [State.kept_driveReceipt]
  split
  · split
    · exact ((State.kept_setOut _).mpr (.refl s)).trans (State.rejectGroup_kept _ _ _)
    · simp
  · simp

@[simp] theorem State.kept_bindGroup {s a : State} (t : Nat) (slot : Option Nat) : s.Kept (a.bindGroup t slot) ↔ s.Kept a := by
  unfold State.bindGroup State.openGroup
  split <;> simp

/-- The lowest-numbered FREE record is FREE. -/
theorem State.freeRecordNo_free {s : State} {r : Nat} (h : s.freeRecordNo = some r) : (s.staging.records.getD r {}).st = .free := by
  obtain ⟨x, hx, hfree⟩ := firstWhere_some h
  simpa [List.getD, hx] using hfree

theorem State.claimRecord_kept {s : State} {r : Nat} (h : (s.staging.records.getD r {}).st = .free) : s.Kept (s.claimRecord r) := by
  simpa [State.claimRecord] using (State.Kept.refl s).setStaging (Staging.claim_kept s.staging r _ _ _ _ h)

theorem State.bindGroup_staging (s : State) (t : Nat) (slot : Option Nat) : (s.bindGroup t slot).staging = s.staging := by
  unfold State.bindGroup State.openGroup
  split
  case h_2 => rw [State.setTag_eq]; rfl
  all_goals rfl

theorem State.acceptWrite_kept {s : State} {record : Option Nat} (fullClose : Bool)
    (h : ∀ r, record = some r → s.freeRecordNo = some r) : s.Kept (s.acceptWrite record fullClose) := by
  unfold State.acceptWrite
  cases record with
  | none => simp
  | some r =>
    refine State.Kept.trans ?bound (State.claimRecord_kept ?free)
    case bound => simp
    case free =>
      rw [State.setLink_staging, State.bindGroup_staging]
      exact State.freeRecordNo_free (h r rfl)

@[simp] theorem State.kept_acceptRead {s a : State} : s.Kept a.acceptRead ↔ s.Kept a := by
  simp only [State.acceptRead, State.kept_reachSpan, State.kept_issueSpans]
  exact State.kept_congr rfl

theorem State.accept_kept {s : State} {record : Option Nat} (fullClose : Bool)
    (h : ∀ r, record = some r → s.freeRecordNo = some r) : s.Kept (s.accept record fullClose) := by
  unfold State.accept State.acceptAttr
  dsimp only
  split_ifs
  · simp
  · simp
  · simp
  · exact ((State.kept_setOut _).mpr (.refl s)).trans (State.acceptWrite_kept fullClose h)

/-- The record that a decided write claims is the lowest-numbered FREE one (01 R6). -/
theorem State.decideWrite_record {s : State} {t : Nat} {close : Bool} {m : Mode} {r : Nat} {f : Bool}
    (h : s.decideWrite t close m = .accept (some r) f) : s.freeRecordNo = some r := by
  unfold State.decideWrite at h
  dsimp only at h
  split at h
  case h_1 d hd =>
    subst h
    split at hd <;> split at hd <;> try split at hd
    all_goals simp at hd
  case h_2 =>
    split at h
    · simp at h
    · split at h
      case h_1 r' hr =>
        simp only [Decision.accept.injEq, Option.some.injEq] at h
        rw [hr, h.1]
      case h_2 =>
        split at h
        · simp at h
        · split at h <;> try split at h
          all_goals simp at h

/-- The same of every opening. -/
theorem State.decideOpening_record {s : State} {r : Nat} {f : Bool} (h : s.decideOpening = .accept (some r) f) :
    s.freeRecordNo = some r := by
  unfold State.decideOpening at h
  dsimp only at h
  split at h
  · simp at h
  · split at h
    · simp at h
    · split at h
      · simp at h
      · split at h
        · simp at h
        · split at h
          · simp at h
          · split at h
            · simp at h
            · split at h
              · simp at h
              · split at h
                · simp at h
                · exact State.decideWrite_record h

theorem State.takeOpening_kept (s : State) (w : Word) : s.Kept (s.takeOpening w) := by
  unfold State.takeOpening
  split
  case isTrue =>
    have taken : s.Kept (s.wordOneTaken w) := by simp [State.wordOneTaken]
    refine taken.trans ?_
    cases hd : (s.wordOneTaken w).decideOpening with
    | refuse v => exact State.refuse_kept _ v
    | withhold => simp [State.answer]
    | accept record f =>
      refine State.accept_kept f fun r hr => ?_
      subst hr
      exact State.decideOpening_record hd
  case isFalse => exact .refl s

theorem State.answerWithheld_kept (s : State) : s.Kept s.answerWithheld := by
  unfold State.answerWithheld
  split
  · split
    · exact s.refuse_kept _
    · split
      case h_1 r hr => exact State.accept_kept _ fun k hk => hr.trans hk
      case h_2 => exact .refl s
  · exact .refl s

/-! ### Words and pauses (01 R9 to R12, 05 R90, 06 R105, 07 R115 to R118) -/

theorem State.offerRecord_kept (s : State) (r : Nat) (w : Word) : s.Kept (s.offerRecord r w) := by
  unfold State.offerRecord State.holdWord State.hold
  split_ifs
  · simp
  · simp
  · simpa using (State.Kept.refl s).setStaging (s.staging.take_kept r w)

theorem State.offerStaged_kept (s : State) (w : Word) : s.Kept (s.offerStaged w) := by
  unfold State.offerStaged
  split
  case h_1 r _ => exact s.offerRecord_kept r w
  case h_2 =>
    split
    case h_1 r hr => exact (State.claimRecord_kept (State.freeRecordNo_free hr)).trans (State.offerRecord_kept _ r w)
    case h_2 => split <;> simp [State.holdWord, State.hold]

theorem State.offer_kept (s : State) (w : Word) : s.Kept (s.offer w) := by
  unfold State.offer
  split
  · unfold State.offerAttr; split <;> simp
  · split
    · simp
    · split
      · simp
      · split
        · unfold State.offerDirect State.holdWord State.hold
          dsimp only
          split_ifs <;> simp
        · exact s.offerStaged_kept w

theorem State.strobe_kept (s : State) (w : Word) : s.Kept (s.strobe w) := by
  unfold State.strobe
  split_ifs
  · simp
  · exact ((State.kept_setLink _).mpr (.refl s)).trans (State.offer_kept _ w)
  · exact .refl s

theorem State.restoreReady_kept (s : State) : s.Kept s.restoreReady := by
  unfold State.restoreReady
  split
  · split
    · split
      · exact ((State.kept_setLink _).mpr (.refl s)).trans (State.offer_kept _ _)
      · simp
    · exact .refl s
  · exact .refl s

theorem State.readWordOut_kept (s : State) : s.Kept s.readWordOut := by
  unfold State.readWordOut State.readAttr State.readCommon State.afterWord State.sendWord
  split
  · split
    · simp
    · split
      · simp
      · split
        · split
          · split <;> simp
          · exact .refl s
        · exact .refl s
  · exact .refl s

@[simp] theorem State.kept_masterPause {s a : State} : s.Kept a.masterPause ↔ s.Kept a := by
  unfold State.masterPause
  split_ifs <;> simp

@[simp] theorem State.kept_acknowledge {s a : State} : s.Kept a.acknowledge ↔ s.Kept a := by
  unfold State.acknowledge
  split <;> simp

@[simp] theorem State.kept_masterStop {s a : State} : s.Kept a.masterStop ↔ s.Kept a := by
  unfold State.masterStop
  split <;> simp

theorem State.attrWrite_kept (s : State) (o : Nat) (w : Word) : s.Kept (s.attrWrite o w) := by
  unfold State.attrWrite
  split
  · refine State.Kept.trans ?_ (State.takeCheck_kept _ _)
    rw [State.kept_masterStop]
    exact ((s.takeHeader_kept _).trans (State.takeOpening_kept _ _)).trans (State.strobe_kept _ w)
  · exact .refl s

/-! ### The commit and apply path (03, 04) -/

theorem State.commitTake_kept (s : State) : s.Kept s.commitTake := by
  unfold State.commitTake
  split
  · split <;> simp
  · exact .refl s

theorem State.handOver_kept (s : State) (start : Nat) (seq : Word) (len : Nat) : s.Kept (s.handOver start seq len) := by
  unfold State.handOver
  split
  · dsimp only
    split <;> exact .of_view (by simp [State.keptView, State.updSlot, State.updUnit])
  · exact .refl s

theorem State.tryGrant_kept (s : State) : s.Kept s.tryGrant := by
  unfold State.tryGrant
  split
  · exact .refl s
  · dsimp only
    split
    · split
      · exact ((State.kept_setJournal _).mpr (.refl s)).trans (State.handOver_kept _ _ _ _)
      · exact .of_view rfl
    · exact .refl s

theorem State.makeDurable_kept (s : State) (u : CommitUnit) : s.Kept (s.makeDurable u) := by
  unfold State.makeDurable
  dsimp only
  split <;> simp

theorem State.abandonUnit_kept (s : State) (u : CommitUnit) : s.Kept (s.abandonUnit u) := by
  unfold State.abandonUnit State.abandonSlot
  split <;> simp

theorem State.markDone_kept (s : State) : s.Kept s.markDone := by
  have settled : s.Kept (match s.keptUnit with | some u => s.makeDurable u | none => s) := by
    split
    · exact s.makeDurable_kept _
    · exact .refl s
  unfold State.markDone
  dsimp only
  split
  · exact ((State.kept_setCommit _).mpr settled).trans (State.commitTake_kept _)
  · exact settled

theorem State.markLost_kept (s : State) : s.Kept s.markLost := by
  unfold State.markLost
  split
  · simpa using s.abandonUnit_kept _
  · exact .refl s

theorem State.entryDone_kept (s : State) : s.Kept s.entryDone := by
  unfold State.entryDone
  dsimp only
  split_ifs
  · exact .of_view rfl
  · exact .of_view rfl
  · exact .refl s

theorem State.skipDone_kept (s : State) : s.Kept s.skipDone := by
  unfold State.skipDone
  split
  · exact ((State.kept_setJournal _).mpr (.refl s)).trans (State.handOver_kept _ _ _ _)
  · exact .refl s

@[simp] theorem State.kept_presentAnchor {s a : State} : s.Kept a.presentAnchor ↔ s.Kept a := by
  unfold State.presentAnchor
  split
  · exact State.kept_congr rfl
  · rfl

theorem State.anchorDone_kept (s : State) : s.Kept s.anchorDone := by
  unfold State.anchorDone State.anchorTaken
  split
  · dsimp only
    have granted (j : Journal) : s.Kept ((s.setJournal j).noteChanges s.live).tryGrant :=
      State.Kept.trans (by simp) (State.tryGrant_kept _)
    split
    · simpa using granted _
    · exact granted _
  · exact .refl s

theorem State.startMember_kept (s : State) (u : CommitUnit) (i : Nat) : s.Kept (s.startMember u i) := by
  exact ((State.Kept.refl s).setStaging (s.staging.move_kept _ .applying nofun)).view rfl

theorem State.applyTake_kept (s : State) : s.Kept s.applyTake := by
  unfold State.applyTake
  split
  · split
    · split
      · exact ((State.kept_setApply _).mpr (.refl s)).trans (State.startMember_kept _ _ _)
      · exact .refl s
    · exact .refl s
  · exact .refl s

theorem State.finishUnit_kept (s : State) (u : CommitUnit) : s.Kept (s.finishUnit u) := by
  unfold State.finishUnit State.askAnchor
  dsimp only
  refine State.Kept.trans ?_ (State.applyTake_kept _)
  split
  · split <;> simp
  · simp

theorem State.applyDone_kept (s : State) : s.Kept s.applyDone := by
  unfold State.applyDone State.releaseMember
  split
  · split
    · split
      · dsimp only
        split
        · have released (r : Nat) : s.Kept ((s.setOverlay (s.overlay.filter fun e => e.record ≠ r)).freeRecord r) :=
            ((State.kept_setOverlay _).mpr (.refl s)).trans (State.freeRecord_kept _ r)
          split
          · exact (released _).trans (State.startMember_kept _ _ _)
          · exact (released _).trans (State.finishUnit_kept _ _)
        · simp
      · exact .refl s
    · exact .refl s
  · exact .refl s

/-! ### Recovery (11) -/

@[simp] theorem State.kept_scanEnd {s a : State} (why : EndReason) : s.Kept (a.scanEnd why) ↔ s.Kept a := by simp [State.scanEnd]

@[simp] theorem State.kept_recReadOf {s a : State} (b q : Nat) (r : Recovery) : s.Kept (a.recReadOf b q r) ↔ s.Kept a := by
  simp [State.recReadOf]

@[simp] theorem State.kept_scanAt {s a : State} (r : Recovery) : s.Kept (a.scanAt r) ↔ s.Kept a := by simp [State.scanAt]

@[simp] theorem State.kept_replayNext {s a : State} (k : Nat) : s.Kept (a.replayNext k) ↔ s.Kept a := by
  unfold State.replayNext State.entryReplayed
  dsimp only
  split
  · simp
  · split <;> simp

theorem State.recAnchorRead_kept (s : State) (ws : List Word) : s.Kept (s.recAnchorRead ws) := by
  unfold State.recAnchorRead
  split
  · simp
  · split <;> simp
  · exact .refl s

theorem State.recRead_kept (s : State) (ws : List Word) : s.Kept (s.recRead ws) := by
  unfold State.recRead State.judgeFirst State.judgeHeader State.judgeMark
  dsimp only
  split
  · split_ifs <;> simp
  · split_ifs <;> simp
  · split_ifs <;> simp
  · split_ifs <;> simp
  · split_ifs <;> simp
  · exact .refl s

theorem State.recReplayed_kept (s : State) : s.Kept s.recReplayed := by
  unfold State.recReplayed
  split <;> simp

theorem State.recComplete_kept (s : State) (copy : Fin 2) (gen : Word) : s.Kept (s.recComplete copy gen) := by
  exact (State.kept_report _).mpr (.of_view rfl)

theorem State.recAnchorWritten_kept (s : State) : s.Kept s.recAnchorWritten := by
  unfold State.recAnchorWritten
  dsimp only
  split
  · exact s.recComplete_kept _ _
  · exact ((State.kept_updSummary _).mpr (.refl s)).trans (State.recComplete_kept _ _ _)
  · exact .refl s

/-! ### Faults and power (10 R159 to R161) -/

theorem State.Kept.setOpState {s a : State} (h : s.Kept a) (op : OpState) : s.Kept (a.setCtrl { a.ctrl with opState := op }) :=
  h.view rfl

theorem State.stopBurst_kept (s : State) (dest : OpState) : s.Kept (s.stopBurst dest) := by
  unfold State.stopBurst
  dsimp only
  split
  · split <;> simp
  · exact .refl s

theorem State.settleUnits_kept (s : State) (dest : OpState) : s.Kept (s.settleUnits dest) := by
  have abandoned (us : List CommitUnit) : ∀ s : State, s.Kept (us.foldl State.abandonUnit s) := by
    induction us with
    | nil => exact State.Kept.refl
    | cons u us ih => exact fun s => (s.abandonUnit_kept u).trans (ih _)
  simp only [State.settleUnits, State.kept_setQueue]
  exact abandoned _ s

theorem State.stopRecovery_kept (s : State) (st : RecStatus) : s.Kept (s.stopRecovery st) := by
  unfold State.stopRecovery
  split
  · exact .of_view rfl
  · exact .refl s

theorem State.stopEngines_kept (s : State) : s.Kept s.stopEngines := .of_view rfl

theorem State.enterStopped_kept (s : State) (dest : OpState) (rs : RecStatus) : s.Kept (s.enterStopped dest rs) := by
  have settled :=
    ((((s.stopBurst_kept dest).trans (State.rejectOpen_kept _ (.verdict .stopped) (s.stopBurst dest).link.slot)).trans
      (State.settleUnits_kept _ dest)).trans
      (State.stopEngines_kept _)).trans (State.stopRecovery_kept _ rs)
  exact State.kept_settleDirect.mpr (settled.setOpState dest)

/-- A Fault Record set with a further-faults count in its range (10 R160). -/
theorem State.setFault_kept (s : State) {f : FaultRecord} (h : f.further ≤ Config.maxFurtherFaults) :
    s.Kept (s.setCtrl { s.ctrl with fault := some f }) := by
  refine ⟨rfl, id, id, id, id, fun ⟨h1, h2, h3, _⟩ => ⟨h1, h2, h3, fun g hg => ?_⟩⟩
  cases hg
  exact h

theorem State.furtherFault_kept (s : State) (o : Outstanding) : s.Kept (s.furtherFault o) := by
  unfold State.furtherFault
  split
  · exact s.setFault_kept (Nat.min_le_right _ _)
  · exact s.setFault_kept (Nat.zero_le _)

theorem State.errorReport_kept (s : State) (o : Outstanding) : s.Kept (s.errorReport o) := by
  have first : s.Kept ((s.setCtrl { s.ctrl with fault := some (s.firstFault o s.checkedUnits) }).enterStopped .faulted .faulted) :=
    (s.setFault_kept (Nat.zero_le _)).trans (State.enterStopped_kept _ _ _)
  unfold State.errorReport
  split
  · exact first
  · exact first
  · exact first
  · exact s.furtherFault_kept o
  · exact s.furtherFault_kept o
  · exact .refl s

theorem State.powerWarn_kept (s : State) : s.Kept s.powerWarn := by
  unfold State.powerWarn
  dsimp only
  split
  · simp
  · exact ((State.kept_setPins _).mpr (.refl s)).trans (State.enterStopped_kept _ _ _)

/-! ### The Memory Port (08) -/

/-- A request issued where the list has room, for READ among its READ entries too (R128, R130). -/
theorem State.Kept.issue {s a : State} {r : Requester} {q : Request} {role : Role} (h : s.Kept a)
    (room : a.port.outstanding.length < Config.maxOutstanding)
    (hr : r = .read → (a.port.outstanding.filter fun o => o.requester == .read).length < Config.maxReadOutstanding) :
    s.Kept (a.issue r q role) := by
  refine h.trans ⟨rfl, id, id, id, fun ⟨_, h2, h3⟩ => ⟨?_, ?_, h3⟩, id⟩
  · simpa [State.issue] using room
  · by_cases hread : r = .read
    · subst hread
      simpa [State.issue, List.filter_append] using hr rfl
    · simpa [State.issue, List.filter_append, hread] using h2

/-- A waiting request taken from its requester's requests and issued. -/
theorem State.Kept.grant {s : State} {v : Port} {r : Requester} {q : Request} {role : Role}
    (room : s.port.outstanding.length < Config.maxOutstanding)
    (hr : r = .read → (s.port.outstanding.filter fun o => o.requester == .read).length < Config.maxReadOutstanding)
    (hv : v.outstanding = s.port.outstanding := by rfl) : s.Kept ((s.setPort v).issue r q role) :=
  State.Kept.issue (.of_view (by simp only [State.keptView, State.setPort, hv])) (by simpa [hv] using room) (by simpa [hv] using hr)

theorem State.grantTo_kept {s : State} {r : Requester} (room : s.port.outstanding.length < Config.maxOutstanding)
    (he : s.eligible r = true) : s.Kept (s.grantTo r) := by
  cases r with
  | read =>
    simp only [State.eligible, Bool.and_eq_true, decide_eq_true_eq] at he
    simp only [State.grantTo, State.grantRead]
    split
    · exact .grant room fun _ => he.2
    · exact .refl s
  | direct =>
    simp only [State.grantTo, State.grantDirect]
    split
    · split
      · exact State.kept_handCollecting.mpr (.grant room nofun)
      · exact .grant room nofun
    · exact .refl s
  | commit =>
    simp only [State.grantTo, State.grantCommit]
    split
    · split
      · exact (State.kept_setCommit _).mpr (.grant room nofun)
      · exact .grant room nofun
    · exact .refl s
  | anchor =>
    simp only [State.grantTo, State.grantAnchor]
    split
    · exact .grant room nofun
    · exact .refl s
  | apply =>
    simp only [State.grantTo, State.grantApply]
    split
    · exact (State.kept_updFront _).mpr (.grant room nofun)
    · exact .refl s
  | recovery =>
    simp only [State.grantTo, State.grantRecovery]
    split
    · exact .grant room nofun
    · exact .refl s

theorem State.arbitrate_kept (s : State) : s.Kept s.arbitrate := by
  unfold State.arbitrate
  split
  case isTrue free =>
    split
    case h_1 r hr => exact State.grantTo_kept free.2.2 (by simpa using List.find?_some hr)
    case h_2 => exact .refl s
  case isFalse => exact .refl s

theorem State.spanCompleted_kept (s : State) (n : Nat) (c : Completion) : s.Kept (s.spanCompleted n c) := by
  simp [State.spanCompleted]

end Sys2Proof.Machine
end

