-- ==== Sys2Proof/Proofs/KeptBySteps.lean ====
section
/-! PROOF. Every command keeps the queue of commands and the invariants of storage and of counting, and stops exactly where it is a
completion that the oldest outstanding request does not call for (spec/08 R127). -/

namespace Sys2Proof.Machine

/-! ### Completions (08 R127, R131) -/

/-- The oldest outstanding request, if it is the one asked for, is removed and its completion observed. -/
theorem State.withHead_next {s : State} {p : Outstanding → Bool} {o : Outstanding} {rest : List Outstanding}
    (k : Outstanding → State → State) (h : s.port.outstanding = o :: rest) (hp : p o = true) :
    s.withHead p k = .next (observe (fun t => k o (t.setPort { t.port with outstanding := rest })) s) := by
  simp [State.withHead, h, hp]

/-- A completion that the oldest outstanding request does not call for stops. -/
theorem State.withHead_fault {s : State} {p : Outstanding → Bool} (k : Outstanding → State → State)
    (h : s.port.outstanding.head?.any p = false) : s.withHead p k = .fault .noSuchRequest := by
  unfold State.withHead
  cases ho : s.port.outstanding with
  | nil => rfl
  | cons o rest =>
    rw [ho] at h
    exact if_neg (by simpa using h)

/-- The oldest outstanding request satisfies `p` when some oldest one does. -/
theorem State.head_of_any {s : State} {p : Outstanding → Bool} (h : s.port.outstanding.head?.any p = true) :
    ∃ o rest, s.port.outstanding = o :: rest ∧ p o = true := by
  cases ho : s.port.outstanding with
  | nil => simp [ho] at h
  | cons o rest => exact ⟨o, rest, rfl, by simpa [ho] using h⟩

/-- The rest of a write's completion, once its request is removed: `done` on OK, the error report and then `lost` on ERROR (08 R132). -/
def writeEnds (st : Status) (done lost : State → State) (o : Outstanding) (t : State) : State :=
  match st with
  | .ok => done t
  | .error => lost (t.errorReport o)

/-- The same of a read of recovery's. -/
def readEnds (c : Completion) (done : List Word → State → State) (o : Outstanding) (t : State) : State :=
  match c with
  | .ok ws => done ws t
  | .error => t.errorReport o

/-- What a completion does once its request is removed; a dropped completion does nothing. -/
def completed : Instr → Outstanding → State → State
  | .skipCompletion st => writeEnds st State.skipDone id
  | .commitRequestCompletion st => writeEnds st State.entryDone id
  | .markCompletion st => writeEnds st State.markDone State.markLost
  | .applyCompletion st => writeEnds st State.applyDone id
  | .anchorCompletion st => writeEnds st State.anchorDone State.anchorLost
  | .directSpanCompletion st => writeEnds st State.settleDirect State.settleDirect
  | .recoveryReplayWriteCompletion st => writeEnds st State.recReplayed id
  | .recoveryAnchorWriteCompletion st => writeEnds st State.recAnchorWritten id
  | .recoveryAnchorReadCompletion c => readEnds c State.recAnchorRead
  | .recoveryReadCompletion c => readEnds c State.recRead
  | .readSpanCompletion c => fun o t => t.spanCompleted (o.role.spanNo.getD 0) c
  | _ => fun _ t => t

/-- Every completion but a dropped one acts on the oldest outstanding request, if that is one it answers. -/
theorem exec_eq_withHead {i : Instr} (s : State) (hi : isCompletion i = true) (hd : ∀ c, i ≠ .discardedCompletion c) :
    exec i s = s.withHead (answers i) (completed i) := by
  cases i with
  | skipCompletion | commitRequestCompletion | markCompletion | applyCompletion | anchorCompletion | directSpanCompletion
  | readSpanCompletion | recoveryAnchorReadCompletion | recoveryReadCompletion | recoveryReplayWriteCompletion
  | recoveryAnchorWriteCompletion => rfl
  | discardedCompletion c => exact absurd rfl (hd c)
  | _ => exact nomatch hi

/-- A command that completes a request stops where the oldest outstanding request is not one it answers. -/
theorem exec_fault {i : Instr} {s : State} (hi : isCompletion i = true)
    (h : s.port.outstanding.head?.any (answers i) = false) : exec i s = .fault .noSuchRequest := by
  by_cases hd : ∃ c, i = .discardedCompletion c
  · obtain ⟨c, rfl⟩ := hd
    unfold exec execDiscardedCompletion
    cases ho : s.port.outstanding with
    | nil => rfl
    | cons o rest =>
      rw [ho] at h
      exact if_neg (by simpa [answers] using h)
  · exact (exec_eq_withHead s hi (not_exists.mp hd)).trans (State.withHead_fault _ h)

/-- A completion that the oldest outstanding request calls for answers a next state. -/
theorem exec_completion_next {i : Instr} {s : State} (hi : isCompletion i = true)
    (h : s.port.outstanding.head?.any (answers i) = true) : ∃ t, exec i s = .next t := by
  obtain ⟨o, rest, ho, hp⟩ := State.head_of_any h
  by_cases hd : ∃ c, i = .discardedCompletion c
  · obtain ⟨c, rfl⟩ := hd
    unfold exec execDiscardedCompletion
    rw [ho]
    exact ⟨_, if_pos (by simpa [answers] using hp)⟩
  · exact ⟨_, (exec_eq_withHead s hi (not_exists.mp hd)).trans (State.withHead_next _ ho hp)⟩

/-- Every other command answers a next state. -/
theorem exec_next_of_not_completion {i : Instr} (s : State) (hi : isCompletion i = false) : ∃ t, exec i s = .next t := by
  cases i with
  | skipCompletion | commitRequestCompletion | markCompletion | applyCompletion | anchorCompletion | directSpanCompletion
  | readSpanCompletion | recoveryAnchorReadCompletion | recoveryReadCompletion | recoveryReplayWriteCompletion
  | recoveryAnchorWriteCompletion | discardedCompletion => exact nomatch hi
  | _ => exact ⟨_, rfl⟩

/-! ### The commands -/

/-- Whatever next state an outcome holds, s keeps to it all that `State.Kept` names. -/
def State.KeptAfter (s : State) (o : Host.Outcome State Fault Refusal) : Prop := ∀ t, o = .next t → s.Kept t

theorem State.KeptAfter.next {s t : State} (h : s.Kept t) : s.KeptAfter (.next t) := fun _ e => Host.Outcome.next.inj e ▸ h

theorem State.KeptAfter.observed {s : State} {f : State → State} (h : s.Kept (f s)) : s.KeptAfter (.next (observe f s)) :=
  .next (observe_kept h)

theorem State.withHead_keptAfter {s : State} (p : Outstanding → Bool) {k : Outstanding → State → State}
    (h : ∀ o t, State.Kept t (k o t)) : s.KeptAfter (s.withHead p k) := by
  intro t ht
  by_cases hp : s.port.outstanding.head?.any p = true
  · obtain ⟨o, rest, ho, hp⟩ := State.head_of_any hp
    rw [State.withHead_next k ho hp, Host.Outcome.next.injEq] at ht
    rw [← ht]
    exact observe_kept ((State.Kept.dropOldest ho).trans (h o _))
  · rw [State.withHead_fault k (by simpa using hp)] at ht
    exact nomatch ht

theorem State.writeCompletion_keptAfter {s : State} (r : Role) (st : Status) {done lost : State → State}
    (hd : ∀ t : State, t.Kept (done t)) (hl : ∀ t : State, t.Kept (lost t)) : s.KeptAfter (s.writeCompletion r st done lost) := by
  refine State.withHead_keptAfter _ fun o t => ?_
  cases st with
  | ok => exact hd t
  | error => exact (t.errorReport_kept o).trans (hl _)

theorem State.readCompletion_keptAfter {s : State} (r : Role) (c : Completion) {done : List Word → State → State}
    (hd : ∀ ws t, State.Kept t (done ws t)) : s.KeptAfter (s.readCompletion r c done) := by
  refine State.withHead_keptAfter _ fun o t => ?_
  cases c with
  | ok ws => exact hd ws t
  | error => exact t.errorReport_kept o

theorem execDiscardedCompletion_keptAfter (s : State) (c : Completion) : s.KeptAfter (execDiscardedCompletion c s) := by
  intro t ht
  unfold execDiscardedCompletion at ht
  split at ht
  case h_1 o rest ho =>
    split at ht
    · rw [Host.Outcome.next.injEq] at ht
      rw [← ht]
      exact State.Kept.dropOldest ho
    · exact nomatch ht
  case h_2 => exact nomatch ht

theorem execHold_keptAfter (s : State) (w : Word) : s.KeptAfter (execHold w s) := by
  refine .next ?_
  split
  · exact s.takeHold_kept
  · exact (s.attrWrite_kept _ w).trans (State.takeHold_kept _)

theorem execHoldRelease_keptAfter (s : State) (w : Word) (cap jrn : BitVec 2) : s.KeptAfter (execHoldRelease w cap jrn s) := by
  refine .next ?_
  split
  · exact s.takeRelease_kept cap jrn
  · exact (s.attrWrite_kept _ w).trans (State.takeRelease_kept _ cap jrn)

theorem execResetRelease_keptAfter (s : State) (cap jrn : BitVec 2) : s.KeptAfter (execResetRelease cap jrn s) := by
  refine .next ?_
  split
  · exact .refl s
  · exact State.Kept.trans ((State.kept_setPins _).mpr (.refl s)) (State.release_kept _ cap jrn)

theorem execAttnPulseEnd_keptAfter (s : State) : s.KeptAfter (execAttnPulseEnd s) := by
  refine .next ?_
  split <;> simp

/-- Every command keeps the queue of commands and the invariants of storage and of counting. -/
theorem exec_keptAfter (i : Instr) (s : State) : s.KeptAfter (exec i s) := by
  have word (o : Nat) (w : Word) : s.KeptAfter (.next (s.attrWrite o w)) := .next (s.attrWrite_kept o w)
  cases i with
  | headerWord0 w => exact .next (s.takeHeader_kept w)
  | opening w => exact .observed (s.takeOpening_kept w)
  | withheldAnswer => exact .next s.answerWithheld_kept
  | writeDataWord w => exact .next (s.strobe_kept w)
  | restoreReady => exact .next s.restoreReady_kept
  | readDataWord => exact .next s.readWordOut_kept
  | masterPause => exact .next (by simp)
  | masterStop => exact .next (by simp)
  | masterAcknowledge => exact .next (by simp)
  | checkWord w => exact .next (s.takeCheck_kept w)
  | checkReply w => exact .next (s.takeReply_kept w)
  | stallTimerExpiry => exact .next s.stallExpired_kept
  | handshakeTimerExpiry => exact .next (State.Kept.trans (State.kept_requestDue.mpr (.refl s)) (State.handshakeExpired_kept _))
  | groupIdleExpiry n => exact .observed (s.idleExpired_kept n)
  | attributeWordWrite _ w | arm w | drain w | defaultModeWrite w | attnControlWrite w | limitWrite _ w | regionTableWrite _ w
  | changedFlagsWrite w | attentionEnableWrite w | outcomeAck w => exact word _ w
  | hold w => exact execHold_keptAfter s w
  | holdRelease w cap jrn => exact execHoldRelease_keptAfter s w cap jrn
  | outcomePost => exact .observed s.post_kept
  | drainComplete => exact .observed s.drainComplete_kept
  | commitTakeUnit => exact .next s.commitTake_kept
  | blockGrant => exact .observed s.tryGrant_kept
  | arbiterGrant => exact .next s.arbitrate_kept
  | applyTakeUnit => exact .next s.applyTake_kept
  | skipCompletion st => exact State.writeCompletion_keptAfter _ st State.skipDone_kept State.Kept.refl
  | commitRequestCompletion st => exact State.writeCompletion_keptAfter _ st State.entryDone_kept State.Kept.refl
  | markCompletion st => exact State.writeCompletion_keptAfter _ st State.markDone_kept State.markLost_kept
  | applyCompletion st => exact State.writeCompletion_keptAfter _ st State.applyDone_kept State.Kept.refl
  | anchorCompletion st => exact State.writeCompletion_keptAfter _ st State.anchorDone_kept fun _ => .of_view rfl
  | directSpanCompletion st => exact State.writeCompletion_keptAfter _ st (fun _ => by simp) (fun _ => by simp)
  | readSpanCompletion c => exact State.withHead_keptAfter _ fun o t => t.spanCompleted_kept _ c
  | discardedCompletion c => exact execDiscardedCompletion_keptAfter s c
  | recoveryAnchorReadCompletion c => exact State.readCompletion_keptAfter _ c fun ws t => t.recAnchorRead_kept ws
  | recoveryReadCompletion c => exact State.readCompletion_keptAfter _ c fun ws t => t.recRead_kept ws
  | recoveryReplayWriteCompletion st => exact State.writeCompletion_keptAfter _ st State.recReplayed_kept State.Kept.refl
  | recoveryAnchorWriteCompletion st => exact State.writeCompletion_keptAfter _ st State.recAnchorWritten_kept State.Kept.refl
  | hardReset => exact .next (by simpa using s.resetBlocks_kept _ _)
  | resetRelease cap jrn => exact execResetRelease_keptAfter s cap jrn
  | pwarnAssert => exact .observed s.powerWarn_kept
  | pwarnDeassert => exact .observed (by simp [State.powerGood])
  | attnPulseEnd => exact execAttnPulseEnd_keptAfter s

/-- What a command reads and writes apart from the queue of commands is an invariant's whole concern: an invariant that every command
keeps, and that does not speak of the queue, is kept by every step. -/
theorem keeps_of_exec {P : State → Prop} (hq : ∀ s cs, P s → P (s.setPending cs))
    (hexec : ∀ i s t, P s → exec i s = .next t → P t) : Keeps P := by
  intro s t hs hstep
  unfold step at hstep
  split at hstep
  case h_1 => exact Host.Outcome.next.inj hstep ▸ hs
  case h_2 i rest _ => exact hexec i _ t (hq s rest hs) hstep

/-- Settles O57: the store and the chunks are two of the invariants that every command keeps. -/
theorem stagingKept : Obligations.StagingKept :=
  ⟨keeps_of_exec (fun _ _ => id) fun i s t hs h => (exec_keptAfter i s t h).store hs,
    keeps_of_exec (fun _ _ => id) fun i s t hs h => (exec_keptAfter i s t h).chunks hs⟩

/-- Settles O58: so are the tables, the bounds and the limits. -/
theorem countsKept : Obligations.CountsKept :=
  ⟨keeps_of_exec (fun _ _ => id) fun i s t hs h => (exec_keptAfter i s t h).tables hs,
    keeps_of_exec (fun _ _ => id) fun i s t hs h => (exec_keptAfter i s t h).bounds hs,
    keeps_of_exec (fun _ _ => id) fun i s t hs h => (exec_keptAfter i s t h).limits hs⟩

/-- Settles O2: a command stops by `exec_fault` alone, and a next state has the queue of commands that `State.Kept` keeps. -/
theorem stopsExactlyWithoutItsRequest : Obligations.StopsExactlyWithoutItsRequest := by
  intro i s
  split
  case isTrue h => exact exec_fault h.1 h.2
  case isFalse h =>
    have runs : ∃ t, exec i s = .next t := by
      cases hi : isCompletion i with
      | false => exact exec_next_of_not_completion s hi
      | true => exact exec_completion_next hi (by simpa [hi] using h)
    obtain ⟨t, ht⟩ := runs
    exact ⟨t, ht, (exec_keptAfter i s t ht).pending⟩

/-- Settles O1: a step is the front command's meaning, and nothing on an empty queue. -/
theorem stepRunsFrontCommand : Obligations.StepRunsFrontCommand := by
  refine ⟨fun c rest s => rfl, fun s h => ?_⟩
  unfold step
  rw [h]

/-- Settles O56: State.reset is a reset of blank blocks, where every invariant is a closed fact. -/
theorem resetMeetsInvariants : Obligations.ResetMeetsInvariants := by
  have none_held : chunksHeld (List.replicate Config.records {}) = [] := by simp [chunksHeld]
  refine ⟨rfl, ⟨.of_eq (by simp [State.reset, Staging.init, none_held]), fun r hr _ => ?_⟩, ⟨rfl, rfl, rfl, rfl, rfl⟩,
    ⟨Nat.zero_le _, Nat.zero_le _, Nat.zero_le _⟩, ⟨by decide, by decide, by decide, nofun⟩, ⟨fun _ => rfl, nofun⟩,
    ⟨fun _ => rfl, nofun, rfl, .inr fun x hx => ?_⟩⟩
  · rw [List.eq_of_mem_replicate hr]
  · exact .inl (List.eq_of_mem_replicate hx ▸ rfl)

end Sys2Proof.Machine
end

