-- ==== Sys2Proof/Proofs/LinkFrame.lean ====
section
/-! PROOF. What leaves the link, the Read Assembly and a written HOLD field alone: the operations of the groups, the engines, the outcomes
and recovery. -/

namespace Sys2Proof.Machine

/-- All that decides whether the link is as 07 R110 and 05 R91 say. -/
def State.linkView (s : State) : Link × Reads × Option Bool := (s.link, s.reads, s.ctrl.holdWritten)

theorem State.linkOk_congr {s t : State} (e : t.linkView = s.linkView) (h : s.linkOk) : t.linkOk := by
  simp only [State.linkView, Prod.mk.injEq] at e
  obtain ⟨hl, hr, hw⟩ := e
  unfold State.linkOk
  rwa [hl, hr, hw]

/-! ### The updates of a block -/

@[simp] theorem State.setPins_linkView (s : State) (v : Pins) : (s.setPins v).linkView = s.linkView := rfl
@[simp] theorem State.setStaging_linkView (s : State) (v : Staging) : (s.setStaging v).linkView = s.linkView := rfl
@[simp] theorem State.setGroups_linkView (s : State) (v : Groups) : (s.setGroups v).linkView = s.linkView := rfl
@[simp] theorem State.setQueue_linkView (s : State) (v : List CommitUnit) : (s.setQueue v).linkView = s.linkView := rfl
@[simp] theorem State.setCommit_linkView (s : State) (v : CommitEngine) : (s.setCommit v).linkView = s.linkView := rfl
@[simp] theorem State.setApply_linkView (s : State) (v : ApplyEngine) : (s.setApply v).linkView = s.linkView := rfl
@[simp] theorem State.setJournal_linkView (s : State) (v : Journal) : (s.setJournal v).linkView = s.linkView := rfl
@[simp] theorem State.setOverlay_linkView (s : State) (v : List OverlayEntry) : (s.setOverlay v).linkView = s.linkView := rfl
@[simp] theorem State.setPort_linkView (s : State) (v : Port) : (s.setPort v).linkView = s.linkView := rfl
@[simp] theorem State.setOutcomes_linkView (s : State) (v : Outcomes) : (s.setOutcomes v).linkView = s.linkView := rfl
@[simp] theorem State.setAttn_linkView (s : State) (v : Attn) : (s.setAttn v).linkView = s.linkView := rfl
@[simp] theorem State.setOut_linkView (s : State) (v : Outputs) : (s.setOut v).linkView = s.linkView := rfl
@[simp] theorem State.updSlot_linkView (s : State) (n : Nat) (f : GroupSlot → GroupSlot) : (s.updSlot n f).linkView = s.linkView := rfl
@[simp] theorem State.updUnit_linkView (s : State) (c : Word) (f : CommitUnit → CommitUnit) :
    (s.updUnit c f).linkView = s.linkView := rfl
@[simp] theorem State.updFront_linkView (s : State) (f : CommitUnit → CommitUnit) : (s.updFront f).linkView = s.linkView := rfl
@[simp] theorem State.ready_linkView (s : State) (o : ReadyOutcome) : (s.ready o).linkView = s.linkView := rfl
@[simp] theorem State.settleAttn_linkView (a b : State) : (State.settleAttn a b).linkView = b.linkView := rfl
@[simp] theorem State.noteChanges_linkView (s : State) (c : BitVec 16) : (s.noteChanges c).linkView = s.linkView := rfl
@[simp] theorem State.recPresent_linkView (s : State) (q : Request) (role : Role) (r : Recovery) :
    (s.recPresent q role r).linkView = s.linkView := rfl
@[simp] theorem State.updSummary_linkView (s : State) (f : Summary → Summary) : (s.updSummary f).linkView = s.linkView := rfl

@[simp] theorem State.setTag_linkView (s : State) (t : Nat) (x : TagState) : (s.setTag t x).linkView = s.linkView := by
  rw [State.setTag_eq]
  rfl

@[simp] theorem State.report_linkView (s : State) (e : Event) : (s.report e).linkView = s.linkView := by
  rw [State.report_eq]
  rfl

@[simp] theorem State.reportIf_linkView (s : State) (b : Bool) (e : Event) : (s.reportIf b e).linkView = s.linkView := by
  unfold State.reportIf
  split <;> simp

@[simp] theorem State.startIdle_linkView (s : State) (t : Nat) : (s.startIdle t).linkView = s.linkView := by
  rw [State.startIdle_eq]
  rfl

@[simp] theorem State.stopIdle_linkView (s : State) (t : Nat) : (s.stopIdle t).linkView = s.linkView := by
  rw [State.stopIdle_eq]
  rfl

/-! ### Records, groups and outcomes -/

@[simp] theorem State.freeRecord_linkView (s : State) (r : Nat) : (s.freeRecord r).linkView = s.linkView := rfl

@[simp] theorem State.freeOptRecord_linkView (s : State) (r : Option Nat) : (s.freeOptRecord r).linkView = s.linkView := by
  cases r <;> rfl

@[simp] theorem State.joinGroup_linkView (s : State) (n r words : Nat) : (s.joinGroup n r words).linkView = s.linkView := rfl

@[simp] theorem State.closeUnit_linkView (s : State) (o : Owner) (ms : List Nat) : (s.closeUnit o ms).linkView = s.linkView := rfl

@[simp] theorem State.closeGroup_linkView (s : State) (n : Nat) : (s.closeGroup n).linkView = s.linkView := by
  simp [State.closeGroup]

@[simp] theorem State.closeEmpty_linkView (s : State) (n : Nat) : (s.closeEmpty n).linkView = s.linkView := by
  simp [State.closeEmpty]

@[simp] theorem State.rejectGroup_linkView (s : State) (n : Nat) (e : FirstError) : (s.rejectGroup n e).linkView = s.linkView := by
  rw [State.rejectGroup_eq]
  rfl

@[simp] theorem State.rejectOpen_linkView (s : State) (c : Cause) (spared : Option Nat) :
    (s.rejectOpen c spared).linkView = s.linkView := by
  unfold State.rejectOpen
  generalize List.range Config.slots = ns
  induction ns generalizing s with
  | nil => rfl
  | cons n ns ih =>
    have first : (s.rejectIfOpen c spared n).linkView = s.linkView := by
      unfold State.rejectIfOpen
      split <;> simp
    exact (ih _).trans first

@[simp] theorem State.post_linkView (s : State) : s.post.linkView = s.linkView := by
  unfold State.post State.numberFence
  split
  · rfl
  · dsimp only
    split_ifs <;> simp

@[simp] theorem State.drainComplete_linkView (s : State) : s.drainComplete.linkView = s.linkView := by
  unfold State.drainComplete
  split
  · rw [State.report_linkView]; rfl
  · rfl

@[simp] theorem observe_linkView (f : State → State) (s : State) : (observe f s).linkView = (f s).linkView := rfl

@[simp] theorem State.followUp_linkView (s : State) (o : Nat) : (s.followUp o).linkView = s.linkView := by
  have posted (os : List ReadyOutcome) : ∀ s : State, (os.foldl (fun t _ => observe State.post t) s).linkView = s.linkView := by
    induction os with
    | nil => exact fun _ => rfl
    | cons o os ih => exact fun s => (ih _).trans s.post_linkView
  unfold State.followUp
  split
  · rw [observe_linkView, State.drainComplete_linkView]
    exact posted _ s
  · rfl

/-! ### The engines, the journal and recovery -/

@[simp] theorem State.commitTake_linkView (s : State) : s.commitTake.linkView = s.linkView := by
  unfold State.commitTake
  split
  · split <;> simp
  · rfl

@[simp] theorem State.handOver_linkView (s : State) (start : Nat) (seq : Word) (len : Nat) :
    (s.handOver start seq len).linkView = s.linkView := by
  unfold State.handOver
  split
  · dsimp only
    split <;> simp
  · rfl

@[simp] theorem State.tryGrant_linkView (s : State) : s.tryGrant.linkView = s.linkView := by
  unfold State.tryGrant
  split
  · rfl
  · dsimp only
    split_ifs <;> simp

@[simp] theorem State.abandonUnit_linkView (s : State) (u : CommitUnit) : (s.abandonUnit u).linkView = s.linkView := by
  unfold State.abandonUnit State.abandonSlot
  split <;> simp

@[simp] theorem State.makeDurable_linkView (s : State) (u : CommitUnit) : (s.makeDurable u).linkView = s.linkView := by
  unfold State.makeDurable
  dsimp only
  split <;> simp

@[simp] theorem State.markDone_linkView (s : State) : s.markDone.linkView = s.linkView := by
  unfold State.markDone
  dsimp only
  split <;> split <;> simp

@[simp] theorem State.markLost_linkView (s : State) : s.markLost.linkView = s.linkView := by
  unfold State.markLost State.dropUnit
  split <;> simp

@[simp] theorem State.entryDone_linkView (s : State) : s.entryDone.linkView = s.linkView := by
  unfold State.entryDone
  dsimp only
  split_ifs <;> rfl

@[simp] theorem State.skipDone_linkView (s : State) : s.skipDone.linkView = s.linkView := by
  unfold State.skipDone
  split <;> simp

@[simp] theorem State.presentAnchor_linkView (s : State) : s.presentAnchor.linkView = s.linkView := by
  unfold State.presentAnchor
  split <;> rfl

@[simp] theorem State.anchorDone_linkView (s : State) : s.anchorDone.linkView = s.linkView := by
  unfold State.anchorDone State.anchorTaken
  split
  · dsimp only
    split <;> simp
  · rfl

@[simp] theorem State.applyTake_linkView (s : State) : s.applyTake.linkView = s.linkView := by
  unfold State.applyTake
  split
  · split
    · split <;> rfl
    · rfl
  · rfl

@[simp] theorem State.finishUnit_linkView (s : State) (u : CommitUnit) : (s.finishUnit u).linkView = s.linkView := by
  unfold State.finishUnit State.askAnchor
  dsimp only
  rw [State.applyTake_linkView]
  split
  · split <;> simp
  · rfl

@[simp] theorem State.applyDone_linkView (s : State) : s.applyDone.linkView = s.linkView := by
  unfold State.applyDone
  split
  · split
    · split
      · dsimp only
        split
        · split
          · rfl
          · exact State.finishUnit_linkView _ _
        · rfl
      · rfl
    · rfl
  · rfl

@[simp] theorem State.recReadOf_linkView (s : State) (b q : Nat) (r : Recovery) : (s.recReadOf b q r).linkView = s.linkView := rfl

@[simp] theorem State.scanAt_linkView (s : State) (r : Recovery) : (s.scanAt r).linkView = s.linkView := rfl

@[simp] theorem State.scanEnd_linkView (s : State) (why : EndReason) : (s.scanEnd why).linkView = s.linkView := rfl

@[simp] theorem State.replayNext_linkView (s : State) (k : Nat) : (s.replayNext k).linkView = s.linkView := by
  unfold State.replayNext
  dsimp only
  split
  · rfl
  · split <;> rfl

@[simp] theorem State.recAnchorRead_linkView (s : State) (ws : List Word) : (s.recAnchorRead ws).linkView = s.linkView := by
  unfold State.recAnchorRead
  split
  · rfl
  · split <;> rfl
  · rfl

@[simp] theorem State.recRead_linkView (s : State) (ws : List Word) : (s.recRead ws).linkView = s.linkView := by
  unfold State.recRead State.judgeFirst State.judgeHeader State.judgeMark
  dsimp only
  split
  · split_ifs <;> rfl
  · split_ifs <;> rfl
  · split_ifs <;> rfl
  · split_ifs <;> rfl
  · split_ifs
    · rfl
    · exact State.replayNext_linkView _ _
  · rfl

@[simp] theorem State.recReplayed_linkView (s : State) : s.recReplayed.linkView = s.linkView := by
  unfold State.recReplayed
  split <;> simp

@[simp] theorem State.recComplete_linkView (s : State) (copy : Fin 2) (gen : Word) : (s.recComplete copy gen).linkView = s.linkView := by
  unfold State.recComplete
  dsimp only
  rw [State.report_linkView]
  rfl

@[simp] theorem State.recAnchorWritten_linkView (s : State) : s.recAnchorWritten.linkView = s.linkView := by
  unfold State.recAnchorWritten
  dsimp only
  split
  · simp
  · exact State.recComplete_linkView _ _ _
  · rfl

@[simp] theorem State.settleUnits_linkView (s : State) (dest : OpState) : (s.settleUnits dest).linkView = s.linkView := by
  have abandoned (us : List CommitUnit) : ∀ s : State, (us.foldl State.abandonUnit s).linkView = s.linkView := by
    induction us with
    | nil => exact fun _ => rfl
    | cons u us ih => exact fun s => (ih _).trans (s.abandonUnit_linkView u)
  exact abandoned _ s

@[simp] theorem State.stopEngines_linkView (s : State) : s.stopEngines.linkView = s.linkView := rfl

@[simp] theorem State.stopRecovery_linkView (s : State) (st : RecStatus) : (s.stopRecovery st).linkView = s.linkView := by
  unfold State.stopRecovery
  split <;> rfl

@[simp] theorem State.furtherFault_linkView (s : State) (o : Outstanding) : (s.furtherFault o).linkView = s.linkView := by
  unfold State.furtherFault
  split <;> rfl

@[simp] theorem State.release_linkView (s : State) (cap jrn : BitVec 2) : (s.release cap jrn).linkView = s.linkView := by
  unfold State.release
  dsimp only
  split <;> rfl

@[simp] theorem State.takeRelease_linkView (s : State) (cap jrn : BitVec 2) : (s.takeRelease cap jrn).linkView = s.linkView := by
  unfold State.takeRelease
  split <;> simp

end Sys2Proof.Machine
end

