-- ==== Sys2Proof/Proofs/LinkKept.lean ====
section
/-! PROOF. Every step leaves an IDLE link empty, no receipt undriven and the Read Assembly at rest outside the streaming of a common read
(spec/07 R110, R123, spec/05 R91). -/

namespace Sys2Proof.Machine

/-! ### The three ways in which a state is as the invariant says -/

/-- No slot of the Read Assembly holds a span of a burst being served. -/
def State.spansAtRest (s : State) : Prop := ∀ x ∈ s.reads.slots, x.atRest

/-- While a common read streams nothing is asked of the Read Assembly. -/
theorem State.linkOk_of_reading {s : State} (hst : s.link.st = .streaming) (hr : s.link.commonRead = true)
    (hw : s.ctrl.holdWritten = none) : s.linkOk := by
  refine ⟨fun h => ?_, ?_, hw, .inl ⟨hst, hr⟩⟩ <;> simp [hst] at *

/-- A busy link with the Read Assembly at rest. -/
theorem State.linkOk_of_atRest {s : State} (hidle : s.link.st ≠ .idle) (hreceipt : s.link.st ≠ .receipt)
    (hw : s.ctrl.holdWritten = none) (hr : s.spansAtRest) : s.linkOk := ⟨fun h => absurd h hidle, hreceipt, hw, .inr hr⟩

/-- A blank link. -/
theorem State.linkOk_of_blank {s : State} (hl : s.link = {}) (hw : s.ctrl.holdWritten = none) (hr : s.spansAtRest) : s.linkOk :=
  ⟨fun _ => hl, by simp [hl], hw, .inr hr⟩

/-- Outside the streaming of a common read the Read Assembly is at rest. -/
theorem State.linkOk.atRest {s : State} (h : s.linkOk) (hs : s.link.st ≠ .streaming) : s.spansAtRest :=
  h.2.2.2.resolve_left fun k => hs k.1

theorem State.linkOk.atRest_of_other {s : State} (h : s.linkOk) (hs : s.link.commonRead = false) : s.spansAtRest :=
  h.2.2.2.resolve_left fun k => by simp [hs] at k

theorem State.linkOk.unwritten {s : State} (h : s.linkOk) : s.ctrl.holdWritten = none := h.2.2.1

/-- What the link is by header word 0 stays with that word. -/
theorem Link.commonRead_congr {l m : Link} (h : l.hdr0 = m.hdr0) : l.commonRead = m.commonRead := by
  simp [Link.commonRead, Link.isAttr, Link.isRead, Link.h0, h]

/-- A change of a busy link that leaves its state and header word 0. -/
theorem State.linkOk.setLink {s : State} {l : Link} (h : s.linkOk) (hst : l.st = s.link.st) (hidle : s.link.st ≠ .idle)
    (h0 : l.hdr0 = s.link.hdr0) : (s.setLink l).linkOk := by
  obtain ⟨_, hreceipt, hw, hr⟩ := h
  refine ⟨fun k => absurd (hst ▸ k) hidle, by rwa [State.setLink_link, hst], hw, ?_⟩
  rw [State.setLink_link, hst, Link.commonRead_congr h0]
  exact hr

/-! ### The shared operations of the link -/

/-- A receipt leaves the link blank and no written HOLD field. -/
theorem State.driveReceipt_linkOk {s : State} (v : Verdict) (c : Bool) (h : s.spansAtRest) : (s.driveReceipt v c).linkOk := by
  refine State.linkOk_of_blank rfl rfl ?_
  unfold State.driveReceipt
  dsimp only
  split
  · rw [State.startIdle_setOut, State.startIdle_eq]
    exact h
  · exact h

theorem State.discardSpans_spansAtRest (s : State) : s.discardSpans.spansAtRest := s.discardSpans_atRest.1

/-- The end of a data phase leaves the Read Assembly at rest, discarding the spans of a common read. -/
theorem State.endData_spansAtRest {s : State} (h : s.link.commonRead = true ∨ s.spansAtRest) : s.endData.spansAtRest := by
  unfold State.endData
  split
  case isTrue => exact s.discardSpans_spansAtRest
  case isFalse hc =>
    have rest := h.resolve_left hc
    split
    · unfold State.handCollecting
      dsimp only
      split <;> exact rest
    · exact rest

/-- A stop of the bridge. -/
theorem State.bridgeStop_linkOk {s : State} (pv : Option Verdict) (cut : Bool) (h : s.linkOk) : (s.bridgeStop pv cut).linkOk := by
  have stopped : (s.bridgeStop pv cut).link.st = .stopping := by rw [State.bridgeStop_eq]
  refine State.linkOk_of_atRest (by simp [stopped]) (by simp [stopped]) ?_ ?_
  · rw [State.bridgeStop_eq]
    exact h.unwritten
  · refine State.endData_spansAtRest ?_
    by_cases hc : s.link.commonRead = true
    · exact .inl hc
    · exact .inr (h.atRest_of_other (by simpa using hc))

/-- The entry to CHECKING. -/
theorem State.enterChecking_linkOk {s : State} (hw : s.ctrl.holdWritten = none) (hr : s.spansAtRest) : s.enterChecking.linkOk := by
  unfold State.enterChecking
  dsimp only
  split <;> exact State.linkOk_of_atRest (by simp) (by simp) hw hr

theorem State.requestDue_linkOk {s : State} (h : s.linkOk) : s.requestDue.linkOk := by
  unfold State.requestDue
  split
  · exact State.bridgeStop_linkOk _ _ h
  · exact h

/-- An issued span leaves the link, and the streaming of a common read goes on. -/
theorem State.issueSpan_link (s : State) : s.issueSpan.link = s.link ∧ s.issueSpan.ctrl = s.ctrl := by
  unfold State.issueSpan
  dsimp only
  split
  · exact ⟨rfl, rfl⟩
  · split
    · exact ⟨rfl, rfl⟩
    · split <;> exact ⟨rfl, rfl⟩

theorem State.issueSpans_linkOk {s : State} (h : s.linkOk) : s.issueSpans.linkOk := by
  have same (t : State) : t.issueSpan.link = t.link ∧ t.issueSpan.ctrl = t.ctrl := t.issueSpan_link
  unfold State.issueSpans
  split
  case isTrue hs =>
    refine State.linkOk_of_reading ?_ ?_ ?_
    · simpa only [same] using hs.1
    · simpa only [same] using hs.2
    · simpa only [same] using h.unwritten
  case isFalse => exact h

theorem State.reachSpan_linkOk {s : State} (h : s.linkOk) : s.reachSpan.linkOk := by
  unfold State.reachSpan
  split
  case isTrue hs =>
    obtain ⟨hst, hread, _⟩ := hs
    have goes_on (t : State) (hst : t.link.st = .streaming) (hread : t.link.commonRead = true)
        (hw : t.ctrl.holdWritten = none) : t.linkOk := State.linkOk_of_reading hst hread hw
    split
    case h_1 n _ =>
      split
      case h_1 => exact h
      case h_2 =>
        dsimp only
        split <;> exact State.linkOk_of_reading hst hread h.unwritten
      case h_3 => exact State.bridgeStop_linkOk _ _ h
      case h_4 => exact State.linkOk_of_reading hst hread h.unwritten
    case h_2 => exact State.linkOk_of_reading hst hread h.unwritten
  case isFalse => exact h

/-- A slot at rest stays so at any completion. -/
theorem SpanSlot.complete_atRest {x : SpanSlot} (c : Completion) (h : x.atRest) : (x.complete c).atRest := by
  unfold SpanSlot.complete
  obtain h | h := h
  · rw [h]
    exact .inl h
  · rw [h]
    exact .inl rfl

theorem State.spanCompleted_linkOk {s : State} (n : Nat) (c : Completion) (h : s.linkOk) : (s.spanCompleted n c).linkOk := by
  refine State.reachSpan_linkOk (State.issueSpans_linkOk (State.linkOk_congr (State.reportIf_linkView _ _ _) ?_))
  obtain ⟨hidle, hreceipt, hw, hr⟩ := h
  refine ⟨hidle, hreceipt, hw, hr.imp_right fun rest x hx => ?_⟩
  obtain hx | ⟨y, hy, rfl⟩ := mem_upd hx
  · exact rest x hx
  · exact SpanSlot.complete_atRest c (rest y (List.mem_of_getElem? hy))

/-! ### Words of a write -/

theorem State.handCollecting_linkOk {s : State} (h : s.linkOk) (hidle : s.link.st ≠ .idle) : s.handCollecting.linkOk := by
  unfold State.handCollecting
  dsimp only
  split
  · exact h
  · exact State.linkOk_congr (State.setPort_linkView _ _) (h.setLink rfl hidle rfl)

theorem State.offerRecord_linkOk {s : State} (r : Nat) (w : Word) (h : s.linkOk) (hidle : s.link.st ≠ .idle) :
    (s.offerRecord r w).linkOk := by
  unfold State.offerRecord
  split_ifs
  · exact State.linkOk.setLink (h.setLink rfl hidle rfl) rfl hidle rfl
  · exact State.bridgeStop_linkOk _ _ h
  · exact State.linkOk.setLink (State.linkOk_congr (State.setStaging_linkView _ _) h) rfl hidle rfl

/-- A presented word, whatever the kind of write. -/
theorem State.offer_linkOk {s : State} (w : Word) (h : s.linkOk) (hidle : s.link.st ≠ .idle) : (s.offer w).linkOk := by
  have holds (c : HoldCause) : (s.holdWord c w).linkOk := State.linkOk.setLink (h.setLink rfl hidle rfl) rfl hidle rfl
  unfold State.offer
  split
  · unfold State.offerAttr
    split
    · exact State.bridgeStop_linkOk _ _ h
    · exact h.setLink rfl hidle rfl
  · split
    · exact State.bridgeStop_linkOk _ _ h
    · split
      · exact State.bridgeStop_linkOk _ _ h
      · split
        · unfold State.offerDirect
          dsimp only
          split
          · exact holds _
          · split
            · exact State.handCollecting_linkOk (h.setLink rfl hidle rfl) hidle
            · exact h.setLink rfl hidle rfl
        · unfold State.offerStaged
          split
          · exact State.offerRecord_linkOk _ w h hidle
          · split
            · refine State.offerRecord_linkOk _ w ?_ hidle
              exact State.linkOk.setLink (State.linkOk_congr (State.setStaging_linkView _ _) h) rfl hidle rfl
            · split
              · exact holds _
              · exact State.bridgeStop_linkOk _ _ h

theorem State.strobe_linkOk {s : State} (w : Word) (h : s.linkOk) : (s.strobe w).linkOk := by
  unfold State.strobe
  split
  case isTrue hs =>
    have hidle : s.link.st ≠ .idle := by simp [hs.1]
    split
    · exact h.setLink rfl hidle rfl
    · exact State.offer_linkOk w (h.setLink rfl hidle rfl) hidle
  case isFalse => exact h

theorem State.restoreReady_linkOk {s : State} (h : s.linkOk) : s.restoreReady.linkOk := by
  unfold State.restoreReady
  split
  · split
    case isTrue hs =>
      have hidle : s.link.st ≠ .idle := by simp [hs.1]
      split
      · exact State.offer_linkOk _ (h.setLink rfl hidle rfl) hidle
      · exact h.setLink rfl hidle rfl
    case isFalse => exact h
  · exact h

/-! ### Words of a read, pauses and stops -/

theorem State.readWordOut_linkOk {s : State} (h : s.linkOk) : s.readWordOut.linkOk := by
  unfold State.readWordOut
  split
  case isTrue hs =>
    have hidle : s.link.st ≠ .idle := by simp [hs.1]
    have sent (w : Word) : (s.sendWord w).linkOk :=
      State.linkOk.setLink (State.linkOk_congr (State.setOut_linkView _ _) h) rfl hidle rfl
    split
    · exact State.requestDue_linkOk h
    · split
      case isTrue => exact sent _
      case isFalse hattr =>
        have hread : s.link.commonRead = true := by simp [Link.commonRead, hattr, hs.2.1]
        unfold State.readCommon State.afterWord
        split
        · split
          · split
            · refine State.reachSpan_linkOk (State.issueSpans_linkOk ?_)
              exact State.linkOk_of_reading hs.1 hread h.unwritten
            · exact sent _
          · exact h
        · exact h
  case isFalse => exact h

theorem State.masterPause_linkOk {s : State} (h : s.linkOk) : s.masterPause.linkOk := by
  unfold State.masterPause
  split
  case isTrue hs =>
    split
    · exact h
    · exact h.setLink rfl (by simp [hs]) rfl
  case isFalse => exact h

theorem State.acknowledge_linkOk {s : State} (h : s.linkOk) : s.acknowledge.linkOk := by
  unfold State.acknowledge
  split
  case isTrue hs => exact State.enterChecking_linkOk h.unwritten (h.atRest (by simp [hs]))
  case isFalse => exact h

theorem State.masterStop_linkOk {s : State} (h : s.linkOk) : s.masterStop.linkOk := by
  unfold State.masterStop
  split
  case isTrue =>
    refine State.enterChecking_linkOk ?_ (State.endData_spansAtRest ?_)
    · rw [State.endData_eq]
      exact h.unwritten
    · by_cases hc : s.link.commonRead = true
      · exact .inl hc
      · exact .inr (h.atRest_of_other (by simpa using hc))
  case isFalse => exact State.acknowledge_linkOk h

/-! ### The end of a burst -/

/-- Operations that leave the Read Assembly leave it at rest. -/
theorem State.spansAtRest_congr {s t : State} (e : t.linkView = s.linkView) (h : s.spansAtRest) : t.spansAtRest := by
  simp only [State.linkView, Prod.mk.injEq] at e
  obtain ⟨_, hr, _⟩ := e
  unfold State.spansAtRest
  rwa [hr]

@[simp] theorem State.stagedTaken_linkView (s : State) (v : Verdict) : (s.stagedTaken v).linkView = s.linkView := by
  unfold State.stagedTaken
  dsimp only
  split
  · split
    · simp
    · split <;> simp
  · split
    · split_ifs <;> simp
    · split <;> split <;> simp

@[simp] theorem State.stagedFailed_linkView (s : State) (v : Verdict) : (s.stagedFailed v).linkView = s.linkView := by
  unfold State.stagedFailed
  dsimp only
  split
  · simp
  · split <;> simp

theorem State.finishStaged_linkOk {s : State} (v : Verdict) (h : s.spansAtRest) : (s.finishStaged v).linkOk := by
  refine State.driveReceipt_linkOk _ _ (State.spansAtRest_congr ?_ h)
  split <;> simp

theorem State.finishPlain_linkOk {s : State} (v : Verdict) (h : s.spansAtRest) : (s.finishPlain v).linkOk :=
  State.driveReceipt_linkOk _ _ (State.spansAtRest_congr (State.reportIf_linkView _ _ _) h)

/-- A DIRECT write that ends drives its receipt. -/
theorem State.settleDirect_linkOk {s : State} (h : s.linkOk) : s.settleDirect.linkOk := by
  unfold State.settleDirect
  split
  case isTrue hs =>
    refine State.driveReceipt_linkOk _ _ (State.spansAtRest_congr ?_ (h.atRest (by simp [hs.2.1])))
    simp
  case isFalse => exact h

theorem State.exchangeDone_linkOk {s : State} (x : Exchange) (h : s.linkOk) (hr : s.spansAtRest) : (s.exchangeDone x).linkOk :=
  State.settleDirect_linkOk (State.linkOk_of_atRest (by simp) (by simp) h.unwritten hr)

/-- A word applied at an offset leaves the Read Assembly. -/
theorem State.applyRaw_reads (s : State) (o : Nat) (w : Word) : (s.applyRaw o w).reads = s.reads := by
  have same {t u : State} (e : t.linkView = u.linkView) : t.reads = u.reads := congrArg (fun x => x.2.1) e
  have refused (c : ConfigCode) : (s.refuseWord c).reads = s.reads := by
    rw [State.refuseWord, State.report_eq]
    rfl
  have written : (s.writeControl w).reads = s.reads := by
    unfold State.writeControl
    dsimp only
    split <;> rfl
  unfold State.applyRaw
  split_ifs
  · unfold State.applyControl
    split
    · exact refused _
    · dsimp only
      split_ifs
      · exact written
      · exact (same (State.rejectOpen_linkView _ _ _)).trans written
      · exact written
  · unfold State.applyFlags; split <;> rfl
  · unfold State.applyEnable; split <;> rfl
  · unfold State.applyLimit
    split
    · rfl
    · dsimp only
      split
      · exact refused _
      · rfl
  · unfold State.applyLimit
    split
    · rfl
    · dsimp only
      split
      · exact refused _
      · rfl
  · unfold State.applyLimit
    split <;> rfl
  · unfold State.applyAck
    dsimp only
    split
    · exact refused _
    · split
      · split
        · exact same (State.setTag_linkView _ _ _)
        · rfl
      · exact refused _
  · unfold State.applyTable
    split
    · rfl
    · exact refused _
  · rfl

theorem State.applyWords_reads (s : State) (o : Nat) (ws : List Word) : (s.applyWords o ws).reads = s.reads := by
  induction ws generalizing s o with
  | nil => rfl
  | cons w ws ih =>
    have applied : (s.applyWord o w).reads = s.reads := s.applyRaw_reads o w
    cases ws with
    | nil => exact applied
    | cons v ws =>
      have followed : ((s.applyWord o w).followUp o).reads = (s.applyWord o w).reads :=
        congrArg (fun x => x.2.1) (State.followUp_linkView _ o)
      rw [State.applyWords_cons, ih, followed, applied]

theorem State.finishWrite_linkOk {s : State} (v : Verdict) (h : s.spansAtRest) : (s.finishWrite v).linkOk := by
  unfold State.finishWrite
  split_ifs
  · refine State.driveReceipt_linkOk _ _ ?_
    unfold State.spansAtRest
    rwa [State.applyWords_reads]
  · exact State.linkOk_congr (observe_linkView _ s) (State.finishPlain_linkOk v h)
  · exact State.linkOk_congr (observe_linkView _ s) (State.finishStaged_linkOk v h)

theorem State.takeCheck_linkOk {s : State} (w : Word) (h : s.linkOk) : (s.takeCheck w).linkOk := by
  unfold State.takeCheck
  dsimp only
  split
  case isTrue hs =>
    have rest : s.spansAtRest := h.atRest (by
      obtain ⟨hst, _⟩ : s.link.st = .checking ∧ s.link.handshake.isSome = true := by simpa [Link.awaitsCheck] using hs.1
      simp [hst])
    split
    · exact State.linkOk_congr (observe_linkView _ s) (State.exchangeDone_linkOk _ h rest)
    · exact State.finishWrite_linkOk _ rest
  case isFalse => exact h

theorem State.takeReply_linkOk {s : State} (w : Word) (h : s.linkOk) : (s.takeReply w).linkOk := by
  unfold State.takeReply
  split
  case isTrue hs =>
    have rest : s.spansAtRest := h.atRest (by
      obtain ⟨hst, _⟩ : s.link.st = .checking ∧ s.link.handshake.isSome = true := by simpa [Link.awaitsCheck] using hs.1
      simp [hst])
    exact State.linkOk_congr (observe_linkView _ s) (State.finishPlain_linkOk _ rest)
  case isFalse => exact h

theorem State.stallExpired_linkOk {s : State} (h : s.linkOk) : s.stallExpired.linkOk := by
  unfold State.stallExpired
  split
  · split
    case isTrue hs => exact State.driveReceipt_linkOk _ _ (h.atRest (by simp [hs]))
    case isFalse =>
      split
      · exact State.bridgeStop_linkOk _ _ h
      · exact h
  · exact h

theorem State.handshakeExpired_linkOk {s : State} (h : s.linkOk) : s.handshakeExpired.linkOk := by
  unfold State.handshakeExpired
  dsimp only
  split
  case isTrue hs =>
    have rest : s.spansAtRest := h.atRest fun k => by simp [k] at hs
    split
    · exact State.linkOk_congr (observe_linkView _ s) (State.exchangeDone_linkOk _ h rest)
    · split
      · exact State.linkOk_congr (observe_linkView _ s) (State.finishStaged_linkOk _ rest)
      · exact State.driveReceipt_linkOk _ _ rest
  case isFalse => exact h

/-! ### Faults, resets and releases -/

theorem State.stopBurst_linkOk {s : State} (dest : OpState) (h : s.linkOk) : (s.stopBurst dest).linkOk := by
  unfold State.stopBurst
  dsimp only
  split
  · split
    case h_1 hst => exact State.bridgeStop_linkOk _ _ (h.setLink rfl (by simp [hst]) rfl)
    case h_2 hst => exact h.setLink rfl (by simp [hst]) rfl
    case h_3 hst => exact h.setLink rfl (by simp [hst]) rfl
    case h_4 => exact h
  · exact h

theorem State.setPort_linkOk {a : State} (v : Port) (h : a.linkOk) : (a.setPort v).linkOk :=
  State.linkOk_congr rfl h

theorem State.setOpState_linkOk {a : State} (op : OpState) (h : a.linkOk) : (a.setCtrl { a.ctrl with opState := op }).linkOk :=
  State.linkOk_congr rfl h

theorem State.stopFrom_linkOk {a : State} (dest : OpState) (rs : RecStatus) (slot : Option Nat) (h : a.linkOk) :
    ((((a.rejectOpen (.verdict .stopped) slot).settleUnits dest).stopEngines).stopRecovery rs).linkOk :=
  State.linkOk_congr (by simp) h

theorem State.enterStopped_linkOk {s : State} (dest : OpState) (rs : RecStatus) (h : s.linkOk) : (s.enterStopped dest rs).linkOk :=
  State.settleDirect_linkOk (State.setOpState_linkOk dest (State.stopFrom_linkOk dest rs _ (State.stopBurst_linkOk dest h)))

theorem State.errorReport_linkOk {s : State} (o : Outstanding) (h : s.linkOk) : (s.errorReport o).linkOk := by
  unfold State.errorReport
  split
  · exact State.enterStopped_linkOk _ _ h
  · exact State.enterStopped_linkOk _ _ h
  · exact State.enterStopped_linkOk _ _ h
  · exact State.linkOk_congr (State.furtherFault_linkView _ _) h
  · exact State.linkOk_congr (State.furtherFault_linkView _ _) h
  · exact h

theorem State.powerWarn_linkOk {s : State} (h : s.linkOk) : s.powerWarn.linkOk := by
  unfold State.powerWarn
  dsimp only
  split
  · exact h
  · exact State.enterStopped_linkOk _ _ h

theorem State.resetBlocks_linkOk (s : State) (op : OpState) (hold : Bool) : (s.resetBlocks (Ctrl.init op hold)).linkOk :=
  State.linkOk_of_blank rfl rfl fun _ hx => .inl (List.eq_of_mem_replicate hx ▸ rfl)

theorem State.takeHold_linkOk {s : State} (h : s.linkOk) : s.takeHold.linkOk := by
  unfold State.takeHold
  split
  · exact s.resetBlocks_linkOk _ _
  · exact h

theorem State.takeRelease_linkOk {s : State} (cap jrn : BitVec 2) (h : s.linkOk) : (s.takeRelease cap jrn).linkOk :=
  State.linkOk_congr (s.takeRelease_linkView cap jrn) h

/-- The hold or release that is due leaves an IDLE link IDLE. -/
theorem State.settleDue_idle {s : State} (h : s.link.st = .idle) : s.settleDue.link.st = .idle := by
  have released : s.settleDue.link = s.takeHold.link := congrArg (fun x => x.1) (s.takeHold.takeRelease_linkView _ _)
  rw [released]
  unfold State.takeHold
  split
  · rfl
  · exact h

theorem State.takeHeader_linkOk {s : State} (w : Word) (h : s.linkOk) : (s.takeHeader w).linkOk := by
  unfold State.takeHeader
  split
  case isTrue hs =>
    have due : s.settleDue.linkOk := State.takeRelease_linkOk _ _ (State.takeHold_linkOk h)
    refine State.linkOk_of_atRest (by simp) (by simp) due.unwritten ?_
    exact due.atRest (by simp [State.settleDue_idle hs.2])
  case isFalse => exact h

/-! ### The opening -/

theorem State.refuse_linkOk {s : State} (v : Verdict) (h : s.spansAtRest) : (s.refuse v).linkOk := by
  refine State.driveReceipt_linkOk _ _ (State.spansAtRest_congr ?_ h)
  split
  · split <;> simp
  · simp

@[simp] theorem State.bindGroup_linkView (s : State) (t : Nat) (slot : Option Nat) : (s.bindGroup t slot).linkView = s.linkView := by
  unfold State.bindGroup State.openGroup
  split <;> simp

theorem State.accept_linkOk {s : State} (record : Option Nat) (f : Bool) (hw : s.ctrl.holdWritten = none) (hr : s.spansAtRest) :
    (s.accept record f).linkOk := by
  have streams (t : State) (e : t.reads = s.reads) (hw : t.ctrl.holdWritten = none) (hst : t.link.st = .streaming) : t.linkOk :=
    State.linkOk_of_atRest (by simp [hst]) (by simp [hst]) hw (by unfold State.spansAtRest; rwa [e])
  unfold State.accept
  dsimp only
  split
  · unfold State.acceptAttr
    dsimp only
    split <;> exact streams _ rfl hw rfl
  case isFalse hattr =>
    split
    case isTrue hread =>
      refine State.reachSpan_linkOk (State.issueSpans_linkOk (State.linkOk_of_reading rfl ?_ hw))
      have attr : s.link.isAttr = false := by simpa using hattr
      show (!s.link.isAttr && s.link.isRead) = true
      rw [attr, show s.link.isRead = true from hread]
      rfl
    case isFalse =>
      unfold State.acceptWrite
      dsimp only
      have bound := State.bindGroup_linkView (s.setOut { s.out with answer := some .accept }) s.link.tag
        (State.slotFor (s.setOut { s.out with answer := some .accept }) s.link.tag
          (State.modeAt (s.setOut { s.out with answer := some .accept }) s.link.start))
      simp only [State.linkView, Prod.mk.injEq] at bound
      obtain ⟨_, bound_reads, bound_written⟩ := bound
      cases record with
      | none => exact streams _ bound_reads (bound_written.trans hw) rfl
      | some r => exact streams _ bound_reads (bound_written.trans hw) rfl

theorem State.takeOpening_linkOk {s : State} (w : Word) (h : s.linkOk) : (s.takeOpening w).linkOk := by
  unfold State.takeOpening
  split
  case isTrue hs =>
    have view : (s.wordOneTaken w).linkView =
        (s.setLink { s.link with hdr1 := some w, check := checkWord s.link.check w, stall := none }).linkView := by
      simp [State.wordOneTaken]
    have rest : (s.wordOneTaken w).spansAtRest := State.spansAtRest_congr view (h.atRest (by simp [hs]))
    have unwritten : (s.wordOneTaken w).ctrl.holdWritten = none := (congrArg (fun x => x.2.2) view).trans h.unwritten
    cases (s.wordOneTaken w).decideOpening with
    | refuse v => exact State.refuse_linkOk v rest
    | withhold => exact State.linkOk_of_atRest (by simp [State.answer]) (by simp [State.answer]) unwritten rest
    | accept record f => exact State.accept_linkOk record f unwritten rest
  case isFalse => exact h

theorem State.answerWithheld_linkOk {s : State} (h : s.linkOk) : s.answerWithheld.linkOk := by
  unfold State.answerWithheld
  split
  case isTrue hs =>
    have rest : s.spansAtRest := h.atRest (by simp [hs])
    split
    · exact State.refuse_linkOk _ rest
    · split
      · exact State.accept_linkOk _ _ h.unwritten rest
      · exact h
  case isFalse => exact h

theorem State.attrWrite_linkOk {s : State} (o : Nat) (w : Word) (h : s.linkOk) : (s.attrWrite o w).linkOk := by
  unfold State.attrWrite
  split
  · exact State.takeCheck_linkOk _ (State.masterStop_linkOk (State.strobe_linkOk w
      (State.takeOpening_linkOk _ (State.takeHeader_linkOk _ h))))
  · exact h

/-! ### The Memory Port -/

theorem State.grantTo_linkOk {s : State} (r : Requester) (h : s.linkOk) : (s.grantTo r).linkOk := by
  have issued (t : State) (e : t.linkView = s.linkView) : t.linkOk := State.linkOk_congr e h
  cases r with
  | read =>
    simp only [State.grantTo, State.grantRead]
    split
    · exact issued _ rfl
    · exact h
  | direct =>
    simp only [State.grantTo, State.grantDirect]
    split
    · split
      case isTrue hs => exact State.handCollecting_linkOk (issued _ rfl) (by rw [hs.1]; nofun)
      case isFalse => exact issued _ rfl
    · exact h
  | commit =>
    simp only [State.grantTo, State.grantCommit]
    split
    · split <;> exact issued _ rfl
    · exact h
  | anchor =>
    simp only [State.grantTo, State.grantAnchor]
    split
    · exact issued _ rfl
    · exact h
  | apply =>
    simp only [State.grantTo, State.grantApply]
    split
    · exact issued _ rfl
    · exact h
  | recovery =>
    simp only [State.grantTo, State.grantRecovery]
    split
    · exact issued _ rfl
    · exact h

theorem State.arbitrate_linkOk {s : State} (h : s.linkOk) : s.arbitrate.linkOk := by
  unfold State.arbitrate
  split
  · split
    · exact State.grantTo_linkOk _ h
    · exact h
  · exact h

/-! ### The commands -/

/-- Whatever next state an outcome holds, its link is as the invariant says. -/
def LinkOkAfter (o : Host.Outcome State Fault Refusal) : Prop := ∀ t, o = .next t → t.linkOk

theorem LinkOkAfter.next {t : State} (h : t.linkOk) : LinkOkAfter (.next t) := fun _ e => Host.Outcome.next.inj e ▸ h

theorem LinkOkAfter.observed {s : State} {f : State → State} (h : (f s).linkOk) : LinkOkAfter (.next (observe f s)) :=
  .next (State.linkOk_congr (observe_linkView f s) h)

/-- A command that leaves the link, the Read Assembly and a written HOLD field alone. -/
theorem LinkOkAfter.frame {s t : State} (h : s.linkOk) (e : t.linkView = s.linkView) : LinkOkAfter (.next t) :=
  .next (State.linkOk_congr e h)

theorem State.withHead_linkOkAfter {s : State} (p : Outstanding → Bool) {k : Outstanding → State → State} (hs : s.linkOk)
    (h : ∀ o t, t.linkOk → (k o t).linkOk) : LinkOkAfter (s.withHead p k) := by
  intro t ht
  by_cases hp : s.port.outstanding.head?.any p = true
  · obtain ⟨o, rest, ho, hp⟩ := State.head_of_any hp
    rw [State.withHead_next k ho hp, Host.Outcome.next.injEq] at ht
    rw [← ht]
    exact State.linkOk_congr (observe_linkView _ s) (h o _ (State.setPort_linkOk _ hs))
  · rw [State.withHead_fault k (by simpa using hp)] at ht
    exact nomatch ht

/-- What a completion does once its request is removed. -/
theorem completed_linkOk (i : Instr) (o : Outstanding) (t : State) (h : t.linkOk) : (completed i o t).linkOk := by
  have write (st : Status) {done lost : State → State} (hd : (done t).linkOk) (hl : (lost (t.errorReport o)).linkOk) :
      (writeEnds st done lost o t).linkOk := by
    cases st with
    | ok => exact hd
    | error => exact hl
  have read (c : Completion) {done : List Word → State → State} (hd : ∀ ws, (done ws t).linkOk) : (readEnds c done o t).linkOk := by
    cases c with
    | ok ws => exact hd ws
    | error => exact State.errorReport_linkOk o h
  have error : (t.errorReport o).linkOk := State.errorReport_linkOk o h
  have frame {u : State} (e : u.linkView = t.linkView) : u.linkOk := State.linkOk_congr e h
  cases i with
  | skipCompletion st => exact write st (frame t.skipDone_linkView) error
  | commitRequestCompletion st => exact write st (frame t.entryDone_linkView) error
  | markCompletion st => exact write st (frame t.markDone_linkView) (State.linkOk_congr (State.markLost_linkView _) error)
  | applyCompletion st => exact write st (frame t.applyDone_linkView) error
  | anchorCompletion st => exact write st (frame t.anchorDone_linkView) error
  | directSpanCompletion st => exact write st (State.settleDirect_linkOk h) (State.settleDirect_linkOk error)
  | recoveryReplayWriteCompletion st => exact write st (frame t.recReplayed_linkView) error
  | recoveryAnchorWriteCompletion st => exact write st (frame t.recAnchorWritten_linkView) error
  | recoveryAnchorReadCompletion c => exact read c fun ws => frame (t.recAnchorRead_linkView ws)
  | recoveryReadCompletion c => exact read c fun ws => frame (t.recRead_linkView ws)
  | readSpanCompletion c => exact State.spanCompleted_linkOk _ c h
  | _ => exact h

theorem execDiscardedCompletion_linkOkAfter {s : State} (c : Completion) (h : s.linkOk) :
    LinkOkAfter (execDiscardedCompletion c s) := by
  unfold execDiscardedCompletion
  split
  · split
    · exact .next (State.setPort_linkOk _ h)
    · exact fun _ e => nomatch e
  · exact fun _ e => nomatch e

theorem execHold_linkOkAfter {s : State} (w : Word) (h : s.linkOk) : LinkOkAfter (execHold w s) := by
  refine .next ?_
  split
  · exact State.takeHold_linkOk h
  · exact State.takeHold_linkOk (State.attrWrite_linkOk _ w h)

theorem execHoldRelease_linkOkAfter {s : State} (w : Word) (cap jrn : BitVec 2) (h : s.linkOk) :
    LinkOkAfter (execHoldRelease w cap jrn s) := by
  refine .next ?_
  split
  · exact State.takeRelease_linkOk cap jrn h
  · exact State.takeRelease_linkOk cap jrn (State.attrWrite_linkOk _ w h)

theorem execResetRelease_linkOkAfter {s : State} (cap jrn : BitVec 2) (h : s.linkOk) : LinkOkAfter (execResetRelease cap jrn s) := by
  refine .frame h ?_
  split
  · rfl
  · rw [State.release_linkView, State.setPins_linkView]

theorem execAttnPulseEnd_linkOkAfter {s : State} (h : s.linkOk) : LinkOkAfter (execAttnPulseEnd s) := by
  refine .frame h ?_
  split <;> rfl

theorem exec_completion_linkOkAfter (i : Instr) {s : State} (hi : isCompletion i = true) (hd : ∀ c, i ≠ .discardedCompletion c)
    (h : s.linkOk) : LinkOkAfter (exec i s) := by
  rw [exec_eq_withHead s hi hd]
  exact State.withHead_linkOkAfter _ h (completed_linkOk _)

/-- Every command leaves the link as the invariant says. -/
theorem exec_linkOkAfter (i : Instr) {s : State} (h : s.linkOk) : LinkOkAfter (exec i s) := by
  cases i with
  | headerWord0 w => exact .next (State.takeHeader_linkOk w h)
  | opening w => exact .observed (State.takeOpening_linkOk w h)
  | withheldAnswer => exact .next (State.answerWithheld_linkOk h)
  | writeDataWord w => exact .next (State.strobe_linkOk w h)
  | restoreReady => exact .next (State.restoreReady_linkOk h)
  | readDataWord => exact .next (State.readWordOut_linkOk h)
  | masterPause => exact .next (State.masterPause_linkOk (State.requestDue_linkOk h))
  | masterStop => exact .next (State.masterStop_linkOk h)
  | masterAcknowledge => exact .next (State.acknowledge_linkOk (State.requestDue_linkOk h))
  | checkWord w => exact .next (State.takeCheck_linkOk w h)
  | checkReply w => exact .next (State.takeReply_linkOk w h)
  | stallTimerExpiry => exact .next (State.stallExpired_linkOk h)
  | handshakeTimerExpiry => exact .next (State.handshakeExpired_linkOk (State.requestDue_linkOk h))
  | groupIdleExpiry n =>
    refine .observed (State.linkOk_congr ?_ h)
    unfold State.idleExpired
    split <;> simp
  | attributeWordWrite _ w | arm w | drain w | defaultModeWrite w | attnControlWrite w | limitWrite _ w | regionTableWrite _ w
  | changedFlagsWrite w | attentionEnableWrite w | outcomeAck w => exact .next (State.attrWrite_linkOk _ w h)
  | hold w => exact execHold_linkOkAfter w h
  | holdRelease w cap jrn => exact execHoldRelease_linkOkAfter w cap jrn h
  | outcomePost => exact .observed (State.linkOk_congr s.post_linkView h)
  | drainComplete => exact .observed (State.linkOk_congr s.drainComplete_linkView h)
  | commitTakeUnit => exact .frame h s.commitTake_linkView
  | blockGrant => exact .observed (State.linkOk_congr s.tryGrant_linkView h)
  | arbiterGrant => exact .next (State.arbitrate_linkOk h)
  | applyTakeUnit => exact .frame h s.applyTake_linkView
  | discardedCompletion c => exact execDiscardedCompletion_linkOkAfter c h
  | hardReset => exact .next (State.linkOk_congr (State.setOut_linkView _ _) (s.resetBlocks_linkOk _ _))
  | resetRelease cap jrn => exact execResetRelease_linkOkAfter cap jrn h
  | pwarnAssert => exact .observed (State.powerWarn_linkOk h)
  | pwarnDeassert => exact .observed h
  | attnPulseEnd => exact execAttnPulseEnd_linkOkAfter h
  | skipCompletion | commitRequestCompletion | markCompletion | applyCompletion | anchorCompletion | directSpanCompletion
  | readSpanCompletion | recoveryAnchorReadCompletion | recoveryReadCompletion | recoveryReplayWriteCompletion
  | recoveryAnchorWriteCompletion =>
    exact exec_completion_linkOkAfter _ rfl (fun _ e => nomatch e) h

/-- Settles O60: the invariant does not speak of the queue, and every command keeps it. -/
theorem linkKept : Obligations.LinkKept := keeps_of_exec (fun _ _ => id) fun i _ t hs h => exec_linkOkAfter i hs t h

end Sys2Proof.Machine
end

