-- ==== Sys2Proof/Proofs/Lookup.lean ====
section
/-! PROOF. What the Region Decoder and the Overlay Map answer for an address, and the issue of a span. -/

namespace Sys2Proof.Machine

/-! ### Regions (06 R100, R103) -/

theorem Region.modeOf_covered {r : Region} {g : Nat} {e : RegionEntry} (he : e ∈ r.entries) (hc : e.covers g = true)
    (same : ∀ x ∈ r.entries, x.covers g = true → x.mode = e.mode) : r.modeOf g = e.mode := by
  unfold Region.modeOf
  split
  next x hx => exact same x (List.mem_of_find?_eq_some hx) (by simpa using List.find?_some hx)
  next hx => exact absurd hc (List.find?_eq_none.1 hx e he)

theorem Region.modeOf_uncovered {r : Region} {g : Nat} (h : ∀ e ∈ r.entries, e.covers g = false) : r.modeOf g = r.latched := by
  unfold Region.modeOf
  rw [List.find?_eq_none.2 fun e he => by simp [h e he]]

/-- The mode of an address is that of its granule. -/
theorem State.modeAt_congr (s : State) {a b : Nat} (h : b / 16384 = a / 16384) : s.modeAt b = s.modeAt a :=
  congrArg s.region.modeOf h

/-- Settles O13: the entry that is found covers the granule. -/
theorem modeOfAnAddress : Obligations.ModeOfAnAddress := fun s _ =>
  ⟨fun _ he hc same => Region.modeOf_covered he hc same, fun h => Region.modeOf_uncovered h, fun _ h => s.modeAt_congr h⟩

/-- Settles O14: between the start and the bound only the next granule's first word can change the mode. -/
theorem writeLimit : Obligations.WriteLimit := by
  intro s a ha
  have limit : s.writeLimit a =
      if (a / 16384 + 1) * 16384 < min s.straps.visible (a + 16384) ∧ s.modeAt ((a / 16384 + 1) * 16384) ≠ s.modeAt a then
        (a / 16384 + 1) * 16384
      else min s.straps.visible (a + 16384) := rfl
  by_cases h : (a / 16384 + 1) * 16384 < min s.straps.visible (a + 16384) ∧ s.modeAt ((a / 16384 + 1) * 16384) ≠ s.modeAt a
  · rw [limit, if_pos h]
    exact ⟨by omega, by omega, by omega, fun x hx hl => s.modeAt_congr (by omega), .inr (.inr h.2)⟩
  · rw [limit, if_neg h]
    refine ⟨by omega, by omega, by omega, fun x hx hl => ?_, by omega⟩
    by_cases hg : x / 16384 = a / 16384
    · exact s.modeAt_congr hg
    · have next : s.modeAt x = s.modeAt ((a / 16384 + 1) * 16384) := s.modeAt_congr (by omega)
      rw [next]
      by_contra hm
      exact h ⟨by omega, hm⟩

/-! ### The overlay lookup (05 R82) -/

theorem later_irrefl (a : Word) : later a a = false := by simp [later]

/-- Two close numbers are not each later than the other. -/
theorem later_asymm {a b : Word} (h : later a b = true) : later b a = false := by
  simp only [later, BitVec.toNat_sub, Bool.and_eq_true, decide_eq_true_eq, Bool.and_eq_false_iff, decide_eq_false_iff_not] at h ⊢
  omega

theorem OverlayEntry.covers_iff {e : OverlayEntry} {a : Nat} : e.covers a = true ↔ e.start ≤ a ∧ a < e.start + e.wordCount := by
  simp [OverlayEntry.covers]

theorem OverlayEntry.newer_iff {e f : OverlayEntry} :
    e.newer f = true ↔ later e.closeNo f.closeNo = true ∨ (e.closeNo = f.closeNo ∧ f.ordinal < e.ordinal) := by
  simp [OverlayEntry.newer]

theorem OverlayEntry.newer_asymm {e f : OverlayEntry} (h : e.newer f = true) : f.newer e = false := by
  rw [← Bool.not_eq_true, OverlayEntry.newer_iff]
  rcases OverlayEntry.newer_iff.1 h with hl | ⟨hc, ho⟩
  · rintro (hl' | ⟨hc', -⟩)
    · simp [later_asymm hl] at hl'
    · simp [hc', later_irrefl] at hl
  · rintro (hl' | ⟨-, ho'⟩)
    · simp [hc, later_irrefl] at hl'
    · omega

/-- The entry that answers is one of the map's that covers the address. -/
theorem overlayFind_some {es : List OverlayEntry} {a : Nat} {f : OverlayEntry} (h : overlayFind es a = some f) :
    f ∈ es ∧ f.covers a = true := by
  induction es with
  | nil => exact nomatch h
  | cons e es ih =>
    unfold overlayFind at h
    split at h
    next g hg =>
      split at h
      next hc =>
        cases h
        exact ⟨List.mem_cons_self, (Bool.and_eq_true_iff.1 hc).1⟩
      next =>
        cases h
        exact (ih hg).imp (List.mem_cons_of_mem _) id
    next =>
      split at h
      next hc =>
        cases h
        exact ⟨List.mem_cons_self, hc⟩
      next => exact nomatch h

theorem overlayFind_none {es : List OverlayEntry} {a : Nat} : overlayFind es a = none ↔ ∀ e ∈ es, e.covers a = false := by
  induction es with
  | nil => simp [overlayFind]
  | cons e es ih =>
    unfold overlayFind
    cases hf : overlayFind es a with
    | some f =>
      obtain ⟨hm, hc⟩ := overlayFind_some hf
      refine iff_of_false ?_ fun h => ?_
      · dsimp only
        split <;> simp
      · simp [h f (List.mem_cons_of_mem _ hm)] at hc
    | none =>
      rw [hf] at ih
      have rest := ih.1 rfl
      by_cases hc : e.covers a = true
      · simp [hc]
      · simpa [hc] using rest

/-- The newest of the entries that cover the address answers. -/
theorem overlayFind_newest {es : List OverlayEntry} {a : Nat} {e : OverlayEntry} (he : e ∈ es) (hc : e.covers a = true)
    (best : ∀ f ∈ es, f.covers a = true → f = e ∨ e.newer f = true) : overlayFind es a = some e := by
  induction es with
  | nil => exact nomatch he
  | cons x es ih =>
    have bestRest : ∀ f ∈ es, f.covers a = true → f = e ∨ e.newer f = true := fun f hf => best f (List.mem_cons_of_mem _ hf)
    unfold overlayFind
    by_cases hm : e ∈ es
    · rw [ih hm bestRest]
      by_cases hx : x.covers a = true
      · rcases best x List.mem_cons_self hx with rfl | hn
        · simp
        · simp [OverlayEntry.newer_asymm hn]
      · simp [hx]
    · obtain rfl : e = x := (List.mem_cons.1 he).resolve_right hm
      cases hf : overlayFind es a with
      | none => simp [hc]
      | some f =>
        obtain ⟨hfm, hfc⟩ := overlayFind_some hf
        rcases bestRest f hfm hfc with rfl | hn
        · exact absurd hfm hm
        · simp [hc, hn]

/-- Settles O22: the newest entry answers, some entry answers where one covers, and none where none does. -/
theorem overlayAnswer : Obligations.OverlayAnswer := by
  intro s a
  refine ⟨fun e he hs hl best => ?_, fun ⟨e, he, hc⟩ => ?_, fun h => ?_⟩
  · have found : overlayFind s.overlay a = some e :=
      overlayFind_newest he (OverlayEntry.covers_iff.2 ⟨hs, hl⟩) fun f hf hc =>
        (best f hf (OverlayEntry.covers_iff.1 hc).1 (OverlayEntry.covers_iff.1 hc).2).imp_right OverlayEntry.newer_iff.2
    rw [State.overlayWord, found]
    rfl
  · rw [State.overlayWord, Option.isSome_map, Option.isSome_iff_ne_none, Ne, overlayFind_none]
    intro h
    exact absurd (OverlayEntry.covers_iff.2 hc) (by simp [h e he])
  · rw [State.overlayWord, overlayFind_none.2 fun e he => Bool.eq_false_iff.2 fun hc => h e he (OverlayEntry.covers_iff.1 hc)]
    rfl

/-! ### The issue of a span (05 R86) -/

/-- What the lookup answers for each of `len` words from `base`. -/
def State.lookups (s : State) (base len : Nat) : List (Option Word) := (List.range len).map fun j => s.overlayWord (base + j)

@[simp] theorem State.lookups_getElem? (s : State) {base len j : Nat} (h : j < len) :
    (s.lookups base len)[j]? = some (s.overlayWord (base + j)) := by
  simp [State.lookups, h]

theorem State.lookups_all (s : State) (base len : Nat) :
    (s.lookups base len).all Option.isSome = true ↔ ∀ j, j < len → (s.overlayWord (base + j)).isSome = true := by
  simp [State.lookups]

/-- The span that is issued next. -/
def State.nextIssue (s : State) : SpanSlot :=
  let base := s.link.start + 16 * s.reads.nextSpan
  spanOf base s.reads.nextSpan (s.lookups base (min 16 (s.link.bound - base)))

/-- Everything that the issue of a span changes. -/
theorem State.issueSpan_eq {s : State} {n : Nat} (hn : s.freeSpanNo = some n) (hb : s.link.start + 16 * s.reads.nextSpan < s.link.bound) :
    s.issueSpan = { s with
      reads := { slots := upd s.reads.slots n fun _ => s.nextIssue, nextSpan := s.reads.nextSpan + 1 }
      port := { s.port with
        waitRead := if s.nextIssue.st = .ready then s.port.waitRead else s.port.waitRead ++ [n] } } := by
  have below : ¬ s.link.bound ≤ s.link.start + Config.spanWords * s.reads.nextSpan := Nat.not_le.2 hb
  unfold State.issueSpan
  simp only [hn, if_neg below]
  change (if s.nextIssue.st = .ready then _ else _) = _
  split
  · rfl
  · rfl

/-- No span is issued without a FREE slot, or once the extent is covered. -/
theorem State.issueSpan_none {s : State} (h : s.freeSpanNo = none ∨ s.link.bound ≤ s.link.start + 16 * s.reads.nextSpan) :
    s.issueSpan = s := by
  unfold State.issueSpan
  dsimp only
  split
  · rfl
  next n hn =>
    rcases h with h | h
    · simp [h] at hn
    · exact if_pos h

/-- A FREE slot that is found stands in the table. -/
theorem State.freeSpanNo_lt {s : State} {n : Nat} (h : s.freeSpanNo = some n) : n < s.reads.slots.length := by
  obtain ⟨x, hx, -⟩ := firstWhere_some h
  exact (List.getElem?_eq_some_iff.1 hx).1

theorem State.nextIssue_st (s : State) : s.nextIssue.st = .ready ∨ s.nextIssue.st = .filling := by
  unfold State.nextIssue spanOf
  dsimp only
  split
  · exact .inl rfl
  · exact .inr rfl

/-- The slot after the issue holds the span. -/
theorem State.issueSpan_span {s : State} {n : Nat} (hn : s.freeSpanNo = some n)
    (hb : s.link.start + 16 * s.reads.nextSpan < s.link.bound) : s.issueSpan.span n = s.nextIssue := by
  rw [State.issueSpan_eq hn hb]
  exact upd_getD_self _ _ _ _ (State.freeSpanNo_lt hn)

/-- Settles O21: the issued span is `nextIssue`, READY exactly when the lookup answers for every word. -/
theorem spanIssue : Obligations.SpanIssue := by
  intro s n hn hb base len t
  have issued : t = _ := State.issueSpan_eq hn hb
  have span : t.span n = s.nextIssue := State.issueSpan_span hn hb
  have st : s.nextIssue.st = if (s.lookups base len).all Option.isSome = true then .ready else .filling := rfl
  have wait : t.port.waitRead = if s.nextIssue.st = .ready then s.port.waitRead else s.port.waitRead ++ [n] := by rw [issued]
  rw [span]
  refine ⟨?_, ?_, fun k hk => ?_, rfl, ?_, rfl, fun j hj => ?_, fun j w hj hw => ?_, fun h => ?_, fun j hj h => ?_⟩
  · rw [issued]
  · rw [issued]
  · rw [issued]
    exact upd_getD_ne _ _ _ _ _ hk
  · simp [State.nextIssue, spanOf, State.lookups, len, base]
  · show ((s.lookups base len).map _)[j]? = _
    simp [hj]
  · show ((s.lookups base len).map _)[j]? = _
    simp [hj, hw]
  · rw [wait, st, if_pos ((s.lookups_all base len).2 h)]
    exact ⟨rfl, rfl⟩
  · have some : ¬ (s.lookups base len).all Option.isSome = true := fun ha => by
      simpa [h] using (s.lookups_all base len).1 ha j hj
    rw [wait, st, if_neg some]
    exact ⟨rfl, rfl⟩

end Sys2Proof.Machine
end

