-- ==== Sys2Proof/Proofs/Observed.lean ====
section
/-! PROOF. What an observed step is: where it leaves all that the Attention Unit watches, the step itself; otherwise the step with the
unit's own fields settled, of which `noted` holds (spec/09 R145 to R148). -/

namespace Sys2Proof.Machine

/-- All that the Attention Unit reads of a state: what decides the line, and what the live conditions are made of (09 R143, R147). -/
def State.watched (s : State) : (Bool × AttnMode × Attn) × Pins × Straps × OpState × List OutcomeRecord × Nat :=
  (s.attnView, s.pins, s.straps, s.ctrl.opState, s.outcomes.queue, s.journal.live)

theorem State.live_of_watched {s t : State} (h : t.watched = s.watched) : t.live = s.live := by
  simp only [State.watched, Prod.mk.injEq] at h
  obtain ⟨-, hp, hs, ho, hq, hl⟩ := h
  exact State.live_congr s t hp ho hq hs hl

/-- A step that leaves all that the unit watches is observed as it is. -/
theorem observe_unwatched {f : State → State} {s t : State} (h : s.attnOk) (ht : f s = t) (hw : t.watched = s.watched) :
    observe f s = t := by
  have view : t.attnView = s.attnView := congrArg Prod.fst hw
  simp only [State.attnView, Prod.mk.injEq] at view
  obtain ⟨hon, hmode, hattn⟩ := view
  subst ht
  exact observe_same f s h hattn (State.live_of_watched hw) hon hmode

/-- An observed step is the step but for the Attention Unit's own fields. -/
theorem observe_step {f : State → State} {s t : State} (ht : f s = t) : observe f s = { t with attn := (observe f s).attn } := by
  subst ht
  rfl

/-- The same of a step that also reports. -/
theorem observe_step_setAttn {f : State → State} {s t : State} {a : Attn} (ht : f s = t.setAttn a) :
    observe f s = { t with attn := (observe f s).attn } := (observe_step ht).trans rfl

/-- An observed step whose reports are `events`, as the Attention Unit notes it. -/
theorem noted_observe {f : State → State} {s t : State} {events : BitVec 16} (ht : f s = t)
    (flags : t.attn.flags = s.attn.flags ||| events) (enable : t.attn.enable = s.attn.enable) : noted s (observe f s) events := by
  subst ht
  refine ⟨?_, enable, observe_attnOk f s, fun hon hp hon' hp' => ?_⟩
  · rw [observe_eq, State.settleAttn_flags, flags, State.settleAttn_live]
  · rw [← enable]
    exact State.settleAttn_pulse s (f s) hon hp hon' hp'

/-- The flags after an observed step that leaves the live conditions. -/
theorem observe_flags {f : State → State} {s t : State} (ht : f s = t) (hl : t.live = s.live) :
    (observe f s).attn.flags = t.attn.flags := by
  subst ht
  rw [observe_eq, State.settleAttn_flags, hl]
  simp

/-- `noted_observe` of a step that reports nothing. -/
theorem noted_observe_silent {f : State → State} {s t : State} (ht : f s = t) (h : t.attn = s.attn) : noted s (observe f s) 0 :=
  noted_observe ht (by simp [h]) (by rw [h])

@[simp] theorem flagAt_false (n : Nat) : flagAt n false = 0 := rfl

/-- What a conditional report leaves. -/
theorem State.reportIf_eq (s : State) (b : Bool) (e : Event) :
    s.reportIf b e = { s with attn := { s.attn with
      flags := s.attn.flags ||| flagAt e.pos (b && s.ctrl.opState != .held) } } := by
  unfold State.reportIf
  cases b with
  | false => simp
  | true =>
    rw [if_pos rfl, State.report_eq]
    by_cases h : s.ctrl.opState = .held
    · simp [h]
    · rw [if_neg h, show (s.ctrl.opState != .held) = true by simpa using h]
      rfl

end Sys2Proof.Machine
end

