-- ==== Sys2Proof/Proofs/GroupRules.lean ====
section
/-! PROOF. One rule for each operation on the groups and the records of a burst: what a slot, a tag or a record is after it. -/

namespace Sys2Proof.Machine

/-! ### Idle timers (02 R37) -/

theorem State.stopIdle_opened {s : State} {t n : Nat} (h : s.tag t = .opened n) :
    s.stopIdle t = s.updSlot n fun g => { g with timer := none } := by
  simp [State.stopIdle, h]

theorem State.startIdle_opened {s : State} {t n : Nat} (h : s.tag t = .opened n) :
    s.startIdle t = s.updSlot n fun g => { g with timer := if s.ctrl.idleLimit = 0 then none else some s.ctrl.idleLimit } := by
  simp [State.startIdle, h]

@[simp] theorem State.stopIdle_tags (s : State) (t : Nat) : (s.stopIdle t).groups.tags = s.groups.tags := by
  rw [State.stopIdle_eq]

@[simp] theorem State.startIdle_tags (s : State) (t : Nat) : (s.startIdle t).groups.tags = s.groups.tags := by
  rw [State.startIdle_eq]

@[simp] theorem State.stopIdle_closeCounter (s : State) (t : Nat) : (s.stopIdle t).groups.closeCounter = s.groups.closeCounter := by
  rw [State.stopIdle_eq]

@[simp] theorem State.startIdle_closeCounter (s : State) (t : Nat) : (s.startIdle t).groups.closeCounter = s.groups.closeCounter := by
  rw [State.startIdle_eq]

/-- A tag is read from the Tag Table alone. -/
theorem State.tag_congr {s t : State} (h : t.groups.tags = s.groups.tags) (g : Nat) : t.tag g = s.tag g := by
  unfold State.tag
  rw [h]

/-- A slot is read from the slots alone. -/
theorem State.slot_congr {s t : State} (h : t.groups.slots = s.groups.slots) (n : Nat) : t.slot n = s.slot n := by
  unfold State.slot
  rw [h]

/-- A record is read from the records alone. -/
theorem State.record_congr {s t : State} (h : t.staging.records = s.staging.records) (r : Nat) : t.record r = s.record r := by
  unfold State.record
  rw [h]

/-- A slot number that is found FREE is in the table. -/
theorem State.freeSlotNo_lt {s : State} {n : Nat} (h : s.freeSlotNo = some n) : n < s.groups.slots.length := by
  obtain ⟨x, hx, -⟩ := firstWhere_some h
  exact (List.getElem?_eq_some_iff.1 hx).1

/-- A record number that is found FREE is in the table. -/
theorem State.freeRecordNo_lt {s : State} {r : Nat} (h : s.freeRecordNo = some r) : r < s.staging.records.length := by
  obtain ⟨x, hx, -⟩ := firstWhere_some h
  exact (List.getElem?_eq_some_iff.1 hx).1

/-- The Tag Table after an entry is set. -/
theorem State.setTag_tags (s : State) (t : Nat) (x : TagState) :
    (s.setTag t x).groups.tags = if t = 0 then s.groups.tags else upd s.groups.tags (t - 1) fun _ => x := by
  unfold State.setTag
  split <;> rfl

/-! ### The receipt (07 R122) -/

/-- The receipt of a burst whose opening was taken. -/
theorem State.driveReceipt_opened {s : State} (v : Verdict) (c : Bool) (hw : s.ctrl.holdWritten = none)
    (h1 : s.link.hdr1.isSome = true) :
    s.driveReceipt v c = { s with
      link := {}, out := { s.out with receipt := some (receiptWord v s.link.tag c s.link.count) }
      groups := (s.startIdle s.link.tag).groups } := by
  rw [State.driveReceipt_eq s v c hw, if_pos h1]

/-- The receipt where the tag is not OPEN, or the opening was not taken. -/
theorem State.driveReceipt_closed {s : State} (v : Verdict) (c : Bool) (hw : s.ctrl.holdWritten = none)
    (h : s.link.hdr1 = none ∨ ∀ n, s.tag s.link.tag ≠ .opened n) :
    s.driveReceipt v c = { s with
      link := {}, out := { s.out with receipt := some (receiptWord v s.link.tag c s.link.count) } } := by
  rw [State.driveReceipt_eq s v c hw]
  obtain h | h := h
  · rw [h, if_neg (by simp)]
  · rw [State.startIdle_closed s _ h, ite_self]

/-! ### Rejecting a group (02 R34) -/

theorem State.rejectGroup_slot {s : State} {n : Nat} (e : FirstError) (hn : n < s.groups.slots.length) (k : Nat) :
    (s.rejectGroup n e).slot k = if k = n then rejectedSlot s n e else s.slot k := by
  rw [State.rejectGroup_eq]
  exact State.updSlot_slot s n k (fun _ => rejectedSlot s n e) hn

theorem State.rejectGroup_tag {s : State} {n : Nat} (e : FirstError) (ht : s.tag (s.slot n).tag ≠ .free) (g : Nat) :
    (s.rejectGroup n e).tag g = if g = (s.slot n).tag then .fencedSlot n else s.tag g := by
  rw [State.rejectGroup_eq]
  exact State.setTag_tag s (s.slot n).tag g (.fencedSlot n) ht

theorem State.rejectGroup_record (s : State) (n : Nat) (e : FirstError) (k : Nat) :
    (s.rejectGroup n e).record k = if k ∈ (s.slot n).members then {} else s.record k := by
  rw [State.rejectGroup_eq]
  exact Staging.freeAll_record s.staging (s.slot n).members k

theorem State.rejectGroup_ram (s : State) (n : Nat) (e : FirstError) : (s.rejectGroup n e).staging.ram = s.staging.ram := by
  rw [State.rejectGroup_eq]
  exact Staging.freeAll_ram _ _

theorem State.rejectGroup_closeCounter (s : State) (n : Nat) (e : FirstError) :
    (s.rejectGroup n e).groups.closeCounter = s.groups.closeCounter := by
  rw [State.rejectGroup_eq]

theorem State.rejectGroup_outcomes (s : State) (n : Nat) (e : FirstError) :
    (s.rejectGroup n e).outcomes =
      { s.outcomes with pendPost := s.outcomes.pendPost ++ [(rejectedSlot s n e).outcome n .rejected none] } := by
  rw [State.rejectGroup_eq]
  rfl

theorem State.rejectGroup_attn (s : State) (n : Nat) (e : FirstError) (h : s.ctrl.opState ≠ .held) :
    (s.rejectGroup n e).attn = { s.attn with flags := s.attn.flags ||| flagAt 12 true } := by
  rw [State.rejectGroup_eq]
  simp [h]

/-- Everything that a rejection does to the groups, the records and the outcomes (02 R34). -/
theorem State.rejectGroup_rejected {s : State} {n : Nat} (e : FirstError) (hn : n < s.groups.slots.length)
    (ht : s.tag (s.slot n).tag ≠ .free) : groupRejected s (s.rejectGroup n e) n e none := by
  refine ⟨?_, fun k hk => ?_, ?_, fun g hg => ?_, ?_, fun r hr => ?_, fun r hr _ => ?_, ?_, ?_⟩
  · rw [State.rejectGroup_slot e hn, if_pos rfl]
  · rw [State.rejectGroup_slot e hn, if_neg hk]
  · rw [State.rejectGroup_tag e ht, if_pos rfl]
  · rw [State.rejectGroup_tag e ht, if_neg hg]
  · exact s.rejectGroup_closeCounter n e
  · rw [State.rejectGroup_record, if_pos (hr.resolve_right nofun)]
  · rw [State.rejectGroup_record, if_neg hr]
  · exact s.rejectGroup_ram n e
  · exact s.rejectGroup_outcomes n e

/-- The parts of the state that rejecting a group changes. -/
theorem State.rejectGroup_parts (s : State) (n : Nat) (e : FirstError) :
    s.rejectGroup n e = { s with
      staging := (s.rejectGroup n e).staging, groups := (s.rejectGroup n e).groups, outcomes := (s.rejectGroup n e).outcomes
      attn := (s.rejectGroup n e).attn } := by
  rw [State.rejectGroup_eq]

end Sys2Proof.Machine
end

