-- ==== Sys2Proof/Proofs/OpeningAnswers.lean ====
section
/-! PROOF. The answers to an opening: refused, withheld and accepted (spec/07 R112 to R114, spec/01 R6 to R8, spec/02 R22 to R27). -/

namespace Sys2Proof.Machine

/-! ### Header word 1 -/

/-- The link with header word 1 taken. -/
def Link.opened (l : Link) (w : Word) : Link := { l with hdr1 := some w, check := checkWord l.check w, stall := none }

@[simp] theorem Link.opened_tag (l : Link) (w : Word) : (l.opened w).tag = l.tag := rfl
@[simp] theorem Link.opened_close (l : Link) (w : Word) : (l.opened w).close = l.close := rfl
@[simp] theorem Link.opened_isAttr (l : Link) (w : Word) : (l.opened w).isAttr = l.isAttr := rfl
@[simp] theorem Link.opened_isRead (l : Link) (w : Word) : (l.opened w).isRead = l.isRead := rfl
@[simp] theorem Link.opened_commonWrite (l : Link) (w : Word) : (l.opened w).commonWrite = l.commonWrite := rfl
@[simp] theorem Link.opened_commonRead (l : Link) (w : Word) : (l.opened w).commonRead = l.commonRead := rfl
@[simp] theorem Link.opened_start (l : Link) (w : Word) : (l.opened w).start = hdrStart w := rfl
@[simp] theorem Link.opened_offset (l : Link) (w : Word) : (l.opened w).offset = hdrOffset w := rfl
@[simp] theorem Link.opened_h0 (l : Link) (w : Word) : (l.opened w).h0 = l.h0 := rfl
@[simp] theorem Link.opened_h1 (l : Link) (w : Word) : (l.opened w).h1 = w := rfl

/-- Taking header word 1 changes the link and stops the idle timer of the tag's OPEN group. -/
theorem State.wordOneTaken_eq (s : State) (w : Word) :
    s.wordOneTaken w = { s with link := s.link.opened w, groups := (s.stopIdle s.link.tag).groups } := by
  show (s.setLink (s.link.opened w)).stopIdle s.link.tag = _
  rw [State.stopIdle_eq]
  unfold State.stopIdle
  simp only [show (s.setLink (s.link.opened w)).tag s.link.tag = s.tag s.link.tag from rfl]
  split <;> rfl

/-- A tag that is not OPEN has no timer to stop. -/
theorem State.wordOneTaken_closed {s : State} (w : Word) (h : ∀ n, s.tag s.link.tag ≠ .opened n) :
    s.wordOneTaken w = { s with link := s.link.opened w } := by
  rw [State.wordOneTaken_eq, State.stopIdle_closed s _ h]

@[simp] theorem State.wordOneTaken_link (s : State) (w : Word) : (s.wordOneTaken w).link = s.link.opened w := by
  rw [State.wordOneTaken_eq]

theorem State.wordOneTaken_tagOf (s : State) (w : Word) (g : Nat) : (s.wordOneTaken w).tag g = s.tag g :=
  State.tag_congr (by rw [State.wordOneTaken_eq]; exact s.stopIdle_tags _) g

theorem exec_opening_eq {s : State} (w : Word) (h : s.link.st = .opening) :
    exec (.opening w) s = .next (observe (fun x => x.takeOpening w) s) ∧
      s.takeOpening w = (s.wordOneTaken w).answer (s.wordOneTaken w).decideOpening :=
  ⟨rfl, if_pos h⟩

/-! ### Refusals (07 R114, 02 R27) -/

/-- A refusal without an OPEN group drives the receipt alone. -/
theorem State.refuse_closed {s : State} (v : Verdict) (h : ∀ n, s.tag s.link.tag ≠ .opened n) :
    s.refuse v = (s.setOut { s.out with answer := some .refuse }).driveReceipt v false := by
  unfold State.refuse
  dsimp only
  split
  next n hn => exact absurd hn (h n)
  next => rfl

/-- A refusal that spares the OPEN group drives the receipt alone. -/
theorem State.refuse_spares {s : State} {v : Verdict} (h : v.rejects s.link.commonWrite = false) :
    s.refuse v = (s.setOut { s.out with answer := some .refuse }).driveReceipt v false := by
  unfold State.refuse
  dsimp only
  split
  · rw [if_neg (by simp [h])]
  · rfl

/-- A refusal that rejects the OPEN group of its tag. -/
theorem State.refuse_rejects {s : State} {v : Verdict} {n : Nat} (ho : s.tag s.link.tag = .opened n)
    (h : v.rejects s.link.commonWrite = true) :
    s.refuse v =
      ((s.setOut { s.out with answer := some .refuse }).rejectGroup n (s.burstError n v s.link.start)).driveReceipt v false := by
  unfold State.refuse
  dsimp only
  rw [show (s.setOut { s.out with answer := some .refuse }).tag (s.setOut { s.out with answer := some .refuse }).link.tag =
    .opened n from ho]
  exact congrArg (fun x : State => x.driveReceipt v false) (if_pos h)

/-- The verdicts whose refusal rejects the OPEN group of the tag (02 R27). -/
theorem Verdict.rejects_iff {v : Verdict} {b : Bool} :
    v.rejects b = true ↔ v = .refusedFormat ∨
      (b = true ∧ (v = .refusedRange ∨ v = .refusedReadOnly ∨ v = .refusedMode ∨ v = .refusedGroupFull)) := by
  simp [Verdict.rejects, or_assoc]

/-- Settles O7: with a tag that is not OPEN the refusal is its receipt, which the Attention Unit does not watch. -/
theorem openingRefused : Obligations.OpeningRefused := by
  intro s w v ⟨hw, ha⟩ hst hc hn hd
  refine congrArg Host.Outcome.next (observe_unwatched ha ?_ rfl)
  have closed : ∀ n, (s.wordOneTaken w).tag (s.wordOneTaken w).link.tag ≠ .opened n := fun n => by
    rw [State.wordOneTaken_tagOf, State.wordOneTaken_link]
    exact hn n
  rw [(exec_opening_eq w hst).2, hd]
  show (s.wordOneTaken w).refuse v = _
  rw [State.refuse_closed v closed, State.wordOneTaken_closed w hn]
  rw [show receiptWord v s.link.tag false 0 = receiptWord v s.link.tag false s.link.count by rw [hc]]
  exact State.driveReceipt_closed v false hw (.inr hn)

/-- The OPEN group of the tag as header word 1 leaves it: its timer stopped. -/
theorem State.wordOneTaken_slot {s : State} {n : Nat} (w : Word) (ho : s.tag s.link.tag = .opened n)
    (hn : n < s.groups.slots.length) (k : Nat) :
    (s.wordOneTaken w).slot k = if k = n then { s.slot n with timer := none } else s.slot k := by
  rw [State.wordOneTaken_eq, State.stopIdle_opened ho]
  exact State.updSlot_slot s n k _ hn

theorem State.wordOneTaken_slots_length (s : State) (w : Word) :
    (s.wordOneTaken w).groups.slots.length = s.groups.slots.length := by
  rw [State.wordOneTaken_eq]
  show (s.stopIdle s.link.tag).groups.slots.length = _
  unfold State.stopIdle
  split
  · exact upd_length _ _ _
  · rfl

/-- The ports after a refusal. -/
def State.refusedOut (s : State) (v : Verdict) : Outputs :=
  { s.out with answer := some .refuse, receipt := some (receiptWord v s.link.tag false s.link.count) }

/-- A refusal that rejects the group leaves its tag FENCED, so that no timer starts. -/
theorem State.refuse_rejects_eq {s : State} {v : Verdict} {n : Nat} (hw : s.ctrl.holdWritten = none) (hh : s.ctrl.opState ≠ .held)
    (ho : s.tag s.link.tag = .opened n) (hn : n < s.groups.slots.length) (ht : (s.slot n).tag = s.link.tag)
    (hr : v.rejects s.link.commonWrite = true) :
    ∃ b, groupRejected s b n (s.burstError n v s.link.start) none ∧
      s.refuse v = { s with
        link := {}, out := s.refusedOut v, staging := b.staging, groups := b.groups, outcomes := b.outcomes
        attn := { s.attn with flags := s.attn.flags ||| flagAt 12 true } } := by
  set e := s.burstError n v s.link.start
  have tag : s.tag (s.slot n).tag ≠ .free := by
    rw [ht, ho]
    exact nofun
  have rejected : (s.setOut { s.out with answer := some .refuse }).rejectGroup n e =
      { s with
        out := { s.out with answer := some .refuse }, staging := (s.rejectGroup n e).staging, groups := (s.rejectGroup n e).groups
        outcomes := (s.rejectGroup n e).outcomes, attn := { s.attn with flags := s.attn.flags ||| flagAt 12 true } } := by
    rw [State.rejectGroup_eq, State.rejectGroup_eq, State.setTag_tags, State.setTag_tags, State.setOut_ctrl, if_neg hh]
    rfl
  have fenced : (s.rejectGroup n e).tag s.link.tag = .fencedSlot n := by
    rw [State.rejectGroup_tag e tag, if_pos ht.symm]
  refine ⟨s.rejectGroup n e, State.rejectGroup_rejected e hn tag, ?_⟩
  rw [State.refuse_rejects ho hr, rejected]
  generalize s.rejectGroup n e = b at fenced
  have closed : ∀ m, b.tag s.link.tag ≠ .opened m := fun m => by
    rw [fenced]
    exact nofun
  rw [State.driveReceipt_closed v false (by exact hw) (.inr (by exact closed))]
  rfl

/-- A refusal that spares the group starts its timer again. -/
theorem State.refuse_spares_eq {s : State} {v : Verdict} (hw : s.ctrl.holdWritten = none) (h1 : s.link.hdr1.isSome = true)
    (hr : v.rejects s.link.commonWrite = false) :
    s.refuse v = { s with link := {}, out := s.refusedOut v, groups := (s.startIdle s.link.tag).groups } := by
  rw [State.refuse_spares hr, State.driveReceipt_opened v false (by exact hw) (by exact h1), State.setOut_link, State.startIdle_setOut]
  rfl

/-- A rejection of a slot whose timer has been stopped rejects the slot as it was. -/
theorem groupRejected_of_stopped {s a b : State} {n : Nat} {e : FirstError} (h : groupRejected a b n e none)
    (hs : ∀ k, a.slot k = if k = n then { s.slot n with timer := none } else s.slot k)
    (ht : a.groups.tags = s.groups.tags) (hc : a.groups.closeCounter = s.groups.closeCounter) (hg : a.staging = s.staging)
    (ho : a.outcomes = s.outcomes) : groupRejected s b n e none := by
  obtain ⟨slot, others, tag, tags, closes, freed, kept, ram, outcomes⟩ := h
  have own : a.slot n = { s.slot n with timer := none } := (hs n).trans (if_pos rfl)
  have rejected : rejectedSlot a n e = rejectedSlot s n e := by simp [rejectedSlot, own]
  rw [own] at tag tags freed kept
  refine ⟨slot.trans rejected, fun k hk => ?_, tag, fun g hg => ?_, closes.trans hc, freed, fun r hr hn => ?_, ?_, ?_⟩
  · rw [others k hk, hs k, if_neg hk]
  · rw [tags g hg, State.tag_congr ht]
  · rw [kept r hr hn, State.record, hg]
    rfl
  · rw [ram, hg]
  · rw [outcomes, ho, rejected]

/-- A refused opening that rejects the OPEN group of its tag. -/
theorem State.takeOpening_rejects {s : State} {w : Word} {v : Verdict} {n : Nat} (hw : s.ctrl.holdWritten = none)
    (hh : s.ctrl.opState ≠ .held) (hst : s.link.st = .opening) (ho : s.tag s.link.tag = .opened n)
    (ht : (s.slot n).tag = s.link.tag) (hn : n < s.groups.slots.length) (hd : (s.wordOneTaken w).decideOpening = .refuse v)
    (hr : v.rejects s.link.commonWrite = true) :
    ∃ b, groupRejected s b n
        { cause := .verdict v, ordinal := some ((s.slot n).burstCount + 1), start := some (hdrStart w) } none ∧
      s.takeOpening w = { s with
        link := {}, out := s.refusedOut v, staging := b.staging, groups := b.groups, outcomes := b.outcomes
        attn := { s.attn with flags := s.attn.flags ||| flagAt 12 true } } := by
  have slots := State.wordOneTaken_slot w ho hn
  have slot : (s.wordOneTaken w).slot n = { s.slot n with timer := none } := (slots n).trans (if_pos rfl)
  have tags : (s.wordOneTaken w).groups.tags = s.groups.tags := by
    rw [State.wordOneTaken_eq]
    exact s.stopIdle_tags _
  have closes : (s.wordOneTaken w).groups.closeCounter = s.groups.closeCounter := by
    rw [State.wordOneTaken_eq]
    exact s.stopIdle_closeCounter _
  have staging : (s.wordOneTaken w).staging = s.staging := by rw [State.wordOneTaken_eq]
  have outcomes : (s.wordOneTaken w).outcomes = s.outcomes := by rw [State.wordOneTaken_eq]
  obtain ⟨b, hb, eq⟩ := State.refuse_rejects_eq (s := s.wordOneTaken w) (v := v) (n := n) (by rw [State.wordOneTaken_eq]; exact hw)
    (by rw [State.wordOneTaken_eq]; exact hh) (by rw [State.wordOneTaken_tagOf, State.wordOneTaken_link]; exact ho)
    (by rw [State.wordOneTaken_slots_length]; exact hn) (by rw [slot, State.wordOneTaken_link]; exact ht)
    (by rw [State.wordOneTaken_link]; exact hr)
  rw [State.burstError, slot, State.wordOneTaken_link] at hb
  refine ⟨b, groupRejected_of_stopped hb slots tags closes staging outcomes, ?_⟩
  rw [(exec_opening_eq w hst).2, hd]
  show (s.wordOneTaken w).refuse v = _
  rw [eq, State.wordOneTaken_eq]
  rfl

/-- A refused opening that spares the OPEN group of its tag starts the group's timer again. -/
theorem State.takeOpening_spares {s : State} {w : Word} {v : Verdict} {n : Nat} (hw : s.ctrl.holdWritten = none)
    (hst : s.link.st = .opening) (ho : s.tag s.link.tag = .opened n) (hn : n < s.groups.slots.length)
    (hd : (s.wordOneTaken w).decideOpening = .refuse v) (hr : v.rejects s.link.commonWrite = false) :
    ∃ b : State, s.takeOpening w = { s with link := {}, out := s.refusedOut v, groups := b.groups } ∧
      b.slot n = { s.slot n with timer := if s.ctrl.idleLimit = 0 then none else some s.ctrl.idleLimit } ∧
      (∀ k, k ≠ n → b.slot k = s.slot k) ∧ b.groups.tags = s.groups.tags ∧ b.groups.closeCounter = s.groups.closeCounter := by
  have slots := State.wordOneTaken_slot w ho hn
  have length := State.wordOneTaken_slots_length s w
  have link := s.wordOneTaken_link w
  have opened : (s.wordOneTaken w).tag s.link.tag = .opened n := (State.wordOneTaken_tagOf s w _).trans ho
  have refused : s.takeOpening w = (s.wordOneTaken w).refuse v := by
    rw [(exec_opening_eq w hst).2, hd]
    rfl
  have parts := State.wordOneTaken_eq s w
  have tags := s.stopIdle_tags s.link.tag
  have closes := s.stopIdle_closeCounter s.link.tag
  generalize (s.stopIdle s.link.tag).groups = g at *
  generalize s.wordOneTaken w = a at *
  have ctrl : a.ctrl = s.ctrl := by rw [parts]
  refine ⟨a.startIdle s.link.tag, ?_, ?_, fun k hk => ?_, ?_, ?_⟩
  · rw [refused, State.refuse_spares_eq (by rw [ctrl]; exact hw) (by rw [link]; rfl) (by rw [link]; exact hr), link]
    show ({ a with link := {}, out := a.refusedOut v, groups := (a.startIdle s.link.tag).groups } : State) = _
    generalize (a.startIdle s.link.tag).groups = b
    rw [parts]
    rfl
  · rw [State.startIdle_opened opened, State.updSlot_slot _ _ _ _ (by rw [length]; exact hn), if_pos rfl, slots, if_pos rfl, ctrl]
  · rw [State.startIdle_opened opened, State.updSlot_other _ _ _ _ hk, slots, if_neg hk]
  · rw [State.startIdle_tags, parts, tags]
  · rw [State.startIdle_closeCounter, parts, closes]

/-- Settles O8: the refusal either rejects the group, whose tag then has no timer to start, or restarts the group's timer. -/
theorem refusalActsOnTheOpenGroup : Obligations.RefusalActsOnTheOpenGroup := by
  intro s w v n ⟨hw, ha⟩ hh hst hc ho ht hn hd
  refine ⟨_, (exec_opening_eq w hst).1, ?_⟩
  have out : s.refusedOut v = { s.out with answer := some .refuse, receipt := some (receiptWord v s.link.tag false 0) } := by
    rw [State.refusedOut, hc]
  by_cases hr : v.rejects s.link.commonWrite = true
  · rw [if_pos (Verdict.rejects_iff.1 hr)]
    obtain ⟨b, ⟨slot, others, tag, -, closes, freed, -, ram, outcomes⟩, eq⟩ := State.takeOpening_rejects hw hh hst ho ht hn hd hr
    have flags := observe_flags eq (State.live_congr s _ rfl rfl (by rw [outcomes]) rfl rfl)
    rw [observe_step eq, out, ht] at *
    refine ⟨rfl, rfl, ram, by rw [outcomes], closes, others, slot, tag, fun r hr => freed r (.inl hr), ?_, flags⟩
    show b.outcomes.pendPost = s.outcomes.pendPost ++ [(b.slot n).outcome n .rejected none]
    rw [outcomes, slot]
  · rw [if_neg (fun h => hr (Verdict.rejects_iff.2 h))]
    obtain ⟨b, eq, slot, others, tags, closes⟩ := State.takeOpening_spares hw hst ho hn hd (by simpa using hr)
    rw [observe_unwatched ha eq rfl, out]
    exact ⟨rfl, rfl, rfl, rfl, closes, others, slot, tags, rfl, rfl, rfl⟩

end Sys2Proof.Machine
end

