-- ==== Sys2Proof/Proofs/AcceptingWrites.lean ====
section
/-! PROOF. An opening of a common write that is accepted or withheld (spec/07 R114, spec/01 R6 to R8, spec/02 R22 to R25, spec/06
R102, R103). -/

namespace Sys2Proof.Machine

/-! ### Setting a tag and opening a group -/

theorem hdrTag_lt (w : Word) : hdrTag w < 16 := fieldOf_lt w 0 4

/-- An entry of the Tag Table that is set reads as set. -/
theorem State.setTag_self {s : State} {t : Nat} (x : TagState) (h0 : t ≠ 0) (hl : t - 1 < s.groups.tags.length) :
    (s.setTag t x).tag t = x := by
  unfold State.tag
  rw [if_neg h0, State.setTag_tags, if_neg h0]
  exact upd_getD_self _ _ _ _ hl

@[simp] theorem State.setTag_slot (s : State) (t n : Nat) (x : TagState) : (s.setTag t x).slot n = s.slot n :=
  State.slot_congr (by rw [State.setTag_eq]) n

@[simp] theorem State.setTag_closeCounter (s : State) (t : Nat) (x : TagState) :
    (s.setTag t x).groups.closeCounter = s.groups.closeCounter := by
  rw [State.setTag_eq]

@[simp] theorem State.updSlot_tag (s : State) (n t : Nat) (f : GroupSlot → GroupSlot) : (s.updSlot n f).tag t = s.tag t := rfl

@[simp] theorem State.updSlot_closeCounter (s : State) (n : Nat) (f : GroupSlot → GroupSlot) :
    (s.updSlot n f).groups.closeCounter = s.groups.closeCounter := rfl

@[simp] theorem State.updSlot_tags (s : State) (n : Nat) (f : GroupSlot → GroupSlot) :
    (s.updSlot n f).groups.tags = s.groups.tags := rfl

theorem State.openGroup_groups (s : State) (n t : Nat) :
    (s.openGroup n t).groups = { s.groups with
      slots := upd s.groups.slots n fun _ => { st := .opened, tag := t }
      tags := if t = 0 then s.groups.tags else upd s.groups.tags (t - 1) fun _ => .opened n } := by
  unfold State.openGroup State.setTag
  split <;> rfl

theorem State.openGroup_slot {s : State} {n : Nat} (t : Nat) (hn : n < s.groups.slots.length) (k : Nat) :
    (s.openGroup n t).slot k = if k = n then { st := .opened, tag := t } else s.slot k := by
  rw [State.openGroup, State.setTag_slot, State.updSlot_slot _ _ _ _ hn]

/-! ### The slot of an accepted write -/

/-- Binding a write to its group changes the groups alone. -/
theorem State.bindGroup_eq (s : State) (t : Nat) (slot : Option Nat) :
    s.bindGroup t slot = { s with groups := (s.bindGroup t slot).groups } := by
  unfold State.bindGroup
  split
  · rfl
  · rw [State.openGroup, State.setTag_eq]
    rfl
  · rfl

theorem State.bindGroup_opened {s : State} {t n : Nat} (slot : Option Nat) (h : s.tag t = .opened n) : s.bindGroup t slot = s := by
  unfold State.bindGroup
  rw [h]
  split
  · rfl
  next hx => exact absurd rfl (hx n)
  · rfl

theorem State.bindGroup_none (s : State) (t : Nat) : s.bindGroup t none = s := rfl

theorem State.bindGroup_new {s : State} {t : Nat} (n : Nat) (h : ∀ m, s.tag t ≠ .opened m) : s.bindGroup t (some n) = s.openGroup n t := by
  unfold State.bindGroup
  split
  next hm => exact absurd hm (h _)
  next e _ =>
    cases e
    rfl
  next e => exact nomatch e

theorem State.slotFor_opened {s : State} {t n : Nat} (h : s.tag t = .opened n) : s.slotFor t .guarded = some n := by
  simp [State.slotFor, h]

theorem State.slotFor_new {s : State} {t : Nat} (h : ∀ m, s.tag t ≠ .opened m) : s.slotFor t .guarded = s.freeSlotNo := by
  unfold State.slotFor
  rw [if_pos rfl]
  split
  next hm => exact absurd hm (h _)
  next => rfl

theorem State.slotFor_unguarded (s : State) (t : Nat) {m : Mode} (h : m ≠ .guarded) : s.slotFor t m = none := if_neg h

/-- The slot that the write in the opening is bound for. -/
def State.writeSlot (s : State) : Option Nat := s.slotFor s.link.tag (s.modeAt s.link.start)

/-- The groups once the write in the opening has been bound to its slot. -/
def State.boundGroups (s : State) : Groups := (s.bindGroup s.link.tag s.writeSlot).groups

/-- The link of an accepted write, before a record is claimed. -/
def State.writingLink (s : State) (fullClose : Bool) : Link :=
  { s.link with
    st := .streaming, bound := s.writeLimit s.link.start, mode := s.modeAt s.link.start, slot := s.writeSlot
    fullClose := fullClose, masterHold := true, stall := some s.ctrl.stallLimit }

/-- The ports after an acceptance. -/
def State.acceptedOut (s : State) : Outputs := { s.out with answer := some .accept }

theorem Link.commonWrite_iff {l : Link} : l.commonWrite = true ↔ l.isAttr = false ∧ l.isRead = false := by
  simp [Link.commonWrite]

/-- The binding reads and changes the groups alone. -/
theorem State.bindGroup_groups_congr {s a : State} (h : a.groups = s.groups) (t : Nat) (slot : Option Nat) :
    (a.bindGroup t slot).groups = (s.bindGroup t slot).groups := by
  unfold State.bindGroup
  rw [State.tag_congr (congrArg Groups.tags h)]
  split
  · exact h
  · rw [State.openGroup_groups, State.openGroup_groups, h]
  · exact h

theorem State.acceptWrite_bare (s : State) (f : Bool) :
    s.acceptWrite none f = (s.bindGroup s.link.tag s.writeSlot).setLink { (s.bindGroup s.link.tag s.writeSlot).link with
      st := .streaming, bound := s.writeLimit s.link.start, mode := s.modeAt s.link.start, slot := s.writeSlot
      fullClose := f, masterHold := true, stall := some (s.bindGroup s.link.tag s.writeSlot).ctrl.stallLimit } := rfl

/-- A write accepted without a record. -/
theorem State.accept_bare {s : State} (f : Bool) (h : s.link.commonWrite = true) :
    s.accept none f = { s with link := s.writingLink f, out := s.acceptedOut, groups := s.boundGroups } := by
  obtain ⟨attr, read⟩ := Link.commonWrite_iff.1 h
  have accepted : s.accept none f = (s.setOut s.acceptedOut).acceptWrite none f := by simp [State.accept, State.acceptedOut, attr, read]
  have groups : ((s.setOut s.acceptedOut).bindGroup s.link.tag s.writeSlot).groups = s.boundGroups :=
    State.bindGroup_groups_congr (s := s) (a := s.setOut s.acceptedOut) rfl _ _
  rw [accepted, State.acceptWrite_bare, State.bindGroup_eq]
  change ({ s with
    link := s.writingLink f, out := s.acceptedOut
    groups := ((s.setOut s.acceptedOut).bindGroup s.link.tag s.writeSlot).groups } : State) = _
  rw [groups]

/-- A write accepted with a record claims it for the bound write. -/
theorem State.accept_claims {s : State} (r : Nat) (f : Bool) (h : s.link.commonWrite = true) :
    s.accept (some r) f = (s.accept none f).claimRecord r := by
  obtain ⟨attr, read⟩ := Link.commonWrite_iff.1 h
  simp [State.accept, State.acceptWrite, attr, read]

/-- The ordinal of the accepted write: one more than its OPEN group's burst count, and 1 in a new group (02 R24). -/
def State.writeOrdinal (s : State) : Option Nat :=
  s.writeSlot.map fun n => if s.tag s.link.tag = .opened n then (s.slot n).burstCount + 1 else 1

theorem State.writeSlot_new_lt {s : State} {n : Nat} (h : ∀ m, s.tag s.link.tag ≠ .opened m) (hn : s.writeSlot = some n) :
    s.freeSlotNo = some n ∧ n < s.groups.slots.length := by
  have guarded : s.modeAt s.link.start = .guarded := by
    by_contra hm
    exact nomatch (s.slotFor_unguarded s.link.tag hm).symm.trans hn
  have free : s.freeSlotNo = some n := by
    rw [State.writeSlot, guarded, State.slotFor_new h] at hn
    exact hn
  exact ⟨free, State.freeSlotNo_lt free⟩

theorem State.bound_ordinal {s a : State} (h : a.groups = s.boundGroups) : a.ordinalFor s.writeSlot = s.writeOrdinal := by
  have slots (n : Nat) : a.slot n = (s.bindGroup s.link.tag s.writeSlot).slot n := State.slot_congr (congrArg Groups.slots h) n
  unfold State.ordinalFor State.writeOrdinal
  cases hs : s.writeSlot with
  | none => rfl
  | some n =>
    simp only [Option.map_some, slots, hs]
    by_cases ho : ∃ m, s.tag s.link.tag = .opened m
    · obtain ⟨m, ho⟩ := ho
      have own : m = n := by
        by_cases hg : s.modeAt s.link.start = .guarded
        · rw [State.writeSlot, hg, State.slotFor_opened ho] at hs
          exact Option.some.inj hs
        · exact nomatch (s.slotFor_unguarded s.link.tag hg).symm.trans hs
      rw [State.bindGroup_opened _ ho, ho, own, if_pos rfl]
    · have new : ∀ m, s.tag s.link.tag ≠ .opened m := fun m hm => ho ⟨m, hm⟩
      rw [State.bindGroup_new n new, State.openGroup_slot _ (State.writeSlot_new_lt new hs).2, if_pos rfl, if_neg (new n)]

/-- Everything that an acceptance of a staged write changes. -/
theorem State.accept_staged {s : State} (r : Nat) (f : Bool) (h : s.link.commonWrite = true) :
    s.accept (some r) f = { s with
      link := { s.writingLink f with record := some r }, out := s.acceptedOut, groups := s.boundGroups
      staging := s.staging.claim r (s.modeAt s.link.start) s.writeSlot s.writeOrdinal s.link.start } := by
  rw [State.accept_claims r f h, State.accept_bare f h, State.claimRecord]
  have ordinal : State.ordinalFor { s with link := s.writingLink f, out := s.acceptedOut, groups := s.boundGroups } s.writeSlot =
    s.writeOrdinal := State.bound_ordinal rfl
  change State.setLink (State.setStaging _ (s.staging.claim r (s.modeAt s.link.start) s.writeSlot (State.ordinalFor _ s.writeSlot)
    s.link.start)) _ = _
  rw [ordinal]
  rfl

/-- The acceptance of a staged write, in the words of the rules. -/
theorem State.accept_writeOpened {s : State} {r : Nat} {f : Bool} (hr : s.freeRecordNo = some r)
    (htags : s.groups.tags.length = Config.tags) (h : s.link.commonWrite = true) :
    writeOpened s (s.accept (some r) f) r s.link.start s.groups := by
  rw [State.accept_staged r f h]
  refine ⟨hr, ?_, fun k hk => upd_getD_ne _ _ _ _ _ hk, rfl, rfl, rfl, rfl, rfl, rfl, rfl, fun hm => ?_, fun hm => ?_⟩
  · exact upd_getD_self _ _ _ _ (State.freeRecordNo_lt hr)
  · have none : s.writeSlot = none := s.slotFor_unguarded _ hm
    refine ⟨none, ?_⟩
    show s.boundGroups = _
    rw [State.boundGroups, none]
    rfl
  · have slotFor : s.writeSlot = s.slotFor s.link.tag .guarded := by rw [State.writeSlot, hm]
    refine ⟨fun n hn => ⟨slotFor.trans (State.slotFor_opened hn), ?_⟩, fun hn n hf => ?_⟩
    · show s.boundGroups = _
      rw [State.boundGroups, State.bindGroup_opened _ hn]
    · have slot : s.writeSlot = some n := slotFor.trans ((State.slotFor_new hn).trans hf)
      have groups : s.boundGroups = (s.openGroup n s.link.tag).groups := by
        rw [State.boundGroups, slot, State.bindGroup_new n hn]
      rw [groups]
      have slots := State.openGroup_slot s.link.tag (State.freeSlotNo_lt hf)
      refine ⟨slot, (slots n).trans (if_pos rfl), fun k hk => (slots k).trans (if_neg hk), fun h0 => ?_, fun x hx => ?_⟩
      · have lt : s.link.tag < 16 := hdrTag_lt _
        exact State.setTag_self _ h0 (by simp [htags, Config.tags]; omega)
      · exact State.setTag_other _ _ _ _ hx

/-! ### What stopping the idle timer leaves (02 R37) -/

theorem State.stopIdle_burstCount (s : State) (t n : Nat) : ((s.stopIdle t).slot n).burstCount = (s.slot n).burstCount := by
  unfold State.stopIdle
  split
  next m hm =>
    by_cases h : n = m
    · rw [h]
      have kept := upd_getD_default s.groups.slots m (fun g : GroupSlot => { g with timer := none }) {} rfl
      exact (congrArg GroupSlot.burstCount kept).trans rfl
    · rw [State.updSlot_other _ _ _ _ h]
  · rfl

theorem State.wordOneTaken_modeAt (s : State) (w : Word) (a : Nat) : (s.wordOneTaken w).modeAt a = s.modeAt a := by
  rw [State.wordOneTaken_eq]
  rfl

theorem State.wordOneTaken_freeRecordNo (s : State) (w : Word) : (s.wordOneTaken w).freeRecordNo = s.freeRecordNo := by
  rw [State.wordOneTaken_eq]
  rfl

theorem State.wordOneTaken_writeLimit (s : State) (w : Word) (a : Nat) : (s.wordOneTaken w).writeLimit a = s.writeLimit a := by
  rw [State.wordOneTaken_eq]
  rfl

/-- The acceptance is the same of the state before header word 1, but for the groups that it finds. -/
theorem writeOpened_of_wordOneTaken {s t : State} {w : Word} {r a : Nat} (h : writeOpened (s.wordOneTaken w) t r a (s.wordOneTaken w).groups) :
    writeOpened s t r a (s.stopIdle s.link.tag).groups := by
  have parts := s.wordOneTaken_eq w
  have tags := s.stopIdle_tags s.link.tag
  have counts := s.stopIdle_burstCount s.link.tag
  have new := s.stopIdle_closed s.link.tag
  have slots (n : Nat) : (s.wordOneTaken w).slot n = (s.stopIdle s.link.tag).slot n := by rw [parts]; rfl
  have tagOf := s.wordOneTaken_tagOf w
  have mode := s.wordOneTaken_modeAt w a
  have link := s.wordOneTaken_link w
  obtain ⟨free, record, others, pool, ram, st, own, modeIs, bound, stall, unguarded, guarded⟩ := h
  have groups : (s.wordOneTaken w).groups = (s.stopIdle s.link.tag).groups := by rw [parts]
  have staging : (s.wordOneTaken w).staging = s.staging := by rw [parts]
  have ctrl : (s.wordOneTaken w).ctrl = s.ctrl := by rw [parts]
  have records (k : Nat) : (s.wordOneTaken w).record k = s.record k := State.record_congr (congrArg Staging.records staging) k
  simp only [records, link, tagOf, mode, Link.opened_tag, slots, counts, groups, staging, ctrl, s.wordOneTaken_freeRecordNo w,
    s.wordOneTaken_writeLimit w] at *
  refine ⟨free, record, others, pool, ram, st, own, modeIs, bound, stall, unguarded, fun hm => ⟨(guarded hm).1, fun hn n hf => ?_⟩⟩
  have untouched : s.wordOneTaken w = { s with link := s.link.opened w } := State.wordOneTaken_closed w hn
  have found : (s.wordOneTaken w).freeSlotNo = some n := by
    rw [untouched]
    exact hf
  obtain ⟨slot, opened, rest, tag⟩ := (guarded hm).2 hn n found
  exact ⟨slot, opened, fun k hk => (rest k hk).trans (by rw [new hn]), tag⟩

/-! ### The decisions that lead to an acceptance (07 R113) -/

/-- An accepted write has come through checks 9 and 10. -/
theorem State.decideOpening_accept {s : State} {r : Option Nat} {f : Bool} (h : s.decideOpening = .accept r f)
    (hc : s.link.commonWrite = true) :
    s.decideWrite s.link.tag s.link.close (s.modeAt s.link.start) = .accept r f ∧
      (s.link.tag ≠ 0 → s.modeAt s.link.start = .guarded) := by
  obtain ⟨attr, read⟩ := Link.commonWrite_iff.1 hc
  unfold State.decideOpening at h
  simp only [attr, read, Bool.false_eq_true, if_false] at h
  cases hs : stateRefusal s.ctrl.opState false with
  | some v =>
    rw [hs] at h
    split_ifs at h
  | none =>
    rw [hs] at h
    split_ifs at h
    next hm => exact ⟨h, fun ht => by_contra fun hg => hm ⟨ht, hg⟩⟩

/-- A write into GUARDED memory that starts a new group is accepted with a FREE slot. -/
theorem State.decideWrite_slot {s : State} {t : Nat} {close : Bool} {r : Option Nat} {f : Bool}
    (h : s.decideWrite t close .guarded = .accept r f) (hn : ∀ n, s.tag t ≠ .opened n) : s.freeSlotNo.isSome = true := by
  by_contra hf
  have none : s.freeSlotNo = none := by simpa using hf
  cases ht : s.tag t with
  | opened n => exact hn n ht
  | _ => simp [State.decideWrite, ht, none] at h

/-- A write accepted without a record is a DIRECT one or belongs to an OPEN group. -/
theorem State.decideWrite_bare {s : State} {t : Nat} {close : Bool} {m : Mode} {f : Bool}
    (h : s.decideWrite t close m = .accept none f) : m = .direct ∨ ∃ n, s.tag t = .opened n := by
  cases ht : s.tag t with
  | opened n => exact .inr ⟨n, rfl⟩
  | _ =>
    refine .inl (by_contra fun hm => ?_)
    simp only [State.decideWrite, ht, if_neg hm] at h
    split_ifs at h
    all_goals grind

/-- Settles O9: the decision has found the FREE record, and a FREE slot for a new group. -/
theorem openingAcceptsStagedWrite : Obligations.OpeningAcceptsStagedWrite := by
  intro s w r ⟨hw, ha⟩ htables hst hc hd
  have write : (s.wordOneTaken w).link.commonWrite = true := by
    rw [State.wordOneTaken_link]
    exact hc
  have taken : s.takeOpening w = (s.wordOneTaken w).accept (some r) false := by
    rw [(exec_opening_eq w hst).2, hd]
    rfl
  have link := s.wordOneTaken_link w
  have opened : writeOpened s (s.takeOpening w) r (hdrStart w) (s.stopIdle s.link.tag).groups := by
    rw [taken]
    refine writeOpened_of_wordOneTaken (w := w) ?_
    have start : (s.wordOneTaken w).link.start = hdrStart w := by rw [link, Link.opened_start]
    rw [← start]
    refine State.accept_writeOpened (State.decideOpening_record hd) ?_ write
    rw [State.wordOneTaken_eq]
    exact (congrArg List.length (s.stopIdle_tags _)).trans htables.2.2.1
  have parts : s.takeOpening w = { s with
      link := (s.takeOpening w).link, out := { s.out with answer := some .accept }, staging := (s.takeOpening w).staging
      groups := (s.takeOpening w).groups } := by
    rw [taken, State.accept_staged r false write, State.wordOneTaken_eq]
    rfl
  refine ⟨s.takeOpening w, congrArg Host.Outcome.next (observe_unwatched ha rfl (by rw [parts]; rfl)), parts, opened, fun hm hn => ?_⟩
  have decided := (State.decideOpening_accept hd write).1
  simp only [link, Link.opened_start, State.wordOneTaken_modeAt, hm] at decided
  have slot := State.decideWrite_slot decided fun n => by
    rw [State.wordOneTaken_tagOf]
    exact hn n
  rwa [State.wordOneTaken_closed w hn] at slot

/-- Settles O10: such a write is DIRECT or of an OPEN group, so that no slot is opened for it. -/
theorem openingAcceptsWithoutRecord : Obligations.OpeningAcceptsWithoutRecord := by
  intro s w f ⟨hw, ha⟩ hst hc hr hd
  have link := s.wordOneTaken_link w
  have write : (s.wordOneTaken w).link.commonWrite = true := by
    rw [link]
    exact hc
  have taken : s.takeOpening w = (s.wordOneTaken w).accept none f := by
    rw [(exec_opening_eq w hst).2, hd]
    rfl
  have modes := s.wordOneTaken_modeAt w
  have tags := s.wordOneTaken_tagOf w
  have slotOf : (s.wordOneTaken w).writeSlot = (s.wordOneTaken w).slotFor s.link.tag (s.modeAt (hdrStart w)) := by
    rw [State.writeSlot, link, modes, Link.opened_tag, Link.opened_start]
  have direct : s.modeAt (hdrStart w) = .direct → (s.wordOneTaken w).writeSlot = none := fun hm => by
    rw [slotOf, hm]
    exact State.slotFor_unguarded _ _ nofun
  have guarded : ∀ n, s.modeAt (hdrStart w) = .guarded → s.tag s.link.tag = .opened n → (s.wordOneTaken w).writeSlot = some n :=
    fun n hm hn => by
      rw [slotOf, hm]
      exact State.slotFor_opened ((tags _).trans hn)
  have unbound : (s.wordOneTaken w).boundGroups = (s.stopIdle s.link.tag).groups := by
    have groups : (s.wordOneTaken w).groups = (s.stopIdle s.link.tag).groups := by rw [State.wordOneTaken_eq]
    rw [← groups, State.boundGroups]
    rcases State.decideWrite_bare (State.decideOpening_accept hd write).1 with hm | ⟨n, hn⟩
    · rw [link, Link.opened_start, modes] at hm
      rw [direct hm, State.bindGroup_none]
    · rw [State.bindGroup_opened _ hn]
  have accepted := State.accept_bare f write
  have limit := s.wordOneTaken_writeLimit w (hdrStart w)
  rw [← taken, unbound] at accepted
  have parts : s.takeOpening w = { s with
      link := (s.wordOneTaken w).writingLink f, out := { s.out with answer := some .accept }
      groups := (s.stopIdle s.link.tag).groups } := by
    rw [accepted]
    generalize (s.wordOneTaken w).writingLink f = l
    rw [State.acceptedOut, State.wordOneTaken_eq]
  refine ⟨s.takeOpening w, congrArg Host.Outcome.next (observe_unwatched ha rfl (by rw [parts]; rfl)), ?_⟩
  rw [parts]
  refine ⟨rfl, rfl, ?_, rfl, ?_, direct, guarded⟩
  · exact (congrArg Link.record link).trans hr
  · exact (congrArg (fun l : Link => (s.wordOneTaken w).writeLimit l.start) link).trans limit

/-! ### A held answer (01 R7) -/

/-- Settles O12: the held answer claims nothing, and each later row is a refusal, an acceptance, or nothing. -/
theorem withheldOpening : Obligations.WithheldOpening := by
  refine ⟨fun s w ⟨hw, ha⟩ hst hd => ?_, fun s hst => ⟨fun hop hw hc h1 => ?_, fun hf hh =>
    ⟨fun hr => ?_, fun r hr htables hc => ?_⟩⟩⟩
  · have taken : s.takeOpening w = { s with
        link := { s.link.opened w with st := .withheld }, out := { s.out with answer := some .withheld }
        groups := (s.stopIdle s.link.tag).groups } := by
      rw [(exec_opening_eq w hst).2, hd, State.wordOneTaken_eq]
      rfl
    exact ⟨_, congrArg Host.Outcome.next (observe_unwatched ha taken rfl), rfl, rfl, rfl⟩
  · refine congrArg Host.Outcome.next ?_
    rw [State.answerWithheld, if_pos hst, if_pos hop, State.refuse_spares_eq hw h1 (by cases s.link.commonWrite <;> rfl),
      State.refusedOut, hc]
  · refine congrArg Host.Outcome.next ?_
    rw [State.answerWithheld, if_pos hst, if_neg (by simp [hf, hh]), hr]
  · have answered : s.answerWithheld = s.accept (some r) false := by
      rw [State.answerWithheld, if_pos hst, if_neg (by simp [hf, hh]), hr]
    refine ⟨s.accept (some r) false, congrArg Host.Outcome.next answered, ?_, State.accept_writeOpened hr htables.2.2.1 hc⟩
    rw [State.accept_staged r false hc]
    rfl

end Sys2Proof.Machine
end

