-- ==== Sys2Proof/Proofs/StreamingWrites.lean ====
section
/-! PROOF. The words of a write, the bridge's stop and pause, and the stall timer (spec/07 R115, R116, R118, spec/01 R9 to R12,
spec/06 R104, R105). -/

namespace Sys2Proof.Machine

/-! ### The bridge's stop request (07 R118) -/

/-- The stop of a burst that is neither a common read nor a DIRECT write changes the link alone. -/
theorem State.bridgeStop_plain {s : State} (pv : Option Verdict) (cut : Bool) (hr : s.link.commonRead = false)
    (hd : s.link.directWrite = false) :
    s.bridgeStop pv cut = { s with link := stoppingLink s (s.link.pendVerdict.or pv) cut } := by
  have ends : State.endData { s with link := stoppingLink s (s.link.pendVerdict.or pv) cut } =
      { s with link := stoppingLink s (s.link.pendVerdict.or pv) cut } := by
    unfold State.endData
    rw [if_neg (by exact Bool.eq_false_iff.1 hr), if_neg (by exact Bool.eq_false_iff.1 hd)]
  exact ends

theorem Link.commonRead_of_attr {l : Link} (h : l.isAttr = true) : l.commonRead = false := by simp [Link.commonRead, h]

theorem Link.directWrite_of_attr {l : Link} (h : l.isAttr = true) : l.directWrite = false := by
  simp [Link.directWrite, Link.commonWrite, h]

theorem Link.commonRead_of_write {l : Link} (h : l.isRead = false) : l.commonRead = false := by simp [Link.commonRead, h]

theorem Link.directWrite_of_read {l : Link} (h : l.isRead = true) : l.directWrite = false := by
  simp [Link.directWrite, Link.commonWrite, h]

theorem Link.directWrite_of_mode {l : Link} (h : l.mode ≠ .direct) : l.directWrite = false := by
  simp [Link.directWrite, h]

/-- The stop of a write changes the link and the waiting DIRECT requests alone. -/
theorem State.bridgeStop_write {s : State} (pv : Option Verdict) (cut : Bool) (hr : s.link.isRead = false) :
    ∃ c d, s.bridgeStop pv cut = { s with
      link := { stoppingLink s (s.link.pendVerdict.or pv) cut with collecting := c }, port := { s.port with waitDirect := d } } := by
  have ends : ∀ a : State, a.link.commonRead = false →
      ∃ c d, a.endData = { a with link := { a.link with collecting := c }, port := { a.port with waitDirect := d } } := by
    intro a ha
    unfold State.endData State.handCollecting
    rw [if_neg (by simpa using ha)]
    dsimp only
    split
    · split
      · exact ⟨a.link.collecting, a.port.waitDirect, rfl⟩
      · exact ⟨_, _, rfl⟩
    · exact ⟨a.link.collecting, a.port.waitDirect, rfl⟩
  exact ends (s.setLink (stoppingLink s (s.link.pendVerdict.or pv) cut)) (Link.commonRead_of_write (l := s.link) hr)

/-- Settles O5: before header word 1 the receipt ends the opening; while streaming the bridge requests stop. -/
theorem stallTimerExpiry : Obligations.StallTimerExpiry := by
  intro s hs
  refine ⟨fun hst h1 hc hw => ?_, fun hst hp => ?_⟩
  · refine congrArg Host.Outcome.next ?_
    rw [State.stallExpired, if_pos hs, if_pos hst, State.driveReceipt_closed .stallTimeout false hw (.inl h1), hc]
  · have stops : s.stallExpired = s.bridgeStop (some .stallTimeout) false := by
      rw [State.stallExpired, if_pos hs, if_neg (by rw [hst]; exact nofun), if_pos hst]
    refine ⟨_, congrArg Host.Outcome.next stops, ?_⟩
    rw [State.bridgeStop_eq, hp]
    exact ⟨rfl, rfl, rfl, rfl, rfl, rfl, rfl, rfl⟩

/-! ### A word that is presented (07 R115) -/

/-- The state in which a strobed word is offered: the master no longer holds the transfer. -/
def State.strobed (s : State) : State := s.setLink { s.link with masterHold := false, stall := none }

/-- A word strobed to a write that the bridge does not hold is offered to it. -/
theorem State.strobe_offer {s : State} (w : Word) (hst : s.link.st = .streaming) (hr : s.link.isRead = false)
    (hb : s.link.bridgeHold = none) : s.strobe w = s.strobed.offer w := by
  simp [State.strobe, State.strobed, hst, hr, hb]

theorem State.offer_attr {s : State} (w : Word) (ha : s.link.isAttr = true) : s.offer w = s.offerAttr w := if_pos ha

theorem State.offer_full {s : State} (w : Word) (ha : s.link.isAttr = false) (hf : s.link.fullClose = true) :
    s.offer w = s.bridgeStop (some .refusedGroupFull) false := by
  simp [State.offer, ha, hf]

theorem State.offer_limit {s : State} (w : Word) (ha : s.link.isAttr = false) (hf : s.link.fullClose = false)
    (hl : s.link.bound ≤ s.link.start + s.link.count) : s.offer w = s.bridgeStop none true := by
  simp [State.offer, ha, hf, hl]

theorem State.offer_direct {s : State} (w : Word) (ha : s.link.isAttr = false) (hf : s.link.fullClose = false)
    (hl : s.link.start + s.link.count < s.link.bound) (hm : s.link.mode = .direct) : s.offer w = s.offerDirect w := by
  simp [State.offer, ha, hf, Nat.not_le.2 hl, hm]

theorem State.offer_staged {s : State} (w : Word) (ha : s.link.isAttr = false) (hf : s.link.fullClose = false)
    (hl : s.link.start + s.link.count < s.link.bound) (hm : s.link.mode ≠ .direct) : s.offer w = s.offerStaged w := by
  simp [State.offer, ha, hf, Nat.not_le.2 hl, hm]

theorem State.offerAttr_takes {s : State} (w : Word) (h : s.link.offset + s.link.count < s.link.bound) :
    s.offerAttr w = s.setLink { s.link.move w with attrBuf := s.link.attrBuf ++ [w] } := if_neg (Nat.not_le.2 h)

theorem State.offerAttr_cuts {s : State} (w : Word) (h : s.link.bound ≤ s.link.offset + s.link.count) :
    s.offerAttr w = s.bridgeStop none true := if_pos h

/-- Settles O17: the word at the limit makes the bridge request stop, and the words of an attribute write are buffered up to its extent. -/
theorem wordAtTheLimitIsCut : Obligations.WordAtTheLimitIsCut := by
  refine ⟨fun s w ⟨hst, ha, hr, hb, hf⟩ hl hp => ?_, fun s w hst ha hr hb => ⟨fun hl => ?_, fun hl => ?_⟩⟩
  · have stops : s.strobe w = s.strobed.bridgeStop none true := by
      rw [State.strobe_offer w hst hr hb, State.offer_limit (s := s.strobed) w ha hf hl]
    obtain ⟨c, d, eq⟩ := State.bridgeStop_write (s := s.strobed) none true hr
    refine ⟨_, congrArg Host.Outcome.next (stops.trans eq), rfl, rfl, rfl, rfl, ?_, rfl, rfl, rfl⟩
    exact (Option.or_none).trans hp
  · refine congrArg Host.Outcome.next ?_
    rw [State.strobe_offer w hst hr hb, State.offer_attr (s := s.strobed) w ha, State.offerAttr_takes (s := s.strobed) w hl]
    rfl
  · refine congrArg Host.Outcome.next ?_
    rw [State.strobe_offer w hst hr hb, State.offer_attr (s := s.strobed) w ha, State.offerAttr_cuts (s := s.strobed) w hl,
      State.bridgeStop_plain (s := s.strobed) none true (Link.commonRead_of_attr ha) (Link.directWrite_of_attr ha), Option.or_none]
    rfl

/-! ### A word of a DIRECT write (06 R105) -/

theorem State.offerDirect_holds {s : State} (w : Word) (h : 16 ≤ s.link.collecting.length) : s.offerDirect w = s.holdWord .direct w :=
  if_pos h

theorem State.offerDirect_collects {s : State} (w : Word)
    (h : s.link.collecting.length < 15 ∨ (s.link.collecting.length = 15 ∧ s.port.waitDirect ≠ [])) :
    s.offerDirect w = s.setLink { s.link.move w with collecting := s.link.collecting ++ [w] } := by
  have room : ¬ Config.spanWords ≤ s.link.collecting.length := by
    simp only [Config.spanWords]
    omega
  have keeps : ¬ ((s.link.collecting ++ [w]).length = 16 ∧ s.port.waitDirect = []) := by
    rintro ⟨hl, hd⟩
    rcases h with h | ⟨-, h⟩
    · simp at hl
      omega
    · exact h hd
  unfold State.offerDirect
  rw [if_neg room]
  exact if_neg keeps

theorem State.offerDirect_hands {s : State} (w : Word) (h : s.link.collecting.length = 15) (hd : s.port.waitDirect = []) :
    s.offerDirect w = (s.setLink { s.link.move w with collecting := s.link.collecting ++ [w] }).handCollecting := by
  have room : ¬ Config.spanWords ≤ s.link.collecting.length := by
    simp only [Config.spanWords]
    omega
  unfold State.offerDirect
  rw [if_neg room]
  exact if_pos ⟨by simp [h, Config.spanWords], hd⟩

theorem State.handCollecting_eq {s : State} (h : s.link.collecting ≠ []) :
    s.handCollecting = { s with
      link := { s.link with collecting := [] }
      port := { s.port with waitDirect := s.port.waitDirect ++
        [{ addr := s.link.start + s.link.count - s.link.collecting.length, words := s.link.collecting }] } } := by
  unfold State.handCollecting
  exact if_neg h

/-- Settles O18: the collecting span is handed over when it is full and no request waits. -/
theorem directWord : Obligations.DirectWord := by
  intro s w ⟨hst, ha, hr, hb, hf⟩ hm hl
  have offered : s.strobe w = s.strobed.offerDirect w := by
    rw [State.strobe_offer w hst hr hb, State.offer_direct (s := s.strobed) w ha hf hl hm]
  refine ⟨fun h => congrArg Host.Outcome.next ?_, fun hc hw => congrArg Host.Outcome.next ?_, fun hc => congrArg Host.Outcome.next ?_⟩
  · rw [offered, State.offerDirect_collects (s := s.strobed) w h]
    rfl
  · rw [offered, State.offerDirect_hands (s := s.strobed) w hc hw, State.handCollecting_eq (by simp)]
    have full : (s.link.collecting ++ [w]).length = 16 := by simp [hc]
    change ({ s with
      link := { wordMoved s.link w with collecting := [] }
      port := { s.port with waitDirect := s.port.waitDirect ++
        [{ addr := s.link.start + (s.link.count + 1) - (s.link.collecting ++ [w]).length, words := s.link.collecting ++ [w] }] } }
      : State) = _
    rw [full, hw]
    rfl
  · rw [offered, State.offerDirect_holds (s := s.strobed) w hc.ge]
    rfl

end Sys2Proof.Machine
end

