-- ==== Sys2Proof/Proofs/StagedWords.lean ====
section
/-! PROOF. The words of a staged write: what the Staging Buffer takes, and when the bridge pauses or stops instead (spec/01 R9 to R12). -/

namespace Sys2Proof.Machine

/-! ### A word written at its place (01 R2, R10) -/

/-- A record that is not FREE stands in the table. -/
theorem Staging.lt_of_receiving {g : Staging} {r : Nat} (h : (g.records.getD r {}).st = .receiving) : r < g.records.length := by
  by_contra hl
  rw [List.getD, List.getElem?_eq_none (Nat.le_of_not_lt hl)] at h
  exact nomatch h

theorem Staging.put_record {g : Staging} {r : Nat} (w : Word) (hr : r < g.records.length) :
    (g.put r w).records.getD r {} = { g.records.getD r {} with wordCount := (g.records.getD r {}).wordCount + 1 } :=
  upd_getD_self _ _ _ _ hr

theorem Staging.put_other (g : Staging) {r k : Nat} (w : Word) (h : k ≠ r) :
    (g.put r w).records.getD k {} = g.records.getD k {} := upd_getD_ne _ _ _ _ _ h

theorem Staging.put_read {g : Staging} (r : Nat) (w : Word) (hs : ramWf g.ram = true) (a : Nat) :
    ramRead (g.put r w).ram a =
      if (g.records.getD r {}).wordAddr (g.records.getD r {}).wordCount = a then w else ramRead g.ram a :=
  ramRead_ramWrite _ _ _ _ _ hs

theorem Staging.takeChunk_eq {g : Staging} {r c : Nat} {rest : List Nat} (hp : g.pool = c :: rest)
    (hr : (g.records.getD r {}).st = .receiving) :
    g.takeChunk r = { g with pool := rest, records := upd g.records r fun x => { x with chunks := x.chunks ++ [c] } } := by
  unfold Staging.takeChunk
  rw [hp]
  exact if_pos hr

/-- A word that opens no slot. -/
theorem Staging.take_within {g : Staging} {r : Nat} (w : Word) (h : (g.records.getD r {}).wordCount % 64 ≠ 0) :
    g.take r w = g.put r w := if_neg h

/-- A word that opens a slot takes a chunk first. -/
theorem Staging.take_opens {g : Staging} {r : Nat} (w : Word) (h : (g.records.getD r {}).wordCount % 64 = 0) :
    g.take r w = (g.takeChunk r).put r w := if_pos h

/-- What taking a word leaves and what it writes, where record r has the chunk list `chunks` by then. -/
structure Staging.Took (g t : Staging) (r : Nat) (w : Word) (chunks : List Nat) : Prop where
  record : t.records.getD r {} =
    { g.records.getD r {} with wordCount := (g.records.getD r {}).wordCount + 1, chunks := chunks }
  others : ∀ k, k ≠ r → t.records.getD k {} = g.records.getD k {}
  word : t.word (t.records.getD r {}) (g.records.getD r {}).wordCount = w
  store : ∀ a, a ≠ (t.records.getD r {}).wordAddr (g.records.getD r {}).wordCount → ramRead t.ram a = ramRead g.ram a

theorem Staging.put_took {g : Staging} {r : Nat} (w : Word) (hr : r < g.records.length) (hs : ramWf g.ram = true) :
    Staging.Took g (g.put r w) r w (g.records.getD r {}).chunks := by
  have record := Staging.put_record w hr
  refine ⟨record, fun k hk => Staging.put_other g w hk, ?_, fun a ha => ?_⟩
  · rw [record]
    exact (Staging.put_read r w hs _).trans (if_pos rfl)
  · rw [record] at ha
    exact (Staging.put_read r w hs _).trans (if_neg (Ne.symm ha))

theorem Staging.take_took_within {g : Staging} {r : Nat} (w : Word) (hr : r < g.records.length) (hs : ramWf g.ram = true)
    (h : (g.records.getD r {}).wordCount % 64 ≠ 0) : Staging.Took g (g.take r w) r w (g.records.getD r {}).chunks := by
  rw [Staging.take_within w h]
  exact Staging.put_took w hr hs

theorem Staging.take_took_opens {g : Staging} {r c : Nat} {rest : List Nat} (w : Word) (hr : (g.records.getD r {}).st = .receiving)
    (hs : ramWf g.ram = true) (h : (g.records.getD r {}).wordCount % 64 = 0) (hp : g.pool = c :: rest) :
    Staging.Took g (g.take r w) r w ((g.records.getD r {}).chunks ++ [c]) ∧ (g.take r w).pool = rest := by
  have lt := Staging.lt_of_receiving hr
  have chunk : (g.takeChunk r).records.getD r {} = { g.records.getD r {} with chunks := (g.records.getD r {}).chunks ++ [c] } := by
    rw [Staging.takeChunk_eq hp hr]
    exact upd_getD_self _ _ _ _ lt
  have length : r < (g.takeChunk r).records.length := by
    rw [Staging.takeChunk_eq hp hr]
    exact (upd_length _ _ _).symm ▸ lt
  have ram : (g.takeChunk r).ram = g.ram := by rw [Staging.takeChunk_eq hp hr]
  obtain ⟨record, others, word, store⟩ := Staging.put_took w length (by rw [ram]; exact hs)
  rw [chunk] at record word store
  rw [Staging.take_opens w h]
  refine ⟨⟨record, fun k hk => ?_, word, fun a ha => ?_⟩, ?_⟩
  · rw [others k hk, Staging.takeChunk_eq hp hr]
    exact upd_getD_ne _ _ _ _ _ hk
  · rw [store a ha, ram]
  · show (g.takeChunk r).pool = rest
    rw [Staging.takeChunk_eq hp hr]

/-! ### A word offered to a staged write -/

theorem State.offerRecord_takes {s : State} {r : Nat} (w : Word) (h : (s.record r).wordCount % 64 = 0 → s.staging.pool ≠ []) :
    s.offerRecord r w = (s.setStaging (s.staging.take r w)).setLink (s.link.move w) := if_neg fun hc => h hc.1 hc.2

theorem State.offerRecord_exhausted {s : State} {r : Nat} (w : Word) (hc : (s.record r).wordCount % 64 = 0) (hp : s.staging.pool = []) :
    s.offerRecord r w = if s.chunksReturn then s.holdWord .chunks w else s.bridgeStop (some .stagingExhausted) false := if_pos ⟨hc, hp⟩

theorem State.offerStaged_record {s : State} {r : Nat} (w : Word) (h : s.link.record = some r) : s.offerStaged w = s.offerRecord r w := by
  simp [State.offerStaged, h]

theorem State.offerStaged_claims {s : State} {r : Nat} (w : Word) (h : s.link.record = none) (hf : s.freeRecordNo = some r) :
    s.offerStaged w = (s.claimRecord r).offerRecord r w := by
  simp [State.offerStaged, h, hf]

theorem State.offerStaged_none {s : State} (w : Word) (h : s.link.record = none) (hf : s.freeRecordNo = none) :
    s.offerStaged w = if s.anyRecord BurstRecord.leaving then s.holdWord .record w else s.bridgeStop (some .stagingExhausted) false := by
  simp [State.offerStaged, h, hf]

theorem State.strobe_staged {s : State} (w : Word) (h : writeStreams s) (hm : s.link.mode ≠ .direct)
    (hl : s.link.start + s.link.count < s.link.bound) : s.strobe w = s.strobed.offerStaged w := by
  obtain ⟨hst, ha, hr, hb, hf⟩ := h
  rw [State.strobe_offer w hst hr hb, State.offer_staged (s := s.strobed) w ha hf hl hm]

/-- The record that the first word of a record-less burst claims. -/
theorem State.claimRecord_record {s : State} {r : Nat} (hr : s.freeRecordNo = some r) :
    (s.claimRecord r).record r =
      { st := .receiving, mode := s.link.mode, slot := s.link.slot, ordinal := s.ordinalFor s.link.slot, start := s.link.start } :=
  upd_getD_self _ _ _ _ (State.freeRecordNo_lt hr)

/-- Settles O15: the word is written at its place, in the record's last chunk. -/
theorem stagedWordTaken : Obligations.StagedWordTaken := by
  intro s w r hs hstore hm hl
  refine ⟨fun hr hst hp => ?_, fun c pool hr hf hp => ?_⟩
  · have taken : s.strobe w = { s with link := wordMoved s.link w, staging := s.staging.take r w } := by
      rw [State.strobe_staged w hs hm hl, State.offerStaged_record (s := s.strobed) w hr, State.offerRecord_takes (s := s.strobed) w hp]
      rfl
    refine ⟨_, congrArg Host.Outcome.next taken, rfl, ?_⟩
    by_cases hc : (s.record r).wordCount % 64 = 0
    · rw [if_pos hc]
      obtain ⟨c, rest, pool⟩ := List.exists_cons_of_ne_nil (hp hc)
      obtain ⟨⟨record, others, word, store⟩, after⟩ := Staging.take_took_opens w hst hstore hc pool
      refine ⟨record.trans ?_, others, word, store, c, ?_, ?_⟩
      · exact congrArg (fun cs => { s.record r with wordCount := (s.record r).wordCount + 1, chunks := cs })
          (congrArg BurstRecord.chunks record).symm
      · rw [pool, after]
      · exact congrArg BurstRecord.chunks record
    · rw [if_neg hc]
      obtain ⟨record, others, word, store⟩ := Staging.take_took_within w (Staging.lt_of_receiving hst) hstore hc
      refine ⟨record.trans ?_, others, word, store, ?_, (congrArg BurstRecord.chunks record).trans rfl⟩
      · exact congrArg (fun cs => { s.record r with wordCount := (s.record r).wordCount + 1, chunks := cs })
          (congrArg BurstRecord.chunks record).symm
      · show (s.staging.take r w).pool = _
        rw [Staging.take_within w hc]
        rfl
  · have claimed : (s.strobed.claimRecord r).record r =
        { st := .receiving, mode := s.link.mode, slot := s.link.slot
          ordinal := s.link.slot.map fun n => (s.slot n).burstCount + 1, start := s.link.start } :=
      State.claimRecord_record (s := s.strobed) hf
    have store : ramWf (s.strobed.claimRecord r).staging.ram = true := hstore
    have left : (s.strobed.claimRecord r).staging.pool = c :: pool := hp
    have kept : ∀ k, k ≠ r → (s.strobed.claimRecord r).record k = s.record k := fun k hk => upd_getD_ne _ _ _ _ _ hk
    have ram : (s.strobed.claimRecord r).staging.ram = s.staging.ram := rfl
    have taken : s.strobe w = { s with
        link := { wordMoved s.link w with record := some r }, staging := (s.strobed.claimRecord r).staging.take r w } := by
      rw [State.strobe_staged w hs hm hl, State.offerStaged_claims (s := s.strobed) w hr hf,
        State.offerRecord_takes w fun _ => by rw [left]; exact List.cons_ne_nil _ _]
      rfl
    generalize s.strobed.claimRecord r = a at *
    have claimedStaging : a.staging.records.getD r {} = _ := claimed
    obtain ⟨⟨record, others, word, rest⟩, after⟩ := Staging.take_took_opens w (by rw [claimedStaging]) store
      (by rw [claimedStaging]; rfl) left
    rw [claimedStaging] at record word rest
    refine ⟨_, congrArg Host.Outcome.next taken, rfl, after, record, fun k hk => (others k hk).trans (kept k hk), word, fun x hx => ?_⟩
    rw [record] at rest
    exact (rest x (by simpa [BurstRecord.wordAddr, Config.chunkWords] using hx)).trans (by rw [ram])

/-- Some record is CLOSED or APPLYING and holds a chunk. -/
theorem State.chunksReturn_iff {s : State} :
    s.chunksReturn = true ↔ ∃ x ∈ s.staging.records, (x.st = .closed ∨ x.st = .applying) ∧ x.chunks ≠ [] := by
  simp [State.chunksReturn, State.anyRecord, BurstRecord.leaving]

theorem State.anyLeaving_iff {s : State} :
    s.anyRecord BurstRecord.leaving = true ↔ ∃ x ∈ s.staging.records, x.st = .closed ∨ x.st = .applying := by
  simp [State.anyRecord, BurstRecord.leaving]

/-- A staged write that stops for want of staging. -/
theorem State.strobed_stops {s : State} {v : Verdict} (hr : s.link.isRead = false) (hm : s.link.mode ≠ .direct)
    (hp : s.link.pendVerdict = none) :
    s.strobed.bridgeStop (some v) false = { s with link := stoppingLink s (some v) false } := by
  rw [State.bridgeStop_plain (s := s.strobed) _ _ (Link.commonRead_of_write hr) (Link.directWrite_of_mode hm),
    show s.strobed.link.pendVerdict = none from hp]
  rfl

/-- Settles O16: the bridge pauses exactly where a CLOSED or APPLYING record can give back what the word wants. -/
theorem bridgePausesOrStops : Obligations.BridgePausesOrStops := by
  refine ⟨fun s w hst ha hr hb hf hm hp => congrArg Host.Outcome.next ?_, fun s w hs hm hl hp => ⟨?_, ?_⟩⟩
  · rw [State.strobe_offer w hst hr hb, State.offer_full (s := s.strobed) w ha hf, State.strobed_stops hr hm hp]
  · intro r hr hc hpool
    have offered : s.strobe w =
        if s.strobed.chunksReturn then s.strobed.holdWord .chunks w else s.strobed.bridgeStop (some .stagingExhausted) false := by
      rw [State.strobe_staged w hs hm hl, State.offerStaged_record (s := s.strobed) w hr,
        State.offerRecord_exhausted (s := s.strobed) w hc hpool]
    refine ⟨fun h => congrArg Host.Outcome.next ?_, fun h => congrArg Host.Outcome.next ?_⟩
    · rw [offered, if_pos ((State.chunksReturn_iff (s := s.strobed)).2 h)]
      rfl
    · have none : ¬ s.strobed.chunksReturn = true := fun hx => by
        obtain ⟨x, hxm, hxs, hxc⟩ := State.chunksReturn_iff.1 hx
        exact hxc (h x hxm hxs)
      rw [offered, if_neg none, State.strobed_stops hs.2.2.1 hm hp]
  · intro hr hf
    have offered : s.strobe w =
        if s.strobed.anyRecord BurstRecord.leaving then s.strobed.holdWord .record w
        else s.strobed.bridgeStop (some .stagingExhausted) false := by
      rw [State.strobe_staged w hs hm hl, State.offerStaged_none (s := s.strobed) w hr hf]
    refine ⟨fun h => congrArg Host.Outcome.next ?_, fun h => congrArg Host.Outcome.next ?_⟩
    · rw [offered, if_pos ((State.anyLeaving_iff (s := s.strobed)).2 h)]
      rfl
    · have none : ¬ s.strobed.anyRecord BurstRecord.leaving = true := fun hx => by
        obtain ⟨x, hxm, hxs⟩ := State.anyLeaving_iff.1 hx
        exact hxs.elim (h x hxm).1 (h x hxm).2
      rw [offered, if_neg none, State.strobed_stops hs.2.2.1 hm hp]

/-! ### The end of a pause (01 R11, 07 R115) -/

/-- A link that the master does not hold is as a strobe leaves it. -/
theorem Link.unheld {l : Link} (h : l.masterHold = false) (k : l.stall = none) : { l with masterHold := false, stall := none } = l := by
  cases l
  cases h
  cases k
  rfl

/-- While the cause stands nothing happens. -/
theorem State.restoreReady_waits {s : State} {c : HoldCause} (hb : s.link.bridgeHold = some c) (h : s.causeCleared c = false) :
    s.restoreReady = s := by
  simp [State.restoreReady, hb, h]

theorem State.restoreReady_bare {s : State} {c : HoldCause} (hst : s.link.st = .streaming) (hb : s.link.bridgeHold = some c)
    (h : s.causeCleared c = true) (hp : s.link.presented = none) :
    s.restoreReady = s.setLink { s.link with bridgeHold := none, masterHold := true, stall := some s.ctrl.stallLimit } := by
  simp [State.restoreReady, hst, hb, h, hp]

theorem State.restoreReady_offers {s : State} {c : HoldCause} {w : Word} (hst : s.link.st = .streaming)
    (hb : s.link.bridgeHold = some c) (h : s.causeCleared c = true) (hp : s.link.presented = some w) :
    s.restoreReady = (s.setLink { s.link with bridgeHold := none, presented := none }).offer w := by
  simp [State.restoreReady, hst, hb, h, hp]

/-- Settles O19: once the cause has cleared the presented word is offered as the link without the pause would offer it. -/
theorem restoreReady : Obligations.RestoreReady := by
  intro s c hst hr hb
  refine ⟨fun h => congrArg Host.Outcome.next (State.restoreReady_waits hb h), fun h =>
    ⟨fun hp => congrArg Host.Outcome.next (State.restoreReady_bare hst hb h hp), fun w hp hmh hsl => ?_⟩⟩
  have offered := State.restoreReady_offers hst hb h hp
  have same : s.restoreReady = (s.setLink { s.link with bridgeHold := none, presented := none }).strobe w := by
    rw [offered, State.strobe_offer (s := s.setLink { s.link with bridgeHold := none, presented := none }) w hst hr rfl]
    exact congrArg (fun l => (s.setLink l).offer w)
      (Link.unheld (l := { s.link with bridgeHold := none, presented := none }) hmh hsl).symm
  refine ⟨congrArg Host.Outcome.next same, fun hc ha hf hm hl r hrec => ?_⟩
  have pool : s.staging.pool ≠ [] := by
    subst hc
    simpa [State.causeCleared] using h
  set a := s.setLink { s.link with bridgeHold := none, presented := none }
  have taken : s.restoreReady = (a.strobed.setStaging (s.staging.take r w)).setLink (a.strobed.link.move w) := by
    rw [same, State.strobe_staged w (s := a) ⟨hst, ha, hr, rfl, hf⟩ hm hl, State.offerStaged_record (s := a.strobed) w hrec,
      State.offerRecord_takes (s := a.strobed) w fun _ => pool]
    rfl
  exact ⟨_, congrArg Host.Outcome.next taken, rfl⟩

end Sys2Proof.Machine
end

