-- ==== Sys2Proof/Proofs/MasterStops.lean ====
section
/-! PROOF. The end of a data phase: the spans of a common read that are discarded, the bridge's due stop of a read, and the master's
pauses, stops and acknowledges (spec/05 R91, spec/07 R115 to R118). -/

namespace Sys2Proof.Machine

/-! ### The spans that are discarded (05 R91) -/

theorem State.discardSpans_span (s : State) (k : Nat) : s.discardSpans.span k = (s.span k).discard (s.port.waitRead.contains k) := by
  show (s.reads.slots.mapIdx _).getD k {} = (s.reads.slots.getD k {}).discard _
  rw [List.getD, List.getD, List.getElem?_mapIdx]
  cases s.reads.slots[k]? <;> rfl

theorem SpanSlot.discard_eq (x : SpanSlot) (waiting : Bool) :
    x.discard waiting =
      if x.st = .free ∨ x.st = .discarding then x else if x.st = .filling ∧ waiting = false then { x with st := .discarding } else {} := by
  unfold SpanSlot.discard
  cases h : x.st with
  | filling => cases waiting <;> simp
  | _ => simp

theorem State.discardSpans_dropped (s : State) : spansDropped s s.discardSpans := by
  refine ⟨rfl, rfl, fun k => ?_⟩
  rw [State.discardSpans_span, SpanSlot.discard_eq]
  simp

/-- The end of the data phase of a read, on the link `l` and the ports `o`. -/
theorem State.endData_ends (s : State) {l : Link} (o : Outputs) (hr : l.isRead = true) (hc : l.commonRead = s.link.commonRead) :
    dataEnds s (State.endData { s with link := l, out := o }) l o := by
  unfold State.endData
  by_cases h : s.link.commonRead = true
  · rw [if_pos (by rw [← hc] at h; exact h)]
    refine ⟨rfl, ?_⟩
    rw [if_pos h]
    exact State.discardSpans_dropped s
  · rw [if_neg (by rw [← hc] at h; exact h), if_neg (by exact Bool.eq_false_iff.1 (Link.directWrite_of_read hr))]
    refine ⟨rfl, ?_⟩
    rw [if_neg h]
    exact ⟨rfl, rfl⟩

/-- What the end of a data phase does has no part in the link and the ports that go with it. -/
theorem dataEnds.relink {s t : State} {l : Link} {o : Outputs} (h : dataEnds s t l o) (l' : Link) (o' : Outputs) :
    dataEnds s { t with link := l', out := o' } l' o' :=
  ⟨congrArg (fun x : State => { x with link := l', out := o' }) h.1, h.2⟩

theorem dataEnds.link_eq {s t : State} {l : Link} {o : Outputs} (h : dataEnds s t l o) : t.link = l := by
  rw [h.1]

theorem dataEnds.out_eq {s t : State} {l : Link} {o : Outputs} (h : dataEnds s t l o) : t.out = o := by
  rw [h.1]

theorem dataEnds.ctrl_eq {s t : State} {l : Link} {o : Outputs} (h : dataEnds s t l o) : t.ctrl = s.ctrl := by
  rw [h.1]

/-- The bridge's stop request of a read. -/
theorem State.bridgeStop_read {s : State} (pv : Option Verdict) (cut : Bool) (hr : s.link.isRead = true) :
    dataEnds s (s.bridgeStop pv cut) (stoppingLink s (s.link.pendVerdict.or pv) cut) s.out :=
  State.endData_ends s s.out hr rfl

/-! ### The stop of a read that is due (05 R91; log 37) -/

theorem extentSent_iff {s : State} : s.link.exhausted = true ↔ extentSent s := by
  simp [Link.exhausted]

theorem State.requestDue_stops {s : State} (h : stopDue s) : s.requestDue = s.bridgeStop none true :=
  State.requestDue_eq s h.1 h.2.1 (extentSent_iff.2 h.2.2)

theorem State.requestDue_waits {s : State} (h : ¬ stopDue s) : s.requestDue = s :=
  if_neg fun ⟨hst, hr, he⟩ => h ⟨hst, hr, extentSent_iff.1 he⟩

/-! ### The entry to CHECKING (07 R117, R119, R120) -/

theorem State.enterChecking_write {s : State} (h : s.link.isRead = false) : s.enterChecking = { s with link := checkingLink s } :=
  if_neg (by exact Bool.eq_false_iff.1 h)

theorem State.enterChecking_read {s : State} (h : s.link.isRead = true) :
    s.enterChecking = { s with link := checkingLink s, out := { s.out with check := some s.link.check } } := if_pos h

theorem State.endData_none {s : State} (h : s.link.isAttr = true ∨ s.link.mode ≠ .direct ∨ s.link.collecting = [])
    (hr : s.link.isRead = false) : s.endData = s := by
  unfold State.endData
  rw [if_neg (by simp [Link.commonRead_of_write hr])]
  split
  next hd =>
    rcases h with h | h | h
    · simp [Link.directWrite_of_attr h] at hd
    · simp [Link.directWrite_of_mode h] at hd
    · exact if_pos h
  next => rfl

theorem State.endData_hands {s : State} (hc : s.link.commonWrite = true) (hm : s.link.mode = .direct) : s.endData = s.handCollecting := by
  have hr := (Link.commonWrite_iff.1 hc).2
  unfold State.endData
  rw [if_neg (by simp [Link.commonRead_of_write hr]), if_pos (by simp [Link.directWrite, hc, hm])]

/-- Settles O23: each row by the state of the link, the burst's direction and whether the bridge's cut is due. -/
theorem masterPausesAndStops : Obligations.MasterPausesAndStops := by
  intro s
  refine ⟨fun hst => ⟨fun hd => ?_, fun hd => ?_, fun hr hc => ?_, fun hc hm hne => ?_, fun hr => ?_⟩, fun hst i hi => ?_,
    fun hst => ?_, fun hst hsp => ?_⟩
  · have due := State.requestDue_waits hd
    refine ⟨fun hm hb => congrArg Host.Outcome.next ?_, fun hm hb => congrArg Host.Outcome.next ?_,
      fun hm => congrArg Host.Outcome.next ?_, congrArg Host.Outcome.next ?_⟩
    · rw [due, State.masterPause, if_pos hst, if_neg (by simp [hm]), hb]
      rfl
    · rw [due, State.masterPause, if_pos hst, if_neg (by simp [hm]), if_pos hb]
      rfl
    · rw [due, State.masterPause, if_pos hst, if_pos hm]
    · rw [due, State.acknowledge, if_neg (by simp [hst])]
  · have ends := State.bridgeStop_read none true hd.2.1
    rw [← State.requestDue_stops hd, Option.or_none] at ends
    refine ⟨⟨_, congrArg Host.Outcome.next ?_, ends⟩, ⟨_, congrArg Host.Outcome.next ?_, ends.relink _ _⟩⟩
    · rw [State.masterPause, if_neg (by rw [ends.link_eq]; exact nofun)]
    · rw [State.acknowledge, if_pos (by rw [ends.link_eq]; rfl), State.enterChecking_read (by rw [ends.link_eq]; exact hd.2.1), checkingLink,
        ends.link_eq, ends.ctrl_eq, ends.out_eq]
      rfl
  · refine congrArg Host.Outcome.next ?_
    rw [State.masterStop, if_pos hst, State.endData_none hc hr, State.enterChecking_write hr]
  · refine congrArg Host.Outcome.next ?_
    rw [State.masterStop, if_pos hst, State.endData_hands hc hm, State.handCollecting_eq hne,
      State.enterChecking_write (by exact (Link.commonWrite_iff.1 hc).2)]
    rfl
  · have ends : dataEnds s s.endData s.link s.out := State.endData_ends s s.out hr rfl
    refine ⟨_, congrArg Host.Outcome.next ?_, ends.relink _ _⟩
    rw [State.masterStop, if_pos hst, State.enterChecking_read (by rw [ends.link_eq]; exact hr), checkingLink, ends.link_eq,
      ends.ctrl_eq, ends.out_eq]
    rfl
  · have acknowledged : exec i s = .next s.enterChecking := by
      have acknowledge : s.acknowledge = s.enterChecking := if_pos hst
      simp only [List.mem_cons, List.not_mem_nil, or_false] at hi
      rcases hi with rfl | rfl
      · show Host.Outcome.next s.requestDue.acknowledge = _
        rw [State.requestDue_waits fun h => by simp [stopDue, hst] at h, acknowledge]
      · show Host.Outcome.next s.masterStop = _
        rw [State.masterStop, if_neg (by simp [hst]), acknowledge]
    rw [acknowledged]
    exact ⟨fun hr => by rw [State.enterChecking_write hr], fun hr => by rw [State.enterChecking_read hr]⟩
  · refine congrArg Host.Outcome.next ?_
    rw [State.requestDue_waits fun h => hst h.1, State.masterPause, if_neg hst]
  · refine congrArg Host.Outcome.next ?_
    rw [State.requestDue_waits fun h => hst h.1, State.acknowledge, if_neg hsp]

end Sys2Proof.Machine
end

