-- ==== Sys2Proof/Proofs/ReadWords.lean ====
section
/-! PROOF. The words of a read: the spans issued into FREE slots, the span that streaming reaches, and the word that is sent (spec/05
R86, R90 to R92, spec/07 R124). -/

namespace Sys2Proof.Machine

/-! ### Spans issued until none can be (05 R86) -/

/-- No further span can be issued: no slot is FREE or the extent is covered. -/
def State.issueDone (s : State) : Prop := s.freeSpanNo = none ∨ s.link.bound ≤ s.link.start + 16 * s.reads.nextSpan

/-- The number of FREE slots of the Read Assembly. -/
def State.freeSpans (s : State) : Nat := s.reads.slots.countP fun x => x.st == .free

theorem countP_upd {α : Type} {p : α → Bool} {xs : List α} {n : Nat} {f : α → α} {a : α} (h : xs[n]? = some a) (hp : p a = true)
    (hf : p (f a) = false) : (upd xs n f).countP p + 1 = xs.countP p := by
  induction xs generalizing n with
  | nil => exact nomatch h
  | cons b bs ih =>
    cases n with
    | zero =>
      cases h
      simp [upd, hp, hf]
    | succ n =>
      have rest := ih (n := n) (by simpa using h)
      simp only [upd, List.countP_cons]
      omega

theorem State.issueSpan_of_done {s : State} (h : s.issueDone) : s.issueSpan = s := State.issueSpan_none h

theorem State.issueDone_of_noneFree {s : State} (h : s.freeSpans = 0) : s.issueDone :=
  .inl (firstWhere_none.2 fun x hx => by simpa using List.countP_eq_zero.1 h x hx)

/-- The issue of a span changes the Read Assembly and the waiting READ requests alone. -/
theorem State.issueSpan_parts (s : State) :
    s.issueSpan = { s with reads := s.issueSpan.reads, port := { s.port with waitRead := s.issueSpan.port.waitRead } } := by
  by_cases h : s.issueDone
  · rw [State.issueSpan_of_done h]
  · obtain ⟨hf, hb⟩ := not_or.1 h
    obtain ⟨n, hn⟩ := Option.ne_none_iff_exists'.1 hf
    rw [State.issueSpan_eq hn (Nat.not_le.1 hb)]

@[simp] theorem State.issueSpan_out (s : State) : s.issueSpan.out = s.out := by
  rw [State.issueSpan_parts]

/-- Each issue takes a FREE slot. -/
theorem State.issueSpan_freeSpans {s : State} (h : ¬ s.issueDone) : s.issueSpan.freeSpans + 1 = s.freeSpans := by
  obtain ⟨hf, hb⟩ := not_or.1 h
  obtain ⟨n, hn⟩ := Option.ne_none_iff_exists'.1 hf
  obtain ⟨x, hx, hp⟩ := firstWhere_some hn
  rw [State.issueSpan_eq hn (Nat.not_le.1 hb)]
  refine countP_upd hx hp ?_
  rcases s.nextIssue_st with e | e <;> simp [e]

/-- An issue leaves at least one FREE slot fewer, or nothing to issue. -/
theorem State.issueSpan_progress {s : State} {k : Nat} (h : s.issueDone ∨ s.freeSpans ≤ k + 1) :
    s.issueSpan.issueDone ∨ s.issueSpan.freeSpans ≤ k := by
  by_cases hd : s.issueDone
  · rw [State.issueSpan_of_done hd]
    exact .inl hd
  · have fewer := State.issueSpan_freeSpans hd
    have bound := h.resolve_left hd
    exact .inr (by omega)

theorem State.issueDone_of_progress {s : State} (h : s.issueDone ∨ s.freeSpans ≤ 0) : s.issueDone :=
  h.elim id fun h => State.issueDone_of_noneFree (Nat.le_zero.1 h)

/-- Four issues fill the four slots. -/
theorem State.issueFour_done {s : State} (h : s.freeSpans ≤ 4) : s.issueSpan.issueSpan.issueSpan.issueSpan.issueDone :=
  State.issueDone_of_progress (State.issueSpan_progress (State.issueSpan_progress (State.issueSpan_progress
    (State.issueSpan_progress (.inr h)))))

/-- Where at most one slot is FREE the first issue is the last. -/
theorem State.issueFour_single {s : State} (h : s.issueDone ∨ s.freeSpans ≤ 1) :
    s.issueSpan.issueSpan.issueSpan.issueSpan = s.issueSpan := by
  have done : s.issueSpan.issueDone := State.issueDone_of_progress (State.issueSpan_progress h)
  rw [State.issueSpan_of_done done, State.issueSpan_of_done done, State.issueSpan_of_done done]

/-- Freeing one slot leaves at most one FREE slot where there was none. -/
theorem State.updSpan_freeSpans {s : State} (n : Nat) (f : SpanSlot → SpanSlot) (h : s.freeSpanNo = none) :
    (s.updSpan n f).freeSpans ≤ 1 := by
  have none := firstWhere_none.1 h
  have atMost : ∀ (xs : List SpanSlot) (n : Nat), (∀ x ∈ xs, (x.st == .free) = false) →
      (upd xs n f).countP (fun x => x.st == .free) ≤ 1 := by
    intro xs
    induction xs with
    | nil => exact fun _ _ => Nat.zero_le 1
    | cons x xs ih =>
      intro n hx
      have rest : xs.countP (fun x => x.st == .free) = 0 :=
        List.countP_eq_zero.2 fun y hy => by simp [hx y (List.mem_cons_of_mem _ hy)]
      cases n with
      | zero =>
        simp only [upd, List.countP_cons, rest]
        split <;> omega
      | succ n =>
        simp only [upd, List.countP_cons, hx x List.mem_cons_self]
        exact ih n fun y hy => hx y (List.mem_cons_of_mem _ hy)
  exact atMost _ n none

theorem State.issueSpans_streaming {s : State} (hst : s.link.st = .streaming) (hc : s.link.commonRead = true) :
    s.issueSpans = s.issueSpan.issueSpan.issueSpan.issueSpan := if_pos ⟨hst, hc⟩

theorem State.issueSpans_stopped {s : State} (h : ¬ (s.link.st = .streaming ∧ s.link.commonRead = true)) : s.issueSpans = s := if_neg h

/-- One slot freed while a common read streams: at most one span is issued. -/
theorem State.issueSpans_freed {s : State} (n : Nat) (hst : s.link.st = .streaming) (hc : s.link.commonRead = true)
    (h : s.issueDone) : (s.updSpan n fun _ => {}).issueSpans = (s.updSpan n fun _ => {}).issueSpan := by
  rw [State.issueSpans_streaming (s := s.updSpan n fun _ => {}) hst hc, State.issueFour_single]
  rcases h with h | h
  · exact .inr (State.updSpan_freeSpans n _ h)
  · exact .inl (.inr h)

/-! ### The span that streaming reaches (05 R90, R92) -/

/-- Streaming reaches slot n: a common read streams, and slot n holds the span of the next word of its extent. -/
structure State.Reaches (s : State) (n : Nat) : Prop where
  streaming : s.link.st = .streaming
  common : s.link.commonRead = true
  more : s.link.exhausted = false
  held : s.spanNo (s.link.count / 16) = some n

theorem State.reachSpan_end {s : State} (h : s.link.exhausted = true) : s.reachSpan = s := by
  simp [State.reachSpan, h]

theorem State.reachSpan_stopped {s : State} (h : ¬ (s.link.st = .streaming ∧ s.link.commonRead = true)) : s.reachSpan = s :=
  if_neg fun hc => h ⟨hc.1, hc.2.1⟩

theorem State.Reaches.sending {s : State} {n : Nat} (h : s.Reaches n) (hx : (s.span n).st = .sending) : s.reachSpan = s := by
  obtain ⟨hst, hc, hm, hn⟩ := h
  simp [State.reachSpan, hst, hc, hm, Config.spanWords, hn, hx]

theorem State.Reaches.ready {s : State} {n : Nat} (h : s.Reaches n) (hx : (s.span n).st = .ready) (hb : s.link.bridgeHold = none) :
    s.reachSpan = s.updSpan n fun x => { x with st := .sending } := by
  obtain ⟨hst, hc, hm, hn⟩ := h
  have link : (s.updSpan n fun x => { x with st := .sending }).link.bridgeHold = none := hb
  simp [State.reachSpan, hst, hc, hm, Config.spanWords, hn, hx, link]

theorem State.Reaches.resumes {s : State} {n : Nat} (h : s.Reaches n) (hx : (s.span n).st = .ready)
    (hb : s.link.bridgeHold.isSome = true) : s.reachSpan = (s.updSpan n fun x => { x with st := .sending }).unhold := by
  obtain ⟨hst, hc, hm, hn⟩ := h
  have link : (s.updSpan n fun x => { x with st := .sending }).link.bridgeHold.isSome = true := hb
  simp [State.reachSpan, hst, hc, hm, Config.spanWords, hn, hx, link]

theorem State.Reaches.filling {s : State} {n : Nat} (h : s.Reaches n) (hx : (s.span n).st = .filling) : s.reachSpan = s.hold .span := by
  obtain ⟨hst, hc, hm, hn⟩ := h
  simp [State.reachSpan, hst, hc, hm, Config.spanWords, hn, hx]

theorem State.Reaches.failed {s : State} {n : Nat} (h : s.Reaches n) (hx : (s.span n).st = .failed) :
    s.reachSpan = s.bridgeStop (some .memoryFault) false :=
  State.reachSpan_failed s n h.streaming h.common h.more h.held hx

theorem State.reachSpan_nothing {s : State} (hst : s.link.st = .streaming) (hc : s.link.commonRead = true)
    (hm : s.link.exhausted = false) (hn : s.spanNo (s.link.count / 16) = none) : s.reachSpan = s.hold .span := by
  simp [State.reachSpan, hst, hc, hm, Config.spanWords, hn]

/-! ### A word of a read (05 R90, 07 R124) -/

/-- The state after a word of a read has been strobed. -/
def State.wordSent (s : State) (w : Word) : State := { s with link := wordMoved s.link w, out := { s.out with data := some w } }

theorem Link.commonRead_iff {l : Link} : l.commonRead = true ↔ l.isAttr = false ∧ l.isRead = true := by
  simp [Link.commonRead]

theorem Link.exhausted_common {l : Link} (h : l.isAttr = false) : l.exhausted = true ↔ l.bound ≤ l.start + l.count := by
  simp [Link.exhausted, h]

theorem Link.exhausted_attr {l : Link} (h : l.isAttr = true) : l.exhausted = true ↔ l.bound ≤ l.offset + l.count := by
  simp [Link.exhausted, h]

/-- Settles O20: a word inside a span only moves; the last word of a span frees its slot, and streaming reaches the next span. -/
theorem readWordSent : Obligations.ReadWordSent := by
  intro s hst hr hb
  have row : exec .readDataWord s = .next s.readWordOut := rfl
  have ended (he : s.link.exhausted = true) : s.readWordOut = s.bridgeStop none true := by
    rw [State.readWordOut, if_pos ⟨hst, hr, hb⟩, if_pos he, State.requestDue_eq s hst hr he]
  have more (he : ¬ s.link.exhausted = true) : s.readWordOut = if s.link.isAttr then s.readAttr else s.readCommon := by
    rw [State.readWordOut, if_pos ⟨hst, hr, hb⟩, if_neg he]
  refine ⟨fun ha => ⟨fun hl => ?_, fun hl => ?_⟩, fun ha => ⟨fun hl => ?_, fun n hn hl => ?_⟩⟩
  · rw [row, more (by rw [Link.exhausted_attr ha]; omega), if_pos ha]
    rfl
  · rw [row, ended ((Link.exhausted_attr ha).2 hl), State.bridgeStop_plain none true (Link.commonRead_of_attr ha)
      (Link.directWrite_of_attr ha), Option.or_none]
  · refine ⟨_, row.trans (congrArg Host.Outcome.next (ended ((Link.exhausted_common ha).2 hl))), ?_⟩
    have ends := State.bridgeStop_read (s := s) none true hr
    rwa [Option.or_none] at ends
  · intro hx w moved next
    have common : s.link.commonRead = true := Link.commonRead_iff.2 ⟨ha, hr⟩
    have sent : s.readWordOut = moved.afterWord n := by
      rw [more (by rw [Link.exhausted_common ha]; omega), if_neg (by simp [ha]), State.readCommon,
        show s.spanNo (s.link.count / Config.spanWords) = some n from hn]
      exact if_pos hx
    have freed (h : s.issueDone) (hs : moved.link.exhausted = true ∨ moved.link.count % 16 = 0) : s.readWordOut = next.reachSpan := by
      rw [sent, State.afterWord, if_pos (by exact hs), State.issueSpans_freed (s := moved) n hst common h]
    have link : next.link = wordMoved s.link w := (State.issueSpan_link _).1
    refine ⟨fun hl' hm => ?_, fun hl' hi => ?_, fun hl' hm hi m hnm => ?_⟩
    · rw [row, sent, State.afterWord, if_neg]
      rintro (he | hc)
      · exact Nat.not_le.2 hl' ((Link.exhausted_common (l := moved.link) ha).1 he)
      · exact hm hc
    · have he : moved.link.exhausted = true := (Link.exhausted_common (l := moved.link) ha).2 hl'
      rw [row, freed hi (.inl he), State.reachSpan_end (by rw [link]; exact he)]
    · have reaches : next.Reaches m := by
        refine ⟨by rw [link]; exact hst, by rw [link]; exact common, ?_, by rw [link]; exact hnm⟩
        rw [link, Bool.eq_false_iff, Ne, Link.exhausted_common (l := wordMoved s.link w) ha]
        exact Nat.not_le.2 hl'
      have row' := row.trans (congrArg Host.Outcome.next (freed hi (.inr hm)))
      refine ⟨fun h => ?_, fun h => ?_, fun h => ?_⟩
      · rw [row', reaches.ready h (by rw [link]; exact hb)]
      · rw [row', reaches.filling h, State.hold, link]
        rfl
      · refine ⟨_, row'.trans (congrArg Host.Outcome.next (reaches.failed h)), ?_⟩
        have ends := State.bridgeStop_read (s := next) (some .memoryFault) false (by rw [link]; exact hr)
        rwa [link] at ends

end Sys2Proof.Machine
end

