-- ==== Sys2Proof/Proofs/AcceptingReads.lean ====
section
/-! PROOF. An opening of a read or of an attribute burst that is accepted (spec/05 R84 to R86, R95, spec/07 R114, R123, R124). -/

namespace Sys2Proof.Machine

/-! ### The first span of a read -/

/-- The only entry that satisfies a test is found. -/
theorem firstWhere_only {α : Type} {p : α → Bool} {xs : List α} {n : Nat} {a : α} (hn : xs[n]? = some a) (ha : p a = true)
    (others : ∀ k b, k ≠ n → xs[k]? = some b → p b = false) : firstWhere p xs = some n := by
  cases h : firstWhere p xs with
  | none => simp [firstWhere_none.1 h a (List.mem_of_getElem? hn)] at ha
  | some m =>
    obtain ⟨b, hb, hp⟩ := firstWhere_some h
    by_cases hm : m = n
    · rw [hm]
    · simp [others m b hm hb] at hp

/-- Slot n holds the first span of the burst, and no other slot holds a span of that number. -/
structure State.FirstIssued (s : State) (n : Nat) (x : SpanSlot) : Prop where
  slot : s.reads.slots[n]? = some x
  seq : x.seq = 0
  issued : x.st = .ready ∨ x.st = .filling
  others : ∀ k y, k ≠ n → s.reads.slots[k]? = some y → y.atRest ∨ y.seq ≠ 0
  next : 1 ≤ s.reads.nextSpan

theorem State.FirstIssued.spanNo {s : State} {n : Nat} {x : SpanSlot} (h : s.FirstIssued n x) : s.spanNo 0 = some n := by
  refine firstWhere_only h.slot ?_ fun k y hk hy => ?_
  · rcases h.issued with e | e <;> simp [h.seq, e]
  · rcases h.others k y hk hy with (e | e) | e <;> simp [e]

theorem State.FirstIssued.span {s : State} {n : Nat} {x : SpanSlot} (h : s.FirstIssued n x) : s.span n = x := by
  rw [State.span, List.getD, h.slot]
  rfl

/-- A further issue leaves the first span where it is. -/
theorem State.FirstIssued.issueSpan {s : State} {n : Nat} {x : SpanSlot} (h : s.FirstIssued n x) : s.issueSpan.FirstIssued n x := by
  by_cases hd : s.issueDone
  · rwa [State.issueSpan_of_done hd]
  · obtain ⟨hf, hb⟩ := not_or.1 hd
    obtain ⟨m, hm⟩ := Option.ne_none_iff_exists'.1 hf
    obtain ⟨y, hy, hp⟩ := firstWhere_some hm
    have other : n ≠ m := by
      rintro rfl
      rw [h.slot, Option.some.injEq] at hy
      subst hy
      rcases h.issued with e | e <;> simp [e] at hp
    rw [State.issueSpan_eq hm (Nat.not_le.1 hb)]
    refine ⟨?_, h.seq, h.issued, fun k z hk hz => ?_, Nat.le_add_left 1 _⟩
    · exact (upd_getElem? _ _ _ _).trans (by rw [if_neg other, h.slot])
    · rw [show (_ : Option SpanSlot) = if k = m then _ else _ from upd_getElem? s.reads.slots m k fun _ => s.nextIssue] at hz
      by_cases hkm : k = m
      · rw [if_pos hkm] at hz
        obtain ⟨_, -, rfl⟩ := Option.map_eq_some_iff.1 hz
        exact .inr (by have := h.next; show s.reads.nextSpan ≠ 0; omega)
      · rw [if_neg hkm] at hz
        exact h.others k z hk hz

/-- The first issue, into a Read Assembly at rest. -/
theorem State.firstIssued_of_rest {s : State} {n : Nat} (hn : s.freeSpanNo = some n) (h0 : s.reads.nextSpan = 0)
    (hb : s.link.start < s.link.bound) (rest : ∀ x ∈ s.reads.slots, x.atRest) : s.issueSpan.FirstIssued n s.nextIssue := by
  have more : s.link.start + 16 * s.reads.nextSpan < s.link.bound := by simpa [h0] using hb
  obtain ⟨y, hy, -⟩ := firstWhere_some hn
  rw [State.issueSpan_eq hn more]
  refine ⟨?_, h0, s.nextIssue_st, fun k z hk hz => .inl ?_, Nat.le_add_left 1 _⟩
  · exact (upd_getElem? _ _ _ _).trans (by rw [if_pos rfl, hy]; rfl)
  · rw [show (_ : Option SpanSlot) = if k = n then _ else _ from upd_getElem? s.reads.slots n k fun _ => s.nextIssue, if_neg hk] at hz
    exact rest z (List.mem_of_getElem? hz)

/-- The issue of a span is not watched. -/
theorem State.issueSpan_watched (s : State) : s.issueSpan.watched = s.watched := by
  rw [State.issueSpan_parts]
  rfl

/-- A common read that is accepted starts below visible capacity. -/
theorem State.decideOpening_read {s : State} {r : Option Nat} {f : Bool} (h : s.decideOpening = .accept r f)
    (hc : s.link.commonRead = true) : s.link.start < s.straps.visible := by
  obtain ⟨ha, hr⟩ := Link.commonRead_iff.1 hc
  by_contra hl
  unfold State.decideOpening at h
  simp only [ha, Bool.false_eq_true, if_false, if_pos (Nat.not_lt.1 hl)] at h
  cases hs : stateRefusal s.ctrl.opState s.link.isRead with
  | some v =>
    rw [hs] at h
    split_ifs at h
  | none =>
    rw [hs] at h
    split_ifs at h

/-- The state in which the spans of an accepted read are issued. -/
def State.readOpened (s : State) (w : Word) : State :=
  { s with
    link := { s.link with
      hdr1 := some w, check := checkWord s.link.check w, stall := none, st := .streaming
      bound := min s.straps.visible (hdrStart w + 16384) }
    out := { s.out with answer := some .accept }, groups := (s.stopIdle s.link.tag).groups
    reads := { s.reads with nextSpan := 0 } }

theorem State.takeOpening_read {s : State} {w : Word} (hst : s.link.st = .opening) (hc : s.link.commonRead = true)
    (hd : (s.wordOneTaken w).decideOpening = .accept none false) :
    s.takeOpening w = (s.readOpened w).issueSpan.issueSpan.issueSpan.issueSpan.reachSpan := by
  obtain ⟨ha, hr⟩ := Link.commonRead_iff.1 hc
  have accepted : ∀ a : State, a.link = s.link.opened w → a.accept none false = (a.setOut a.acceptedOut).acceptRead := fun a hl => by
    simp [State.accept, State.acceptedOut, hl, ha, hr]
  rw [(exec_opening_eq w hst).2, hd]
  show (s.wordOneTaken w).accept none false = _
  rw [accepted _ (s.wordOneTaken_link w), State.wordOneTaken_eq]
  show (s.readOpened w).issueSpans.reachSpan = _
  rw [State.issueSpans_streaming (s := s.readOpened w) rfl hc]

/-- An accepted common read: the part of O11 that speaks of it. -/
theorem openingAcceptsRead {s : State} {w : Word} (ha : s.attnOk) (hst : s.link.st = .opening) (htables : s.tablesOk)
    (hc : s.link.commonRead = true) (h0 : s.link.count = 0) (hb : s.link.bridgeHold = none) (rest : ∀ x ∈ s.reads.slots, x.atRest)
    (hd : (s.wordOneTaken w).decideOpening = .accept none false) :
    let opened := s.readOpened w
    let issued := opened.issueSpan.issueSpan.issueSpan.issueSpan
    let pauses : Prop := exec (.opening w) s = .next { issued with link := { opened.link with bridgeHold := some .span } }
    (issued.freeSpanNo = none ∨ opened.link.bound ≤ hdrStart w + 16 * issued.reads.nextSpan) ∧
    (s.freeSpanNo = none → issued = opened ∧ pauses) ∧
    (∀ n, s.freeSpanNo = some n →
      issued.spanNo 0 = some n ∧ ((issued.span n).st = .ready ∨ (issued.span n).st = .filling) ∧
      ((issued.span n).st = .ready → exec (.opening w) s = .next (issued.updSpan n fun x => { x with st := .sending })) ∧
      ((issued.span n).st = .filling → pauses)) := by
  intro opened issued pauses
  have taken : s.takeOpening w = issued.reachSpan := State.takeOpening_read hst hc hd
  have start : (s.wordOneTaken w).link.start < (s.wordOneTaken w).straps.visible :=
    State.decideOpening_read hd (by rw [State.wordOneTaken_link]; exact hc)
  rw [State.wordOneTaken_eq] at start
  have more : opened.link.start < opened.link.bound := by
    show hdrStart w < min s.straps.visible (hdrStart w + 16384)
    have : hdrStart w < s.straps.visible := start
    omega
  have link : issued.link = opened.link := by
    simp only [issued, (State.issueSpan_link _).1]
  have watched : issued.watched = s.watched := by
    simp only [issued, State.issueSpan_watched]
    rfl
  have unfinished : issued.link.exhausted = false := by
    rw [link, Bool.eq_false_iff, Ne, Link.exhausted_common (l := opened.link) (Link.commonRead_iff.1 hc).1]
    show ¬ opened.link.bound ≤ opened.link.start + s.link.count
    omega
  have answered {t : State} (ht : issued.reachSpan = t) (hw : t.watched = issued.watched) : exec (.opening w) s = .next t :=
    congrArg Host.Outcome.next (observe_unwatched ha (taken.trans ht) (hw.trans watched))
  have four : opened.freeSpans ≤ 4 := List.countP_le_length.trans (by rw [show opened.reads.slots.length = _ from htables.2.2.2.1]; rfl)
  have at0 : issued.link.count / 16 = 0 := by
    rw [link, show opened.link.count = s.link.count from rfl, h0]
  have paused (ht : issued.reachSpan = issued.hold .span) : pauses := by
    refine answered (ht.trans ?_) rfl
    rw [State.hold, link]
    rfl
  refine ⟨?_, fun hn => ?_, fun n hn => ?_⟩
  · have done := State.issueFour_done four
    rw [State.issueDone, show State.link _ = opened.link from link] at done
    exact done
  · have done : opened.issueDone := .inl hn
    have same : issued = opened := by
      simp only [issued, State.issueSpan_of_done done]
    refine ⟨same, paused (State.reachSpan_nothing (by rw [link]; rfl) (by rw [link]; exact hc) unfinished ?_)⟩
    rw [at0, same]
    exact firstWhere_none.2 fun x hx => by rcases rest x hx with e | e <;> simp [e]
  · have first : issued.FirstIssued n opened.nextIssue :=
      (State.firstIssued_of_rest (s := opened) hn rfl more rest).issueSpan.issueSpan.issueSpan
    have reaches : issued.Reaches n := ⟨by rw [link]; rfl, by rw [link]; exact hc, unfinished, by rw [at0]; exact first.spanNo⟩
    refine ⟨first.spanNo, by rw [first.span]; exact first.issued, fun h => ?_, fun h => paused (reaches.filling h)⟩
    exact answered (reaches.ready h (by rw [link]; exact hb)) rfl

/-! ### An attribute burst (07 R123, R124) -/

theorem State.takeOpening_attr {s : State} {w : Word} (hst : s.link.st = .opening) (ha : s.link.isAttr = true)
    (hf : formatFault s.link.h0 w = false) (ht : (s.tag s.link.tag).fenced = false) :
    s.takeOpening w = ((s.wordOneTaken w).setOut (s.wordOneTaken w).acceptedOut).acceptAttr := by
  have link := s.wordOneTaken_link w
  have decided : (s.wordOneTaken w).decideOpening = .accept none false := by
    refine State.decideOpening_attr ?_ ?_ ?_
    · rw [link]
      exact hf
    · rw [State.wordOneTaken_tagOf, link]
      exact ht
    · rw [link]
      exact ha
  have accepted : ∀ a : State, a.link = s.link.opened w → a.accept none false = (a.setOut a.acceptedOut).acceptAttr := fun a hl => by
    simp [State.accept, State.acceptedOut, hl, ha]
  rw [(exec_opening_eq w hst).2, decided]
  exact accepted _ link

/-- Settles O11: the spans of a read are issued into the FREE slots, and an attribute burst is accepted whatever the state. -/
theorem openingAcceptsReadOrAttribute : Obligations.OpeningAcceptsReadOrAttribute := by
  intro s w ⟨hw, ha⟩ hst
  refine ⟨fun htables hc h0 hb rest hd => openingAcceptsRead ha hst htables hc h0 hb rest hd, fun hattr hf ht => ?_⟩
  have taken := State.takeOpening_attr hst hattr hf ht
  have watched : (s.takeOpening w).watched = s.watched := by
    rw [taken, State.wordOneTaken_eq]
    unfold State.acceptAttr
    dsimp only
    split <;> rfl
  refine ⟨s.takeOpening w, congrArg Host.Outcome.next (observe_unwatched ha rfl watched), ?_⟩
  rw [taken, State.wordOneTaken_eq]
  by_cases hr : s.link.isRead = true
  · rw [State.acceptAttr, if_pos (by exact hr)]
    exact ⟨rfl, rfl, rfl, fun _ => rfl, fun h => absurd hr (by simp [h])⟩
  · rw [State.acceptAttr, if_neg (by exact hr)]
    exact ⟨rfl, rfl, rfl, fun h => absurd h hr, fun _ => rfl⟩

end Sys2Proof.Machine
end

