-- ==== Sys2Proof/Proofs/SpanCompletions.lean ====
section
/-! PROOF. The completion of a Memory Port request, and that of a span of a read (spec/08 R128, R131, spec/05 R87, R91, R92). -/

namespace Sys2Proof.Machine

/-! ### The oldest outstanding request removed (08 R128) -/

/-- The state with the outstanding requests `rest`. -/
def State.popped (s : State) (rest : List Outstanding) : State := s.setPort { s.port with outstanding := rest }

theorem State.dropHead_eq {s : State} {o : Outstanding} {rest : List Outstanding} (h : s.port.outstanding = o :: rest) :
    s.dropHead = s.popped rest := by
  rw [State.dropHead, h]
  rfl

/-- A completion that the oldest outstanding request calls for is observed on the state without that request. -/
theorem exec_completed {i : Instr} {s : State} {o : Outstanding} {rest : List Outstanding} (hi : isCompletion i = true)
    (hd : ∀ c, i ≠ .discardedCompletion c) (h : s.port.outstanding = o :: rest) (ha : answers i o = true) :
    exec i s = .next (observe (fun t => completed i o (t.popped rest)) s) :=
  (exec_eq_withHead s hi hd).trans (State.withHead_next _ h ha)

/-! ### Tables of spans -/

/-- A change that the test does not see leaves what it finds. -/
theorem firstWhere_upd {α : Type} {p : α → Bool} {xs : List α} {n : Nat} {f : α → α} (h : ∀ x, xs[n]? = some x → p (f x) = p x) :
    firstWhere p (upd xs n f) = firstWhere p xs := by
  induction xs generalizing n with
  | nil => rfl
  | cons a as ih =>
    cases n with
    | zero => simp [upd, firstWhere, h a rfl]
    | succ n => simp [upd, firstWhere, ih (n := n) fun x hx => h x (by simpa using hx)]

theorem upd_congr {α : Type} {xs : List α} {n : Nat} {f g : α → α} (h : ∀ x, xs[n]? = some x → f x = g x) :
    upd xs n f = upd xs n g := by
  induction xs generalizing n with
  | nil => rfl
  | cons a as ih =>
    cases n with
    | zero => simp [upd, h a rfl]
    | succ n => simp [upd, ih (n := n) fun x hx => h x (by simpa using hx)]

theorem State.updSpan_self {s : State} {n : Nat} (f : SpanSlot → SpanSlot) (hn : n < s.reads.slots.length) :
    (s.updSpan n f).span n = f (s.span n) := upd_getD_self _ _ _ _ hn

theorem State.updSpan_other (s : State) {n k : Nat} (f : SpanSlot → SpanSlot) (hk : k ≠ n) : (s.updSpan n f).span k = s.span k :=
  upd_getD_ne _ _ _ _ _ hk

theorem State.span_eq_of_getElem? {s : State} {n : Nat} {x : SpanSlot} (h : s.reads.slots[n]? = some x) : s.span n = x := by
  rw [State.span, List.getD, h]
  rfl

/-- A span completed in FILLING is still the burst's, and its slot still not FREE. -/
theorem SpanSlot.complete_filling {x : SpanSlot} (c : Completion) (h : x.st = .filling) :
    (x.complete c).seq = x.seq ∧ ((x.complete c).st = .ready ∨ (x.complete c).st = .failed) := by
  unfold SpanSlot.complete
  rw [h]
  cases c with
  | ok ws => exact ⟨rfl, .inl rfl⟩
  | error => exact ⟨rfl, .inr rfl⟩

theorem SpanSlot.complete_ok {x : SpanSlot} (ws : List Word) (h : x.st = .filling) : x.complete (.ok ws) = x.fill ws := by
  unfold SpanSlot.complete
  rw [h]

theorem SpanSlot.complete_error {x : SpanSlot} (h : x.st = .filling) : x.complete .error = { x with st := .failed } := by
  unfold SpanSlot.complete
  rw [h]

theorem SpanSlot.complete_discarding {x : SpanSlot} (c : Completion) (h : x.st = .discarding) : x.complete c = {} := by
  unfold SpanSlot.complete
  rw [h]

theorem State.spanNo_complete {s : State} {n : Nat} (c : Completion) (h : (s.span n).st = .filling) (i : Nat) :
    (s.updSpan n fun x => x.complete c).spanNo i = s.spanNo i := by
  refine firstWhere_upd fun x hx => ?_
  rw [State.span_eq_of_getElem? hx] at h
  obtain ⟨seq, st | st⟩ := SpanSlot.complete_filling c h <;> simp [seq, st, h]

theorem State.freeSpanNo_complete {s : State} {n : Nat} (c : Completion) (h : (s.span n).st = .filling) :
    (s.updSpan n fun x => x.complete c).freeSpanNo = s.freeSpanNo := by
  refine firstWhere_upd fun x hx => ?_
  rw [State.span_eq_of_getElem? hx] at h
  obtain ⟨-, st | st⟩ := SpanSlot.complete_filling c h <;> simp [st, h]

/-! ### The completion of a span -/

theorem State.issueSpan_setAttn (s : State) (a : Attn) : (s.setAttn a).issueSpan = s.issueSpan.setAttn a := by
  by_cases h : s.issueDone
  · rw [State.issueSpan_of_done h, State.issueSpan_of_done (s := s.setAttn a) h]
  · obtain ⟨hf, hb⟩ := not_or.1 h
    obtain ⟨n, hn⟩ := Option.ne_none_iff_exists'.1 hf
    rw [State.issueSpan_eq hn (Nat.not_le.1 hb), State.issueSpan_eq (s := s.setAttn a) hn (Nat.not_le.1 hb)]
    rfl

theorem State.issueSpans_setAttn (s : State) (a : Attn) : (s.setAttn a).issueSpans = s.issueSpans.setAttn a := by
  by_cases h : s.link.st = .streaming ∧ s.link.commonRead = true
  · rw [State.issueSpans_streaming h.1 h.2, State.issueSpans_streaming (s := s.setAttn a) h.1 h.2]
    simp only [State.issueSpan_setAttn]
  · rw [State.issueSpans_stopped h, State.issueSpans_stopped (s := s.setAttn a) h]

theorem State.handCollecting_setAttn (s : State) (a : Attn) : (s.setAttn a).handCollecting = s.handCollecting.setAttn a := by
  by_cases h : s.link.collecting = []
  · exact (if_pos h).trans (congrArg (fun x : State => x.setAttn a) (if_pos h).symm)
  · rw [State.handCollecting_eq h, State.handCollecting_eq (s := s.setAttn a) h]
    rfl

theorem State.endData_setAttn (s : State) (a : Attn) : (s.setAttn a).endData = s.endData.setAttn a := by
  unfold State.endData
  rw [State.setAttn_link]
  split
  · rfl
  · split
    · exact s.handCollecting_setAttn a
    · rfl

theorem State.bridgeStop_setAttn (s : State) (a : Attn) (pv : Option Verdict) (cut : Bool) :
    (s.setAttn a).bridgeStop pv cut = (s.bridgeStop pv cut).setAttn a :=
  State.endData_setAttn (s.setLink (stoppingLink s (s.link.pendVerdict.or pv) cut)) a

theorem State.reachSpan_setAttn (s : State) (a : Attn) : (s.setAttn a).reachSpan = s.reachSpan.setAttn a := by
  unfold State.reachSpan
  simp only [State.setAttn_link, show ∀ i, (s.setAttn a).spanNo i = s.spanNo i from fun _ => rfl,
    show ∀ n, (s.setAttn a).span n = s.span n from fun _ => rfl, State.bridgeStop_setAttn]
  split
  · split
    · split
      · rfl
      · show (if s.link.bridgeHold.isSome = true then _ else _) = State.setAttn (if s.link.bridgeHold.isSome = true then _ else _) a
        split <;> rfl
      · rfl
      · rfl
    · rfl
  · rfl

/-- The Attention Unit's fields have no part in what a completed span brings with it. -/
theorem State.spanCompleted_eq (s : State) (n : Nat) (c : Completion) :
    s.spanCompleted n c = ((s.updSpan n fun x => x.complete c).issueSpans.reachSpan).setAttn { s.attn with
      flags := s.attn.flags ||| flagAt 10 (c == .error && s.ctrl.opState != .held) } := by
  unfold State.spanCompleted
  rw [State.reportIf_eq]
  change ((State.setAttn _ _).issueSpans.reachSpan) = _
  rw [State.issueSpans_setAttn, State.reachSpan_setAttn]
  rfl

/-- The state that a completed span brings, but for the Attention Unit's fields. -/
def State.afterSpan (s : State) (rest : List Outstanding) (n : Nat) (c : Completion) : State :=
  ((s.popped rest).updSpan n fun x => x.complete c).issueSpans.reachSpan

theorem State.afterSpan_attn (s : State) (rest : List Outstanding) (n : Nat) (c : Completion) :
    (s.afterSpan rest n c).attn = s.attn := by
  have view : (s.afterSpan rest n c).attnView = s.attnView := by simp [State.afterSpan, State.popped]
  exact congrArg (fun x => x.2.2) view

/-- A completion of a span, as the Attention Unit notes it; an OK one that changes nothing watched is the step itself. -/
theorem exec_span_completed {s : State} {o : Outstanding} {rest : List Outstanding} {n : Nat} {c : Completion}
    (hh : s.ctrl.opState ≠ .held) (h : s.port.outstanding = o :: rest) (hr : o.role = .span n) (ht : o.disposition = .take)
    (hf : o.fits c = true) :
    (∃ t, exec (.readSpanCompletion c) s = .next t ∧ t = { s.afterSpan rest n c with attn := t.attn } ∧
      noted s t (flagAt 10 (c == .error))) ∧
    (c ≠ .error → s.attnOk → (s.afterSpan rest n c).watched = s.watched → exec (.readSpanCompletion c) s = .next (s.afterSpan rest n c)) := by
  have row := exec_completed (i := .readSpanCompletion c) rfl (fun _ e => nomatch e) h
    (by simp [answers, hr, ht, hf, Role.spanNo])
  have step : completed (.readSpanCompletion c) o (s.popped rest) =
      (s.afterSpan rest n c).setAttn { s.attn with flags := s.attn.flags ||| flagAt 10 (c == .error) } := by
    have live : (s.popped rest).ctrl.opState ≠ .held := hh
    have slot : o.role.spanNo.getD 0 = n := by
      rw [hr]
      rfl
    show (s.popped rest).spanCompleted (o.role.spanNo.getD 0) c = _
    rw [slot, State.spanCompleted_eq, show ((s.popped rest).ctrl.opState != .held) = true by simpa using live, Bool.and_true]
    rfl
  refine ⟨⟨_, row, observe_step_setAttn step, noted_observe step rfl rfl⟩, fun hc ha hw => ?_⟩
  refine row.trans (congrArg Host.Outcome.next (observe_unwatched ha ?_ hw))
  rw [step, show (c == .error) = false by simpa using hc, ← s.afterSpan_attn rest n c, flagAt_false,
    show (s.afterSpan rest n c).attn.flags ||| (0 : BitVec 16) = (s.afterSpan rest n c).attn.flags from BitVec.or_zero]
  rfl

/-! ### What a completed span brings -/

/-- The state with the span of slot n completed. -/
def State.spanEnded (s : State) (rest : List Outstanding) (n : Nat) (c : Completion) : State :=
  (s.popped rest).updSpan n fun x => x.complete c

theorem State.afterSpan_eq (s : State) (rest : List Outstanding) (n : Nat) (c : Completion) :
    s.afterSpan rest n c = (s.spanEnded rest n c).issueSpans.reachSpan := rfl

/-- A completed span brings nothing more where no common read streams. -/
theorem State.afterSpan_idle {s : State} (rest : List Outstanding) (n : Nat) (c : Completion)
    (h : ¬ (s.link.st = .streaming ∧ s.link.commonRead = true)) : s.afterSpan rest n c = s.spanEnded rest n c := by
  rw [State.afterSpan_eq, State.issueSpans_stopped (s := s.spanEnded rest n c) h, State.reachSpan_stopped (s := s.spanEnded rest n c) h]

/-- A span completed in FILLING frees no slot. -/
theorem State.afterSpan_filling {s : State} {n : Nat} (rest : List Outstanding) (c : Completion) (h : (s.span n).st = .filling)
    (hst : s.link.st = .streaming) (hc : s.link.commonRead = true) (hi : s.issueDone) :
    s.afterSpan rest n c = (s.spanEnded rest n c).reachSpan := by
  have done : (s.spanEnded rest n c).issueDone :=
    hi.imp_left ((State.freeSpanNo_complete (s := s.popped rest) c h).trans ·)
  rw [State.afterSpan_eq, State.issueSpans_streaming (s := s.spanEnded rest n c) hst hc, State.issueSpan_of_done done,
    State.issueSpan_of_done done, State.issueSpan_of_done done, State.issueSpan_of_done done]

/-- A link that waits for a span waits on. -/
theorem Link.waits {l : Link} (h : l.bridgeHold = some .span) (k : l.stall = none) : { l with bridgeHold := some .span, stall := none } = l := by
  cases l
  cases h
  cases k
  rfl

theorem State.hold_waits {s : State} (h : s.link.bridgeHold = some .span) (k : s.link.stall = none) : s.hold .span = s := by
  rw [State.hold, Link.waits h k]
  rfl

/-- Streaming that is at a SENDING span, or waits for a FILLING one, stays. -/
theorem State.reachSpan_stays {s : State} {m : Nat} (hst : s.link.st = .streaming) (hc : s.link.commonRead = true)
    (hm : s.spanNo (s.link.count / 16) = some m)
    (h : (s.span m).st = .sending ∨ ((s.span m).st = .filling ∧ s.link.bridgeHold = some .span ∧ s.link.stall = none)) :
    s.reachSpan = s := by
  by_cases he : s.link.exhausted = true
  · exact State.reachSpan_end he
  · have reaches : s.Reaches m := ⟨hst, hc, by simpa using he, hm⟩
    rcases h with h | ⟨h, hb, hs⟩
    · exact reaches.sending h
    · exact (reaches.filling h).trans (State.hold_waits hb hs)

/-- A completed span that streaming does not wait for changes its slot alone. -/
theorem State.afterSpan_aside {s : State} {n : Nat} (rest : List Outstanding) (c : Completion) (h : (s.span n).st = .filling)
    (hs : ¬ (s.link.st = .streaming ∧ s.link.commonRead = true) ∨
      (s.issueDone ∧ ∃ m, s.spanNo (s.link.count / 16) = some m ∧ m ≠ n ∧
        ((s.span m).st = .sending ∨ ((s.span m).st = .filling ∧ s.link.bridgeHold = some .span ∧ s.link.stall = none)))) :
    s.afterSpan rest n c = s.spanEnded rest n c := by
  by_cases hstream : s.link.st = .streaming ∧ s.link.commonRead = true
  · obtain ⟨hi, m, hm, hne, hx⟩ := hs.resolve_left (not_not_intro hstream)
    rw [State.afterSpan_filling rest c h hstream.1 hstream.2 hi]
    refine State.reachSpan_stays (s := s.spanEnded rest n c) (m := m) hstream.1 hstream.2 ?_ ?_
    · exact (State.spanNo_complete (s := s.popped rest) c h _).trans hm
    · rw [show (s.spanEnded rest n c).span m = s.span m from (s.popped rest).updSpan_other _ hne]
      exact hx
  · exact State.afterSpan_idle rest n c hstream

/-- Streaming that waits for the completed span reaches it. -/
theorem State.reaches_spanEnded {s : State} {n : Nat} (rest : List Outstanding) (c : Completion) (h : (s.span n).st = .filling)
    (hst : s.link.st = .streaming) (hc : s.link.commonRead = true) (hl : s.link.start + s.link.count < s.link.bound)
    (hn : s.spanNo (s.link.count / 16) = some n) : (s.spanEnded rest n c).Reaches n :=
  { streaming := hst
    common := hc
    more := by
      show s.link.exhausted = false
      rw [Bool.eq_false_iff, Ne, Link.exhausted_common (Link.commonRead_iff.1 hc).1]
      omega
    held := (State.spanNo_complete (s := s.popped rest) c h _).trans hn }

/-- A DISCARDING slot whose request completes is FREE, and a common read that streams issues its next span into it. -/
theorem State.afterSpan_discarding {s : State} {n : Nat} (rest : List Outstanding) (c : Completion) (h : (s.span n).st = .discarding)
    (hst : s.link.st = .streaming) (hc : s.link.commonRead = true) (hi : s.issueDone) :
    s.afterSpan rest n c = (((s.popped rest).updSpan n fun _ => {}).issueSpan).reachSpan := by
  have freed : s.spanEnded rest n c = (s.popped rest).updSpan n fun _ => {} := by
    unfold State.spanEnded State.updSpan
    rw [upd_congr fun x hx => ?_]
    have at_n : s.span n = x := State.span_eq_of_getElem? (s := s.popped rest) hx
    rw [at_n] at h
    exact SpanSlot.complete_discarding c h
  rw [State.afterSpan_eq, freed, State.issueSpans_freed (s := s.popped rest) n hst hc hi]

theorem State.unhold_eq {s : State} {l : Link} {c : Ctrl} (hl : s.link = l) (hc : s.ctrl = c) :
    s.unhold = { s with link := { l with
      bridgeHold := none, stall := if l.masterHold then some c.stallLimit else none } } := by
  subst hl hc
  rfl

/-- Settles O50: by the state of the slot, and by what streaming waits for. -/
theorem readSpanCompletes : Obligations.ReadSpanCompletes := by
  intro s o rest n ha hh ho hr ht hn s1 streams left issued filled
  have fits (ws : List Word) (h : ws.length = o.len) : o.fits (.ok ws) = true := by simp [Outstanding.fits, h]
  have self (c : Completion) : (s.spanEnded rest n c).span n = (s.span n).complete c := State.updSpan_self (s := s.popped rest) _ hn
  have other (c : Completion) : ∀ k, k ≠ n → (s.spanEnded rest n c).span k = s.span k := fun k hk => (s.popped rest).updSpan_other _ hk
  refine ⟨fun hs hx => ⟨fun ws hw => ?_, ?_⟩, fun hst hl hi hb hm hx => ⟨fun ws hw => ?_, ?_⟩, fun c hc hx => ?_⟩
  · have step := State.afterSpan_aside rest (.ok ws) hx hs
    have row := (exec_span_completed hh ho hr ht (fits ws hw)).2 nofun ha (by rw [step]; rfl)
    rw [step] at row
    exact ⟨_, row, rfl, (self _).trans (SpanSlot.complete_ok ws hx), other _, rfl⟩
  · obtain ⟨t, row, eq, hnoted⟩ := (exec_span_completed (c := .error) hh ho hr ht rfl).1
    rw [State.afterSpan_aside rest .error hx hs] at eq
    obtain ⟨a, rfl⟩ : ∃ a, t = { s.spanEnded rest n .error with attn := a } := ⟨_, eq⟩
    exact ⟨_, row, rfl, (self _).trans (SpanSlot.complete_error hx), other _, rfl, hnoted⟩
  · have reaches := State.reaches_spanEnded rest (.ok ws) hx hst.1 hst.2 hl hm
    have ready : ((s.spanEnded rest n (.ok ws)).span n).st = .ready := by
      rw [self, SpanSlot.complete_ok ws hx]
      rfl
    have step := (State.afterSpan_filling rest (.ok ws) hx hst.1 hst.2 hi).trans
      (reaches.resumes ready (by show s.link.bridgeHold.isSome = true; rw [hb]; rfl))
    have row := (exec_span_completed hh ho hr ht (fits ws hw)).2 nofun ha (by rw [step]; rfl)
    rw [step] at row
    refine ⟨_, row, rfl, ?_, fun k hk => ?_, rfl⟩
    · have sent := State.updSpan_self (s := s.spanEnded rest n (.ok ws)) (fun x => { x with st := .sending })
        (by show n < (upd s.reads.slots n _).length; rw [upd_length]; exact hn)
      rw [self, SpanSlot.complete_ok ws hx] at sent
      exact sent
    · exact ((s.spanEnded rest n (.ok ws)).updSpan_other _ hk).trans (other _ k hk)
  · have reaches := State.reaches_spanEnded rest .error hx hst.1 hst.2 hl hm
    have failed : ((s.spanEnded rest n .error).span n).st = .failed := by rw [self, SpanSlot.complete_error hx]
    obtain ⟨t, row, eq, hnoted⟩ := (exec_span_completed (c := .error) hh ho hr ht rfl).1
    rw [State.afterSpan_filling rest .error hx hst.1 hst.2 hi, reaches.failed failed] at eq
    have ends := State.bridgeStop_read (s := s.spanEnded rest n .error) (some .memoryFault) false (Link.commonRead_iff.1 hst.2).2
    have atRest := State.endData_atRest (s := (s.spanEnded rest n .error).setLink
      (stoppingLink (s.spanEnded rest n .error) (s.link.pendVerdict.or (some .memoryFault)) false)) hst.2
    change (∀ x ∈ ((s.spanEnded rest n .error).bridgeStop (some .memoryFault) false).reads.slots, x.atRest) ∧ _ at atRest
    generalize (s.spanEnded rest n .error).bridgeStop (some .memoryFault) false = b at *
    obtain ⟨parts, dropped⟩ := ends
    rw [if_pos (by exact hst.2)] at dropped
    obtain ⟨a, rfl⟩ : ∃ a, t = { b with attn := a } := ⟨_, eq⟩
    refine ⟨_, row, ?_, dropped.1, atRest.1, hnoted⟩
    rw [dropped.2.1] at parts
    rw [parts]
    rfl
  · have free := SpanSlot.complete_discarding c hx
    have okay : o.fits c = true := by
      cases c with
      | ok ws => exact fits ws (hc ws rfl)
      | error => rfl
    obtain ⟨t, row, eq, hnoted⟩ := (exec_span_completed hh ho hr ht okay).1
    refine ⟨fun hs => ⟨t, row, ?_⟩, fun hst hi => ⟨fun hm => ⟨t, row, ?_⟩, fun m hl hb hm hx' => ⟨t, row, ?_⟩⟩⟩
    · rw [State.afterSpan_idle rest n c hs] at eq
      obtain ⟨a, rfl⟩ : ∃ a, t = { s.spanEnded rest n c with attn := a } := ⟨_, eq⟩
      exact ⟨rfl, (self c).trans free, other c, rfl, hnoted⟩
    · have step := State.afterSpan_discarding rest c hx hst.1 hst.2 hi
      have link : (((s.popped rest).updSpan n fun _ => {}).issueSpan).link = s.link := (State.issueSpan_link _).1
      have stays : (((s.popped rest).updSpan n fun _ => {}).issueSpan).reachSpan =
          ((s.popped rest).updSpan n fun _ => {}).issueSpan := by
        rcases hm with hl | ⟨m, hm, hx'⟩
        · refine State.reachSpan_end ?_
          rw [link, Link.exhausted_common (Link.commonRead_iff.1 hst.2).1]
          exact Nat.not_lt.1 hl
        · refine State.reachSpan_stays (m := m) (by rw [link]; exact hst.1) (by rw [link]; exact hst.2) (by rw [link]; exact hm) ?_
          rw [link]
          exact hx'
      rw [step, stays] at eq
      exact ⟨eq, hnoted⟩
    · have step := State.afterSpan_discarding rest c hx hst.1 hst.2 hi
      have link : (((s.popped rest).updSpan n fun _ => {}).issueSpan).link = s.link := (State.issueSpan_link _).1
      have ctrl : (((s.popped rest).updSpan n fun _ => {}).issueSpan).ctrl = s.ctrl := (State.issueSpan_link _).2
      have reaches : (((s.popped rest).updSpan n fun _ => {}).issueSpan).Reaches m := by
        refine ⟨by rw [link]; exact hst.1, by rw [link]; exact hst.2, ?_, by rw [link]; exact hm⟩
        rw [link, Bool.eq_false_iff, Ne, Link.exhausted_common (Link.commonRead_iff.1 hst.2).1]
        exact Nat.not_le.2 hl
      rw [step, reaches.resumes hx' (by rw [link, hb]; rfl),
        State.unhold_eq (s := State.updSpan (State.issueSpan _) m _) link ctrl] at eq
      exact ⟨eq, hnoted⟩

end Sys2Proof.Machine
end

