-- ==== Sys2Proof/Proofs/FailedBursts.lean ====
section
/-! PROOF. The bursts that end neither GOOD nor CUT, and the reads: their receipt, and what becomes of the record and the group (spec/07
R119 to R121, spec/01 R14, spec/02 R23, R34, R38). -/

namespace Sys2Proof.Machine

/-! ### The receipt after a report -/

/-- Starting an idle timer reads and changes the groups and the limit alone. -/
theorem State.startIdle_groups_congr {s a : State} (hg : a.groups = s.groups) (hl : a.ctrl.idleLimit = s.ctrl.idleLimit) (t : Nat) :
    (a.startIdle t).groups = (s.startIdle t).groups := by
  unfold State.startIdle
  rw [State.tag_congr (congrArg Groups.tags hg), hl]
  split
  · show ({ a.groups with slots := upd a.groups.slots _ _ } : Groups) = _
    rw [hg]
    rfl
  · exact hg

/-- The Attention Unit's fields with CHECK_FAIL_SEEN reported for CHECK_FAIL. -/
def State.checkFailNoted (s : State) (v : Verdict) : Attn :=
  { s.attn with flags := s.attn.flags ||| flagAt 8 (v == .checkFail && s.ctrl.opState != .held) }

theorem State.reportIf_checkFail (s : State) (v : Verdict) :
    s.reportIf (v == .checkFail) .checkFailSeen = s.setAttn (s.checkFailNoted v) := s.reportIf_eq _ _

/-- The end of a burst that is its receipt, and a report of CHECK_FAIL. -/
theorem State.finishPlain_eq {s : State} (v : Verdict) (hw : s.ctrl.holdWritten = none) (h1 : s.link.hdr1.isSome = true) :
    s.finishPlain v = { s with
      link := {}, out := receiptOf s v false, groups := (s.startIdle s.link.tag).groups, attn := s.checkFailNoted v } := by
  rw [State.finishPlain, State.reportIf_checkFail, State.driveReceipt_opened v false (by exact hw) (by exact h1),
    State.startIdle_groups_congr (s := s) (a := s.setAttn (s.checkFailNoted v)) rfl rfl]
  rfl

/-- The verdict that a check exchange settles (07 R119, R120). -/
theorem Link.settle_eq (l : Link) (p : Prop) [Decidable p] :
    l.settle (decide p) = l.pendVerdict.getD (if p then (if l.cut then .cut else .good) else .checkFail) := by
  simp [Link.settle]

/-- A state that ends as a receipt, as the Attention Unit notes it. -/
theorem State.finishPlain_noted {s : State} (v : Verdict) (hw : s.ctrl.holdWritten = none) (h1 : s.link.hdr1.isSome = true) :
    let t := observe (fun x => x.finishPlain v) s
    t = { s with link := {}, out := receiptOf s v false, groups := (s.startIdle s.link.tag).groups, attn := t.attn } ∧
      noted s t (flagAt 8 (v == .checkFail && s.ctrl.opState != .held)) :=
  have step := State.finishPlain_eq v hw h1
  ⟨(observe_step step).trans rfl, noted_observe step rfl rfl⟩

/-- Settles O27: the reply settles the verdict, and the read ends with its receipt. -/
theorem checkReply : Obligations.CheckReply := by
  intro s w ⟨hw, ha⟩ hst hh hr h1 v
  have settled : s.link.settle (replyMatches w) = v := s.link.settle_eq (w = 1)
  have row : exec (.checkReply w) s = .next (observe (fun x => x.finishPlain v) s) := by
    show Host.Outcome.next (s.takeReply w) = _
    rw [State.takeReply, if_pos ⟨by simp [Link.awaitsCheck, hst, hh], hr⟩, settled]
  exact ⟨_, row, State.finishPlain_noted v hw h1⟩

/-! ### A record freed (01 R14) -/

theorem State.freeOptRecord_record (s : State) (r : Option Nat) (k : Nat) :
    (s.freeOptRecord r).record k = if r = some k then {} else s.record k := by
  cases r with
  | none => rfl
  | some r =>
    by_cases h : k = r
    · rw [h, if_pos rfl]
      exact Staging.free_record _ _
    · rw [if_neg (by simpa using Ne.symm h)]
      exact Staging.free_other _ _ _ h

/-- Freeing a record changes the Staging Buffer alone. -/
theorem State.freeOptRecord_parts (s : State) (r : Option Nat) : s.freeOptRecord r = { s with staging := (s.freeOptRecord r).staging } := by
  cases r <;> rfl

@[simp] theorem State.freeOptRecord_ram (s : State) (r : Option Nat) : (s.freeOptRecord r).staging.ram = s.staging.ram := by
  cases r <;> rfl

theorem recordFreed_of_staging {s t : State} (h : t.staging = (s.freeOptRecord s.link.record).staging) : recordFreed s t := by
  have record (k : Nat) : t.record k = (s.freeOptRecord s.link.record).record k := State.record_congr (congrArg Staging.records h) k
  refine ⟨fun r hr => ?_, fun k hk => ?_, by rw [h, State.freeOptRecord_ram]⟩
  · rw [record, State.freeOptRecord_record, if_pos hr]
  · rw [record, State.freeOptRecord_record, if_neg hk]

/-- A rejection after the record of the burst has been freed. -/
theorem groupRejected_of_freed {s a b : State} {n : Nat} {e : FirstError} {r : Option Nat} (h : groupRejected a b n e none)
    (hg : a.staging = (s.freeOptRecord r).staging) (groups : a.groups = s.groups) (ho : a.outcomes = s.outcomes) :
    groupRejected s b n e r := by
  have slots (k : Nat) : a.slot k = s.slot k := State.slot_congr (congrArg Groups.slots groups) k
  have tagOf (g : Nat) : a.tag g = s.tag g := State.tag_congr (congrArg Groups.tags groups) g
  have record (k : Nat) : a.record k = if r = some k then {} else s.record k := by
    rw [← State.freeOptRecord_record]
    exact State.record_congr (congrArg Staging.records hg) k
  obtain ⟨slot, others, tag, tags, closes, freed, kept, ram, outcomes⟩ := h
  have rejected : rejectedSlot a n e = rejectedSlot s n e := by simp [rejectedSlot, slots]
  simp only [slots, tagOf, rejected, groups, ho, hg, State.freeOptRecord_ram] at slot others tag tags closes freed kept ram outcomes
  refine ⟨slot, others, tag, tags, closes, fun k hk => ?_, fun k hk hne => ?_, ram, outcomes⟩
  · by_cases hm : k ∈ (s.slot n).members
    · exact freed k (.inl hm)
    · rw [kept k hm nofun, record, if_pos (hk.resolve_left hm)]
  · rw [kept k hk nofun, record, if_neg hne]

/-! ### A staged write that fails (01 R14, 02 R23, R34) -/

/-- The first error of a burst of the group of slot n. -/
def State.writeError (s : State) (n : Nat) (v : Verdict) : FirstError :=
  { cause := .verdict v, ordinal := some ((s.slot n).burstCount + 1), start := some s.link.start }

theorem Verdict.fails {v : Verdict} (hg : v ≠ .good) (hc : v ≠ .cut) : ¬ (v = .good ∨ v = .cut) := not_or.2 ⟨hg, hc⟩

theorem Verdict.fails_closeTaken {v : Verdict} (hg : v ≠ .good) (b c : Bool) : (v == .good && b && c) = false := by
  simp [hg]

/-- The work of a staged write of an explicit tag that fails: its record is freed and its group rejected. -/
theorem State.stagedFailed_rejects {s : State} {n : Nat} (v : Verdict) (hh : s.ctrl.opState ≠ .held) (he : explicitWrite s n) :
    ∃ b, groupRejected s b n (s.writeError n v) s.link.record ∧
      s.stagedFailed v = { s with
        staging := b.staging, groups := b.groups, outcomes := b.outcomes
        attn := { s.attn with flags := s.attn.flags ||| flagAt 12 true } } := by
  obtain ⟨-, -, ht0, ht, hslot, hn, htag⟩ := he
  have parts := s.freeOptRecord_parts s.link.record
  have failed : s.stagedFailed v = (s.freeOptRecord s.link.record).rejectGroup n (s.writeError n v) := by
    have error : (s.freeOptRecord s.link.record).burstError n v s.link.start = s.writeError n v := by
      rw [parts]
      rfl
    rw [State.stagedFailed, hslot]
    exact (if_neg ht0).trans (congrArg _ error)
  have tag : (s.freeOptRecord s.link.record).tag ((s.freeOptRecord s.link.record).slot n).tag ≠ .free := by
    rw [parts]
    show s.tag (s.slot n).tag ≠ .free
    rw [htag, ht]
    exact nofun
  have rejected := State.rejectGroup_rejected (s := s.freeOptRecord s.link.record) (s.writeError n v) (by rw [parts]; exact hn) tag
  have attn := (s.freeOptRecord s.link.record).rejectGroup_attn n (s.writeError n v) (by rw [parts]; exact hh)
  have whole := (s.freeOptRecord s.link.record).rejectGroup_parts n (s.writeError n v)
  refine ⟨_, groupRejected_of_freed rejected rfl (by rw [parts]) (by rw [parts]), ?_⟩
  rw [attn] at whole
  rw [failed]
  generalize (s.freeOptRecord s.link.record).rejectGroup n (s.writeError n v) = b at *
  rw [whole]
  rw [parts]

/-- The end of a staged write of an explicit tag that fails. -/
theorem State.finishStaged_rejects {s : State} {n : Nat} {v : Verdict} (hw : s.ctrl.holdWritten = none) (hh : s.ctrl.opState ≠ .held)
    (he : explicitWrite s n) (hg : v ≠ .good) (hc : v ≠ .cut) :
    ∃ b, groupRejected s b n (s.writeError n v) s.link.record ∧
      s.finishStaged v = { s with
        link := {}, out := receiptOf s v false, staging := b.staging, groups := b.groups, outcomes := b.outcomes
        attn := { s.attn with flags := s.attn.flags ||| (flagAt 8 (v == .checkFail) ||| flagAt 12 true) } } := by
  have held : (s.ctrl.opState != .held) = true := by simpa using hh
  obtain ⟨b, rejected, eq⟩ := State.stagedFailed_rejects (s := s.setAttn (s.checkFailNoted v)) v hh he
  refine ⟨b, rejected, ?_⟩
  have fenced : b.tag s.link.tag = .fencedSlot n := by
    obtain ⟨-, -, tag, -⟩ := rejected
    rw [← he.2.2.2.2.2.2]
    exact tag
  have closed : ∀ m, b.tag s.link.tag ≠ .opened m := fun m => by
    rw [fenced]
    exact nofun
  rw [State.finishStaged, State.reportIf_checkFail, if_neg (Verdict.fails hg hc), eq, Verdict.fails_closeTaken hg,
    State.driveReceipt_closed v false (by exact hw) (.inr (by exact closed))]
  simp only [State.checkFailNoted, held, Bool.and_true, State.setAttn_attn, BitVec.or_assoc]
  rfl

/-- The work of a staged write of tag 0 that fails: its record and its slot, if it has one, are FREE. -/
theorem State.stagedFailed_frees {s : State} (v : Verdict) (ht : s.link.tag = 0) :
    ∃ b : State, s.stagedFailed v = { s with
        staging := (s.freeOptRecord s.link.record).staging, groups := { s.groups with slots := b.groups.slots } } ∧
      (∀ n, s.link.slot = some n → b.slot n = {}) ∧ (∀ k, s.link.slot ≠ some k → b.slot k = s.slot k) := by
  have parts := s.freeOptRecord_parts s.link.record
  cases hs : s.link.slot with
  | none =>
    have failed : s.stagedFailed v = s.freeOptRecord s.link.record := by rw [State.stagedFailed, hs]
    refine ⟨s, ?_, fun _ e => (nomatch e), fun _ _ => rfl⟩
    rw [failed]
    exact parts
  | some n =>
    have failed : s.stagedFailed v = (s.freeOptRecord s.link.record).updSlot n fun _ => {} := by
      rw [State.stagedFailed, hs]
      exact if_pos ht
    refine ⟨s.updSlot n fun _ => {}, ?_, fun m hm => ?_, fun k hk => ?_⟩
    · rw [failed, parts]
      rfl
    · cases hm
      exact upd_getD_default _ _ _ _ rfl
    · exact State.updSlot_other _ _ _ _ fun e => hk (congrArg some e.symm)

/-- The end of a staged write of tag 0 that fails. -/
theorem State.finishStaged_frees {s : State} {v : Verdict} (hw : s.ctrl.holdWritten = none) (hh : s.ctrl.opState ≠ .held)
    (ht : s.link.tag = 0) (hg : v ≠ .good) (hc : v ≠ .cut) :
    ∃ b : State, s.finishStaged v = { s with
        link := {}, out := receiptOf s v false, staging := (s.freeOptRecord s.link.record).staging
        groups := { s.groups with slots := b.groups.slots }
        attn := { s.attn with flags := s.attn.flags ||| flagAt 8 (v == .checkFail) } } ∧
      (∀ n, s.link.slot = some n → b.slot n = {}) ∧ (∀ k, s.link.slot ≠ some k → b.slot k = s.slot k) := by
  have held : (s.ctrl.opState != .held) = true := by simpa using hh
  obtain ⟨b, eq, own, others⟩ := State.stagedFailed_frees (s := s.setAttn (s.checkFailNoted v)) v ht
  refine ⟨b, ?_, own, others⟩
  have staging : ((s.setAttn (s.checkFailNoted v)).freeOptRecord (s.setAttn (s.checkFailNoted v)).link.record).staging =
      (s.freeOptRecord s.link.record).staging := by
    rw [State.setAttn_link]
    cases s.link.record <;> rfl
  rw [staging] at eq
  have closed (g : Groups) : ∀ m, ({ s with groups := g } : State).tag s.link.tag ≠ .opened m := fun m => by
    rw [State.tag_zero_free ht]
    exact nofun
  rw [State.finishStaged, State.reportIf_checkFail, if_neg (Verdict.fails hg hc), eq, Verdict.fails_closeTaken hg,
    State.driveReceipt_closed v false (by exact hw) (.inr (by exact closed _))]
  simp only [State.checkFailNoted, held, Bool.and_true, State.setAttn_attn]
  rfl

/-! ### The check word that does not leave a burst good (07 R119) -/

/-- A check word that is awaited by a write whose data did not go by the DIRECT path. -/
theorem exec_checkWord_eq {s : State} {w : Word} {v : Verdict} (hc : checkAwaited s) (hd : s.link.directWrite = false)
    (hv : v = s.link.pendVerdict.getD (if w = s.link.check then (if s.link.cut then .cut else .good) else .checkFail)) :
    exec (.checkWord w) s = .next (s.finishWrite v) := by
  obtain ⟨hst, hh, hr, -⟩ := hc
  have settled : s.link.settle (w == s.link.check) = v := (s.link.settle_eq (w = s.link.check)).trans hv.symm
  show Host.Outcome.next (s.takeCheck w) = _
  rw [State.takeCheck, if_pos ⟨by simp [Link.awaitsCheck, hst, hh], by simp [hr]⟩]
  dsimp only
  rw [if_neg (by simp [hd]), settled]

theorem State.finishWrite_staged {s : State} (v : Verdict) (ha : s.link.isAttr = false) :
    s.finishWrite v = observe (fun x => x.finishStaged v) s := if_neg (by simp [ha])

theorem State.finishWrite_attr_fails {s : State} {v : Verdict} (ha : s.link.isAttr = true) (hg : v ≠ .good) (hc : v ≠ .cut) :
    s.finishWrite v = observe (fun x => x.finishPlain v) s := (if_pos ha).trans (if_neg (Verdict.fails hg hc))

/-- The end of an explicit staged write that fails, as the Attention Unit notes it. -/
theorem State.finishStaged_rejects_noted {s : State} {n : Nat} {v : Verdict} (hw : s.ctrl.holdWritten = none)
    (hh : s.ctrl.opState ≠ .held) (he : explicitWrite s n) (hg : v ≠ .good) (hc : v ≠ .cut) :
    let t := observe (fun x => x.finishStaged v) s
    t = { s with
        link := {}, out := receiptOf s v false, staging := t.staging, groups := t.groups, outcomes := t.outcomes
        attn := t.attn } ∧
      groupRejected s t n (s.writeError n v) s.link.record ∧ noted s t (flagAt 8 (v == .checkFail) ||| flagAt 12 true) := by
  obtain ⟨b, rejected, eq⟩ := State.finishStaged_rejects hw hh he hg hc
  intro t
  have step : t = _ := observe_step eq
  refine ⟨?_, ?_, noted_observe eq rfl rfl⟩
  · rw [step]
  · rw [step]
    exact rejected

/-- The end of a staged write of tag 0 that fails, as the Attention Unit notes it. -/
theorem State.finishStaged_frees_noted {s : State} {v : Verdict} (hw : s.ctrl.holdWritten = none)
    (hh : s.ctrl.opState ≠ .held) (ht : s.link.tag = 0) (hg : v ≠ .good) (hc : v ≠ .cut) :
    let t := observe (fun x => x.finishStaged v) s
    t = { s with
        link := {}, out := receiptOf s v false, staging := t.staging, groups := { s.groups with slots := t.groups.slots }
        attn := t.attn } ∧
      recordFreed s t ∧ (∀ n, s.link.slot = some n → t.slot n = {}) ∧ (∀ k, s.link.slot ≠ some k → t.slot k = s.slot k) ∧
      noted s t (flagAt 8 (v == .checkFail)) := by
  obtain ⟨b, eq, own, others⟩ := State.finishStaged_frees hw hh ht hg hc
  intro t
  have step : t = _ := observe_step eq
  refine ⟨?_, recordFreed_of_staging ?_, ?_, ?_, noted_observe eq rfl rfl⟩
  · rw [step]
  · rw [step]
  · rw [step]
    exact own
  · rw [step]
    exact others

/-- Settles O25: a staged write loses its record and its group or slot, and an attribute write applies nothing. -/
theorem checkWordFails : Obligations.CheckWordFails := by
  intro s w ⟨hw, ha⟩ hc v hg hcut
  refine ⟨fun n hh he => ?_, fun hh hattr hm ht => ?_, fun hattr => ?_⟩
  · have mode : s.link.mode ≠ .direct := by
      rw [he.2.1]
      exact nofun
    have row := exec_checkWord_eq (w := w) (v := v) hc (Link.directWrite_of_mode mode) rfl
    rw [State.finishWrite_staged v he.1] at row
    exact ⟨_, row, State.finishStaged_rejects_noted hw hh he hg hcut⟩
  · have row := exec_checkWord_eq (w := w) (v := v) hc (Link.directWrite_of_mode hm) rfl
    rw [State.finishWrite_staged v hattr] at row
    exact ⟨_, row, State.finishStaged_frees_noted hw hh ht hg hcut⟩
  · have row := exec_checkWord_eq (w := w) (v := v) hc (Link.directWrite_of_attr hattr) rfl
    rw [State.finishWrite_attr_fails hattr hg hcut] at row
    exact ⟨_, row, State.finishPlain_noted v hw hc.2.2.2⟩

end Sys2Proof.Machine
end

