-- ==== Sys2Proof/Proofs/DirectEnds.lean ====
section
/-! PROOF. The end of a DIRECT write, and the timers that end bursts and groups (spec/06 R106, R107, spec/07 R121, spec/02 R38). -/

namespace Sys2Proof.Machine

/-! ### A DIRECT write whose requests have completed (06 R106) -/

theorem State.directDone_iff {s : State} :
    s.directDone = true ↔ s.port.waitDirect = [] ∧ ∀ x ∈ s.port.outstanding, ¬(x.requester = .direct ∧ x.disposition = .take) := by
  simp [State.directDone, imp_iff_not_or]

/-- The Attention Unit's fields with both reports of CHECK_FAIL on a DIRECT write. -/
def State.directFailNoted (s : State) (v : Verdict) : Attn :=
  { s.attn with flags := s.attn.flags ||| (flagAt 8 (v == .checkFail) ||| flagAt 9 (v == .checkFail)) }

theorem State.settleDirect_waits {s : State}
    (h : ¬ (s.directDone = true ∧ s.link.directWrite = true ∧ s.link.st = .checking ∧ s.link.handshake = none)) : s.settleDirect = s :=
  if_neg fun ⟨hd, hst, hn, hdone⟩ => h ⟨hdone, hd, hst, hn⟩

theorem State.settleDirect_ends {s : State} (hw : s.ctrl.holdWritten = none) (hh : s.ctrl.opState ≠ .held)
    (h1 : s.link.hdr1.isSome = true) (hd : s.link.directWrite = true) (hst : s.link.st = .checking) (hn : s.link.handshake = none)
    (hdone : s.directDone = true) :
    s.settleDirect = { s with
      link := {}, out := receiptOf s s.link.directVerdict false, groups := (s.startIdle s.link.tag).groups
      attn := s.directFailNoted s.link.directVerdict } := by
  have held : (s.ctrl.opState != .held) = true := by simpa using hh
  have settled : s.settleDirect = (s.setAttn (s.directFailNoted s.link.directVerdict)).driveReceipt s.link.directVerdict false := by
    refine (if_pos ⟨hd, hst, hn, hdone⟩).trans (congrArg (fun x : State => x.driveReceipt s.link.directVerdict false) ?_)
    rw [State.reportIf_eq, State.reportIf_eq]
    simp only [held, Bool.and_true, State.directFailNoted, Event.pos, BitVec.or_assoc]
    rfl
  rw [settled, State.driveReceipt_opened _ _ (by exact hw) (by exact h1),
    State.startIdle_groups_congr (s := s) (a := s.setAttn (s.directFailNoted s.link.directVerdict)) rfl rfl]
  rfl

/-- The exchange of a DIRECT write that is over while requests remain. -/
theorem State.exchangeDone_waits {s : State} (x : Exchange) (h : s.directDone ≠ true) :
    s.exchangeDone x = { s with link := { s.link with st := .checking, handshake := none, exchange := x } } :=
  State.settleDirect_waits fun hc => h hc.1

/-- The exchange of a DIRECT write that is over with no request left. -/
theorem State.exchangeDone_ends {s : State} (x : Exchange) {v : Verdict} (hw : s.ctrl.holdWritten = none)
    (hh : s.ctrl.opState ≠ .held) (h1 : s.link.hdr1.isSome = true) (hd : s.link.directWrite = true) (hdone : s.directDone = true)
    (hv : { s.link with st := .checking, handshake := none, exchange := x }.directVerdict = v) :
    s.exchangeDone x = { s with
      link := {}, out := receiptOf s v false, groups := (s.startIdle s.link.tag).groups, attn := s.directFailNoted v } := by
  have ends := State.settleDirect_ends (s := s.setLink { s.link with st := .checking, handshake := none, exchange := x })
    hw hh h1 hd rfl rfl hdone
  rw [State.startIdle_groups_congr (s := s)
    (a := s.setLink { s.link with st := .checking, handshake := none, exchange := x }) rfl rfl] at ends
  rw [← hv]
  exact ends

/-! ### The handshake timer and the idle timers (07 R121, 02 R38) -/

theorem Link.directWrite_iff {l : Link} : l.directWrite = true ↔ l.commonWrite = true ∧ l.mode = .direct := by
  simp [Link.directWrite]

theorem Link.stagedWrite_iff {l : Link} : l.stagedWrite = true ↔ l.commonWrite = true ∧ l.mode ≠ .direct := by
  simp [Link.stagedWrite]

/-- The handshake timer that runs, by the kind of the burst. -/
theorem State.handshakeExpired_receipt {s : State} (hh : s.link.handshake.isSome = true)
    (hst : s.link.st = .stopping ∨ s.link.st = .checking) (hw : s.link.commonWrite = false) :
    s.handshakeExpired = s.driveReceipt (s.link.pendVerdict.getD .handshakeTimeout) false := by
  rw [State.handshakeExpired, if_pos ⟨hh, hst⟩]
  dsimp only
  rw [if_neg (by simp [Link.directWrite, hw]), if_neg (by simp [Link.stagedWrite, hw])]

theorem State.handshakeExpired_direct {s : State} (hh : s.link.handshake.isSome = true)
    (hst : s.link.st = .stopping ∨ s.link.st = .checking) (hd : s.link.directWrite = true) :
    s.handshakeExpired = observe (fun x => x.exchangeDone .timedOut) s := by
  rw [State.handshakeExpired, if_pos ⟨hh, hst⟩]
  exact if_pos hd

theorem State.handshakeExpired_staged {s : State} (hh : s.link.handshake.isSome = true)
    (hst : s.link.st = .stopping ∨ s.link.st = .checking) (hc : s.link.commonWrite = true) (hm : s.link.mode ≠ .direct) :
    s.handshakeExpired = observe (fun x => x.finishStaged (s.link.pendVerdict.getD .handshakeTimeout)) s := by
  rw [State.handshakeExpired, if_pos ⟨hh, hst⟩]
  dsimp only
  rw [if_neg (by simp [Link.directWrite_of_mode hm]), if_pos (Link.stagedWrite_iff.2 ⟨hc, hm⟩)]

/-- An idle timer that does not run expires for no group. -/
theorem State.idleExpired_nothing {s : State} {n : Nat} (h : (s.slot n).st ≠ .opened ∨ (s.slot n).timer = none) : s.idleExpired n = s := by
  refine if_neg fun ⟨ho, ht⟩ => ?_
  rcases h with h | h
  · simp [GroupSlot.openExplicit, h] at ho
  · simp [h] at ht

theorem State.idleExpired_rejects {s : State} {n : Nat} (hst : (s.slot n).st = .opened) (ht : (s.slot n).timer.isSome = true)
    (h0 : (s.slot n).tag ≠ 0) : s.idleExpired n = s.rejectGroup n (bareError .idleExpiry) :=
  if_pos ⟨by simp [GroupSlot.openExplicit, hst, h0], ht⟩

/-- Settles O28: the burst by its kind, and the group of the slot whose timer runs. -/
theorem timersEndBurstsAndGroups : Obligations.TimersEndBurstsAndGroups := by
  intro s ⟨hw, ha⟩
  refine ⟨fun hh hst h1 => ?_, fun hdue h1 => ?_, fun k => ⟨fun h => ?_, fun hst ht h0 hop htag hk => ?_⟩⟩
  · intro v
    have row : exec .handshakeTimerExpiry s = .next s.handshakeExpired := by
      show Host.Outcome.next s.requestDue.handshakeExpired = _
      rw [State.requestDue_waits fun hd => by rcases hst with h | h <;> exact nomatch h.symm.trans hd.1]
    refine ⟨fun hk => ?_, fun hd => ⟨fun hn => ?_, fun hdone hop => ?_⟩, fun hc hop hg hcut => ⟨fun n he => ?_, fun hm ht => ?_⟩⟩
    · have plain : s.link.commonWrite = false := by
        rcases hk with h | h <;> simp [Link.commonWrite, h]
      rw [row, State.handshakeExpired_receipt hh hst plain, State.driveReceipt_opened _ _ hw h1]
      rfl
    · rw [row, State.handshakeExpired_direct hh hst hd]
      exact congrArg Host.Outcome.next
        (observe_unwatched ha (State.exchangeDone_waits .timedOut fun h => hn (State.directDone_iff.1 h)) rfl)
    · rw [row, State.handshakeExpired_direct hh hst hd]
      have step := State.exchangeDone_ends .timedOut hw hop h1 hd (State.directDone_iff.2 hdone) (v := v) rfl
      exact ⟨_, rfl, (observe_step step).trans rfl, noted_observe step rfl rfl⟩
    · have mode : s.link.mode ≠ .direct := by
        rw [he.2.1]
        exact nofun
      rw [row, State.handshakeExpired_staged hh hst hc mode]
      exact ⟨_, rfl, State.finishStaged_rejects_noted hw hop he hg hcut⟩
    · rw [row, State.handshakeExpired_staged hh hst hc hm]
      exact ⟨_, rfl, State.finishStaged_frees_noted hw hop ht hg hcut⟩
  · have ends := State.bridgeStop_read (s := s) none true hdue.2.1
    rw [← State.requestDue_stops hdue, Option.or_none] at ends
    have row : exec .handshakeTimerExpiry s = .next s.requestDue.handshakeExpired := rfl
    obtain ⟨parts, dropped⟩ := ends
    generalize s.requestDue = b at *
    have link : b.link = stoppingLink s s.link.pendVerdict true := by rw [parts]
    have read : b.link.commonWrite = false := by
      rw [link]
      show s.link.commonWrite = false
      simp [Link.commonWrite, hdue.2.1]
    have groups : (b.startIdle b.link.tag).groups = (s.startIdle s.link.tag).groups := by
      rw [link]
      exact State.startIdle_groups_congr (by rw [parts]) (by rw [parts]) _
    rw [State.handshakeExpired_receipt (by rw [link]; rfl) (by rw [link]; exact .inl rfl) read,
      State.driveReceipt_opened _ _ (by rw [parts]; exact hw) (by rw [link]; exact h1), groups, link] at row
    refine ⟨_, row, ?_, dropped⟩
    rw [parts]
    rfl
  · exact congrArg Host.Outcome.next (observe_nothing _ s ha (State.idleExpired_nothing h))
  · have step := (State.idleExpired_rejects hst ht h0).trans
      ((s.rejectGroup_parts k (bareError .idleExpiry)).trans (by rw [s.rejectGroup_attn k _ hop]))
    have rejected := State.rejectGroup_rejected (s := s) (bareError .idleExpiry) hk (by rw [htag]; exact nofun)
    generalize s.rejectGroup k (bareError .idleExpiry) = b at *
    refine ⟨_, rfl, ?_, ?_, noted_observe step rfl rfl⟩
    · rw [observe_step step]
    · rw [observe_step step]
      exact rejected

/-- Settles O51: the last of the request's completion and the check word ends the write. -/
theorem directSpanCompletes : Obligations.DirectSpanCompletes := by
  intro s ⟨hw, ha⟩ hh h1 ends done passed
  refine ⟨fun o rest ho hf => ?_, fun w hc hd => ?_⟩
  · intro finished
    have row := exec_completed (i := .directSpanCompletion .ok) rfl (fun _ e => nomatch e) ho hf
    refine ⟨fun hn => ?_, fun hdone ⟨hd, hst, hn⟩ hx => ?_⟩
    · have step : (s.popped rest).settleDirect = s.popped rest :=
        State.settleDirect_waits fun ⟨hdone, hd, hst, hh⟩ => hn ⟨State.directDone_iff.1 hdone, hd, hst, hh⟩
      rw [State.dropHead_eq ho]
      exact row.trans (congrArg Host.Outcome.next (observe_unwatched ha step rfl))
    · have step := State.settleDirect_ends (s := s.popped rest) hw hh h1 hd hst hn (State.directDone_iff.2 hdone)
      rw [State.startIdle_groups_congr (s := s) (a := s.popped rest) rfl rfl] at step
      have finish (v : Verdict) (hv : s.link.directVerdict = v) : ends (.directSpanCompletion .ok) rest v := by
        rw [← hv]
        exact ⟨_, row, (observe_step step).trans rfl, noted_observe step rfl rfl⟩
      cases hxe : s.link.exchange with
      | matched => exact finish _ (by rw [Link.directVerdict, hxe]; rfl)
      | mismatched => exact finish _ (by rw [Link.directVerdict, hxe]; rfl)
      | timedOut => exact finish _ (by rw [Link.directVerdict, hxe])
      | awaited => exact absurd hxe hx
  · have row : exec (.checkWord w) s =
        .next (observe (fun x => x.exchangeDone (if w = s.link.check then .matched else .mismatched)) s) := by
      show Host.Outcome.next (s.takeCheck w) = _
      rw [State.takeCheck, if_pos ⟨by simp [Link.awaitsCheck, hc.1, hc.2.1], by simp [hc.2.2.1]⟩]
      dsimp only
      rw [if_pos hd]
      simp only [beq_iff_eq]
    refine ⟨fun hn => ?_, fun hdone => ?_⟩
    · have step := State.exchangeDone_waits (s := s) (if w = s.link.check then .matched else .mismatched)
        fun h => hn (State.directDone_iff.1 h)
      have link : { s.link with st := .checking, handshake := none, exchange := if w = s.link.check then .matched else .mismatched } =
          { s.link with handshake := none, exchange := if w = s.link.check then .matched else .mismatched } := by
        rw [← hc.1]
      rw [link] at step
      exact row.trans (congrArg Host.Outcome.next (observe_unwatched ha step rfl))
    · have step := State.exchangeDone_ends (if w = s.link.check then .matched else .mismatched)
        (v := s.link.pendVerdict.getD (if w = s.link.check then passed else .checkFail)) hw hh h1 hd (State.directDone_iff.2 hdone) (by
          split <;> rfl)
      exact ⟨_, row, (observe_step step).trans rfl, noted_observe step rfl rfl⟩

end Sys2Proof.Machine
end

