-- ==== Sys2Proof/Proofs/GoodBursts.lean ====
section
/-! PROOF. The staged writes that end GOOD or CUT: the record that joins a group, the unit that closes, and the receipt (spec/07 R119,
spec/01 R14, R15, spec/02 R23 to R32). -/

namespace Sys2Proof.Machine

/-! ### Closing records (01 R16, 02 R29) -/

theorem Staging.closeAll_record {ms : List Nat} (c : Word) {g : Staging} (h : ∀ m ∈ ms, m < g.records.length) (k : Nat) :
    (ms.foldl (fun g r => g.close r c) g).records.getD k {} =
      if k ∈ ms then { g.records.getD k {} with st := .closed, closeNo := some c } else g.records.getD k {} := by
  induction ms generalizing g with
  | nil => simp
  | cons m ms ih =>
    have lt := h m List.mem_cons_self
    have rest := ih (g := g.close m c) fun x hx => by
      rw [show (g.close m c).records.length = g.records.length from upd_length _ _ _]
      exact h x (List.mem_cons_of_mem _ hx)
    refine rest.trans ?_
    by_cases hk : k = m
    · have own : (g.close m c).records.getD k {} = { g.records.getD k {} with st := .closed, closeNo := some c } := by
        rw [hk]
        exact upd_getD_self _ _ _ _ lt
      rw [own, if_pos (show k ∈ m :: ms from hk ▸ List.mem_cons_self)]
      exact ite_self _
    · have other : (g.close m c).records.getD k {} = g.records.getD k {} := upd_getD_ne _ _ _ _ _ hk
      rw [other]
      simp only [List.mem_cons, hk, false_or]

theorem Staging.closeAll_pool (ms : List Nat) (c : Word) (g : Staging) :
    (ms.foldl (fun g r => g.close r c) g).pool = g.pool ∧ (ms.foldl (fun g r => g.close r c) g).ram = g.ram := by
  induction ms generalizing g with
  | nil => exact ⟨rfl, rfl⟩
  | cons m ms ih => exact ih (g.close m c)

/-! ### A unit that closes (02 R29 to R31) -/

theorem State.closeGroup_eq (s : State) (n : Nat) :
    s.closeGroup n = { s with
      staging := (s.slot n).members.foldl (fun g r => g.close r s.groups.closeCounter) s.staging
      overlay := s.overlay ++ (s.slot n).members.map fun r => (s.record r).overlayEntry r s.groups.closeCounter
      groups := {
        slots := upd s.groups.slots n fun g => { g with st := .closed, closeNo := some s.groups.closeCounter, timer := none }
        tags := (s.setTag (s.slot n).tag .free).groups.tags, closeCounter := s.groups.closeCounter + 1 }
      queue := s.queue ++
        [{ owner := .guarded n, closeNo := s.groups.closeCounter, stage := .closed, seq := none, start := none, len := none
           progress := none }] } := by
  rw [State.setTag_tags]
  unfold State.closeGroup State.setTag
  dsimp only
  split <;> rfl

/-- The group of slot n with the members `ms`, closed from a state that differs from s in that slot and its records' states alone. -/
theorem State.closeGroup_closes {s a : State} {n : Nat} {g : GroupSlot} (hn : n < a.groups.slots.length) (hg : a.slot n = g)
    (hlt : ∀ m ∈ g.members, m < a.staging.records.length) (overlay : a.overlay = s.overlay) (queue : a.queue = s.queue)
    (closes : a.groups.closeCounter = s.groups.closeCounter) (tags : a.groups.tags = s.groups.tags)
    (slots : ∀ k, k ≠ n → a.slot k = s.slot k)
    (records : ∀ m ∈ g.members, { a.record m with st := .closed } = { s.record m with st := .closed }) :
    groupCloses s (a.closeGroup n) n g g.members := by
  subst hg
  rw [State.closeGroup_eq, closes, overlay, queue]
  refine ⟨?_, rfl, ?_, fun k hk => ?_, ?_, fun x hx => ?_, rfl, fun m hm => ?_⟩
  · refine congrArg (s.overlay ++ ·) (List.map_congr_left fun m hm => ?_)
    have same := records m hm
    simp only [BurstRecord.mk.injEq] at same
    simp [BurstRecord.overlayEntry, same]
  · exact upd_getD_self _ _ _ _ hn
  · exact (upd_getD_ne _ _ _ _ _ hk).trans (slots k hk)
  · exact a.setTag_free _
  · exact (a.setTag_other _ x .free hx).trans (State.tag_congr tags x)
  · refine (Staging.closeAll_record s.groups.closeCounter hlt m).trans ((if_pos hm).trans ?_)
    exact congrArg (fun x : BurstRecord => { x with closeNo := some s.groups.closeCounter }) (records m hm)

/-- What closing a group leaves. -/
theorem State.closeGroup_parts (s : State) (n : Nat) :
    s.closeGroup n = { s with
      staging := (s.closeGroup n).staging, overlay := (s.closeGroup n).overlay, groups := (s.closeGroup n).groups
      queue := (s.closeGroup n).queue } := by
  rw [State.closeGroup_eq]

theorem State.closeGroup_record {s : State} {n : Nat} (hlt : ∀ m ∈ (s.slot n).members, m < s.staging.records.length) {k : Nat}
    (hk : k ∉ (s.slot n).members) : (s.closeGroup n).record k = s.record k := by
  rw [State.closeGroup_eq]
  exact (Staging.closeAll_record _ hlt k).trans (if_neg hk)

theorem State.closeGroup_store (s : State) (n : Nat) :
    (s.closeGroup n).staging.pool = s.staging.pool ∧ (s.closeGroup n).staging.ram = s.staging.ram := by
  rw [State.closeGroup_eq]
  exact Staging.closeAll_pool _ _ _

/-! ### A burst that joins its group (02 R24) -/

/-- Slot n with the record of a burst appended. -/
def GroupSlot.joined (g : GroupSlot) (r words : Nat) : GroupSlot :=
  { g with members := g.members ++ [r], burstCount := g.burstCount + 1, wordCount := g.wordCount + words }

theorem State.joinGroup_slot {s : State} {n : Nat} (r words : Nat) (hn : n < s.groups.slots.length) :
    (s.joinGroup n r words).slot n = (s.slot n).joined r words := upd_getD_self _ _ _ _ hn

theorem State.joinGroup_other (s : State) {n k : Nat} (r words : Nat) (hk : k ≠ n) : (s.joinGroup n r words).slot k = s.slot k :=
  upd_getD_ne _ _ _ _ _ hk

theorem State.joinGroup_record {s : State} {r : Nat} (n words : Nat) (hr : r < s.staging.records.length) :
    (s.joinGroup n r words).record r = { s.record r with st := .held } := upd_getD_self _ _ _ _ hr

theorem State.joinGroup_record_other (s : State) {r k : Nat} (n words : Nat) (hk : k ≠ r) :
    (s.joinGroup n r words).record k = s.record k := upd_getD_ne _ _ _ _ _ hk

/-! ### The end of a staged write that is GOOD or CUT -/

theorem State.finishStaged_taken {s : State} {v : Verdict} (hv : v = .good ∨ v = .cut) :
    s.finishStaged v = (s.stagedTaken v).driveReceipt v (v == .good && s.link.close && s.link.tag != 0) := by
  have none : (v == .checkFail) = false := by rcases hv with rfl | rfl <;> rfl
  rw [State.finishStaged, none, if_pos hv]
  rfl

/-- The verdict of a write whose check word matches and that has no pending verdict. -/
def Link.passed (l : Link) : Verdict := if l.cut then .cut else .good

theorem Link.passed_taken (l : Link) : l.passed = .good ∨ l.passed = .cut := by
  unfold Link.passed
  split
  · exact .inr rfl
  · exact .inl rfl

theorem Link.passed_good {l : Link} : l.passed = .good ↔ l.cut = false := by
  unfold Link.passed
  cases l.cut <;> simp

/-- The check word that matches a staged write. -/
theorem exec_checkWord_passes {s b t : State} (ha : s.attnOk) (hc : checkAwaited s) (hp : s.link.pendVerdict = none)
    (hattr : s.link.isAttr = false) (hm : s.link.mode ≠ .direct)
    (hb : s.stagedTaken s.link.passed = b)
    (ht : b.driveReceipt s.link.passed (s.link.passed == .good && s.link.close && s.link.tag != 0) = t)
    (hw : t.watched = s.watched) : exec (.checkWord s.link.check) s = .next t := by
  subst hb
  have row := exec_checkWord_eq (w := s.link.check) (v := s.link.passed) hc (Link.directWrite_of_mode hm)
    (by rw [hp, if_pos rfl]; rfl)
  rw [State.finishWrite_staged _ hattr, observe_unwatched ha ((State.finishStaged_taken s.link.passed_taken).trans ht) hw] at row
  exact row

/-- The timer of a group when its burst ends (02 R37). -/
def State.restarted (s : State) : Option Nat := if s.ctrl.idleLimit = 0 then none else some s.ctrl.idleLimit

/-- The work of a write of an explicit tag that is GOOD or CUT: with words its record joins the group, and with CLOSE the group closes. -/
theorem State.stagedTaken_joins {s : State} {n r : Nat} {v : Verdict} (he : explicitWrite s n) (hc : s.link.count ≠ 0)
    (hr : s.link.record = some r) (hcl : ¬ (v = .good ∧ s.link.close = true)) : s.stagedTaken v = s.joinGroup n r s.link.count := by
  obtain ⟨-, -, h0, -, hs, -, -⟩ := he
  simp [State.stagedTaken, hs, hc, hr, h0, hcl]

theorem State.stagedTaken_joins_closes {s : State} {n r : Nat} {v : Verdict} (he : explicitWrite s n) (hc : s.link.count ≠ 0)
    (hr : s.link.record = some r) (hcl : v = .good ∧ s.link.close = true) :
    s.stagedTaken v = (s.joinGroup n r s.link.count).closeGroup n := by
  obtain ⟨-, -, h0, -, hs, -, -⟩ := he
  simp [State.stagedTaken, hs, hc, hr, h0, hcl]

/-- Without words the record is freed, and with CLOSE the group closes, or is DURABLE where it has no members. -/
theorem State.stagedTaken_bare {s : State} {n : Nat} {v : Verdict} (he : explicitWrite s n) (hc : s.link.count = 0)
    (hcl : ¬ (v = .good ∧ s.link.close = true)) : s.stagedTaken v = s.freeOptRecord s.link.record := by
  obtain ⟨-, -, h0, -, hs, -, -⟩ := he
  simp [State.stagedTaken, hs, hc, h0, hcl]

theorem State.freeOptRecord_slot (s : State) (r : Option Nat) (n : Nat) : (s.freeOptRecord r).slot n = s.slot n :=
  State.slot_congr (by rw [State.freeOptRecord_parts]) n

theorem State.stagedTaken_bare_durable {s : State} {n : Nat} {v : Verdict} (he : explicitWrite s n) (hc : s.link.count = 0)
    (hcl : v = .good ∧ s.link.close = true) (hm : (s.slot n).members = []) :
    s.stagedTaken v = (s.freeOptRecord s.link.record).closeEmpty n := by
  obtain ⟨-, -, h0, -, hs, -, -⟩ := he
  simp [State.stagedTaken, hs, hc, h0, hcl, State.freeOptRecord_slot, hm]

theorem State.stagedTaken_bare_closes {s : State} {n : Nat} {v : Verdict} (he : explicitWrite s n) (hc : s.link.count = 0)
    (hcl : v = .good ∧ s.link.close = true) (hm : (s.slot n).members ≠ []) :
    s.stagedTaken v = (s.freeOptRecord s.link.record).closeGroup n := by
  obtain ⟨-, -, h0, -, hs, -, -⟩ := he
  simp [State.stagedTaken, hs, hc, h0, hcl, State.freeOptRecord_slot, hm]

/-- Whether the matching check word closes the group. -/
def Link.closes (l : Link) : Prop := l.close = true ∧ l.cut = false

theorem Link.closes_iff {l : Link} : l.closes ↔ l.passed = .good ∧ l.close = true := by
  rw [Link.passed_good, Link.closes, and_comm]

/-- The receipt of a write that closes its group: CLOSE-TAKEN is 1, and the tag, FREE by now, has no timer. -/
theorem State.receipt_closes {s b : State} {n : Nat} (hw : s.ctrl.holdWritten = none) (he : explicitWrite s n) (hcl : s.link.closes)
    (link : b.link = s.link) (ctrl : b.ctrl = s.ctrl) (out : b.out = s.out) (ht : b.tag s.link.tag = .free) :
    b.driveReceipt s.link.passed (s.link.passed == .good && s.link.close && s.link.tag != 0) =
      { b with link := {}, out := receiptOf s .good true } := by
  obtain ⟨-, -, h0, -⟩ := he
  have good : s.link.passed = .good := (Link.closes_iff.1 hcl).1
  have taken : (s.link.passed == .good && s.link.close && s.link.tag != 0) = true := by simp [good, hcl.1, h0]
  rw [taken, good, State.driveReceipt_closed _ _ (by rw [ctrl]; exact hw) (.inr fun m => by rw [link, ht]; exact nofun), link, out]
  rfl

/-- The receipt of a write that leaves its group OPEN: CLOSE-TAKEN is 0, and the group's timer starts. -/
theorem State.receipt_open {s b : State} {n : Nat} (hw : s.ctrl.holdWritten = none) (h1 : s.link.hdr1.isSome = true)
    (he : explicitWrite s n) (hcl : ¬ s.link.closes) (link : b.link = s.link) (ctrl : b.ctrl = s.ctrl) (out : b.out = s.out)
    (tags : b.groups.tags = s.groups.tags) :
    b.driveReceipt s.link.passed (s.link.passed == .good && s.link.close && s.link.tag != 0) = { b with
      link := {}, out := receiptOf s s.link.passed false
      groups := { b.groups with slots := upd b.groups.slots n fun g => { g with timer := s.restarted } } } := by
  obtain ⟨-, -, -, ht, -⟩ := he
  have kept : (s.link.passed == .good && s.link.close && s.link.tag != 0) = false := by
    rw [Link.closes_iff] at hcl
    rw [Bool.eq_false_iff]
    intro h
    simp only [Bool.and_eq_true, beq_iff_eq] at h
    exact hcl h.1
  have opened : b.tag b.link.tag = .opened n := by
    rw [link, State.tag_congr tags]
    exact ht
  rw [kept, State.driveReceipt_opened _ _ (by rw [ctrl]; exact hw) (by rw [link]; exact h1), State.startIdle_opened opened, ctrl, link,
    out]
  rfl

/-- A matching check word of an explicit staged write: the parts of O24 that speak of it. -/
theorem checkWordGood_explicit {s : State} {n : Nat} (hcalm : calm s) (hc : checkAwaited s) (hp : s.link.pendVerdict = none)
    (he : explicitWrite s n) :
    (∀ r, s.link.record = some r → r < s.staging.records.length → s.link.count ≠ 0 →
      let joined := (s.slot n).joined r s.link.count
      (¬ s.link.closes →
        ∃ t, exec (.checkWord s.link.check) s = .next t ∧
          t = { s with link := {}, out := receiptOf s s.link.passed false, staging := t.staging, groups := t.groups } ∧
          t.slot n = { joined with timer := s.restarted } ∧ (∀ k, k ≠ n → t.slot k = s.slot k) ∧ t.groups.tags = s.groups.tags ∧
          t.groups.closeCounter = s.groups.closeCounter ∧ t.record r = { s.record r with st := .held } ∧
          (∀ k, k ≠ r → t.record k = s.record k) ∧ t.staging.pool = s.staging.pool ∧ t.staging.ram = s.staging.ram) ∧
      (s.link.closes → (∀ m ∈ (s.slot n).members, m < s.staging.records.length) →
        ∃ t, exec (.checkWord s.link.check) s = .next t ∧
          t = { s with
            link := {}, out := receiptOf s .good true, staging := t.staging, groups := t.groups, overlay := t.overlay
            queue := t.queue } ∧
          groupCloses s t n joined joined.members ∧ (∀ m, m ∉ joined.members → t.record m = s.record m) ∧
          t.staging.pool = s.staging.pool ∧ t.staging.ram = s.staging.ram)) := by
  obtain ⟨hw, ha⟩ := hcalm
  obtain ⟨hst, hh, hread, h1⟩ := id hc
  obtain ⟨hattr, mode, h0, ht, hs, hn, htag⟩ := id he
  have staged : s.link.mode ≠ .direct := by
    rw [mode]
    exact nofun
  intro r hr hlt hcount joined
  have slot : (s.joinGroup n r s.link.count).slot n = joined := State.joinGroup_slot r s.link.count hn
  have others := fun k hk => s.joinGroup_other (n := n) (k := k) r s.link.count hk
  have record := State.joinGroup_record n s.link.count hlt
  have records := fun k hk => s.joinGroup_record_other (r := r) (k := k) n s.link.count hk
  refine ⟨fun hcl => ?_, fun hcl hms => ?_⟩
  · have taken := State.stagedTaken_joins he hcount hr (fun h => hcl (Link.closes_iff.2 h))
    have receipt := State.receipt_open (b := s.joinGroup n r s.link.count) hw h1 he hcl rfl rfl rfl rfl
    refine ⟨_, exec_checkWord_passes ha hc hp hattr staged taken receipt rfl, rfl, ?_,
      fun k hk => (upd_getD_ne _ _ _ _ _ hk).trans (others k hk), rfl, rfl, record, records, rfl, rfl⟩
    refine (upd_getD_self _ _ _ _ ?_).trans (congrArg (fun g : GroupSlot => { g with timer := s.restarted }) slot)
    exact (upd_length _ _ _).symm ▸ hn
  · have taken := State.stagedTaken_joins_closes he hcount hr (Link.closes_iff.1 hcl)
    have records' : ∀ m ∈ joined.members,
        { (s.joinGroup n r s.link.count).record m with st := .closed } = { s.record m with st := .closed } := fun m _ => by
      by_cases hm : m = r
      · rw [hm, record]
      · rw [records m hm]
    have length : (s.joinGroup n r s.link.count).staging.records.length = s.staging.records.length := upd_length _ _ _
    have lt : ∀ m ∈ joined.members, m < (s.joinGroup n r s.link.count).staging.records.length := fun m hm => by
      rw [length]
      rcases List.mem_append.1 hm with hm | hm
      · exact hms m hm
      · rw [List.mem_singleton.1 hm]
        exact hlt
    have closed := State.closeGroup_closes (s := s) (by exact (upd_length _ _ _).symm ▸ hn) slot lt rfl rfl rfl rfl others records'
    have parts := (s.joinGroup n r s.link.count).closeGroup_parts n
    have store := (s.joinGroup n r s.link.count).closeGroup_store n
    have rest : ∀ m, m ∉ joined.members → ((s.joinGroup n r s.link.count).closeGroup n).record m = s.record m := fun m hm => by
      rw [← slot] at hm lt
      rw [State.closeGroup_record lt hm]
      refine records m fun e => hm ?_
      rw [slot, e]
      exact List.mem_append_right _ List.mem_cons_self
    generalize (s.joinGroup n r s.link.count).closeGroup n = b at *
    have free : b.tag s.link.tag = .free := by
      rw [← htag]
      exact closed.2.2.2.2.1
    have receipt := State.receipt_closes (b := b) hw he hcl (by rw [parts]; rfl) (by rw [parts]; rfl) (by rw [parts]; rfl) free
    refine ⟨_, exec_checkWord_passes ha hc hp hattr staged taken receipt (by rw [parts]; rfl), ?_, closed, rest, store⟩
    rw [parts]
    rfl

theorem State.closeEmpty_eq (s : State) (n : Nat) :
    s.closeEmpty n = { s with
      groups := { s.groups with
        slots := upd s.groups.slots n fun g => { g with st := .durable, timer := none }
        tags := (s.setTag (s.slot n).tag .free).groups.tags }
      outcomes := { s.outcomes with pendPost := s.outcomes.pendPost ++ [(s.slot n).outcome n .durable none] } } := by
  rw [State.setTag_tags]
  unfold State.closeEmpty State.setTag
  dsimp only
  split <;> rfl

/-- A matching check word of an explicit staged write without words: the parts of O24 that speak of it. -/
theorem checkWordGood_bare {s : State} {n : Nat} (hcalm : calm s) (hc : checkAwaited s) (hp : s.link.pendVerdict = none)
    (he : explicitWrite s n) (hcount : s.link.count = 0) :
    (¬ s.link.closes →
      ∃ t, exec (.checkWord s.link.check) s = .next t ∧
        t = { s with
          link := {}, out := receiptOf s s.link.passed false, staging := t.staging
          groups := { s.groups with slots := t.groups.slots } } ∧
        recordFreed s t ∧ t.slot n = { s.slot n with timer := s.restarted } ∧ ∀ k, k ≠ n → t.slot k = s.slot k) ∧
    (s.link.closes → (s.slot n).members = [] →
      ∃ t, exec (.checkWord s.link.check) s = .next t ∧
        t = { s with
          link := {}, out := receiptOf s .good true, staging := t.staging, groups := t.groups
          outcomes := { s.outcomes with pendPost := s.outcomes.pendPost ++ [(s.slot n).outcome n .durable none] } } ∧
        recordFreed s t ∧ t.slot n = { s.slot n with st := .durable, timer := none } ∧ (∀ k, k ≠ n → t.slot k = s.slot k) ∧
        t.tag s.link.tag = .free ∧ (∀ g, g ≠ s.link.tag → t.tag g = s.tag g) ∧
        t.groups.closeCounter = s.groups.closeCounter) ∧
    (s.link.closes → (s.slot n).members ≠ [] →
      (∀ m ∈ (s.slot n).members, m < s.staging.records.length ∧ s.link.record ≠ some m) →
      ∃ t, exec (.checkWord s.link.check) s = .next t ∧
        t = { s with
          link := {}, out := receiptOf s .good true, staging := t.staging, groups := t.groups, overlay := t.overlay
          queue := t.queue } ∧
        groupCloses s t n (s.slot n) (s.slot n).members ∧ (∀ r, s.link.record = some r → t.record r = {}) ∧
        (∀ m, m ∉ (s.slot n).members → s.link.record ≠ some m → t.record m = s.record m) ∧
        t.staging.ram = s.staging.ram) := by
  obtain ⟨hw, ha⟩ := hcalm
  obtain ⟨hst, hh, hread, h1⟩ := id hc
  obtain ⟨hattr, mode, h0, ht, hs, hn, htag⟩ := id he
  have staged : s.link.mode ≠ .direct := by
    rw [mode]
    exact nofun
  have freed := s.freeOptRecord_parts s.link.record
  have record := s.freeOptRecord_record s.link.record
  refine ⟨fun hcl => ?_, fun hcl hm => ?_, fun hcl hm hms => ?_⟩
  · have taken := State.stagedTaken_bare he hcount fun h => hcl (Link.closes_iff.2 h)
    have receipt := State.receipt_open (b := s.freeOptRecord s.link.record) hw h1 he hcl (by rw [freed]) (by rw [freed]) (by rw [freed])
      (by rw [freed])
    have groups : (s.freeOptRecord s.link.record).groups = s.groups := by rw [freed]
    refine ⟨_, exec_checkWord_passes ha hc hp hattr staged taken receipt (by rw [freed]; rfl), ?_, recordFreed_of_staging rfl, ?_,
      fun k hk => ?_⟩
    · rw [freed]
    · rw [groups]
      exact upd_getD_self _ _ _ _ hn
    · rw [groups]
      exact upd_getD_ne _ _ _ _ _ hk
  · have taken := State.stagedTaken_bare_durable he hcount (Link.closes_iff.1 hcl) hm
    have groups : (s.freeOptRecord s.link.record).groups = s.groups := by rw [freed]
    have durable := State.closeEmpty_eq (s.freeOptRecord s.link.record) n
    have free := (s.freeOptRecord s.link.record).setTag_free s.link.tag
    have otherTags := fun g hg => (s.freeOptRecord s.link.record).setTag_other s.link.tag g .free hg
    rw [State.freeOptRecord_slot, htag] at durable
    have tags : ((s.freeOptRecord s.link.record).closeEmpty n).groups.tags =
        ((s.freeOptRecord s.link.record).setTag s.link.tag .free).groups.tags := by rw [durable]
    have slots : ((s.freeOptRecord s.link.record).closeEmpty n).groups.slots =
        upd s.groups.slots n fun g => { g with st := .durable, timer := none } := by rw [durable, groups]
    have closes : ((s.freeOptRecord s.link.record).closeEmpty n).groups.closeCounter = s.groups.closeCounter := by
      rw [durable, groups]
    have staging : ((s.freeOptRecord s.link.record).closeEmpty n).staging = (s.freeOptRecord s.link.record).staging := by rw [durable]
    have parts : (s.freeOptRecord s.link.record).closeEmpty n = { s with
        staging := ((s.freeOptRecord s.link.record).closeEmpty n).staging
        groups := ((s.freeOptRecord s.link.record).closeEmpty n).groups
        outcomes := { s.outcomes with pendPost := s.outcomes.pendPost ++ [(s.slot n).outcome n .durable none] } } := by
      rw [durable, freed]
    clear durable
    generalize (s.freeOptRecord s.link.record).closeEmpty n = b at *
    have freeTag : b.tag s.link.tag = .free := (State.tag_congr tags _).trans free
    have receipt := State.receipt_closes (b := b) hw he hcl (by rw [parts]) (by rw [parts]) (by rw [parts]) freeTag
    refine ⟨_, exec_checkWord_passes ha hc hp hattr staged taken receipt (by rw [parts]; rfl), ?_, recordFreed_of_staging staging, ?_,
      fun k hk => ?_, freeTag, fun g hg => ?_, closes⟩
    · rw [parts]
    · exact (congrArg (·.getD n {}) slots).trans (upd_getD_self _ _ _ _ hn)
    · exact (congrArg (·.getD k {}) slots).trans (upd_getD_ne _ _ _ _ _ hk)
    · refine (State.tag_congr tags g).trans ((otherTags g hg).trans (State.tag_congr ?_ g))
      rw [freed]
  · have taken := State.stagedTaken_bare_closes he hcount (Link.closes_iff.1 hcl) hm
    have slot := s.freeOptRecord_slot s.link.record
    have members : ∀ m ∈ (s.slot n).members, (s.freeOptRecord s.link.record).record m = s.record m := fun m hm => by
      rw [record, if_neg (hms m hm).2]
    have length : (s.freeOptRecord s.link.record).staging.records.length = s.staging.records.length := by
      cases s.link.record with
      | none => rfl
      | some r => exact upd_length _ _ _
    have lt : ∀ m ∈ (s.slot n).members, m < (s.freeOptRecord s.link.record).staging.records.length := fun m hm => by
      rw [length]
      exact (hms m hm).1
    have closed := State.closeGroup_closes (s := s) (a := s.freeOptRecord s.link.record) (by rw [freed]; exact hn) (slot n) lt
      (by rw [freed]) (by rw [freed]) (by rw [freed]) (by rw [freed]) (fun k _ => slot k) fun m hm => by rw [members m hm]
    have rest : ∀ m, m ∉ (s.slot n).members →
        ((s.freeOptRecord s.link.record).closeGroup n).record m = if s.link.record = some m then {} else s.record m := fun m hm => by
      rw [← slot n] at hm lt
      rw [State.closeGroup_record lt hm, record]
    have parts := (s.freeOptRecord s.link.record).closeGroup_parts n
    have ram := ((s.freeOptRecord s.link.record).closeGroup_store n).2.trans (s.freeOptRecord_ram s.link.record)
    generalize (s.freeOptRecord s.link.record).closeGroup n = b at *
    rw [freed] at parts
    have free : b.tag s.link.tag = .free := by
      rw [← htag]
      exact closed.2.2.2.2.1
    have receipt := State.receipt_closes (b := b) hw he hcl (by rw [parts]) (by rw [parts]) (by rw [parts]) free
    refine ⟨_, exec_checkWord_passes ha hc hp hattr staged taken receipt (by rw [parts]; rfl), ?_, closed, fun r hr => ?_,
      fun m hm hr => (rest m hm).trans (if_neg hr), ram⟩
    · rw [parts]
    · exact (rest r fun h => (hms r h).2 hr).trans (if_pos hr)

end Sys2Proof.Machine
end

