-- ==== Sys2Proof/Proofs/AppliedWords.lean ====
section
/-! PROOF. The words of an attribute write as they are applied, and the end of a write whose check word matches (spec/07 R119, R123,
spec/12 R174, R175, spec/01 R15, spec/02 R23). -/

namespace Sys2Proof.Machine

/-! ### The link while words are applied -/

theorem State.link_of_linkView {s t : State} (h : t.linkView = s.linkView) : t.link = s.link := congrArg Prod.fst h

/-- A refused word changes of the link only that one was refused. -/
theorem State.refuseWord_link (s : State) (c : ConfigCode) : (s.refuseWord c).link = { s.link with attrRefused := true } := by
  rw [State.refuseWord, State.report_eq]
  rfl

theorem State.writeControl_link (s : State) (w : Word) : (s.writeControl w).link = s.link := by
  unfold State.writeControl
  dsimp only
  split <;> rfl

theorem State.applyControl_link (s : State) (w : Word) :
    (s.applyControl w).link = s.link ∨ (s.applyControl w).link = { s.link with attrRefused := true } := by
  unfold State.applyControl
  split
  next => exact .inr (s.refuseWord_link _)
  next =>
    left
    dsimp only
    split
    · exact s.writeControl_link w
    · split
      · exact (State.link_of_linkView (State.rejectOpen_linkView _ _ _)).trans (s.writeControl_link w)
      · exact s.writeControl_link w

theorem State.applyLimit_link (s : State) (which : LimitName) (w : Word) :
    (s.applyLimit which w).link = s.link ∨ (s.applyLimit which w).link = { s.link with attrRefused := true } := by
  unfold State.applyLimit
  split
  · exact .inl rfl
  · cases which with
    | groupIdle => exact .inl rfl
    | stall | handshake =>
      dsimp only
      split
      · exact .inr (s.refuseWord_link _)
      · exact .inl rfl

theorem State.applyTable_link (s : State) (i : Nat) (w : Word) :
    (s.applyTable i w).link = s.link ∨ (s.applyTable i w).link = { s.link with attrRefused := true } := by
  unfold State.applyTable
  split
  · exact .inl rfl
  · exact .inr (s.refuseWord_link _)

theorem State.applyAck_link (s : State) (w : Word) :
    (s.applyAck w).link = s.link ∨ (s.applyAck w).link = { s.link with attrRefused := true } := by
  unfold State.applyAck
  dsimp only
  split
  · exact .inr (s.refuseWord_link _)
  · split
    · split
      · exact .inl (State.link_of_linkView (State.setTag_linkView _ _ _))
      · exact .inl rfl
    · exact .inr (s.refuseWord_link _)

/-- An applied word changes of the link at most that a word was refused. -/
theorem State.applyRaw_link (s : State) (o : Nat) (w : Word) :
    (s.applyRaw o w).link = s.link ∨ (s.applyRaw o w).link = { s.link with attrRefused := true } := by
  unfold State.applyRaw
  split_ifs
  · exact s.applyControl_link w
  · left
    unfold State.applyFlags
    split <;> rfl
  · left
    unfold State.applyEnable
    split <;> rfl
  · exact s.applyLimit_link _ w
  · exact s.applyLimit_link _ w
  · exact s.applyLimit_link _ w
  · exact s.applyAck_link w
  · exact s.applyTable_link _ w
  · exact .inl rfl

/-- Header word 1 stands while the words of an attribute write are applied. -/
theorem State.applyWords_hdr1 (s : State) (o : Nat) (ws : List Word) : (s.applyWords o ws).link.hdr1 = s.link.hdr1 := by
  induction ws generalizing s o with
  | nil => rfl
  | cons w ws ih =>
    have applied : (s.applyWord o w).link.hdr1 = s.link.hdr1 := by
      show (s.applyRaw o w).link.hdr1 = _
      rcases s.applyRaw_link o w with h | h <;> rw [h]
    cases ws with
    | nil => exact applied
    | cons v ws =>
      have followed : ((s.applyWord o w).followUp o).link = (s.applyWord o w).link :=
        State.link_of_linkView (State.followUp_linkView _ o)
      rw [State.applyWords_cons, ih, followed, applied]

/-! ### The receipt after which a written HOLD field falls due (07 R123) -/

theorem State.driveReceipt_due {s : State} (v : Verdict) (c : Bool) (h1 : s.link.hdr1.isSome = true) :
    s.driveReceipt v c = { s with
      link := {}, out := { s.out with receipt := some (receiptWord v s.link.tag c s.link.count) }
      groups := (s.startIdle s.link.tag).groups, ctrl := s.ctrl.fallDue } := by
  have ctrl : (s.startIdle s.link.tag).ctrl = s.ctrl := by rw [State.startIdle_eq]
  unfold State.driveReceipt
  simp only [h1, if_true, State.startIdle_setOut, State.setOut_ctrl, ctrl]
  rw [State.startIdle_eq]
  rfl

theorem Ctrl.fallDue_parts (c : Ctrl) : c.fallDue = { c with holdWritten := none, holdDue := c.fallDue.holdDue } := rfl

theorem Ctrl.fallDue_hold {c : Ctrl} (h : c.holdWritten = some true) :
    c.fallDue.holdDue = if c.opState = .held then none else some .hold := by
  simp [Ctrl.fallDue, h]

theorem Ctrl.fallDue_release {c : Ctrl} (h : c.holdWritten = some false) :
    c.fallDue.holdDue = if c.opState = .held then some .release else none := by
  simp [Ctrl.fallDue, h]

theorem Ctrl.fallDue_unwritten {c : Ctrl} (h : c.holdWritten = none) : c.fallDue.holdDue = c.holdDue := by
  simp [Ctrl.fallDue, h]

/-- A check word that matches an attribute write: the part of O24 that speaks of it. -/
theorem checkWordGood_attr {s : State} (hc : checkAwaited s) (ha : s.link.isAttr = true) (hp : s.link.pendVerdict = none) :
    let x := s.applyWords s.link.offset s.link.attrBuf
    let v : Verdict := if x.link.attrRefused then .configRefused else if s.link.cut then .cut else .good
    ∃ t, exec (.checkWord s.link.check) s = .next t ∧
      t = { x with
        link := {}, out := { x.out with receipt := some (receiptWord v x.link.tag false x.link.count) }
        groups := (x.startIdle x.link.tag).groups, ctrl := t.ctrl } ∧
      t.ctrl = { x.ctrl with holdWritten := none, holdDue := t.ctrl.holdDue } ∧
      (x.ctrl.holdWritten = some true → t.ctrl.holdDue = if x.ctrl.opState = .held then none else some .hold) ∧
      (x.ctrl.holdWritten = some false → t.ctrl.holdDue = if x.ctrl.opState = .held then some .release else none) ∧
      (x.ctrl.holdWritten = none → t.ctrl.holdDue = x.ctrl.holdDue) := by
  intro x v
  have h1 : x.link.hdr1.isSome = true := by
    rw [State.applyWords_hdr1]
    exact hc.2.2.2
  have row := exec_checkWord_eq (w := s.link.check) (v := s.link.passed) hc (Link.directWrite_of_attr ha) (by rw [hp, if_pos rfl]; rfl)
  have ended : s.finishWrite s.link.passed = x.driveReceipt v false := (if_pos ha).trans (if_pos s.link.passed_taken)
  rw [ended, State.driveReceipt_due v false h1] at row
  exact ⟨_, row, rfl, Ctrl.fallDue_parts _, Ctrl.fallDue_hold, Ctrl.fallDue_release, Ctrl.fallDue_unwritten⟩

/-- Settles O24: a staged write with words and without, an attribute write, and the words of one in their order. -/
theorem checkWordGood : Obligations.CheckWordGood := by
  refine ⟨fun s n hcalm hc hp he => ⟨?_, ?_⟩, fun s hc ha hp => checkWordGood_attr hc ha hp, fun s o w v ws =>
    ⟨rfl, rfl, rfl, s.followUp_other o⟩⟩
  · exact checkWordGood_explicit hcalm hc hp he
  · exact checkWordGood_bare hcalm hc hp he

/-! ### The unit of one burst (01 R15, 02 R23) -/

/-- The receipt of a burst of tag 0. -/
theorem State.receipt_tagZero {s b : State} (v : Verdict) (hw : s.ctrl.holdWritten = none) (ht : s.link.tag = 0) (link : b.link = s.link)
    (ctrl : b.ctrl = s.ctrl) (out : b.out = s.out) :
    b.driveReceipt v (v == .good && s.link.close && s.link.tag != 0) = { b with link := {}, out := receiptOf s v false } := by
  have kept : (v == .good && s.link.close && s.link.tag != 0) = false := by simp [ht]
  rw [kept, State.driveReceipt_closed _ _ (by rw [ctrl]; exact hw) (.inr fun m => by
    rw [link, State.tag_zero_free ht]
    exact nofun), link, out]
  rfl

/-- The check word that matches a staged write of tag 0. -/
theorem exec_checkWord_tagZero {s b : State} (hcalm : calm s) (hst : s.link.st = .checking) (hh : s.link.handshake.isSome = true)
    (hattr : s.link.isAttr = false) (hr : s.link.isRead = false) (ht : s.link.tag = 0) (hp : s.link.pendVerdict = none)
    (hm : s.link.mode ≠ .direct) (hb : s.stagedTaken s.link.passed = b) (link : b.link = s.link) (ctrl : b.ctrl = s.ctrl)
    (out : b.out = s.out) (hw : b.watched = s.watched) :
    exec (.checkWord s.link.check) s = .next { b with link := {}, out := receiptOf s s.link.passed false } := by
  obtain ⟨hwritten, ha⟩ := hcalm
  have step := (State.finishStaged_taken s.link.passed_taken).trans
    ((congrArg (fun x : State => x.driveReceipt _ _) hb).trans (State.receipt_tagZero _ hwritten ht link ctrl out))
  have settled : s.link.settle (s.link.check == s.link.check) = s.link.passed :=
    (s.link.settle_eq (s.link.check = s.link.check)).trans (by rw [hp, if_pos rfl]; rfl)
  show Host.Outcome.next (s.takeCheck s.link.check) = _
  rw [State.takeCheck, if_pos ⟨by simp [Link.awaitsCheck, hst, hh], by simp [hr]⟩]
  dsimp only
  rw [if_neg (by simp [Link.directWrite_of_mode hm]), settled, State.finishWrite_staged _ hattr]
  exact congrArg Host.Outcome.next (observe_unwatched ha step hw)

/-- Settles O26: with words the record closes as a unit of its own, and without it is freed. -/
theorem singleBurstUnitCloses : Obligations.SingleBurstUnitCloses := by
  intro s r hcalm hst hh hattr hr ht hp hrec hlt c out entry unit
  have passes {b : State} (hm : s.link.mode ≠ .direct) (hb : s.stagedTaken s.link.passed = b) (link : b.link = s.link)
      (ctrl : b.ctrl = s.ctrl) (hout : b.out = s.out) (hw : b.watched = s.watched) :
      exec (.checkWord s.link.check) s = .next { b with link := {}, out := out } :=
    exec_checkWord_tagZero hcalm hst hh hattr hr ht hp hm hb link ctrl hout hw
  refine ⟨fun hm hs hc => ?_, fun hm hs hc => ?_, fun n hm hs hn hms htag => ⟨fun hc => ?_, fun hc => ?_⟩⟩
  · have taken : s.stagedTaken s.link.passed = s.closeUnit (.checked r) [r] := by simp [State.stagedTaken, hs, hc, hrec]
    refine ⟨_, passes (by rw [hm]; exact nofun) taken rfl rfl rfl rfl, rfl, ?_, fun k hk => ?_, rfl, rfl⟩
    · exact upd_getD_self _ _ _ _ hlt
    · exact upd_getD_ne _ _ _ _ _ hk
  · have taken : s.stagedTaken s.link.passed = s.freeOptRecord s.link.record := by simp [State.stagedTaken, hs, hc]
    have freed := s.freeOptRecord_parts s.link.record
    refine ⟨_, passes (by rw [hm]; exact nofun) taken (by rw [freed]) (by rw [freed]) (by rw [freed]) (by rw [freed]; rfl), ?_,
      recordFreed_of_staging rfl⟩
    rw [freed]
  · have taken : s.stagedTaken s.link.passed = (s.joinGroup n r s.link.count).closeGroup n := by
      simp [State.stagedTaken, hs, hc, hrec, ht]
    have slot : (s.joinGroup n r s.link.count).slot n = (s.slot n).joined r s.link.count := State.joinGroup_slot r s.link.count hn
    have own : (s.joinGroup n r s.link.count).record r = { s.record r with st := .held } := State.joinGroup_record n s.link.count hlt
    have members : ((s.joinGroup n r s.link.count).slot n).members = [r] := by rw [slot, GroupSlot.joined, hms]; rfl
    have lt : ∀ m ∈ ((s.joinGroup n r s.link.count).slot n).members, m < (s.joinGroup n r s.link.count).staging.records.length := by
      rw [members]
      exact fun m hm => (upd_length _ _ _).symm ▸ List.mem_singleton.1 hm ▸ hlt
    obtain ⟨overlay, queue, closed, others, -, -, counter, records⟩ := State.closeGroup_closes (s := s)
      (by exact (upd_length _ _ _).symm ▸ hn) slot (slot ▸ lt) rfl rfl rfl rfl (fun k hk => s.joinGroup_other r s.link.count hk)
      (by rw [← slot, members]; exact fun m hm => by rw [List.mem_singleton.1 hm, own])
    have tags : ((s.joinGroup n r s.link.count).closeGroup n).groups.tags = s.groups.tags := by
      rw [State.closeGroup_eq, slot]
      exact (State.setTag_tags _ _ _).trans (if_pos htag)
    have rest : ∀ k, k ≠ r → ((s.joinGroup n r s.link.count).closeGroup n).record k = s.record k := fun k hk =>
      (State.closeGroup_record lt (by rw [members]; exact fun h => hk (List.mem_singleton.1 h))).trans
        (s.joinGroup_record_other n s.link.count hk)
    have parts := (s.joinGroup n r s.link.count).closeGroup_parts n
    have joined : ((s.slot n).joined r s.link.count).members = [r] := slot ▸ members
    rw [joined] at overlay records closed
    generalize (s.joinGroup n r s.link.count).closeGroup n = b at *
    refine ⟨_, passes (by rw [hm]; exact nofun) taken (by rw [parts]; rfl) (by rw [parts]; rfl) (by rw [parts]; rfl)
      (by rw [parts]; rfl), ?_, records r List.mem_cons_self, rest, closed, others, tags, counter⟩
    rw [parts, overlay, queue]
    rfl
  · have taken : s.stagedTaken s.link.passed = (s.freeOptRecord s.link.record).updSlot n fun _ => {} := by
      simp [State.stagedTaken, hs, hc, ht]
    have freed := s.freeOptRecord_parts s.link.record
    have record := s.freeOptRecord_record s.link.record
    refine ⟨_, passes (by rw [hm]; exact nofun) taken (by rw [freed]; rfl) (by rw [freed]; rfl) (by rw [freed]; rfl)
      (by rw [freed]; rfl), ?_, (record r).trans (if_pos hrec), upd_getD_default _ _ _ _ rfl,
      fun k hk => (record k).trans (if_neg fun e => hk (Option.some.inj (hrec.symm.trans e)).symm), fun k hk => ?_, ?_, ?_⟩
    · rw [freed]
      rfl
    · rw [freed]
      exact upd_getD_ne _ _ _ _ _ hk
    · rw [freed]
      rfl
    · rw [freed]
      rfl

end Sys2Proof.Machine
end

