-- ==== Sys2Proof/Proofs/AttributeBursts.lean ====
section
/-! PROOF. The attribute write burst of one word with tag 0 (spec/07 R112 to R123, spec/12 R174, R175; log 4): the word applied, and then
the receipt. -/

namespace Sys2Proof.Machine

/-! ### The burst (log 4) -/

/-- The link of the burst when its one word is applied. -/
def State.oneWordLink (s : State) (o : Nat) (w : Word) : Link :=
  { st := .checking, hdr0 := some attrHeader, hdr1 := some (wordOf o), handshake := some s.ctrl.handshakeLimit
    check := checkWord (checkWord (checkWord checkPreset attrHeader) (wordOf o)) w, count := 1, bound := min 256 (o + 64)
    attrBuf := [w] }

/-- The state in which the one word is applied. -/
def State.oneWord (s : State) (o : Nat) (w : Word) : State :=
  { s with link := s.oneWordLink o w, out := { s.out with answer := some .accept } }

theorem hdrOffset_wordOf {o : Nat} (h : o < 256) : hdrOffset (wordOf o) = o := by
  simp [hdrOffset, fieldOf, wordOf]
  omega

theorem hdrAttr_attrHeader : hdrAttr attrHeader = true := by decide

theorem hdrRead_attrHeader : hdrRead attrHeader = false := by decide

theorem hdrTag_attrHeader : hdrTag attrHeader = 0 := by decide

theorem formatFault_attr {o : Nat} (h : o < 256) : formatFault attrHeader (wordOf o) = false := by
  have high : fieldOf (wordOf o) 8 24 = 0 := by
    simp [fieldOf, wordOf, Nat.shiftRight_eq_div_pow]
    omega
  have low : fieldOf attrHeader 7 25 = 0 := by decide
  simp [formatFault, high, low, hdrAttr_attrHeader]

theorem State.acceptAttr_write {s : State} {o : Nat} (hr : s.link.isRead = false) (ho : s.link.offset = o) :
    s.acceptAttr = s.setLink { s.link with
      st := .streaming, bound := min 256 (o + 64), masterHold := true, stall := some s.ctrl.stallLimit } := by
  simp [State.acceptAttr, hr, ho, Config.attributeWords, Config.attributeBurst]

/-- The master strobes, stops and sends its check word: the state in which the word is applied. -/
theorem attrWrite_finish {s : State} {o : Nat} (w : Word) (h : ready s) (ho : o < 256) :
    s.attrWrite o w = (s.oneWord o w).finishWrite .good := by
  obtain ⟨hr, hl, hd, -⟩ := h
  have idle : s.link.st = .idle := by rw [hl]
  have header : s.takeHeader attrHeader = { s with
      link := { hdr0 := some attrHeader, check := checkWord checkPreset attrHeader, st := .opening, stall := some s.ctrl.stallLimit } } := by
    rw [State.takeHeader, if_pos ⟨hr, idle⟩, State.settleDue_none s hd]
    rfl
  have opened : (s.takeHeader attrHeader).takeOpening (wordOf o) = { s with
      link := {
        hdr0 := some attrHeader, hdr1 := some (wordOf o), check := checkWord (checkWord checkPreset attrHeader) (wordOf o)
        st := .streaming, bound := min 256 (o + 64), masterHold := true, stall := some s.ctrl.stallLimit }
      out := { s.out with answer := some .accept } } := by
    have tag (x : State) (hx : x.link.hdr0 = some attrHeader) : x.tag x.link.tag = .free := by
      rw [Link.tag, Link.h0, hx]
      exact State.tag_zero_free hdrTag_attrHeader
    rw [header, State.takeOpening_attr (by rfl) (by exact hdrAttr_attrHeader) (by exact formatFault_attr ho) (by rw [tag _ rfl]; rfl),
      State.wordOneTaken_closed _ (fun n => by rw [tag _ rfl]; exact nofun)]
    rw [State.acceptAttr_write (o := o) (by exact hdrRead_attrHeader) (by exact hdrOffset_wordOf ho)]
    simp [State.setLink, Link.opened, State.setOut, State.acceptedOut]
  have taken : ((s.takeHeader attrHeader).takeOpening (wordOf o)).strobe w = { s with
      link := {
        hdr0 := some attrHeader, hdr1 := some (wordOf o), check := checkWord (checkWord (checkWord checkPreset attrHeader) (wordOf o)) w
        st := .streaming, bound := min 256 (o + 64), count := 1, attrBuf := [w] }
      out := { s.out with answer := some .accept } } := by
    rw [opened, State.strobe_offer w (by rfl) (by exact hdrRead_attrHeader) (by rfl), State.offer_attr _ (by exact hdrAttr_attrHeader),
      State.offerAttr_takes]
    · rfl
    · show hdrOffset (wordOf o) + 0 < min 256 (o + 64)
      rw [hdrOffset_wordOf ho]
      omega
  have stopped : (((s.takeHeader attrHeader).takeOpening (wordOf o)).strobe w).masterStop = s.oneWord o w := by
    rw [taken, State.masterStop, if_pos rfl, State.endData_none (.inl (by exact hdrAttr_attrHeader)) (by exact hdrRead_attrHeader),
      State.enterChecking_write (by exact hdrRead_attrHeader)]
    rfl
  unfold State.attrWrite
  rw [if_pos ⟨hr, idle⟩]
  dsimp only
  rw [stopped, State.takeCheck, if_pos ⟨rfl, by rw [show (s.oneWord o w).link.isRead = false from hdrRead_attrHeader]; rfl⟩]
  dsimp only
  rw [if_neg (by rw [Link.directWrite_of_attr (l := (s.oneWord o w).link) hdrAttr_attrHeader]; exact nofun),
    show ((s.oneWord o w).link.check == (s.oneWord o w).link.check) = true from beq_self_eq_true _]
  rfl

/-- The burst of a word whose application is known: x is what the word makes of the state but for the link, the ports and the Attention
Unit's part, and `refused` whether it was refused. -/
theorem attrWrite_eq {s x : State} {o : Nat} {w : Word} {refused : Bool} (h : ready s) (ho : o < 256)
    (hx : (s.oneWord o w).applyRaw o w =
      { x with link := { s.oneWordLink o w with attrRefused := refused }, out := { s.out with answer := some .accept } }) :
    s.attrWrite o w = { x with
      link := {}, out := afterOneWord s (if refused then .configRefused else .good), ctrl := x.ctrl.fallDue
      attn := (observe (State.applyRaw o w) (s.oneWord o w)).attn } := by
  have applied : (s.oneWord o w).applyWord o w = { x with
      link := { s.oneWordLink o w with attrRefused := refused }, out := { s.out with answer := some .accept }
      attn := (observe (State.applyRaw o w) (s.oneWord o w)).attn } := observe_step hx
  have ends : s.attrWrite o w = ((s.oneWord o w).applyWord o w).driveReceipt
      (if ((s.oneWord o w).applyWord o w).link.attrRefused then .configRefused else .good) false := by
    rw [attrWrite_finish w h ho, State.finishWrite, if_pos (by exact hdrAttr_attrHeader), if_pos (.inl rfl), State.finishAttrWrite]
    rw [show (s.oneWord o w).link.offset = o from hdrOffset_wordOf ho]
    rfl
  have noTimer (y : State) (v : Verdict) (hy : y.link.hdr0 = some attrHeader) (h1 : y.link.hdr1.isSome = true)
      (hc : y.link.count = 1) :
      y.driveReceipt v false = { y with
        link := {}, out := { y.out with receipt := some (receiptWord v 0 false 1) }, ctrl := y.ctrl.fallDue } := by
    have tag : y.link.tag = 0 := by rw [Link.tag, Link.h0, hy]; exact hdrTag_attrHeader
    rw [State.driveReceipt_due v false h1, State.startIdle_closed _ _ (fun n => by rw [State.tag_zero_free tag]; exact nofun), tag, hc]
  rw [ends, applied, noTimer _ _ rfl rfl rfl]
  rfl

/-- The same where the word leaves the hold and what the Attention Unit watches. -/
theorem attrWrite_unwatched {s x : State} {o : Nat} {w : Word} {refused : Bool} (h : ready s) (ho : o < 256)
    (hx : (s.oneWord o w).applyRaw o w =
      { x with link := { s.oneWordLink o w with attrRefused := refused }, out := { s.out with answer := some .accept } })
    (hw : x.watched = s.watched) :
    s.attrWrite o w = { x with
      link := {}, out := afterOneWord s (if refused then .configRefused else .good), ctrl := x.ctrl.fallDue } := by
  have same := observe_unwatched (s := s.oneWord o w) (by exact h.2.2.2.2) hx (by exact hw)
  rw [attrWrite_eq h ho hx, same]

/-- The same with the Attention Unit's part as `noted` says. -/
theorem attrWrite_noted {s x : State} {o : Nat} {w : Word} {refused : Bool} {events : BitVec 16} (h : ready s) (ho : o < 256)
    (hx : (s.oneWord o w).applyRaw o w =
      { x with link := { s.oneWordLink o w with attrRefused := refused }, out := { s.out with answer := some .accept } })
    (flags : x.attn.flags = s.attn.flags ||| events) (enable : x.attn.enable = s.attn.enable) :
    ∃ t, s.attrWrite o w = t ∧
      t = { x with
        link := {}, out := afterOneWord s (if refused then .configRefused else .good), ctrl := x.ctrl.fallDue, attn := t.attn } ∧
      noted s t events := by
  refine ⟨_, attrWrite_eq h ho hx, rfl, ?_⟩
  have noted := noted_observe (s := s.oneWord o w) (events := events) hx (by exact flags) (by exact enable)
  rw [observe_step hx] at noted
  exact noted

/-! ### The words that change nothing, and those that are refused (12 R174, 10 R154) -/

theorem Ctrl.fallDue_calm {c : Ctrl} (h : c.holdWritten = none) : c.fallDue = c := by
  unfold Ctrl.fallDue
  rw [h]
  cases c
  subst h
  rfl

end Sys2Proof.Machine
end

