-- ==== Sys2Proof/Proofs/AttributeWords.lean ====
section
/-! PROOF. The attribute words outside Control: the limits, the Region Table, the Changed flags and enables, and Outcome Ack (spec/06 R97,
spec/09 R140, R146, spec/10 R155, spec/12 R174). -/

namespace Sys2Proof.Machine

/-! ### Words that change nothing, and words that are refused (12 R174, 10 R154) -/

theorem State.refuseWord_eq (s : State) (c : ConfigCode) :
    s.refuseWord c = { s with
      ctrl := { s.ctrl with refusal := c }, link := { s.link with attrRefused := true }
      attn := { s.attn with flags := s.attn.flags ||| flagAt 11 (s.ctrl.opState != .held) } } := by
  rw [State.refuseWord, State.report_eq]
  by_cases h : s.ctrl.opState = .held
  · simp [h]
  · rw [if_neg (by exact h), show (s.ctrl.opState != .held) = true by simpa using h]
    rfl

theorem attrWrite_ignored {s : State} {o : Nat} {w : Word} (h : ready s) (ho : o < 256)
    (hx : (s.oneWord o w).applyRaw o w = s.oneWord o w) : s.attrWrite o w = { s with out := afterOneWord s .good } := by
  obtain ⟨-, link, -, calm⟩ := id h
  rw [attrWrite_unwatched (x := s) (refused := false) h ho (hx.trans rfl) rfl, Ctrl.fallDue_calm calm.1, ← link]
  rfl

/-- A word that sets a part of State Control which the Attention Unit does not watch. -/
theorem attrWrite_ctrl {s : State} {o : Nat} {w : Word} {c : Ctrl} (h : ready s) (ho : o < 256)
    (hx : (s.oneWord o w).applyRaw o w = (s.oneWord o w).setCtrl c) (hc : (s.setCtrl c).watched = s.watched)
    (hw : c.holdWritten = none) : s.attrWrite o w = { s with ctrl := c, out := afterOneWord s .good } := by
  obtain ⟨-, link, -, -⟩ := id h
  rw [attrWrite_unwatched (x := s.setCtrl c) (refused := false) h ho (hx.trans rfl) hc, Ctrl.fallDue_calm (by exact hw), ← link]
  rfl

theorem attrWrite_refused {s : State} {o : Nat} {w : Word} {c : ConfigCode} (h : ready s) (ho : o < 256)
    (hx : (s.oneWord o w).applyRaw o w = (s.oneWord o w).refuseWord c) :
    ∃ t, s.attrWrite o w = t ∧
      t = { s with ctrl := { s.ctrl with refusal := c }, out := afterOneWord s .configRefused, attn := t.attn } ∧
      noted s t (flagAt 11 (s.ctrl.opState != .held)) := by
  obtain ⟨-, link, -, calm⟩ := id h
  rw [State.refuseWord_eq] at hx
  obtain ⟨t, written, step, noted⟩ := attrWrite_noted (refused := true)
    (x := { s with ctrl := { s.ctrl with refusal := c }, attn := { s.attn with flags := s.attn.flags ||| flagAt 11 (s.ctrl.opState != .held) } })
    h ho (hx.trans rfl) rfl rfl
  rw [Ctrl.fallDue_calm (by exact calm.1), ← link] at step
  exact ⟨t, written, step, noted⟩

/-- A refusal in HELD, where the Attention Unit takes no events (09 R149; log 21). -/
theorem attrWrite_refused_held {s : State} {o : Nat} {w : Word} {c : ConfigCode} (h : ready s) (ho : o < 256)
    (held : s.ctrl.opState = .held) (hx : (s.oneWord o w).applyRaw o w = (s.oneWord o w).refuseWord c) :
    s.attrWrite o w = { s with ctrl := { s.ctrl with refusal := c }, out := afterOneWord s .configRefused } := by
  obtain ⟨-, link, -, calm⟩ := id h
  rw [State.refuseWord_eq, show (s.oneWord o w).ctrl.opState = .held from held] at hx
  have kept : s.attn.flags ||| flagAt 11 (OpState.held != .held) = s.attn.flags := by simp
  rw [show (s.oneWord o w).attn.flags = s.attn.flags from rfl, kept] at hx
  rw [attrWrite_unwatched (x := { s with ctrl := { s.ctrl with refusal := c } }) (refused := true) h ho (hx.trans rfl) rfl,
    Ctrl.fallDue_calm (by exact calm.1), ← link]
  rfl

/-! ### The limits (10 R155) -/

theorem limitOffset_lt (x : LimitName) : limitOffset x < 256 := by
  cases x <;> decide

theorem State.applyRaw_limit (s : State) (x : LimitName) (w : Word) : s.applyRaw (limitOffset x) w = s.applyLimit x w := by
  cases x <;> rfl

theorem fieldOf_low (w : Word) (n : Nat) : fieldOf w 0 n = w.toNat % 2 ^ n := by
  simp [fieldOf]

/-- Settles O36: the word is ignored in HELD, a zero stall or handshake limit is refused, and any other word sets its limit alone. -/
theorem limitWritten : Obligations.LimitWritten := by
  intro s w h
  have applied (x : LimitName) : (s.oneWord (limitOffset x) w).applyRaw (limitOffset x) w = (s.oneWord (limitOffset x) w).applyLimit x w :=
    State.applyRaw_limit _ x w
  have sent (x : LimitName) : exec (.limitWrite x w) s = .next (s.attrWrite (limitOffset x) w) := rfl
  have low : fieldOf w 0 10 = w.toNat % 1024 := fieldOf_low w 10
  obtain ⟨-, -, -, calm⟩ := id h
  refine ⟨fun held x => ?_, fun free => ⟨fun hne => ⟨?_, ?_⟩, fun h0 x hx => ?_, ?_⟩⟩
  · rw [sent, attrWrite_ignored h (limitOffset_lt x) ((applied x).trans (if_pos held))]
  · rw [sent, attrWrite_ctrl (c := { s.ctrl with stallLimit := fieldOf w 0 10 }) h (limitOffset_lt .stall)
      ((applied .stall).trans ((if_neg (by exact free)).trans (if_neg (by rw [low]; exact hne)))) rfl calm.1, low]
  · rw [sent, attrWrite_ctrl (c := { s.ctrl with handshakeLimit := fieldOf w 0 10 }) h (limitOffset_lt .handshake)
      ((applied .handshake).trans ((if_neg (by exact free)).trans (if_neg (by rw [low]; exact hne)))) rfl calm.1, low]
  · have refused : (s.oneWord (limitOffset x) w).applyLimit x w = (s.oneWord (limitOffset x) w).refuseWord .range := by
      refine (if_neg (by exact free)).trans ?_
      cases x with
      | stall | handshake => exact if_pos (low.trans h0)
      | groupIdle => exact absurd rfl hx
    obtain ⟨t, written, step, noted⟩ := attrWrite_refused h (limitOffset_lt x) ((applied x).trans refused)
    rw [show (s.ctrl.opState != .held) = true by simpa using free] at noted
    exact ⟨t, congrArg Host.Outcome.next written, step, noted⟩
  · rw [sent, attrWrite_ctrl (c := { s.ctrl with idleLimit := fieldOf w 0 16 }) h (limitOffset_lt .groupIdle)
      ((applied .groupIdle).trans (if_neg (by exact free))) rfl calm.1, fieldOf_low]
    rfl

/-! ### The Region Table (06 R97) -/

theorem RegionEntry.write_eq (e : RegionEntry) (i : Nat) (w : Word) :
    e.write i w = if i % 2 = 0 then { e with base := w.toNat % 65536, limit := w.toNat / 65536 }
      else { e with valid := w.getLsbD 0, mode := Mode.ofCode (w.toNat / 16 % 4) } := by
  have high : w.toNat >>> 16 % 65536 = w.toNat / 65536 := by
    rw [Nat.shiftRight_eq_div_pow]
    exact Nat.mod_eq_of_lt (by have := w.isLt; omega)
  have mode : w.toNat >>> 4 % 4 = w.toNat / 16 % 4 := by rw [Nat.shiftRight_eq_div_pow]
  unfold RegionEntry.write
  simp [fieldOf, high, mode]

theorem State.applyRaw_table (s : State) (i : Fin 16) (w : Word) : s.applyRaw (0x80 + i.val) w = s.applyTable i.val w := by
  have lt := i.isLt
  unfold State.applyRaw
  rw [if_neg (by omega), if_neg (by omega), if_neg (by omega), if_neg (by omega), if_neg (by omega), if_neg (by omega),
    if_neg (by omega), if_pos (by omega), Nat.add_sub_cancel_left]

/-- Settles O37: the word is taken in UNCONFIGURED and refused elsewhere. -/
theorem regionTableWritten : Obligations.RegionTableWritten := by
  intro s i w h hlen
  have lt : 0x80 + i.val < 256 := by have := i.isLt; omega
  have applied := (s.oneWord (0x80 + i.val) w).applyRaw_table i w
  obtain ⟨-, link, -, calm⟩ := id h
  refine ⟨fun hst => ?_, fun hne free => ?_, fun held => ?_⟩
  · have written := attrWrite_unwatched (refused := false)
      (x := { s with region := { s.region with entries := upd s.region.entries (i.val / 2) fun e => e.write i.val w } }) h lt
      (applied.trans (if_pos hst)) rfl
    rw [Ctrl.fallDue_calm (by exact calm.1)] at written
    refine ⟨_, congrArg Host.Outcome.next written, by rw [← link]; rfl, (upd_length _ _ _).trans hlen, fun k hk => ?_, fun e he => ?_⟩
    · exact (upd_getElem? _ _ _ _).trans (if_neg hk)
    · refine (upd_getElem? _ _ _ _).trans ((if_pos rfl).trans ?_)
      rw [he, ← RegionEntry.write_eq]
      rfl
  · obtain ⟨t, written, step, noted⟩ := attrWrite_refused h lt (applied.trans (if_neg (by exact hne)))
    rw [show (s.ctrl.opState != .held) = true by simpa using free] at noted
    exact ⟨t, congrArg Host.Outcome.next written, step, noted⟩
  · exact congrArg Host.Outcome.next (attrWrite_refused_held h lt held (applied.trans (if_neg (by
      show s.ctrl.opState ≠ _
      rw [held]
      exact nofun))))

/-! ### The Changed flags and the enables (09 R146 to R148) -/

theorem maskedFlags_getLsbD (f : BitVec 16) (w : Word) {i : Nat} (hi : i < 16) :
    ((f &&& ~~~w.extractLsb' 16 16) ||| (w.extractLsb' 0 16 &&& w.extractLsb' 16 16)).getLsbD i =
      if w.getLsbD (16 + i) then w.getLsbD i else f.getLsbD i := by
  simp only [BitVec.getLsbD_or, BitVec.getLsbD_and, BitVec.getLsbD_not, BitVec.getLsbD_extractLsb', hi, decide_true, Bool.true_and,
    Nat.zero_add]
  cases w.getLsbD (16 + i) <;> simp

theorem State.applyRaw_flags {s : State} {w : Word} (h : s.ctrl.opState ≠ .held) :
    s.applyRaw 0x45 w = s.setAttn { s.attn with
      flags := (s.attn.flags &&& ~~~w.extractLsb' 16 16) ||| (w.extractLsb' 0 16 &&& w.extractLsb' 16 16) } := if_neg h

theorem State.applyRaw_enable {s : State} {w : Word} (h : s.ctrl.opState ≠ .held) :
    s.applyRaw 0x46 w = s.setAttn { s.attn with enable := w.extractLsb' 0 16 } := if_neg h

/-- A word that changes flags or enables alone. -/
theorem attrWrite_attn {s : State} {o : Nat} {w : Word} {a : Attn} (h : ready s) (ho : o < 256)
    (hx : (s.oneWord o w).applyRaw o w = (s.oneWord o w).setAttn a) :
    ∃ t, s.attrWrite o w = t ∧ t = { s with attn := t.attn, out := afterOneWord s .good } ∧ t.attn.flags = a.flags ∧
      t.attn.enable = a.enable ∧ t.attnOk ∧
      (s.ctrl.attnOn = true → s.ctrl.attnMode = .pulse →
        t.attn.line = (s.attn.line || (t.attn.flags &&& ~~~s.attn.flags &&& t.attn.enable) != 0)) := by
  obtain ⟨-, link, -, calm⟩ := id h
  have written := attrWrite_eq (x := s.setAttn a) (refused := false) h ho (hx.trans rfl)
  rw [Ctrl.fallDue_calm (by exact calm.1)] at written
  have ok := observe_attnOk (State.applyRaw o w) (s.oneWord o w)
  have flags : (observe (State.applyRaw o w) (s.oneWord o w)).attn.flags = a.flags := observe_flags hx rfl
  have enable : (observe (State.applyRaw o w) (s.oneWord o w)).attn.enable = a.enable := by
    rw [observe_eq, hx]
    rfl
  have pulse := fun hon hp => State.settleAttn_pulse (s.oneWord o w) ((s.oneWord o w).setAttn a) hon hp hon hp
  rw [← hx, ← observe_eq] at pulse
  have step := observe_step hx
  generalize (observe (State.applyRaw o w) (s.oneWord o w)) = b at *
  refine ⟨_, written, by rw [← link]; rfl, flags, enable, ?_, fun hon hp => ?_⟩
  · rw [step] at ok
    exact ok
  · have line := pulse hon hp
    rw [hx] at line
    exact line.trans (by rw [show ((s.oneWord o w).setAttn a).attn.enable = a.enable from rfl, ← enable]; rfl)

/-- Settles O38: the masked write moves the flags whose mask bit is set, and with the flags as they were no pulse starts. -/
theorem attentionWords : Obligations.AttentionWords := by
  intro s
  refine ⟨fun hon hp => congrArg Host.Outcome.next (if_pos ⟨hon, hp⟩), fun hn => congrArg Host.Outcome.next (if_neg hn), fun w h =>
    ⟨fun held i hi => ?_, fun free => ⟨?_, ?_⟩⟩⟩
  · simp only [List.mem_cons, List.not_mem_nil, or_false] at hi
    rcases hi with rfl | rfl
    · exact congrArg Host.Outcome.next (attrWrite_ignored h (by decide) (if_pos held))
    · exact congrArg Host.Outcome.next (attrWrite_ignored h (by decide) (if_pos held))
  · obtain ⟨t, written, step, flags, enable, ok, pulse⟩ := attrWrite_attn (o := 0x45) (w := w)
      (a := { s.attn with flags := (s.attn.flags &&& ~~~w.extractLsb' 16 16) ||| (w.extractLsb' 0 16 &&& w.extractLsb' 16 16) })
      h (by decide) (State.applyRaw_flags (s := s.oneWord 0x45 w) free)
    refine ⟨t, congrArg Host.Outcome.next written, step, fun i hi => ?_, enable, ok, fun hon hp => ?_⟩
    · rw [flags]
      exact maskedFlags_getLsbD _ w hi
    · rw [pulse hon hp, enable]
  · obtain ⟨t, written, step, flags, enable, ok, pulse⟩ := attrWrite_attn (o := 0x46) (w := w)
      (a := { s.attn with enable := w.extractLsb' 0 16 }) h (by decide) (State.applyRaw_enable (s := s.oneWord 0x46 w) free)
    refine ⟨t, congrArg Host.Outcome.next written, step, enable.trans ?_, flags, ok, fun hon hp => ?_⟩
    · exact BitVec.eq_of_toNat_eq (by simp)
    · rw [pulse hon hp, flags]
      show (s.attn.line || (s.attn.flags &&& ~~~s.attn.flags &&& t.attn.enable) != 0) = _
      simp

/-! ### Outcome Ack (09 R140) -/

/-- The groups after the outcome record r is acknowledged: a REJECTED one frees the tag that is FENCED with its number. -/
def State.acknowledged (s : State) (r : OutcomeRecord) : Groups :=
  if r.outcome.verdict = .rejected ∧ s.tag r.outcome.tag = .fencedNumber r.number then (s.setTag r.outcome.tag .free).groups else s.groups

theorem State.acknowledged_oneWord (s : State) (o : Nat) (w : Word) (r : OutcomeRecord) :
    (s.oneWord o w).acknowledged r = s.acknowledged r := by
  unfold State.acknowledged State.setTag
  exact ite_congr rfl (fun _ => by split <;> rfl) fun _ => rfl

theorem State.acknowledged_parts (s : State) (r : OutcomeRecord) :
    s.acknowledged r = { s.groups with tags := (s.acknowledged r).tags } := by
  unfold State.acknowledged
  split
  · rw [State.setTag_eq]
  · rfl

theorem State.applyAck_matches {s : State} {w : Word} {r : OutcomeRecord} {rest : List OutcomeRecord}
    (hq : s.outcomes.queue = r :: rest) (hn : r.number = w.extractLsb' 0 16) :
    s.applyAck w = { s with outcomes := { s.outcomes with queue := rest }, groups := s.acknowledged r } := by
  have tag : (s.setOutcomes { s.outcomes with queue := rest }).tag r.outcome.tag = s.tag r.outcome.tag := rfl
  unfold State.applyAck State.acknowledged
  simp only [hq, ← hn, tag, if_true]
  split
  · unfold State.setTag
    split <;> rfl
  · rfl

theorem State.applyAck_mismatch {s : State} {w : Word} (h : ∀ r, s.outcomes.queue.head? = some r → r.number ≠ w.extractLsb' 0 16) :
    s.applyAck w = s.refuseWord .ackMismatch := by
  unfold State.applyAck
  cases hq : s.outcomes.queue with
  | nil => rfl
  | cons r rest => exact if_neg (h r (by rw [hq]; rfl))

/-- Settles O39: the head record goes where its number matches, and a REJECTED one frees the tag that is FENCED with the number. -/
theorem outcomeAcknowledged : Obligations.OutcomeAcknowledged := by
  intro s w h
  obtain ⟨-, link, -, calm⟩ := id h
  have number : (w.extractLsb' 0 16).toNat = w.toNat % 65536 := fieldOf_low w 16
  refine ⟨fun r rest hq hn => ?_, fun hn => ?_⟩
  · have matched : r.number = w.extractLsb' 0 16 := BitVec.eq_of_toNat_eq (hn.trans number.symm)
    obtain ⟨t, written, step, noted⟩ := attrWrite_noted (o := 0x59) (refused := false) (events := 0)
      (x := { s with outcomes := { s.outcomes with queue := rest }, groups := s.acknowledged r }) h (by decide)
      ((State.applyAck_matches (s := s.oneWord 0x59 w) hq matched).trans (by rw [State.acknowledged_oneWord]; rfl)) (by simp) rfl
    rw [Ctrl.fallDue_calm (by exact calm.1), ← link] at step
    refine ⟨t, congrArg Host.Outcome.next written, ?_⟩
    have groups : t.groups = s.acknowledged r := by rw [step]
    have parts := s.acknowledged_parts r
    refine ⟨step.trans (by rw [groups]; rfl), ?_, ?_, fun hr hf => ?_, fun hr => groups.trans (if_neg fun hf => hr hf.1), noted⟩
    · rw [groups, parts]
    · rw [groups, parts]
    · have freed : t.groups = (s.setTag r.outcome.tag .free).groups := groups.trans (if_pos ⟨hr, hf⟩)
      have tags := fun g => State.tag_congr (congrArg Groups.tags freed) g
      exact ⟨(tags _).trans (s.setTag_free _), fun g hg => (tags g).trans (s.setTag_other _ g .free hg)⟩
  · obtain ⟨t, written, step, noted⟩ := attrWrite_refused (o := 0x59) h (by decide)
      (State.applyAck_mismatch (s := s.oneWord 0x59 w) fun r hr e => hn r hr (by rw [e]; exact number))
    exact ⟨t, congrArg Host.Outcome.next written, step, noted⟩

end Sys2Proof.Machine
end

