-- ==== Sys2Proof/Proofs/RejectedGroups.lean ====
section
/-! PROOF. Every OPEN explicit group but the spared one is rejected, in slot order (spec/02 R40, spec/09 R136). -/

namespace Sys2Proof.Machine

/-- From s to t the groups of the slots `hit` are rejected with a bare first error, one after the other, whatever their tags are
(02 R34, R40). -/
structure SlotsRejected (s t : State) (hit : List Nat) (c : Cause) : Prop where
  slots : ∀ n, t.slot n = if n ∈ hit then rejectedSlot s n (bareError c) else s.slot n
  length : t.groups.slots.length = s.groups.slots.length
  closes : t.groups.closeCounter = s.groups.closeCounter
  records : ∀ r, t.record r = if (hit.any fun n => (s.slot n).members.contains r) = true then {} else s.record r
  ram : t.staging.ram = s.staging.ram
  outcomes : t.outcomes = { s.outcomes with
    pendPost := s.outcomes.pendPost ++ hit.map fun n => (rejectedSlot s n (bareError c)).outcome n .rejected none }
  parts : t = { s with
    staging := t.staging, groups := t.groups, outcomes := t.outcomes
    attn := { s.attn with flags := s.attn.flags ||| flagAt 12 (!hit.isEmpty) } }

/-- The same with the tags: each is OPEN and names its slot before, and is FENCED and names it after (02 R22, R36). -/
structure GroupsRejected (s t : State) (hit : List Nat) (c : Cause) : Prop extends SlotsRejected s t hit c where
  opened : ∀ n ∈ hit, s.tag (s.slot n).tag = .opened n
  fenced : ∀ n ∈ hit, t.tag (s.slot n).tag = .fencedSlot n
  tags : ∀ g, (∀ n ∈ hit, (s.slot n).tag ≠ g) → t.tag g = s.tag g

theorem SlotsRejected.none (s : State) (c : Cause) : SlotsRejected s s [] c where
  slots _ := rfl
  length := rfl
  closes := rfl
  records _ := rfl
  ram := rfl
  outcomes := by simp
  parts := by simp

theorem SlotsRejected.reject {s t : State} {hit : List Nat} {c : Cause} {n : Nat} (h : SlotsRejected s t hit c)
    (hh : s.ctrl.opState ≠ .held) (hn : n ∉ hit) (hl : n < s.groups.slots.length) :
    SlotsRejected s (t.rejectGroup n (bareError c)) (hit ++ [n]) c := by
  have slot : t.slot n = s.slot n := (h.slots n).trans (if_neg hn)
  have rejected : rejectedSlot t n (bareError c) = rejectedSlot s n (bareError c) := by rw [rejectedSlot, slot]; rfl
  have ctrl : t.ctrl = s.ctrl := by rw [h.parts]
  have attn : t.attn = { s.attn with flags := s.attn.flags ||| flagAt 12 (!hit.isEmpty) } := by rw [h.parts]
  constructor
  case slots =>
    intro k
    rw [State.rejectGroup_slot _ (by rw [h.length]; exact hl), rejected, h.slots]
    by_cases hk : k = n
    · simp [hk]
    · simp [hk]
  case length =>
    rw [State.rejectGroup_eq]
    exact (upd_length _ _ _).trans h.length
  case closes => rw [State.rejectGroup_closeCounter, h.closes]
  case records =>
    intro r
    rw [State.rejectGroup_record, slot, h.records]
    by_cases hr : r ∈ (s.slot n).members
    · simp [hr]
    · simp [hr]
  case ram => rw [State.rejectGroup_ram, h.ram]
  case outcomes => simp [State.rejectGroup_outcomes, rejected, h.outcomes]
  case parts =>
    have flags : s.attn.flags ||| flagAt 12 (!hit.isEmpty) ||| flagAt 12 true = s.attn.flags ||| flagAt 12 true := by
      cases hit.isEmpty <;> simp [BitVec.or_assoc]
    rw [State.rejectGroup_parts, State.rejectGroup_attn _ _ _ (by rw [ctrl]; exact hh), attn]
    dsimp only
    rw [flags, show (!(hit ++ [n]).isEmpty) = true by simp]
    generalize (t.rejectGroup n (bareError c)).groups = groups
    generalize (t.rejectGroup n (bareError c)).staging = staging
    generalize (t.rejectGroup n (bareError c)).outcomes = outcomes
    rw [h.parts]

theorem GroupsRejected.reject {s t : State} {hit : List Nat} {c : Cause} {n : Nat} (h : GroupsRejected s t hit c)
    (hh : s.ctrl.opState ≠ .held) (hn : n ∉ hit) (hl : n < s.groups.slots.length) (ho : s.tag (s.slot n).tag = .opened n) :
    GroupsRejected s (t.rejectGroup n (bareError c)) (hit ++ [n]) c := by
  have slot : t.slot n = s.slot n := (h.slots n).trans (if_neg hn)
  have distinct : ∀ m ∈ hit, (s.slot m).tag ≠ (s.slot n).tag := fun m hm e => by
    have both : TagState.opened m = .opened n := (h.opened m hm).symm.trans ((congrArg s.tag e).trans ho)
    exact hn (TagState.opened.inj both ▸ hm)
  have used : t.tag (t.slot n).tag ≠ .free := by
    rw [slot, h.tags _ distinct, ho]
    exact nofun
  refine ⟨h.toSlotsRejected.reject hh hn hl, fun m hm => ?_, fun m hm => ?_, fun g hg => ?_⟩
  · rcases List.mem_append.1 hm with hm | hm
    · exact h.opened m hm
    · rw [List.mem_singleton.1 hm, ho]
  · rw [State.rejectGroup_tag _ used, slot]
    rcases List.mem_append.1 hm with hm | hm
    · rw [if_neg (distinct m hm), h.fenced m hm]
    · rw [List.mem_singleton.1 hm, if_pos rfl]
  · rw [State.rejectGroup_tag _ used, slot, if_neg fun e => hg n (List.mem_append_right _ List.mem_cons_self) e.symm]
    exact h.tags g fun m hm => hg m (List.mem_append_left _ hm)

/-- An OPEN explicit group stands in a slot of the table. -/
theorem State.openExplicit_lt {s : State} {n : Nat} (h : (s.slot n).openExplicit = true) : n < s.groups.slots.length := by
  by_contra hn
  have free : s.slot n = {} := by simp [State.slot, List.getD, List.getElem?_eq_none (Nat.le_of_not_lt hn)]
  rw [free] at h
  exact absurd h (by decide)

/-- The slots below k whose groups are OPEN, explicit and not spared, in slot order. -/
def State.openSlots (s : State) (spared : Option Nat) (k : Nat) : List Nat :=
  (List.range k).filter fun n => (s.slot n).openExplicit && spared != some n

theorem State.openSlots_succ (s : State) (spared : Option Nat) (k : Nat) :
    s.openSlots spared (k + 1) =
      s.openSlots spared k ++ if ((s.slot k).openExplicit && spared != some k) = true then [k] else [] := by
  rw [State.openSlots, List.range_succ, List.filter_append, List.filter_singleton, Bool.cond_eq_ite]
  rfl

/-- The rejections up to slot k, where every rejection extends what holds of those before it. -/
theorem State.rejectOpen_induct {s : State} {P : State → List Nat → Prop} (c : Cause) (spared : Option Nat) (start : P s [])
    (slots : ∀ t hit n, P t hit → n ∉ hit → t.slot n = s.slot n)
    (next : ∀ t hit n, P t hit → n ∉ hit → (s.slot n).openExplicit = true → P (t.rejectGroup n (bareError c)) (hit ++ [n])) :
    P (s.rejectOpen c spared) (s.openSlots spared 8) := by
  have upTo (k : Nat) : P ((List.range k).foldl (fun t n => t.rejectIfOpen c spared n) s) (s.openSlots spared k) := by
    induction k with
    | zero => exact start
    | succ k ih =>
      have fresh : k ∉ s.openSlots spared k := by simp [State.openSlots]
      rw [List.range_succ, List.foldl_append, List.foldl_cons, List.foldl_nil, State.rejectIfOpen, slots _ _ _ ih fresh,
        State.openSlots_succ]
      by_cases ho : ((s.slot k).openExplicit && spared != some k) = true
      · rw [if_pos ho, if_pos ho]
        exact next _ _ _ ih fresh (Bool.and_eq_true_iff.1 ho).1
      · rw [if_neg ho, if_neg ho, List.append_nil]
        exact ih
  exact upTo 8

/-- Rejecting the OPEN explicit groups in slot order (02 R40). -/
theorem State.rejectOpen_slots {s : State} (c : Cause) (spared : Option Nat) (hh : s.ctrl.opState ≠ .held) :
    SlotsRejected s (s.rejectOpen c spared) (s.openSlots spared 8) c :=
  State.rejectOpen_induct (P := fun t hit => SlotsRejected s t hit c) c spared (.none s c)
    (fun _ _ n h hn => (h.slots n).trans (if_neg hn))
    (fun _ _ _ h hn ho => h.reject hh hn (State.openExplicit_lt ho))

/-- The same with their tags. -/
theorem State.rejectOpen_rejected {s : State} (c : Cause) (spared : Option Nat) (hh : s.ctrl.opState ≠ .held)
    (agree : ∀ n, (s.slot n).openExplicit = true → s.tag (s.slot n).tag = .opened n) :
    GroupsRejected s (s.rejectOpen c spared) (s.openSlots spared 8) c :=
  State.rejectOpen_induct (P := fun t hit => GroupsRejected s t hit c) c spared ⟨.none s c, nofun, nofun, fun _ _ => rfl⟩
    (fun _ _ n h hn => (h.slots n).trans (if_neg hn))
    (fun _ _ n h hn ho => h.reject hh hn (State.openExplicit_lt ho) (agree n ho))

end Sys2Proof.Machine
end

