-- ==== Sys2Proof/Proofs/ControlWords.lean ====
section
/-! PROOF. The Control word: its checks, its fields, the arm and the drain (spec/10 R153, R156, R157, spec/06 R98, R99). -/

namespace Sys2Proof.Machine

/-! ### The checks (10 R153, 06 R99) -/

theorem anyOverlap_iff {es : List RegionEntry} :
    anyOverlap es = true ↔ ∃ (i j : Nat) (a b : RegionEntry), i < j ∧ es[i]? = some a ∧ es[j]? = some b ∧ a.overlaps b = true := by
  induction es with
  | nil => simp [anyOverlap]
  | cons e es ih =>
    simp only [anyOverlap, Bool.or_eq_true, List.any_eq_true, ih]
    constructor
    · rintro (⟨x, hx, ho⟩ | ⟨i, j, a, b, hij, ha, hb, ho⟩)
      · obtain ⟨j, hj⟩ := List.getElem?_of_mem hx
        exact ⟨0, j + 1, e, x, Nat.succ_pos j, rfl, hj, ho⟩
      · exact ⟨i + 1, j + 1, a, b, Nat.succ_lt_succ hij, ha, hb, ho⟩
    · rintro ⟨i, j, a, b, hij, ha, hb, ho⟩
      obtain ⟨j, rfl⟩ : ∃ k, j = k + 1 := ⟨j - 1, by omega⟩
      cases i with
      | zero =>
        obtain rfl : e = a := Option.some.inj ha
        exact .inl ⟨b, List.mem_of_getElem? hb, ho⟩
      | succ i => exact .inr ⟨i, j, a, b, Nat.lt_of_succ_lt_succ hij, ha, hb, ho⟩

/-- Two valid entries overlap where some granule lies in both (06 R99). -/
theorem RegionEntry.overlaps_iff {a b : RegionEntry} :
    a.overlaps b = true ↔ a.valid = true ∧ b.valid = true ∧ ∃ g, a.base ≤ g ∧ g ≤ a.limit ∧ b.base ≤ g ∧ g ≤ b.limit := by
  simp only [RegionEntry.overlaps, Bool.and_eq_true, decide_eq_true_eq, and_assoc]
  refine and_congr_right fun _ => and_congr_right fun _ => ⟨fun h => ⟨max a.base b.base, ?_⟩, fun ⟨g, h⟩ => ?_⟩
  · omega
  · omega

theorem State.tableFault_range {s : State}
    (h : ∃ e ∈ s.region.entries, e.valid = true ∧ (e.limit < e.base ∨ s.straps.visibleGranules ≤ e.limit)) :
    s.tableFault = some .tableRange := by
  refine if_pos (List.any_eq_true.2 ?_)
  obtain ⟨e, he, hv, hr⟩ := h
  exact ⟨e, he, by simpa [RegionEntry.rangeFault, hv] using hr⟩

theorem State.tableFault_overlap {s : State}
    (hr : ¬ ∃ e ∈ s.region.entries, e.valid = true ∧ (e.limit < e.base ∨ s.straps.visibleGranules ≤ e.limit))
    (ho : ∃ (i j : Nat) (a b : RegionEntry), i < j ∧ s.region.entries[i]? = some a ∧ s.region.entries[j]? = some b ∧
      a.valid = true ∧ b.valid = true ∧ ∃ g, a.base ≤ g ∧ g ≤ a.limit ∧ b.base ≤ g ∧ g ≤ b.limit) :
    s.tableFault = some .tableOverlap := by
  refine (if_neg fun h => hr ?_).trans (if_pos (anyOverlap_iff.2 ?_))
  · obtain ⟨e, he, hf⟩ := List.any_eq_true.1 h
    exact ⟨e, he, by simpa [RegionEntry.rangeFault] using hf⟩
  · obtain ⟨i, j, a, b, hij, ha, hb, ho⟩ := ho
    exact ⟨i, j, a, b, hij, ha, hb, RegionEntry.overlaps_iff.2 ho⟩

theorem controlFault_taken {s : State} {w : Word} (h : controlTaken s w) : s.controlFault w = none := by
  obtain ⟨both, mode, arm, drain, table⟩ := h
  unfold State.controlFault
  dsimp only
  rw [if_neg (by simpa using both), if_neg (by simpa using mode), if_neg (by simpa using ⟨arm, drain⟩)]
  split
  next ha => exact table ha
  next => rfl

theorem State.applyControl_taken {s : State} {w : Word} (h : controlTaken s w) :
    s.applyControl w =
      if controlArmBit w then (s.writeControl w).arm else if controlDrainBit w then (s.writeControl w).drain else s.writeControl w := by
  unfold State.applyControl
  rw [controlFault_taken h]

theorem State.applyControl_refused {s : State} {w : Word} {c : ConfigCode} (h : s.controlFault w = some c) :
    s.applyControl w = s.refuseWord c := by
  unfold State.applyControl
  rw [h]

/-- Settles O35: the first check that fails gives the code, and the word changes nothing else. -/
theorem controlRefused : Obligations.ControlRefused := by
  intro s w c cap jrn h both locked wrong range overlap hc i hi
  have fault : s.controlFault w = some c := by
    have bothIff : (controlArmBit w && controlDrainBit w) = true ↔ both := Bool.and_eq_true _ _ ▸ Iff.rfl
    have lockedIff : ((s.ctrl.opState == .armed || s.ctrl.opState == .draining) && controlMode w != s.ctrl.defaultMode) = true ↔
        locked := by simp [locked]
    have wrongIff : ((controlArmBit w && s.ctrl.opState != .unconfigured) || (controlDrainBit w && s.ctrl.opState != .armed)) = true ↔
        wrong := by simp [wrong]
    unfold State.controlFault
    dsimp only
    simp only [bothIff, lockedIff, wrongIff]
    rcases hc with ⟨hb, rfl⟩ | ⟨hb, hl, rfl⟩ | ⟨hb, hl, hw, rfl⟩ | ⟨hb, hl, hw, ha, hc⟩
    · rw [if_pos hb]
    · rw [if_neg hb, if_pos hl]
    · rw [if_neg hb, if_neg hl, if_pos hw]
    · rw [if_neg hb, if_neg hl, if_neg hw, if_pos ha]
      rcases hc with ⟨hr, rfl⟩ | ⟨hr, ho, rfl⟩
      · exact State.tableFault_range hr
      · exact State.tableFault_overlap hr ho
  obtain ⟨t, written, step, noted⟩ := attrWrite_refused (o := 0x40) h (by decide)
    (State.applyControl_refused (s := s.oneWord 0x40 w) fault)
  obtain ⟨-, -, due, -⟩ := h
  refine ⟨t, ?_, step, noted⟩
  have same : t.ctrl.holdDue = none := by
    rw [step]
    exact due
  simp only [List.mem_cons, List.not_mem_nil, or_false] at hi
  rcases hi with rfl | rfl | rfl | rfl | rfl | rfl
  · exact congrArg Host.Outcome.next written
  · exact congrArg Host.Outcome.next written
  · exact congrArg Host.Outcome.next written
  · exact congrArg Host.Outcome.next written
  · refine congrArg Host.Outcome.next ((if_neg (by rw [due]; exact nofun)).trans ?_)
    rw [written]
    exact if_neg (by rw [same]; exact nofun)
  · refine congrArg Host.Outcome.next ((if_neg (by rw [due]; exact nofun)).trans ?_)
    rw [written]
    exact if_neg (by rw [same]; exact nofun)

/-! ### The fields (10 R153, 07 R123) -/

/-- State Control as a taken word leaves it before its receipt: outside HELD all its fields, in HELD the field HOLD alone. -/
def Ctrl.fields (c : Ctrl) (w : Word) : Ctrl :=
  { c with
    hold := controlHoldBit w, holdWritten := some (controlHoldBit w), defaultMode := controlMode w, attnOn := controlAttnOn w
    attnMode := controlAttnMode w }

theorem State.writeControl_free {s : State} (w : Word) (h : s.ctrl.opState ≠ .held) :
    s.writeControl w = s.setCtrl (s.ctrl.fields w) := if_neg h

theorem State.writeControl_held {s : State} (w : Word) (h : s.ctrl.opState = .held) :
    s.writeControl w = s.setCtrl { s.ctrl with hold := controlHoldBit w, holdWritten := some (controlHoldBit w) } := if_pos h

/-- The receipt makes a written hold due (07 R123). -/
theorem Ctrl.fields_fallDue {c : Ctrl} (w : Word) {op : OpState} (hw : c.holdWritten = none) (hop : op ≠ .held) :
    ({ c.fields w with opState := op } : Ctrl).fallDue = { controlWritten c w with opState := op } := by
  unfold Ctrl.fallDue controlWritten Ctrl.fields
  cases controlHoldBit w <;> simp [hw, hop]

/-- A Control word taken in HELD writes the field HOLD alone, and with HOLD 0 a release falls due. -/
theorem attrWrite_control_held {s : State} {w : Word} (h : ready s) (held : s.ctrl.opState = .held) (taken : controlTaken s w) :
    s.attrWrite 0x40 w = { s with
      ctrl := { s.ctrl with hold := controlHoldBit w, holdDue := if controlHoldBit w then none else some .release }
      out := afterOneWord s .good } := by
  obtain ⟨-, link, due, calm⟩ := id h
  obtain ⟨-, -, arm, drain, -⟩ := id taken
  rw [held] at arm drain
  have applied : (s.oneWord 0x40 w).applyRaw 0x40 w = (s.oneWord 0x40 w).writeControl w :=
    (State.applyControl_taken (s := s.oneWord 0x40 w) taken).trans
      ((if_neg fun ha => nomatch arm ha).trans (if_neg fun hd => nomatch drain hd))
  have written := attrWrite_unwatched (refused := false)
    (x := s.setCtrl { s.ctrl with hold := controlHoldBit w, holdWritten := some (controlHoldBit w) }) h (by decide)
    (applied.trans (State.writeControl_held (s := s.oneWord 0x40 w) w held)) rfl
  rw [written, ← link]
  refine congrArg (fun c => ({ s with ctrl := c, out := afterOneWord s .good } : State)) ?_
  unfold Ctrl.fallDue
  cases controlHoldBit w <;> simp [held, calm.1]

/-- Settles O34: outside HELD the fields are written and a hold falls due; in HELD the field HOLD alone, and a release falls due. -/
theorem controlSettings : Obligations.ControlSettings := by
  intro s w h taken arm drain i hi
  obtain ⟨-, link, due, calm⟩ := id h
  have sent : exec i s = .next (s.attrWrite 0x40 w) := by
    simp only [List.mem_cons, List.not_mem_nil, or_false] at hi
    rcases hi with rfl | rfl <;> rfl
  have applied : (s.oneWord 0x40 w).applyRaw 0x40 w = (s.oneWord 0x40 w).writeControl w :=
    (State.applyControl_taken (s := s.oneWord 0x40 w) taken).trans (by simp [arm, drain])
  refine ⟨fun free => ?_, fun held => sent.trans (congrArg Host.Outcome.next (attrWrite_control_held h held taken))⟩
  obtain ⟨t, written, step, noted⟩ := attrWrite_noted (x := s.setCtrl (s.ctrl.fields w)) (refused := false) (events := 0) h (by decide)
    (applied.trans (State.writeControl_free (s := s.oneWord 0x40 w) w free)) (by simp) rfl
  have fallen := Ctrl.fields_fallDue (c := s.ctrl) w calm.1 free
  refine ⟨t, sent.trans (congrArg Host.Outcome.next written), step.trans ?_, noted⟩
  rw [← link]
  exact congrArg (fun c => ({ s with ctrl := c, out := afterOneWord s .good, attn := t.attn } : State)) fallen

/-! ### The arm and the drain (10 R156, R157) -/

/-- Settles O30: the arm is the fields, the latched Default Mode and the state. -/
theorem armTaken : Obligations.ArmTaken := by
  intro s w h taken arm
  obtain ⟨-, link, due, calm⟩ := id h
  have state : s.ctrl.opState = .unconfigured := taken.2.2.1 arm
  have free : s.ctrl.opState ≠ .held := by rw [state]; exact nofun
  have applied : (s.oneWord 0x40 w).applyRaw 0x40 w = ((s.oneWord 0x40 w).writeControl w).arm :=
    (State.applyControl_taken (s := s.oneWord 0x40 w) taken).trans (by simp [arm])
  rw [State.writeControl_free (s := s.oneWord 0x40 w) w free] at applied
  obtain ⟨t, written, step, noted⟩ := attrWrite_noted (refused := false) (events := 0)
    (x := { s with ctrl := { s.ctrl.fields w with opState := .armed }, region := { s.region with latched := controlMode w } })
    h (by decide) (applied.trans rfl) (by simp) rfl
  refine ⟨t, congrArg Host.Outcome.next written, step.trans ?_, noted⟩
  rw [← link]
  dsimp only
  rw [Ctrl.fields_fallDue (op := .armed) w calm.1 (by exact nofun)]
  rfl

/-- The state in which the groups of a drain are rejected. -/
def State.draining (s : State) (w : Word) : State :=
  { s.oneWord 0x40 w with ctrl := { s.ctrl.fields w with opState := .draining } }

/-- Settles O31: every OPEN explicit group is rejected with cause DRAINED. -/
theorem drainTaken : Obligations.DrainTaken := by
  intro s w h tables taken drain agree e hit
  obtain ⟨-, link, due, calm⟩ := id h
  have state : s.ctrl.opState = .armed := taken.2.2.2.1 drain
  have free : s.ctrl.opState ≠ .held := by rw [state]; exact nofun
  have arm : controlArmBit w = false := by
    rw [Bool.eq_false_iff]
    exact fun ha => taken.1 ⟨ha, drain⟩
  have applied : (s.oneWord 0x40 w).applyRaw 0x40 w = ((s.oneWord 0x40 w).writeControl w).drain :=
    (State.applyControl_taken (s := s.oneWord 0x40 w) taken).trans (by simp [arm, drain])
  rw [State.writeControl_free (s := s.oneWord 0x40 w) w free] at applied
  have rejected := State.rejectOpen_rejected (s := s.draining w) .drained none (by exact nofun) agree
  have hits : (s.draining w).openSlots none 8 = hit := List.filter_congr fun n _ => Bool.and_true _
  change _ = (s.draining w).rejectOpen .drained none at applied
  rw [hits] at rejected
  generalize (s.draining w).rejectOpen .drained none = b at *
  obtain ⟨t, written, step, noted⟩ := attrWrite_noted (refused := false) (events := flagAt 12 (!hit.isEmpty))
    (x := { s with
      ctrl := { s.ctrl.fields w with opState := .draining }, staging := b.staging, groups := b.groups, outcomes := b.outcomes
      attn := { s.attn with flags := s.attn.flags ||| flagAt 12 (!hit.isEmpty) } })
    h (by decide) (applied.trans (rejected.parts.trans rfl)) rfl rfl
  dsimp only at step
  rw [Ctrl.fields_fallDue (op := .draining) w calm.1 (by exact nofun), rejected.outcomes, ← link] at step
  have groups : t.groups = b.groups := by rw [step]
  have staging : t.staging = b.staging := by rw [step]
  have member : ∀ n, n ∈ hit ↔ (s.slot n).openExplicit = true := fun n =>
    List.mem_filter.trans (and_iff_right_of_imp fun ho => List.mem_range.2 ((State.openExplicit_lt ho).trans_eq tables.2.1))
  have record (r : Nat) : t.record r = b.record r := congrArg (fun g : Staging => g.records.getD r {}) staging
  refine ⟨t, congrArg Host.Outcome.next written, step.trans ?_, fun n => ?_, fun n hn => ⟨?_, fun r hr => ?_⟩, fun r hr => ?_, ?_, noted⟩
  · rw [groups, staging]
    rfl
  · rw [State.slot_congr (congrArg Groups.slots groups), rejected.slots]
    simp only [member]
    rfl
  · exact (State.tag_congr (congrArg Groups.tags groups) _).trans (rejected.fenced n hn)
  · refine (record r).trans ((rejected.records r).trans (if_pos ?_))
    exact List.any_eq_true.2 ⟨n, hn, List.contains_iff_mem.2 hr⟩
  · refine (record r).trans ((rejected.records r).trans (if_neg fun hm => ?_))
    obtain ⟨n, hn, hc⟩ := List.any_eq_true.1 hm
    exact hr n hn (List.contains_iff_mem.1 hc)
  · rw [staging]
    exact rejected.ram

end Sys2Proof.Machine
end

