-- ==== Sys2Proof/Proofs/Releases.lean ====
section
/-! PROOF. Hard reset, hold and release, and what precedes a header word 0 (spec/10 R151 to R153, spec/07 R110, R112, R123). -/

namespace Sys2Proof.Machine

/-! ### Reset and hold (10 R152) -/

theorem State.takeHold_due {s : State} (h : s.ctrl.holdDue = some .hold) : s.takeHold = resetValues s .held true := if_pos h

theorem State.takeHold_none {s : State} (h : s.ctrl.holdDue ≠ some .hold) : s.takeHold = s := if_neg h

/-- What a reset keeps: the commands that wait, the pins, the straps, what the data store holds and the outstanding requests. -/
def State.lasting (s : State) : List Instr × Pins × Straps × List (Nat × Word) × List Outstanding :=
  (s.pending, s.pins, s.straps, s.staging.ram, s.port.outstanding)

theorem State.resetBlocks_congr {s t : State} (c : Ctrl) (h : t.lasting = s.lasting) :
    t.resetBlocks c = { s.resetBlocks c with out := t.out } := by
  simp only [State.lasting, Prod.mk.injEq] at h
  obtain ⟨pending, pins, straps, ram, outstanding⟩ := h
  simp only [State.resetBlocks, pending, pins, straps, ram, outstanding]

/-- Rejecting groups keeps all that a reset keeps, State Control, the link and the ports. -/
theorem State.rejectOpen_frame (s : State) (c : Cause) (spared : Option Nat) :
    ((s.rejectOpen c spared).lasting, (s.rejectOpen c spared).ctrl, (s.rejectOpen c spared).link, (s.rejectOpen c spared).out) =
      (s.lasting, s.ctrl, s.link, s.out) := by
  have one (t : State) (n : Nat) :
      ((t.rejectIfOpen c spared n).lasting, (t.rejectIfOpen c spared n).ctrl, (t.rejectIfOpen c spared n).link,
        (t.rejectIfOpen c spared n).out) = (t.lasting, t.ctrl, t.link, t.out) := by
    unfold State.rejectIfOpen
    split
    · rw [State.lasting, State.rejectGroup_ram, State.rejectGroup_parts]
      rfl
    · rfl
  unfold State.rejectOpen
  induction List.range Config.slots generalizing s with
  | nil => rfl
  | cons n ns ih => exact (ih _).trans (one s n)

/-- A taken Control word outside HELD, whatever it asks for: its fields are written, the state is not HELD behind it, and what a reset
keeps stays. -/
theorem State.applyControl_frame {s : State} {w : Word} (free : s.ctrl.opState ≠ .held) (taken : controlTaken s w) :
    ∃ op, op ≠ .held ∧ (s.applyControl w).ctrl = { s.ctrl.fields w with opState := op } ∧
      (s.applyControl w).lasting = s.lasting ∧ (s.applyControl w).link = s.link ∧ (s.applyControl w).out = s.out := by
  rw [State.applyControl_taken taken, State.writeControl_free w free]
  split_ifs
  · exact ⟨.armed, nofun, rfl, rfl, rfl, rfl⟩
  · have frame := State.rejectOpen_frame { s with ctrl := { s.ctrl.fields w with opState := .draining } } .drained none
    simp only [Prod.mk.injEq] at frame
    obtain ⟨lasting, ctrl, link, out⟩ := frame
    exact ⟨.draining, nofun, ctrl, lasting, link, out⟩
  · exact ⟨s.ctrl.opState, free, rfl, rfl, rfl, rfl⟩

/-- A Control word with HOLD 1 that is taken outside HELD: a hold is due behind its burst, whatever else the word asks for. -/
theorem attrWrite_hold_due {s : State} {w : Word} (h : ready s) (free : s.ctrl.opState ≠ .held) (taken : controlTaken s w)
    (hold : controlHoldBit w = true) :
    (s.attrWrite 0x40 w).ctrl.holdDue = some .hold ∧ (s.attrWrite 0x40 w).lasting = s.lasting ∧
      (s.attrWrite 0x40 w).out = afterOneWord s .good := by
  obtain ⟨op, hop, ctrl, lasting, link, out⟩ := State.applyControl_frame (s := s.oneWord 0x40 w) free taken
  have same : (s.oneWord 0x40 w).applyControl w = { (s.oneWord 0x40 w).applyControl w with
      link := { s.oneWordLink 0x40 w with attrRefused := false }, out := { s.out with answer := some .accept } } := by
    show _ = { (s.oneWord 0x40 w).applyControl w with link := (s.oneWord 0x40 w).link, out := (s.oneWord 0x40 w).out }
    rw [← link, ← out]
  have written := attrWrite_eq (o := 0x40) (w := w) h (by decide) same
  rw [ctrl, show (s.oneWord 0x40 w).ctrl = s.ctrl from rfl, Ctrl.fields_fallDue w h.2.2.2.1 hop] at written
  rw [written]
  exact ⟨if_pos hold, lasting, rfl⟩

/-- Settles O32: a reset and a hold give every block its reset value; the burst of a HOLD word that is sent first leaves a hold due. -/
theorem holdAndReset : Obligations.HoldAndReset := by
  intro s
  refine ⟨rfl, fun w due => ?_, fun w h free taken hold => ?_, fun w h held taken hold => ?_, fun o rest c hport hdiscard => ?_⟩
  · exact congrArg Host.Outcome.next ((if_pos due).trans (State.takeHold_due due))
  · obtain ⟨due, lasting, out⟩ := attrWrite_hold_due h free taken hold
    refine congrArg Host.Outcome.next ((if_neg (by rw [h.2.2.1]; exact nofun)).trans ((State.takeHold_due due).trans ?_))
    exact (State.resetBlocks_congr _ lasting).trans (by rw [out]; rfl)
  · refine congrArg Host.Outcome.next ((if_neg (by rw [h.2.2.1]; exact nofun)).trans ?_)
    rw [attrWrite_control_held h held taken, hold, State.takeHold_none (by exact nofun)]
    simp [h.2.2.1]
  · show execDiscardedCompletion c s = _
    unfold execDiscardedCompletion
    rw [hport]
    exact if_pos hdiscard

/-! ### Release (10 R151) -/

theorem State.release_eq (s : State) (cap jrn : BitVec 2) :
    s.release cap jrn = if s.pins.pwarn then releasedHalted s cap jrn else released s cap jrn := rfl

theorem State.takeRelease_due {s : State} (cap jrn : BitVec 2) (h : s.ctrl.holdDue = some .release) :
    s.takeRelease cap jrn = if s.pins.pwarn then releasedHalted s cap jrn else released s cap jrn := if_pos h

theorem State.takeRelease_none {s : State} (cap jrn : BitVec 2) (h : s.ctrl.holdDue ≠ some .release) : s.takeRelease cap jrn = s :=
  if_neg h

/-- A burst that writes HOLD 0 in HELD, and the release behind it. -/
theorem exec_holdRelease_sent {s : State} {w : Word} (cap jrn : BitVec 2) (h : ready s) (held : s.ctrl.opState = .held)
    (taken : controlTaken s w) (hold : controlHoldBit w = false) :
    exec (.holdRelease w cap jrn) s = .next (if s.pins.pwarn then { releasedHalted s cap jrn with out := afterOneWord s .good }
      else { released s cap jrn with out := afterOneWord s .good }) := by
  have sent := attrWrite_control_held h held taken
  rw [hold] at sent
  refine congrArg Host.Outcome.next ((if_neg (by rw [h.2.2.1]; exact nofun)).trans ?_)
  rw [sent]
  exact State.takeRelease_due cap jrn rfl

/-- Settles O33: the straps are sampled, and recovery begins or, with PWARN asserted, the bridge is HALTED. -/
theorem releasedBridge : Obligations.Released := by
  intro s cap jrn high sent
  have row (hr : s.pins.resetN = false) :
      exec (.resetRelease cap jrn) s = .next (if s.pins.pwarn then releasedHalted high cap jrn else released high cap jrn) :=
    congrArg Host.Outcome.next ((if_neg (by rw [hr]; exact nofun)).trans (State.release_eq high cap jrn))
  have hold (w : Word) (due : s.ctrl.holdDue = some .release) :
      exec (.holdRelease w cap jrn) s = .next (if s.pins.pwarn then releasedHalted s cap jrn else released s cap jrn) :=
    congrArg Host.Outcome.next ((if_pos due).trans (State.takeRelease_due cap jrn due))
  refine ⟨fun hr => congrArg Host.Outcome.next (if_pos hr), fun hp => ⟨fun hr => ?_, fun w due => ?_, fun w ⟨h, held, taken, h0⟩ => ?_⟩,
    fun hp => ⟨fun hr => ?_, fun w due => ?_, fun w ⟨h, held, taken, h0⟩ => ?_⟩⟩
  · rw [row hr, hp, if_neg nofun]
  · rw [hold w due, hp, if_neg nofun]
  · rw [exec_holdRelease_sent cap jrn h held taken h0, hp, if_neg nofun]
  · rw [row hr, hp, if_pos rfl]
  · rw [hold w due, hp, if_pos rfl]
  · rw [exec_holdRelease_sent cap jrn h held taken h0, hp, if_pos rfl]

/-! ### Header word 0 (07 R110, R112) -/

theorem checkOf_singleton (w : Word) : checkOf [w] = checkWord checkPreset w := by
  rw [checkOf, checkFeed, List.foldl_cons, List.foldl_nil]

/-- The state x with header word 0 taken. -/
def State.headed (x : State) (w : Word) : State :=
  { x with link := { st := .opening, hdr0 := some w, check := checkOf [w], stall := some x.ctrl.stallLimit } }

theorem exec_headerWord0_idle {s x : State} (w : Word) (hst : s.link.st = .idle) (hr : s.pins.resetN = true) (hx : s.settleDue = x) :
    exec (.headerWord0 w) s = .next (x.headed w) := by
  subst hx
  rw [State.headed, checkOf_singleton]
  exact congrArg Host.Outcome.next (if_pos ⟨hr, hst⟩)

/-- An IDLE link takes nothing but header word 0. -/
theorem exec_link_idle {s : State} {i : Instr} (w : Word) (hl : s.link = {}) (ha : s.attnOk)
    (hi : i ∈ [Instr.opening w, .withheldAnswer, .writeDataWord w, .restoreReady, .readDataWord, .masterPause, .masterStop,
      .masterAcknowledge, .checkWord w, .checkReply w, .stallTimerExpiry, .handshakeTimerExpiry]) : exec i s = .next s := by
  have idle : s.link.st = .idle := by rw [hl]
  have noStop : s.requestDue = s := by simp [State.requestDue, idle]
  have noStep {f : State → State} (h : f s = s) : observe f s = s := observe_unwatched ha h rfl
  simp only [List.mem_cons, List.not_mem_nil, or_false] at hi
  rcases hi with rfl | rfl | rfl | rfl | rfl | rfl | rfl | rfl | rfl | rfl | rfl | rfl
  case inl => exact congrArg Host.Outcome.next (noStep (by simp [State.takeOpening, idle]))
  all_goals refine congrArg Host.Outcome.next ?_
  · simp [State.answerWithheld, idle]
  · simp [State.strobe, idle]
  · simp [State.restoreReady, hl]
  · simp [State.readWordOut, idle]
  · simp [noStop, State.masterPause, idle]
  · simp [State.masterStop, State.acknowledge, idle]
  · simp [noStop, State.acknowledge, idle]
  · simp [State.takeCheck, Link.awaitsCheck, idle]
  · simp [State.takeReply, Link.awaitsCheck, idle]
  · simp [State.stallExpired, hl]
  · simp [noStop, State.handshakeExpired, hl]

/-- Settles O4: what is due takes effect before the word, and an IDLE link takes nothing else. -/
theorem idleTakesHeaderWordZero : Obligations.IdleTakesHeaderWordZero := by
  intro w s opened
  refine ⟨fun hst hr => ⟨fun due => ?_, fun due => ?_, fun due => ?_⟩, fun hst => ?_, fun hl ha i hi => exec_link_idle w hl ha hi⟩
  · exact exec_headerWord0_idle w hst hr (State.settleDue_none s due)
  · refine exec_headerWord0_idle w hst hr ?_
    unfold State.settleDue
    rw [State.takeHold_due due]
    exact State.takeRelease_none _ _ nofun
  · refine exec_headerWord0_idle w hst hr ?_
    unfold State.settleDue
    rw [State.takeHold_none (by rw [due]; exact nofun), State.takeRelease_due _ _ due]
  · exact congrArg Host.Outcome.next (if_neg fun h => hst h.2)

end Sys2Proof.Machine
end

