-- ==== Sys2Proof/Proofs/AttributeReads.lean ====
section
/-! PROOF. The receipt word and the word that each offset returns to a read (spec/12 R173, R174, R176 and the tables of 12.1 to 12.4). -/

namespace Sys2Proof.Machine

/-! ### Fields of a word -/

theorem place_zero (n : Nat) : place n 0 = num n := by simp [place, num]

/-- A field placed above a number is added to it. -/
theorem num_or_place {n lo : Nat} (a : Nat) (h : n < 2 ^ lo) : num n ||| place a lo = num (n + 2 ^ lo * a) := by
  apply BitVec.eq_of_toNat_eq
  have shifted : (a % 2 ^ 32) <<< lo % 2 ^ 32 = (2 ^ lo * a) % 2 ^ 32 := by
    rw [Nat.shiftLeft_eq, Nat.mod_mul_mod, Nat.mul_comm]
  rw [num, place, num, BitVec.toNat_or, BitVec.toNat_shiftLeft, BitVec.toNat_ofNat, BitVec.toNat_ofNat, BitVec.toNat_ofNat, shifted,
    ← Nat.or_mod_two_pow, Nat.or_comm, Nat.add_comm, Nat.two_pow_add_eq_or_of_lt h]

theorem ofBool_eq (b : Bool) : ofBool b = bit b := rfl

theorem bit_lt (b : Bool) : bit b < 2 := by cases b <;> decide

theorem Verdict.code_eq (v : Verdict) : v.code = verdictNo v := by cases v <;> rfl

theorem verdictNo_lt (v : Verdict) : verdictNo v < 256 := by cases v <;> decide

theorem Cause.code_eq (c : Cause) : c.code = causeNo c := by
  cases c with
  | verdict v => exact v.code_eq
  | idleExpiry | drained => rfl

theorem causeNo_lt (c : Cause) : causeNo c < 256 := by
  cases c with
  | verdict v => exact verdictNo_lt v
  | idleExpiry | drained => decide

theorem Mode.code_eq (m : Mode) : m.code = modeNo m := by cases m <;> rfl

theorem modeNo_lt (m : Mode) : modeNo m < 4 := by cases m <;> decide

theorem OpState.code_eq (x : OpState) : x.code = stateNo x := by cases x <;> rfl

theorem stateNo_lt (x : OpState) : stateNo x < 256 := by cases x <;> decide

theorem ConfigCode.code_eq (c : ConfigCode) : c.code = refusalNo c := by cases c <;> rfl

theorem OutcomeVerdict.code_eq (v : OutcomeVerdict) : v.code = outcomeNo v := by cases v <;> rfl

theorem outcomeNo_lt (v : OutcomeVerdict) : outcomeNo v < 16 := by cases v <;> decide

theorem RecStatus.code_eq (x : RecStatus) : x.code = statusNo x := by cases x <;> rfl

theorem EndReason.code_eq (x : EndReason) : x.code = reasonNo x := by cases x <;> rfl

theorem Requester.code_eq (x : Requester) : x.code = requesterNo x := by cases x <;> rfl

theorem requesterNo_lt (x : Requester) : requesterNo x < 16 := by cases x <;> decide

theorem ReqKind.code_eq (x : ReqKind) : x.code = bit (x == .read) := by cases x <;> rfl

theorem receiptWord_num (v : Verdict) {tag : Nat} (count : Nat) (close : Bool) (ht : tag < 16) :
    receiptWord v tag close count = num (verdictNo v + 2 ^ 8 * tag + 2 ^ 12 * bit close + 2 ^ 16 * count) := by
  have hv := verdictNo_lt v
  have hb := bit_lt close
  rw [receiptWord, v.code_eq, place_zero, ofBool_eq, num_or_place _ (by omega), num_or_place _ (by omega), num_or_place _ (by omega)]

/-! ### The capability chain (12.1) -/

theorem Straps.downWords_eq (p : Straps) : p.downWords = 134217728 * 2 ^ p.cap.toNat := by
  have lt := p.cap.isLt
  unfold Straps.downWords
  obtain h | h | h | h : p.cap.toNat = 0 ∨ p.cap.toNat = 1 ∨ p.cap.toNat = 2 ∨ p.cap.toNat = 3 := by omega
  all_goals
    rw [h]
    rfl

theorem Straps.journalWords_eq (p : Straps) : p.journalWords = 1048576 * 2 ^ p.jrn.toNat := by
  have lt := p.jrn.isLt
  unfold Straps.journalWords
  obtain h | h | h | h : p.jrn.toNat = 0 ∨ p.jrn.toNat = 1 ∨ p.jrn.toNat = 2 ∨ p.jrn.toNat = 3 := by omega
  all_goals
    rw [h]
    rfl

theorem Straps.visible_eq (p : Straps) : p.visible = 134217728 * 2 ^ p.cap.toNat - 1048576 * 2 ^ p.jrn.toNat := by
  rw [Straps.visible, p.downWords_eq, p.journalWords_eq]

theorem Straps.visibleGranules_eq (p : Straps) : p.visibleGranules = 8192 * 2 ^ p.cap.toNat - 64 * 2 ^ p.jrn.toNat := by
  rw [Straps.visibleGranules, p.visible_eq, Config.granuleWords]
  omega

theorem Straps.journalBlocks_eq (p : Straps) : p.journalBlocks = 16384 * 2 ^ p.jrn.toNat := by
  rw [Straps.journalBlocks, p.journalWords_eq, Config.chunkWords]
  omega

theorem capabilityChain_words (p : Straps) :
    (List.range 64).map (fun i => (capabilityChain p).getD i 0) =
      [0x401, 0xC7, 0x416, 1, 0x502, num (134217728 * 2 ^ p.cap.toNat), num (16384 * 2 ^ p.jrn.toNat),
        num (134217728 * 2 ^ p.cap.toNat - 1048576 * 2 ^ p.jrn.toNat), num (8192 * 2 ^ p.cap.toNat - 64 * 2 ^ p.jrn.toNat), 0x903, 16384,
        32, 8, 15, 28, 16, 8, 16384, 0x304, 0x1EDC6F41, 0xFFFFFFFF, 0x1FF] ++ List.replicate 42 0 := by
  rw [← p.downWords_eq, ← p.journalBlocks_eq, ← p.journalWords_eq, ← p.visibleGranules_eq, ← Straps.visible]
  rfl

/-! ### The words of each block (12.2, 12.3) -/

theorem Ctrl.word_num (c : Ctrl) :
    c.word = num (bit c.hold + 16 * modeNo c.defaultMode + 256 * bit c.attnOn + 512 * bit (c.attnMode == .pulse)) := by
  have hh := bit_lt c.hold
  have hm := modeNo_lt c.defaultMode
  have ho := bit_lt c.attnOn
  rw [Ctrl.word, ofBool_eq, ofBool_eq, ofBool_eq, Mode.code_eq, place_zero, num_or_place _ (by omega), num_or_place _ (by omega),
    num_or_place _ (by omega)]
  rfl

theorem flagAt_getLsbD (p i : Nat) (b : Bool) (hp : p < 16) : (flagAt p b).getLsbD i = (decide (i = p) && b) := by
  cases b with
  | false => simp
  | true =>
    rw [flagAt, if_pos rfl, BitVec.getLsbD_shiftLeft]
    by_cases h : i = p
    · subst h
      simp [hp]
    · by_cases hi : i < p
      · simp [h, hi]
      · have : i - p ≠ 0 := by omega
        simp [h, this]

/-- The live conditions, by their positions (09 R143). -/
theorem State.live_getLsbD (s : State) (i : Nat) :
    s.live.getLsbD i =
      (s.pins.resetN && s.ctrl.opState != .held &&
        [s.ctrl.opState == .armed, s.ctrl.opState == .unconfigured, s.ctrl.opState == .faulted, s.ctrl.opState == .halted,
          !s.outcomes.queue.isEmpty, decide (3 * s.straps.ringBlocks ≤ 4 * s.journal.live), s.pins.pwarn].getD i false) := by
  unfold State.live
  by_cases h : (!s.pins.resetN || s.ctrl.opState == .held) = true
  · rw [if_pos h]
    have off : (s.pins.resetN && s.ctrl.opState != .held) = false := by
      rcases Bool.or_eq_true_iff.1 h with h | h
      · simp [(Bool.not_eq_true' _).mp h]
      · simp [bne, h]
    simp [off]
  · rw [if_neg h]
    have on : (s.pins.resetN && s.ctrl.opState != .held) = true := by
      simpa [not_or] using h
    rw [on, Bool.true_and]
    simp only [BitVec.getLsbD_or]
    rw [flagAt_getLsbD _ _ _ (by decide), flagAt_getLsbD _ _ _ (by decide), flagAt_getLsbD _ _ _ (by decide),
      flagAt_getLsbD _ _ _ (by decide), flagAt_getLsbD _ _ _ (by decide), flagAt_getLsbD _ _ _ (by decide),
      flagAt_getLsbD _ _ _ (by decide), State.journalPressure]
    match i with
    | 0 | 1 | 2 | 3 | 4 | 5 | 6 => simp
    | n + 7 => simp

theorem OutcomeRecord.word_zero {x : OutcomeRecord} (ht : x.outcome.tag < 16) :
    x.word 0 =
      num (x.number.toNat + 2 ^ 16 * outcomeNo x.outcome.verdict + 2 ^ 20 * x.outcome.tag + 2 ^ 24 * bit x.outcome.seq.isSome +
        2 ^ 25 * bit x.outcome.firstError.isSome + 2 ^ 26 * bit (x.outcome.firstError.bind FirstError.ordinal).isSome +
        2 ^ 27 * bit (x.outcome.firstError.bind FirstError.start).isSome) := by
  have hn := x.number.isLt
  have hv := outcomeNo_lt x.outcome.verdict
  have hs := bit_lt x.outcome.seq.isSome
  have he := bit_lt x.outcome.firstError.isSome
  have ho := bit_lt (x.outcome.firstError.bind FirstError.ordinal).isSome
  show place _ 0 ||| place _ 16 ||| place _ 20 ||| place _ 24 ||| place _ 25 ||| place _ 26 ||| place _ 27 = _
  rw [OutcomeVerdict.code_eq, ofBool_eq, ofBool_eq, ofBool_eq, ofBool_eq, place_zero, num_or_place _ (by omega),
    num_or_place _ (by omega), num_or_place _ (by omega), num_or_place _ (by omega), num_or_place _ (by omega),
    num_or_place _ (by omega)]

theorem OutcomeRecord.word_four (x : OutcomeRecord) :
    x.word 4 = x.outcome.firstError.elim 0 (fun e =>
      num (causeNo e.cause + 256 * (x.outcome.firstError.bind FirstError.ordinal).getD 0)) := by
  cases h : x.outcome.firstError with
  | none => simp only [OutcomeRecord.word, h, Option.elim]
  | some e =>
    have hc := causeNo_lt e.cause
    simp only [OutcomeRecord.word, h, Option.elim]
    rw [Cause.code_eq, place_zero, num_or_place _ (by omega)]
    rfl

theorem State.journalWord_seven (s : State) :
    s.journalWord 7 = num (s.journal.copy.val + 2 * bit s.journal.inFlight.isSome + 4 * bit s.journal.due) := by
  have hc := s.journal.copy.isLt
  have hi := bit_lt s.journal.inFlight.isSome
  show place _ 0 ||| place _ 1 ||| place _ 2 = _
  rw [ofBool_eq, ofBool_eq, place_zero, num_or_place _ (by omega), num_or_place _ (by omega)]
  rfl

theorem Ctrl.faultWord_zero {c : Ctrl} {f : FaultRecord} (h : c.fault = some f) :
    c.faultWord 0 = num (1 + 2 ^ 8 * stateNo f.stateAt + 2 ^ 16 * requesterNo f.requester + 2 ^ 20 * bit (f.kind == .read)) := by
  have hs := stateNo_lt f.stateAt
  have hr := requesterNo_lt f.requester
  unfold Ctrl.faultWord
  rw [h]
  show place 1 0 ||| place _ 8 ||| place _ 16 ||| place _ 20 = _
  rw [OpState.code_eq, Requester.code_eq, ReqKind.code_eq, place_zero, num_or_place _ (by omega), num_or_place _ (by omega),
    num_or_place _ (by omega)]

theorem RegionEntry.word0_num {e : RegionEntry} (h : e.base < 65536) : e.word0 = num (e.base + 65536 * e.limit) := by
  rw [RegionEntry.word0, place_zero, num_or_place _ (by omega)]
  rfl

theorem RegionEntry.word1_num (e : RegionEntry) : e.word1 = num (bit e.valid + 16 * modeNo e.mode) := by
  have hv := bit_lt e.valid
  rw [RegionEntry.word1, ofBool_eq, Mode.code_eq, place_zero, num_or_place _ (by omega)]
  rfl

/-! ### The offsets (12.2) -/

theorem State.readWord_chain {s : State} {o : Nat} (h : o < 0x40) : s.readWord o = (capabilityChain s.straps).getD o 0 := if_pos h

/-- The offsets of a table of words, past those of single words. -/
theorem State.readWord_table {s : State} {o : Nat} (h : 0x50 ≤ o) :
    s.readWord o =
      if o < 0x58 then s.outcomes.window (o - 0x50) else if o = 0x58 then wordOf s.outcomes.queue.length
      else if 0x60 ≤ o ∧ o < 0x68 then s.journalWord (o - 0x60) else if 0x68 ≤ o ∧ o < 0x70 then s.ctrl.summary.word (o - 0x68)
      else if 0x70 ≤ o ∧ o < 0x78 then s.ctrl.faultWord (o - 0x70) else if 0x80 ≤ o ∧ o < 0x90 then s.region.word (o - 0x80) else 0 := by
  unfold State.readWord
  rw [if_neg (by omega), if_neg (by omega), if_neg (by omega), if_neg (by omega), if_neg (by omega), if_neg (by omega),
    if_neg (by omega), if_neg (by omega), if_neg (by omega), if_neg (by omega)]
  simp only [h, true_and]

theorem State.readWord_window {s : State} {i : Nat} (h : i < 8) : s.readWord (0x50 + i) = s.outcomes.window i := by
  rw [State.readWord_table (by omega), if_pos (by omega), Nat.add_sub_cancel_left]

theorem State.readWord_journal {s : State} {i : Nat} (h : i < 8) : s.readWord (0x60 + i) = s.journalWord i := by
  rw [State.readWord_table (by omega), if_neg (by omega), if_neg (by omega), if_pos (by omega), Nat.add_sub_cancel_left]

theorem State.readWord_summary {s : State} {i : Nat} (h : i < 8) : s.readWord (0x68 + i) = s.ctrl.summary.word i := by
  rw [State.readWord_table (by omega), if_neg (by omega), if_neg (by omega), if_neg (by omega), if_pos (by omega),
    Nat.add_sub_cancel_left]

theorem State.readWord_fault {s : State} {i : Nat} (h : i < 8) : s.readWord (0x70 + i) = s.ctrl.faultWord i := by
  rw [State.readWord_table (by omega), if_neg (by omega), if_neg (by omega), if_neg (by omega), if_neg (by omega), if_pos (by omega),
    Nat.add_sub_cancel_left]

theorem State.readWord_region {s : State} {i : Nat} (h : i < 16) : s.readWord (0x80 + i) = s.region.word i := by
  rw [State.readWord_table (by omega), if_neg (by omega), if_neg (by omega), if_neg (by omega), if_neg (by omega), if_neg (by omega),
    if_pos (by omega), Nat.add_sub_cancel_left]

theorem State.readWord_unmapped {s : State} {o : Nat}
    (h : o = 0x43 ∨ o = 0x47 ∨ (0x4B ≤ o ∧ o ≤ 0x4F) ∨ (0x59 ≤ o ∧ o ≤ 0x5F) ∨ (0x78 ≤ o ∧ o ≤ 0x7F) ∨ 0x90 ≤ o) :
    s.readWord o = 0 := by
  unfold State.readWord
  rw [if_neg (by omega), if_neg (by omega), if_neg (by omega), if_neg (by omega), if_neg (by omega), if_neg (by omega),
    if_neg (by omega), if_neg (by omega), if_neg (by omega), if_neg (by omega), if_neg (by omega), if_neg (by omega),
    if_neg (by omega), if_neg (by omega), if_neg (by omega), if_neg (by omega)]

/-- A table of eight words, word by word. -/
theorem eightWords {f g : Nat → Word} (h : ∀ i, i < 8 → f i = g i) :
    (List.range 8).map f = [g 0, g 1, g 2, g 3, g 4, g 5, g 6, g 7] :=
  (List.map_congr_left fun i hi => h i (List.mem_range.1 hi)).trans rfl

theorem State.applyRaw_noRow {o : Nat} (s : State) (w : Word) (h : offsetHasRow o = false) : s.applyRaw o w = s := by
  simp only [offsetHasRow, Bool.or_eq_false_iff, beq_eq_false_iff_ne, Bool.and_eq_false_iff, decide_eq_false_iff_not] at h
  unfold State.applyRaw
  rw [if_neg (by omega), if_neg (by omega), if_neg (by omega), if_neg (by omega), if_neg (by omega), if_neg (by omega),
    if_neg (by omega), if_neg (by omega)]

/-- Settles O29: the word of an offset without a row is ignored, and the words that are read are those of the tables. -/
theorem attributeWordIgnored : Obligations.AttributeWordIgnored := by
  refine ⟨fun s o w h ho => ?_, fun v tag count close ht _ => receiptWord_num v count close ht, fun s => ?_⟩
  · exact congrArg Host.Outcome.next (attrWrite_ignored h o.isLt (State.applyRaw_noRow _ w ho))
  intro cap jrn c j y words
  refine ⟨?_, Ctrl.word_num c, ?_, ?_, s.live_getLsbD, rfl, rfl, rfl, fun hq => ?_, fun x rest hq ht => ?_, rfl, ?_, ?_, fun hf => ?_,
    fun x hf => ?_, fun i e hi he hb => ?_, fun o ho => State.readWord_unmapped ho⟩
  · refine Eq.trans (List.map_congr_left fun i hi => ?_) (capabilityChain_words s.straps)
    rw [Nat.zero_add, State.readWord_chain (List.mem_range.1 hi)]
  · exact congrArg wordOf (OpState.code_eq _)
  · exact congrArg wordOf (ConfigCode.code_eq _)
  · refine (eightWords (g := fun _ => 0) fun i hi => ?_).trans rfl
    rw [State.readWord_window hi, Outcomes.window, hq]
  · have head : ∀ i, i < 8 → s.readWord (0x50 + i) = x.word i := fun i hi => by rw [State.readWord_window hi, Outcomes.window, hq]
    refine (eightWords head).trans ?_
    rw [OutcomeRecord.word_zero ht, OutcomeRecord.word_four]
    rfl
  · refine (eightWords fun i hi => State.readWord_journal hi).trans ?_
    rw [State.journalWord_seven]
    rfl
  · refine (eightWords fun i hi => State.readWord_summary hi).trans ?_
    show [wordOf y.status.code, wordOf y.reason.code, _, _, _, _, _, _] = _
    rw [RecStatus.code_eq, EndReason.code_eq]
    rfl
  · refine (eightWords (g := fun _ => 0) fun i hi => ?_).trans rfl
    rw [State.readWord_fault hi, Ctrl.faultWord, hf]
  · change s.ctrl.fault = some x at hf
    refine (eightWords fun i hi => State.readWord_fault hi).trans ?_
    rw [Ctrl.faultWord_zero hf]
    simp only [Ctrl.faultWord, hf]
    rfl
  · have entry {k : Nat} (hk : k / 2 = i) : s.region.entries.getD (k / 2) {} = e := by
      rw [hk, List.getD, he]
      rfl
    have even : s.readWord (0x80 + 2 * i) = num (e.base + 65536 * e.limit) := by
      rw [State.readWord_region (by omega), Region.word, entry (by omega), if_pos (by omega), RegionEntry.word0_num hb]
    have odd : s.readWord (0x80 + 2 * i + 1) = num (bit e.valid + 16 * modeNo e.mode) := by
      rw [Nat.add_assoc, State.readWord_region (by omega), Region.word, entry (by omega), if_neg (by omega), RegionEntry.word1_num]
    show [s.readWord (0x80 + 2 * i), s.readWord (0x80 + 2 * i + 1)] = _
    rw [even, odd]

end Sys2Proof.Machine
end

