-- ==== Sys2Proof/Proofs/OutcomePosts.lean ====
section
/-! PROOF. Posting an outcome and completing a drain (spec/09 R137, R138, spec/10 R158). -/

namespace Sys2Proof.Machine

/-- An observed step whose reports are `events`: the step but for the Attention Unit's fields, of which `noted` holds. -/
theorem observe_noted {f : State → State} {s t : State} {events : BitVec 16} (ht : f s = t)
    (flags : t.attn.flags = s.attn.flags ||| events) (enable : t.attn.enable = s.attn.enable) :
    ∃ a, observe f s = { t with attn := a } ∧ noted s { t with attn := a } events := by
  have noted := noted_observe ht flags enable
  rw [observe_step ht] at noted
  exact ⟨_, observe_step ht, noted⟩

/-- The same of a step that reports nothing. -/
theorem observe_noted_silent {f : State → State} {s t : State} (ht : f s = t) (h : t.attn = s.attn) :
    ∃ a, observe f s = { t with attn := a } ∧ noted s { t with attn := a } 0 :=
  observe_noted ht (by simp [h]) (by rw [h])

/-! ### The post (09 R137) -/

theorem GroupSlot.post_eq (g : GroupSlot) :
    g.post =
      if g.st = .rejected ∨ g.st = .applied ∨ (g.st = .durable ∧ g.burstCount = 0) then {} else { g with posted := true } := by
  unfold GroupSlot.post
  cases h : g.st with
  | durable => simp
  | rejected | applied | free | opened | closed | abandoned => simp

/-- The tags after a post: the fence of a REJECTED outcome's tag takes the number. -/
def State.postedTags (s : State) (o : ReadyOutcome) : List TagState :=
  if o.verdict = .rejected ∧ s.tag o.tag = .fencedSlot o.slot then (s.setTag o.tag (.fencedNumber s.outcomes.counter)).groups.tags
  else s.groups.tags

theorem State.post_idle {s : State} (h : s.outcomes.pendPost = [] ∨ 16 ≤ s.outcomes.queue.length) : s.post = s := by
  unfold State.post
  cases hp : s.outcomes.pendPost with
  | nil => rfl
  | cons o rest =>
    have full : 16 ≤ s.outcomes.queue.length := h.resolve_left (by rw [hp]; exact nofun)
    exact if_neg (by simp only [Config.outcomeDepth]; omega)

theorem State.post_eq {s : State} {o : ReadyOutcome} {rest : List ReadyOutcome} (h : s.outcomes.pendPost = o :: rest)
    (hq : s.outcomes.queue.length < 16) :
    s.post = { s with
      outcomes := {
        queue := s.outcomes.queue ++ [{ number := s.outcomes.counter, outcome := o }], pendPost := rest
        counter := s.outcomes.counter + 1 }
      groups := { s.groups with slots := upd s.groups.slots o.slot GroupSlot.post, tags := s.postedTags o } } := by
  unfold State.post
  rw [h]
  dsimp only
  rw [if_pos (by exact hq)]
  unfold State.numberFence State.postedTags
  split_ifs with h1 h2 h2
  · rw [State.setTag_eq, State.setTag_tags, State.setTag_tags]
    rfl
  · exact absurd h1 h2
  · exact absurd h2 h1
  · rfl

/-- Settles O40: the head of the list is posted with the counter's number. -/
theorem outcomePosted : Obligations.OutcomePosted := by
  refine fun s ha => ⟨fun h => congrArg Host.Outcome.next (observe_unwatched ha (State.post_idle h) rfl), fun o rest hp hq hn => ?_⟩
  have step := State.post_eq hp hq
  obtain ⟨a, posted, noted⟩ := observe_noted_silent step rfl
  refine ⟨_, congrArg Host.Outcome.next posted, rfl, ?_, fun k hk => ?_, rfl, fun hr hf => ?_, fun hr => ?_, noted⟩
  · exact (upd_getD_self _ _ _ _ hn).trans (GroupSlot.post_eq _)
  · exact upd_getD_ne _ _ _ _ _ hk
  · have tags : s.postedTags o = (s.setTag o.tag (.fencedNumber s.outcomes.counter)).groups.tags := if_pos ⟨hr, hf⟩
    have used : s.tag o.tag ≠ .free := by
      rw [hf]
      exact nofun
    have tag (t : State) (ht : t.groups.tags = s.postedTags o) (g : Nat) :
        t.tag g = if g = o.tag then .fencedNumber s.outcomes.counter else s.tag g :=
      (State.tag_congr (ht.trans tags) g).trans (s.setTag_tag o.tag g _ used)
    exact ⟨(tag _ rfl _).trans (if_pos rfl), fun g hg => (tag _ rfl g).trans (if_neg hg)⟩
  · exact if_neg fun h => hr h.1

/-! ### The completion of a drain (10 R158) -/

theorem State.drained_iff {s : State} :
    s.drained = true ↔ s.queue = [] ∧ (∀ g ∈ s.groups.slots, g.st = .free) ∧ s.journal.inFlight = none ∧ s.journal.due = false ∧
      s.journal.head = s.journal.tail := by
  simp [State.drained, and_assoc]

/-- Settles O41: the five conditions make the state UNCONFIGURED. -/
theorem drainCompletes : Obligations.DrainCompletes := by
  intro s done
  have iff : (s.ctrl.opState = .draining ∧ s.drained = true) ↔ done := and_congr_right fun _ => State.drained_iff
  refine ⟨fun h => ?_, fun h ha => congrArg Host.Outcome.next (observe_unwatched ha (if_neg (mt iff.1 h)) rfl)⟩
  have step : s.drainComplete =
      { s with ctrl := { s.ctrl with opState := .unconfigured }, attn := { s.attn with flags := s.attn.flags ||| flagAt 14 true } } := by
    refine (if_pos (iff.2 h)).trans ?_
    rw [State.report_eq]
    rfl
  obtain ⟨a, completed, noted⟩ := observe_noted step rfl rfl
  exact ⟨_, congrArg Host.Outcome.next completed, rfl, noted⟩

end Sys2Proof.Machine
end

