-- ==== Sys2Proof/Proofs/CommitRules.lean ====
section
/-! PROOF. The Commit Engine takes a unit, and blocks are granted (spec/04 R64 to R66, spec/03 R51, R52). -/

namespace Sys2Proof.Machine

/-! ### Taking a unit (04 R64, R65) -/

theorem State.enginesRun_iff {s : State} : s.enginesRun = true ↔ s.ctrl.opState = .armed ∨ s.ctrl.opState = .draining := by
  simp [State.enginesRun]

theorem entryLength_eq (w : Nat) : entryLength w = 2 + (w + 63) / 64 := rfl

theorem State.unitWords_guarded {s : State} {u : CommitUnit} {n : Nat} (h : u.owner = .guarded n) :
    s.unitWords u = (s.slot n).wordCount := by
  rw [State.unitWords, h]

theorem CommitUnit.isGuarded_of_owner {u : CommitUnit} {n : Nat} (h : u.owner = .guarded n) : u.isGuarded = true := by
  rw [CommitUnit.isGuarded, h]

/-- A unit that the Commit Engine can take: GUARDED and CLOSED. -/
theorem closedUnit_iff {u : CommitUnit} : (u.isGuarded && u.stage == .closed) = true ↔ u.isGuarded = true ∧ u.stage = .closed := by
  simp

theorem State.commitTake_takes {s : State} {front back : List CommitUnit} {u : CommitUnit} {n : Nat} (hst : s.commit.st = .idle)
    (hop : s.ctrl.opState = .armed ∨ s.ctrl.opState = .draining) (hq : s.queue = front ++ u :: back)
    (hf : ∀ x ∈ front, x.isGuarded = true → x.stage ≠ .closed) (ho : u.owner = .guarded n) (hs : u.stage = .closed) :
    s.commitTake = { s with
      commit := { st := .waitingSpace, inHand := some u.closeNo }
      journal := { s.journal with blockReq := some (2 + ((s.slot n).wordCount + 63) / 64) } } := by
  have found : s.queue.find? (fun u => u.isGuarded && u.stage == .closed) = some u := by
    rw [hq, List.find?_append, List.find?_eq_none.2 fun x hx h => hf x hx (closedUnit_iff.1 h).1 (closedUnit_iff.1 h).2]
    exact List.find?_cons_of_pos (p := fun u : CommitUnit => u.isGuarded && u.stage == .closed)
      (closedUnit_iff.2 ⟨CommitUnit.isGuarded_of_owner ho, hs⟩)
  unfold State.commitTake
  rw [if_pos ⟨hst, State.enginesRun_iff.2 hop⟩, found]
  dsimp only
  rw [State.unitWords_guarded ho]
  rfl

theorem State.commitTake_none {s : State}
    (h : s.commit.st ≠ .idle ∨ (s.ctrl.opState ≠ .armed ∧ s.ctrl.opState ≠ .draining) ∨
      ∀ x ∈ s.queue, x.isGuarded = true → x.stage ≠ .closed) : s.commitTake = s := by
  unfold State.commitTake
  rcases h with h | h | h
  · exact if_neg fun hc => h hc.1
  · exact if_neg fun hc => (State.enginesRun_iff.1 hc.2).elim h.1 h.2
  · rw [List.find?_eq_none.2 fun x hx hc => h x hx (closedUnit_iff.1 hc).1 (closedUnit_iff.1 hc).2]
    exact ite_self s

/-- Settles O42: the unit nearest the front is taken. -/
theorem commitTakesUnit : Obligations.CommitTakesUnit := fun _ =>
  ⟨fun _ _ _ _ hst hop hq hf ho hs => congrArg Host.Outcome.next (State.commitTake_takes hst hop hq hf ho hs),
    fun h => congrArg Host.Outcome.next (State.commitTake_none h)⟩

/-! ### The hand-over of a grant (04 R65, R66) -/

theorem State.handOver_eq {s : State} {u : CommitUnit} {n : Nat} (start : Nat) (seq : Word) (len : Nat) (hu : s.inHand = some u)
    (ho : u.owner = .guarded n) :
    s.handOver start seq len = { s with
      queue := s.queue.map fun x => granted u x seq start len
      groups := { s.groups with slots := upd s.groups.slots n fun g => { g with journalSeq := some seq } }
      commit := { s.commit with st := .writing, entryCheck := 0xFFFFFFFF#32, completed := 0 }
      port := { s.port with waitCommit := entryRequests (len - 2) } } := by
  unfold State.handOver
  rw [hu]
  dsimp only
  rw [ho]
  rfl

theorem State.handOver_handedOver {s : State} {u : CommitUnit} {n : Nat} (start : Nat) (seq : Word) (len : Nat) (hu : s.inHand = some u)
    (ho : u.owner = .guarded n) (hn : n < s.groups.slots.length) : handedOver s (s.handOver start seq len) u n seq start len := by
  rw [State.handOver_eq start seq len hu ho]
  exact ⟨rfl, upd_getD_self _ _ _ _ hn, fun k hk => upd_getD_ne _ _ _ _ _ hk, rfl, rfl, rfl, rfl⟩

/-! ### The grant (03 R51, R52) -/

/-- The journal after a grant of `len` blocks. -/
def State.grantedJournal (s : State) (len : Nat) : Journal :=
  { s.journal with
    tail := s.straps.nextBlock ((if s.skipped len = 0 then s.journal.tail else 2) + len - 1)
    live := s.journal.live + s.skipped len + len, nextSeq := s.journal.nextSeq + 1, blockReq := none }

theorem State.tryGrant_none {s : State} (h : s.journal.blockReq = none) : s.tryGrant = s := by
  unfold State.tryGrant
  rw [h]

theorem State.tryGrant_waits {s : State} {len : Nat} (h : s.journal.blockReq = some len)
    (hr : s.straps.ringBlocks - 1 < s.journal.live + s.skipped len + len) : s.tryGrant = s := by
  unfold State.tryGrant
  rw [h]
  exact if_neg (Nat.not_le.2 hr)

theorem State.tryGrant_hands {s : State} {len : Nat} (h : s.journal.blockReq = some len)
    (hr : s.journal.live + s.skipped len + len ≤ s.straps.ringBlocks - 1) (hs : s.skipped len = 0) :
    s.tryGrant = (s.setJournal (s.grantedJournal len)).handOver s.journal.tail s.journal.nextSeq len := by
  unfold State.tryGrant State.grantedJournal
  rw [h]
  dsimp only
  rw [if_pos hr, if_pos hs, if_pos hs]

theorem State.tryGrant_skips {s : State} {len : Nat} (h : s.journal.blockReq = some len)
    (hr : s.journal.live + s.skipped len + len ≤ s.straps.ringBlocks - 1) (hs : s.skipped len ≠ 0) :
    s.tryGrant = { s with
      journal := { s.grantedJournal len with skipGrant := some { seq := s.journal.nextSeq, len := len } }
      port := { s.port with waitCommit := s.port.waitCommit ++ [.skip s.journal.tail s.journal.nextSeq] } } := by
  unfold State.tryGrant State.grantedJournal
  rw [h]
  dsimp only
  rw [if_pos hr, if_neg hs, if_neg hs]
  rfl

/-- Settles O43: without the room the request waits; a grant is handed over at once, or its skip block is asked for first. -/
theorem blocksGranted : Obligations.BlocksGranted := by
  intro s len hreq j last skip
  refine ⟨fun ha hr => congrArg Host.Outcome.next (observe_unwatched ha (State.tryGrant_waits hreq hr) rfl), fun u n hr hu ho hn => ?_⟩
  intro start j1
  by_cases hs : s.skipped len = 0
  · have step := State.tryGrant_hands hreq hr hs
    have parts := State.handOver_eq (s := s.setJournal (s.grantedJournal len)) s.journal.tail s.journal.nextSeq len hu ho
    have handed := State.handOver_handedOver (s := s.setJournal (s.grantedJournal len)) s.journal.tail s.journal.nextSeq len hu ho hn
    obtain ⟨a, granted, noted⟩ := observe_noted_silent step (by rw [parts]; rfl)
    refine ⟨_, congrArg Host.Outcome.next granted, noted, fun _ => ⟨?_, ?_⟩, fun h => absurd hs h⟩
    · rw [parts]
      rfl
    · rw [show start = s.journal.tail from if_pos hs]
      exact handed
  · obtain ⟨a, granted, noted⟩ := observe_noted_silent (State.tryGrant_skips hreq hr hs) rfl
    exact ⟨_, congrArg Host.Outcome.next granted, noted, fun h => absurd h hs, fun _ => rfl⟩

end Sys2Proof.Machine
end

