-- ==== Sys2Proof/Proofs/CommitCompletions.lean ====
section
/-! PROOF. The completions of the Commit Engine's requests (spec/03 R52, spec/04 R66, R67, R69, R76, spec/10 R160). -/

namespace Sys2Proof.Machine

/-- A completion that leaves what the Attention Unit watches. -/
theorem exec_completed_unwatched {i : Instr} {s t : State} {o : Outstanding} {rest : List Outstanding} (hi : isCompletion i = true)
    (hd : ∀ c, i ≠ .discardedCompletion c) (h : s.port.outstanding = o :: rest) (ha : answers i o = true) (hs : s.attnOk)
    (step : completed i o (s.popped rest) = t) (hw : t.watched = s.watched) : exec i s = .next t :=
  (exec_completed hi hd h ha).trans (congrArg Host.Outcome.next (observe_unwatched hs step hw))

/-! ### Skip blocks and entries (03 R52, 04 R66, R67) -/

theorem State.skipDone_hands {s : State} {g : SkipGrant} (h : s.journal.skipGrant = some g) :
    s.skipDone = (s.setJournal { s.journal with skipGrant := none }).handOver 2 g.seq g.len := by
  unfold State.skipDone
  rw [h]

theorem State.skipDone_none {s : State} (h : s.journal.skipGrant = none) : s.skipDone = s := by
  unfold State.skipDone
  rw [h]

theorem State.entryDone_idle {s : State} (h : s.commit.st ≠ .writing) : s.entryDone = s := if_neg h

theorem State.entryDone_writing {s : State} {u : CommitUnit} {len : Nat} (h : s.commit.st = .writing) (hu : s.inHand = some u)
    (hl : u.len = some len) :
    s.entryDone =
      if s.commit.completed + 1 = 4 * (len - 1) then
        { s with
          commit := { s.commit with st := .marking, completed := s.commit.completed + 1 }
          port := { s.port with waitCommit := [.mark] } }
      else { s with commit := { s.commit with completed := s.commit.completed + 1 } } := by
  unfold State.entryDone
  rw [if_pos h, hu]
  dsimp only [Option.bind_some]
  rw [hl]
  rfl

/-- Settles O46: the skip completion hands its grant over, and the last of an entry's completions presents the mark. -/
theorem commitRequestsComplete : Obligations.CommitRequestsComplete := by
  intro s o rest ha hport
  refine ⟨fun hf => ?_, fun hf => ?_⟩
  · have skip {t : State} (step : (s.popped rest).skipDone = t) (hw : t.watched = s.watched) : exec (.skipCompletion .ok) s = .next t :=
      exec_completed_unwatched rfl (fun _ => nofun) hport hf ha step hw
    refine ⟨fun g u n hg hu ho hn => ?_, fun hg => ?_⟩
    · have step := State.skipDone_hands (s := s.popped rest) hg
      have parts := State.handOver_eq (s := (s.popped rest).setJournal { s.journal with skipGrant := none }) 2 g.seq g.len hu ho
      have handed :=
        State.handOver_handedOver (s := (s.popped rest).setJournal { s.journal with skipGrant := none }) 2 g.seq g.len hu ho hn
      refine ⟨_, skip step (by rw [show (s.popped rest).journal = s.journal from rfl, parts]; rfl), ?_, handed⟩
      rw [show (s.popped rest).journal = s.journal from rfl, parts]
      rfl
    · rw [State.dropHead_eq hport]
      exact skip (State.skipDone_none (s := s.popped rest) hg) rfl
  · have entry {t : State} (step : (s.popped rest).entryDone = t) (hw : t.watched = s.watched) :
        exec (.commitRequestCompletion .ok) s = .next t :=
      exec_completed_unwatched rfl (fun _ => nofun) hport hf ha step hw
    refine ⟨fun u len hst hu hl => ⟨fun h => ?_, fun h => ?_⟩, fun hst => ?_⟩
    · exact entry ((State.entryDone_writing (s := s.popped rest) hst hu hl).trans (if_pos h)) rfl
    · exact entry ((State.entryDone_writing (s := s.popped rest) hst hu hl).trans (if_neg h)) rfl
    · rw [State.dropHead_eq hport]
      exact entry (State.entryDone_idle (s := s.popped rest) hst) rfl

/-! ### The mark (04 R67, R69, R76) -/

theorem State.keptUnit_some {s : State} {u : CommitUnit} (hu : s.inHand = some u) (hj : u.stage = .journaling) :
    s.keptUnit = some u := by
  rw [State.keptUnit, hu]
  simp [Option.filter, hj]

theorem State.keptUnit_none {s : State} (h : ∀ u, s.inHand = some u → u.stage ≠ .journaling) : s.keptUnit = none := by
  rw [State.keptUnit]
  cases hu : s.inHand with
  | none => rfl
  | some u => simp [Option.filter, h u hu]

theorem State.makeDurable_eq {s : State} {u : CommitUnit} {n : Nat} (ho : u.owner = .guarded n) :
    s.makeDurable u = { s with
      queue := s.queue.map fun x => if x.closeNo = u.closeNo then { x with stage := .durable } else x
      groups := { s.groups with slots := upd s.groups.slots n fun g => { g with st := .durable } }
      outcomes := { s.outcomes with
        pendPost := s.outcomes.pendPost ++ [({ s.slot n with st := .durable } : GroupSlot).outcome n .durable u.seq] } } := by
  unfold State.makeDurable
  dsimp only
  rw [ho]
  rfl

theorem State.abandonUnit_drop {s : State} {u : CommitUnit} {n : Nat} (ho : u.owner = .guarded n) :
    (s.abandonUnit u).dropUnit u.closeNo = { s with
      queue := s.queue.filter fun x => x.closeNo ≠ u.closeNo
      groups := { s.groups with
        slots := upd s.groups.slots n fun _ =>
          { s.slot n with
            st := .abandoned, firstError := some { cause := .verdict .stopped, ordinal := none, start := none } } }
      outcomes := { s.outcomes with
        pendPost := s.outcomes.pendPost ++
          [({ s.slot n with
              st := .abandoned, firstError := some { cause := .verdict .stopped, ordinal := none, start := none } } :
            GroupSlot).outcome n .abandoned none] } } := by
  unfold State.abandonUnit
  rw [ho]
  rfl

theorem State.commitTake_parts (s : State) :
    s.commitTake = { s with commit := s.commitTake.commit, journal := { s.journal with blockReq := s.commitTake.journal.blockReq } } := by
  unfold State.commitTake
  split
  · split <;> rfl
  · rfl

theorem State.markDone_kept_unit {s : State} {u : CommitUnit} (hk : s.keptUnit = some u) :
    s.markDone = if s.commit.st = .marking then ((s.makeDurable u).setCommit {}).commitTake else s.makeDurable u := by
  unfold State.markDone
  rw [hk]

theorem State.markDone_dropped {s : State} (hk : s.keptUnit = none) (hm : s.commit.st ≠ .marking) : s.markDone = s := by
  unfold State.markDone
  rw [hk]
  exact if_neg hm

theorem State.markLost_kept_unit {s : State} {u : CommitUnit} (hk : s.keptUnit = some u) :
    s.markLost = (s.abandonUnit u).dropUnit u.closeNo := by
  unfold State.markLost
  rw [hk]

theorem State.markLost_dropped {s : State} (hk : s.keptUnit = none) : s.markLost = s := by
  unfold State.markLost
  rw [hk]

/-- The error report in FAULTED and HALTED is recorded (10 R160). -/
theorem State.errorReport_stopped {s : State} (o : Outstanding) (h : s.ctrl.opState = .faulted ∨ s.ctrl.opState = .halted) :
    s.errorReport o = s.furtherFault o := by
  unfold State.errorReport
  rcases h with h | h <;> rw [h]

/-- The state after the mark's completion, before the engine takes its next unit. -/
def State.durable (s : State) (rest : List Outstanding) (u : CommitUnit) (n : Nat) : State :=
  { s with
    queue := s.queue.map fun x => if x.closeNo = u.closeNo then { x with stage := .durable } else x
    groups := { s.groups with slots := upd s.groups.slots n fun g => { g with st := .durable } }
    outcomes := { s.outcomes with
      pendPost := s.outcomes.pendPost ++ [({ s.slot n with st := .durable } : GroupSlot).outcome n .durable u.seq] }
    port := { s.port with outstanding := rest } }

/-- The engine takes the unit that it would have taken before: another unit has become DURABLE, and none is new. -/
theorem State.durable_takes {s : State} {rest : List Outstanding} {u : CommitUnit} {n : Nat} (hj : u.stage = .journaling)
    (only : ∀ x ∈ s.queue, x.closeNo = u.closeNo → x = u) (hn : n < s.groups.slots.length) :
    let t := ((s.durable rest u n).setCommit {}).commitTake
    ((∀ x ∈ s.queue, x.isGuarded = true → x.stage ≠ .closed) → t.commit = {} ∧ t.journal = s.journal) ∧
    ∀ front back v m, s.ctrl.opState = .armed ∨ s.ctrl.opState = .draining → s.queue = front ++ v :: back →
      (∀ x ∈ front, x.isGuarded = true → x.stage ≠ .closed) → v.owner = .guarded m → v.stage = .closed →
      t.commit = { st := .waitingSpace, inHand := some v.closeNo } ∧
      t.journal = { s.journal with blockReq := some (2 + ((s.slot m).wordCount + 63) / 64) } := by
  have marked {xs : List CommitUnit} (h : ∀ x ∈ xs, x.isGuarded = true → x.stage ≠ .closed) :
      ∀ x ∈ xs.map fun x => if x.closeNo = u.closeNo then { x with stage := .durable } else x,
        x.isGuarded = true → x.stage ≠ .closed := by
    intro x hx
    obtain ⟨y, hy, rfl⟩ := List.mem_map.1 hx
    split
    · exact fun _ => nofun
    · exact h y hy
  refine ⟨fun h => ?_, fun front back v m hop hq hf ho hs => ?_⟩
  · rw [State.commitTake_none (.inr (.inr (by exact marked h)))]
    exact ⟨rfl, rfl⟩
  · have other : v.closeNo ≠ u.closeNo := fun e => by
      rw [only v (by rw [hq]; simp) e, hj] at hs
      exact nomatch hs
    have queue : (s.durable rest u n).queue =
        front.map (fun x => if x.closeNo = u.closeNo then { x with stage := .durable } else x) ++
          v :: back.map (fun x => if x.closeNo = u.closeNo then { x with stage := .durable } else x) := by
      rw [State.durable, hq, List.map_append, List.map_cons, if_neg other]
    have words : ((s.durable rest u n).slot m).wordCount = (s.slot m).wordCount := by
      by_cases hm : m = n
      · subst hm
        rw [show (s.durable rest u m).slot m = _ from upd_getD_self _ _ _ _ hn]
        rfl
      · rw [show (s.durable rest u n).slot m = _ from upd_getD_ne _ _ _ _ _ hm]
        rfl
    rw [State.commitTake_takes (s := (s.durable rest u n).setCommit {}) rfl hop queue (marked hf) ho hs]
    exact ⟨rfl, congrArg (fun w => ({ s.journal with blockReq := some (2 + (w + 63) / 64) } : Journal)) words⟩

/-- What the recorded fault becomes (10 R160). -/
theorem State.furtherFault_eq (s : State) (o : Outstanding) :
    ∃ f, s.furtherFault o = { s with ctrl := { s.ctrl with fault := some f } } ∧
      (∀ x, s.ctrl.fault = some x → f = { x with further := min (x.further + 1) 65535 }) ∧
      (s.ctrl.fault = none → f =
        { stateAt := s.ctrl.opState, requester := o.requester, kind := o.kind, addr := o.addr, further := 0, dropped := 0 }) := by
  unfold State.furtherFault
  cases hf : s.ctrl.fault with
  | none => exact ⟨_, rfl, nofun, fun _ => rfl⟩
  | some x => exact ⟨_, rfl, fun y hy => by rw [← Option.some.inj hy]; rfl, nofun⟩

/-- Settles O47: the unit kept for its mark becomes DURABLE, or on ERROR is abandoned and dropped. -/
theorem markCompletes : Obligations.MarkCompletes := by
  intro s o rest ha hport hf dropped
  have row {st : Status} {t : State} (step : writeEnds st State.markDone State.markLost o (s.popped rest) = t)
      (hw : t.watched = s.watched) : exec (.markCompletion st) s = .next t :=
    exec_completed_unwatched rfl (fun _ => nofun) hport hf ha step hw
  refine ⟨fun u n hu hj ho hn only => ?_, fun hd hm => ?_, fun hop => ?_⟩
  · have done := State.markDone_kept_unit (s := s.popped rest) (State.keptUnit_some hu hj)
    rw [show (s.popped rest).makeDurable u = s.durable rest u n from State.makeDurable_eq ho] at done
    have slot : (s.durable rest u n).slot n = { s.slot n with st := .durable } := upd_getD_self _ _ _ _ hn
    have others : ∀ k, k ≠ n → (s.durable rest u n).slot k = s.slot k := fun k hk => upd_getD_ne _ _ _ _ _ hk
    by_cases hm : s.commit.st = .marking
    · have parts := ((s.durable rest u n).setCommit {}).commitTake_parts
      have takes := State.durable_takes (rest := rest) hj only hn
      rw [if_pos (by exact hm)] at done
      generalize ((s.durable rest u n).setCommit {}).commitTake = t at *
      have groups : t.groups = (s.durable rest u n).groups := by rw [parts]; rfl
      refine ⟨t, row done (by rw [parts]; rfl), ?_, (State.slot_congr (congrArg Groups.slots groups) n).trans slot,
        fun k hk => (State.slot_congr (congrArg Groups.slots groups) k).trans (others k hk), by rw [groups]; rfl, by rw [groups]; rfl,
        fun h => absurd hm h, fun _ => takes⟩
      have journal := congrArg State.journal parts
      rw [groups, journal]
      exact parts
    · rw [if_neg (by exact hm)] at done
      exact ⟨_, row done rfl, rfl, slot, others, rfl, rfl, fun _ => ⟨rfl, rfl⟩, fun h => absurd h hm⟩
  · rw [State.dropHead_eq hport]
    exact row (State.markDone_dropped (s := s.popped rest) (State.keptUnit_none hd) hm) rfl
  · intro fault reported
    have report : (s.popped rest).errorReport o = reported := by
      obtain ⟨f, recorded, further, first⟩ := (s.popped rest).furtherFault_eq o
      have same : f = fault := by
        cases hx : s.ctrl.fault with
        | none => simp only [fault, first hx, hx]; rfl
        | some x => simp only [fault, further x hx, hx]
      rw [State.errorReport_stopped (s := s.popped rest) o hop, recorded, same]
      rfl
    refine ⟨fun hd => ?_, fun u n hu hj ho hn => ?_⟩
    · refine row ((congrArg State.markLost report).trans (State.markLost_dropped (s := reported) (State.keptUnit_none hd))) rfl
    · intro gone
      refine ⟨_, row ((congrArg State.markLost report).trans ((State.markLost_kept_unit (s := reported) (State.keptUnit_some hu hj)).trans
        (State.abandonUnit_drop ho))) rfl, rfl, upd_getD_self _ _ _ _ hn, fun k hk => upd_getD_ne _ _ _ _ _ hk, rfl, rfl⟩

end Sys2Proof.Machine
end

