-- ==== Sys2Proof/Proofs/ApplyRules.lean ====
section
/-! PROOF. The Apply Engine takes the front unit, writes its members home one after the other and finishes it (spec/04 R71 to R74,
spec/01 R17, spec/03 R57). -/

namespace Sys2Proof.Machine

/-! ### Taking a unit and beginning a member (04 R71, R72) -/

theorem CommitUnit.appliable_iff {u : CommitUnit} :
    u.appliable = true ↔ (u.isGuarded = true ∧ u.stage = .durable) ∨ (u.isGuarded = false ∧ u.stage = .closed) := by
  unfold CommitUnit.appliable
  cases u.isGuarded <;> simp

/-- The unit u with its member of ordinal i begun. -/
def CommitUnit.begun (u : CommitUnit) (i : Nat) : CommitUnit :=
  { u with stage := .applying, progress := some { ordinal := i, issued := 0, completed := 0 } }

/-- The member of ordinal i of the front unit is begun. -/
theorem State.startMember_eq {s : State} {u : CommitUnit} {units : List CommitUnit} (hq : s.queue = u :: units) (i : Nat) :
    s.startMember u i = { s with
      staging := s.staging.move ((s.membersOf u).getD (i - 1) 0) .applying, queue := u.begun i :: units
      port := { s.port with
        waitApply := applyRuns ((s.membersOf u).getD (i - 1) 0) (s.record ((s.membersOf u).getD (i - 1) 0)).wordCount } } := by
  have front (f : CommitUnit → CommitUnit) : upd s.queue 0 f = f u :: units := by
    rw [hq]
    rfl
  unfold State.startMember State.updFront
  dsimp only [State.setStaging_queue]
  rw [front]
  rfl

theorem State.applyTake_takes {s : State} {u : CommitUnit} {units : List CommitUnit} (hst : s.apply.st = .idle)
    (hop : s.ctrl.opState = .armed ∨ s.ctrl.opState = .draining) (hq : s.queue = u :: units)
    (ha : (u.isGuarded = true ∧ u.stage = .durable) ∨ (u.isGuarded = false ∧ u.stage = .closed)) :
    s.applyTake = { s with
      apply := { s.apply with st := .applying }, staging := s.staging.move ((s.membersOf u).getD 0 0) .applying
      queue := u.begun 1 :: units
      port := { s.port with waitApply := applyRuns ((s.membersOf u).getD 0 0) (s.record ((s.membersOf u).getD 0 0)).wordCount } } := by
  unfold State.applyTake
  rw [if_pos ⟨hst, State.enginesRun_iff.2 hop⟩, hq]
  dsimp only
  rw [if_pos (CommitUnit.appliable_iff.2 ha), State.startMember_eq (s := s.setApply { s.apply with st := .applying }) hq]
  rfl

theorem State.applyTake_none {s : State}
    (h : ∀ u units, s.queue = u :: units → s.ctrl.opState = .armed ∨ s.ctrl.opState = .draining →
      ¬((u.isGuarded = true ∧ u.stage = .durable) ∨ (u.isGuarded = false ∧ u.stage = .closed))) : s.applyTake = s := by
  unfold State.applyTake
  by_cases hc : s.apply.st = .idle ∧ s.enginesRun = true
  · rw [if_pos hc]
    cases hq : s.queue with
    | nil => rfl
    | cons u units => exact if_neg fun ha => h u units hq (State.enginesRun_iff.1 hc.2) (CommitUnit.appliable_iff.1 ha)
  · exact if_neg hc

/-! ### The completion of a run (04 R72, R73) -/

theorem State.applyDone_eq {s : State} {u : CommitUnit} {units : List CommitUnit} {p : Progress} (hst : s.apply.st = .applying)
    (hq : s.queue = u :: units) (hp : u.progress = some p) :
    s.applyDone =
      if p.completed + 1 = ((s.record ((s.membersOf u).getD (p.ordinal - 1) 0)).wordCount + 15) / 16 then
        if p.ordinal < (s.membersOf u).length then
          (s.releaseMember ((s.membersOf u).getD (p.ordinal - 1) 0)).startMember u (p.ordinal + 1)
        else (s.releaseMember ((s.membersOf u).getD (p.ordinal - 1) 0)).finishUnit u
      else { s with queue := { u with progress := some { p with completed := p.completed + 1 } } :: units } := by
  unfold State.applyDone
  rw [if_pos hst, hq]
  dsimp only
  rw [hp]
  unfold State.updFront
  rw [hq]
  rfl

theorem State.releaseMember_record (s : State) {r k : Nat} (hk : k ≠ r) : (s.releaseMember r).record k = s.record k :=
  upd_getD_ne _ _ _ _ _ hk

/-! ### The end of a unit (04 R74, 03 R57) -/

theorem State.askAnchor_presents {s : State} (head : Nat) (headSeq : Word) (h : s.journal.inFlight = none) :
    s.askAnchor head headSeq = { s with
      journal := { s.journal with
        newest := some (head, headSeq)
        inFlight := some { copy := 1 - s.journal.copy, generation := s.journal.generation + 1, head := head, headSeq := headSeq } }
      port := { s.port with waitAnchor := true } } := by
  unfold State.askAnchor
  dsimp only
  rw [h]
  rfl

theorem State.askAnchor_due {s : State} (head : Nat) (headSeq : Word) (h : s.journal.inFlight ≠ none) :
    s.askAnchor head headSeq = { s with journal := { s.journal with newest := some (head, headSeq), due := true } } := by
  obtain ⟨a, ha⟩ := Option.ne_none_iff_exists'.1 h
  unfold State.askAnchor
  dsimp only
  rw [ha]
  rfl

theorem State.finishUnit_checked {s : State} {u : CommitUnit} {units : List CommitUnit} {c : Nat} (hq : s.queue = u :: units)
    (ho : u.owner = .checked c) :
    s.finishUnit u = ({ s with queue := units, apply := { s.apply with st := .idle } } : State).applyTake := by
  unfold State.finishUnit
  rw [ho, hq]
  rfl

theorem State.finishUnit_guarded {s : State} {u : CommitUnit} {units : List CommitUnit} {n b len : Nat} {seq : Word}
    (hq : s.queue = u :: units) (ho : u.owner = .guarded n) (hs : u.seq = some seq) (hb : u.start = some b) (hl : u.len = some len) :
    s.finishUnit u =
      (State.setApply
        ((({ s with queue := units, apply := { s.apply with st := .idle } } : State).updSlot n GroupSlot.finish).askAnchor
          (s.straps.nextBlock (b + len - 1)) (seq + 1))
        { st := .idle, position := seq }).applyTake := by
  have idle (t : State) (a : Nat) (q : Word) : (t.askAnchor a q).apply = t.apply := by
    by_cases h : t.journal.inFlight = none
    · rw [State.askAnchor_presents a q h]
    · rw [State.askAnchor_due a q h]
  unfold State.finishUnit
  rw [ho, hq, hs, hb, hl]
  dsimp only [Option.getD_some]
  rw [idle]
  rfl

/-- What the IDLE engine does at the end of a unit: it takes the new front unit if that is appliable. -/
theorem State.applyTake_next {f : State} {units : List CommitUnit} (hst : f.apply.st = .idle) (hq : f.queue = units) :
    ((∀ v more, units = v :: more → f.ctrl.opState = .armed ∨ f.ctrl.opState = .draining →
        ¬((v.isGuarded = true ∧ v.stage = .durable) ∨ (v.isGuarded = false ∧ v.stage = .closed))) → f.applyTake = f) ∧
    ∀ v more, units = v :: more → f.ctrl.opState = .armed ∨ f.ctrl.opState = .draining →
      ((v.isGuarded = true ∧ v.stage = .durable) ∨ (v.isGuarded = false ∧ v.stage = .closed)) →
      f.applyTake = { f with
        apply := { f.apply with st := .applying }, staging := f.staging.move ((f.membersOf v).getD 0 0) .applying
        queue := v.begun 1 :: more
        port := { f.port with
          waitApply := applyRuns ((f.membersOf v).getD 0 0) (f.record ((f.membersOf v).getD 0 0)).wordCount } } := by
  subst hq
  exact ⟨State.applyTake_none, fun v more hq hop ha => State.applyTake_takes hst hop hq ha⟩

/-- Settles O48: the front unit is taken, its members are written home one after the other, and the last one finishes it. -/
theorem applyEngineRuns : Obligations.ApplyEngineRuns := by
  intro s u units hq begun member
  refine ⟨fun hop hst ha => congrArg Host.Outcome.next (State.applyTake_takes hst hop hq ha), ?_⟩
  intro o rest p ha hport hf hst hp h1 r total
  have row {t : State} (step : (s.popped rest).applyDone = t) (hw : t.watched = s.watched) : exec (.applyCompletion .ok) s = .next t :=
    exec_completed_unwatched rfl (fun _ => nofun) hport hf ha step hw
  have done := State.applyDone_eq (s := s.popped rest) hst hq hp
  refine ⟨fun hc => row (done.trans (if_neg hc)) rfl, fun hc hlt hne => ?_, fun hc hlast => ?_⟩
  · have next := State.startMember_eq (s := (s.popped rest).releaseMember r) hq (p.ordinal + 1)
    have record : ((s.popped rest).releaseMember r).record (member (p.ordinal + 1)) = s.record (member (p.ordinal + 1)) :=
      State.releaseMember_record _ (Ne.symm hne)
    rw [show (((s.popped rest).releaseMember r).membersOf u).getD (p.ordinal + 1 - 1) 0 = member (p.ordinal + 1) from rfl, record] at next
    exact row (done.trans ((if_pos hc).trans ((if_pos hlt).trans next))) rfl
  · intro freed takesNext
    have ends : (s.popped rest).applyDone = ((s.popped rest).releaseMember r).finishUnit u :=
      done.trans ((if_pos hc).trans (if_neg (by rw [hlast]; exact Nat.lt_irrefl _)))
    have takes {f : State} (h : (s.popped rest).applyDone = f.applyTake) (hi : f.apply.st = .idle) (hu : f.queue = units)
        (hop : f.ctrl = s.ctrl) (hw : f.watched = s.watched) : takesNext f := by
      obtain ⟨rests, takes⟩ := State.applyTake_next hi hu
      refine ⟨fun hn => row (h.trans (rests fun v more hv hs => hn v more hv (by rwa [← hop]))) hw, fun v more hv hs ha => ?_⟩
      intro m
      exact row (h.trans (takes v more hv (by rwa [hop]) ha)) hw
    refine ⟨fun c ho => takes (ends.trans (State.finishUnit_checked hq ho)) rfl rfl rfl rfl, fun n seq b len ho hs hb hl hn => ?_⟩
    intro past slotDone
    have finished := ends.trans (State.finishUnit_guarded (s := (s.popped rest).releaseMember r) hq ho hs hb hl)
    refine ⟨upd_getD_self _ _ _ _ hn, fun k hk => upd_getD_ne _ _ _ _ _ hk, rfl, rfl, fun hi => ?_, fun hi => ?_⟩
    · rw [State.askAnchor_presents _ _ (by exact hi)] at finished
      exact takes finished rfl rfl rfl rfl
    · rw [State.askAnchor_due _ _ (by exact hi)] at finished
      exact takes finished rfl rfl rfl rfl

end Sys2Proof.Machine
end

