-- ==== Sys2Proof/Proofs/StopEntry.lean ====
section
/-! PROOF. The entry to FAULTED and HALTED, stage by stage (spec/10 R159, R161 and the rules they gather: spec/02 R40, spec/03 R60,
spec/04 R69, R75, R76, spec/05 R93, spec/06 R107, spec/07 R125, spec/11 R172). -/

namespace Sys2Proof.Machine

/-! ### The burst in progress (07 R125, 06 R107, 05 R93) -/

/-- The entry stops the burst in progress: a common write, and at the entry to HALTED a common read. -/
def Link.stopsAt (l : Link) (dest : OpState) : Prop := l.commonWrite = true ∨ (l.commonRead = true ∧ dest = .halted)

/-- The pending verdict of a burst that the entry stops (log 19). -/
def Link.stoppedVerdict (l : Link) : Option Verdict := l.pendVerdict.or (some .stopped)

theorem State.stopBurst_streams {s : State} {dest : OpState} (h : s.link.stopsAt dest) (hst : s.link.st = .streaming) :
    s.stopBurst dest = (s.setLink { s.link with collecting := [] }).bridgeStop (some .stopped) false := by
  unfold State.stopBurst
  refine (if_pos h).trans ?_
  split
  next => rfl
  next h1 => exact nomatch hst.symm.trans h1
  next h1 => exact nomatch hst.symm.trans h1
  next h1 _ _ => exact absurd hst h1

theorem State.stopBurst_ends {s : State} {dest : OpState} (h : s.link.stopsAt dest)
    (hst : s.link.st = .stopping ∨ s.link.st = .checking) :
    s.stopBurst dest = { s with link := { s.link with pendVerdict := s.link.stoppedVerdict } } := by
  unfold State.stopBurst
  refine (if_pos h).trans ?_
  split
  next h1 => rcases hst with hst | hst <;> exact nomatch hst.symm.trans h1
  next => rfl
  next => rfl
  next h2 h3 => exact (hst.elim h2 h3).elim

theorem State.stopBurst_goes {s : State} {dest : OpState}
    (h : ¬ s.link.stopsAt dest ∨ (s.link.st ≠ .streaming ∧ s.link.st ≠ .stopping ∧ s.link.st ≠ .checking)) : s.stopBurst dest = s := by
  unfold State.stopBurst
  rcases h with h | ⟨h1, h2, h3⟩
  · exact if_neg h
  · dsimp only
    split
    · split
      · exact absurd ‹_› h1
      · exact absurd ‹_› h2
      · exact absurd ‹_› h3
      · rfl
    · rfl

/-- What a stopped write that streams leaves: the link alone changes. -/
theorem State.stopBurst_write {s : State} {dest : OpState} (hc : s.link.commonWrite = true) (hst : s.link.st = .streaming) :
    s.stopBurst dest = { s with link := { stoppingLink s s.link.stoppedVerdict false with collecting := [] } } := by
  rw [State.stopBurst_streams (.inl hc) hst]
  have read : s.link.isRead = false := (Link.commonWrite_iff.1 hc).2
  unfold State.bridgeStop
  rw [State.endData_none (.inr (.inr rfl)) (by exact read)]
  rfl

/-- What a stopped read that streams leaves: its spans are discarded. -/
theorem State.stopBurst_read {s : State} (hc : s.link.commonRead = true) (hst : s.link.st = .streaming) :
    ∃ b : State, s.stopBurst .halted = { s with
        link := { stoppingLink s s.link.stoppedVerdict false with collecting := [] }, reads := b.reads
        port := { s.port with waitRead := b.port.waitRead } } ∧
      spansDropped s (s.stopBurst .halted) := by
  have ends := State.bridgeStop_read (s := s.setLink { s.link with collecting := [] }) (some .stopped) false
    (by exact (Link.commonRead_iff.1 hc).2)
  rw [← State.stopBurst_streams (.inr ⟨hc, rfl⟩) hst] at ends
  obtain ⟨parts, dropped⟩ := ends
  rw [if_pos (by exact hc)] at dropped
  exact ⟨_, parts, dropped⟩

/-- What a stop of the burst leaves: the link, the spans of a read and their waiting requests. -/
theorem State.stopBurst_parts (s : State) (dest : OpState) :
    s.stopBurst dest = { s with
      link := (s.stopBurst dest).link, reads := (s.stopBurst dest).reads
      port := { s.port with waitRead := (s.stopBurst dest).port.waitRead } } := by
  by_cases h : s.link.stopsAt dest
  · by_cases hst : s.link.st = .streaming
    · rcases h with hc | ⟨hc, rfl⟩
      · rw [State.stopBurst_write hc hst]
      · obtain ⟨b, parts, -⟩ := State.stopBurst_read hc hst
        rw [parts]
    · by_cases he : s.link.st = .stopping ∨ s.link.st = .checking
      · rw [State.stopBurst_ends h he]
      · rw [State.stopBurst_goes (.inr ⟨hst, fun e => he (.inl e), fun e => he (.inr e)⟩)]
  · rw [State.stopBurst_goes (.inl h)]

theorem State.stopBurst_slot (s : State) (dest : OpState) : (s.stopBurst dest).link.slot = s.link.slot := by
  by_cases h : s.link.stopsAt dest
  · by_cases hst : s.link.st = .streaming
    · rcases h with hc | ⟨hc, rfl⟩
      · rw [State.stopBurst_write hc hst]
        rfl
      · obtain ⟨b, parts, -⟩ := State.stopBurst_read hc hst
        rw [parts]
        rfl
    · by_cases he : s.link.st = .stopping ∨ s.link.st = .checking
      · rw [State.stopBurst_ends h he]
      · rw [State.stopBurst_goes (.inr ⟨hst, fun e => he (.inl e), fun e => he (.inr e)⟩)]
  · rw [State.stopBurst_goes (.inl h)]

/-! ### The units of the queue (04 R76, 09 R136) -/

/-- The slot of a GUARDED unit. -/
def Owner.slotNo : Owner → Option Nat
  | .guarded n => some n
  | .checked _ => none

/-- Slot n with its unit ABANDONED. -/
def State.gone (s : State) (n : Nat) : GroupSlot :=
  { s.slot n with st := .abandoned, firstError := some { cause := .verdict .stopped, ordinal := none, start := none } }

/-- From s to t the units of the slots `ns` are ABANDONED, one after the other. -/
structure UnitsAbandoned (s t : State) (ns : List Nat) : Prop where
  slots : ∀ n, t.slot n = if n ∈ ns then s.gone n else s.slot n
  pendPost : t.outcomes.pendPost = s.outcomes.pendPost ++ ns.map fun n => (s.gone n).outcome n .abandoned none

/-- What abandoning units leaves. -/
theorem abandonAll_parts (us : List CommitUnit) (s : State) :
    us.foldl State.abandonUnit s = { s with
      groups := { s.groups with slots := (us.foldl State.abandonUnit s).groups.slots }
      outcomes := { s.outcomes with pendPost := (us.foldl State.abandonUnit s).outcomes.pendPost } } := by
  induction us generalizing s with
  | nil => rfl
  | cons u us ih =>
    rw [List.foldl_cons]
    refine (ih (s.abandonUnit u)).trans ?_
    unfold State.abandonUnit
    cases u.owner with
    | guarded n => rfl
    | checked r => rfl

theorem State.abandonSlot_slot {s : State} {n : Nat} (hn : n < s.groups.slots.length) (k : Nat) :
    (s.abandonSlot n).slot k = if k = n then s.gone n else s.slot k := State.updSlot_slot s n k _ hn

theorem State.abandonSlot_other (s : State) {n k : Nat} (hk : k ≠ n) : (s.abandonSlot n).slot k = s.slot k :=
  State.updSlot_other s n k _ hk

/-- A slot that no unit of the list owns keeps its place. -/
theorem abandonAll_other {us : List CommitUnit} {s : State} {n : Nat} (h : ∀ u ∈ us, u.owner ≠ .guarded n) :
    (us.foldl State.abandonUnit s).slot n = s.slot n := by
  induction us generalizing s with
  | nil => rfl
  | cons u us ih =>
    refine (ih fun x hx => h x (List.mem_cons_of_mem _ hx)).trans ?_
    unfold State.abandonUnit
    cases ho : u.owner with
    | checked r => rfl
    | guarded m => exact s.abandonSlot_other fun e => h u List.mem_cons_self (by rw [ho, e])

/-- Units of different slots, abandoned in the order of the list. -/
theorem abandonAll_abandoned {us : List CommitUnit} {s : State} (nodup : (us.filterMap fun u => u.owner.slotNo).Nodup)
    (hlt : ∀ n ∈ us.filterMap fun u => u.owner.slotNo, n < s.groups.slots.length) :
    UnitsAbandoned s (us.foldl State.abandonUnit s) (us.filterMap fun u => u.owner.slotNo) := by
  induction us generalizing s with
  | nil => exact ⟨fun _ => rfl, by simp⟩
  | cons u us ih =>
    cases ho : u.owner with
    | checked r =>
      have same : s.abandonUnit u = s := by
        unfold State.abandonUnit
        rw [ho]
      have skip : (u :: us).filterMap (fun u => u.owner.slotNo) = us.filterMap fun u => u.owner.slotNo :=
        List.filterMap_cons_none (by rw [ho]; rfl)
      rw [skip] at nodup hlt ⊢
      rw [List.foldl_cons, same]
      exact ih nodup hlt
    | guarded n =>
      have first : s.abandonUnit u = s.abandonSlot n := by
        unfold State.abandonUnit
        rw [ho]
      have takes : (u :: us).filterMap (fun u => u.owner.slotNo) = n :: us.filterMap fun u => u.owner.slotNo :=
        List.filterMap_cons_some (by rw [ho]; rfl)
      rw [takes] at nodup hlt ⊢
      obtain ⟨fresh, nodup⟩ := List.nodup_cons.1 nodup
      have slot := State.abandonSlot_slot (hlt n List.mem_cons_self)
      have length : (s.abandonSlot n).groups.slots.length = s.groups.slots.length := upd_length _ _ _
      obtain ⟨slots, pendPost⟩ := ih (s := s.abandonSlot n) nodup fun k hk => by
        rw [length]
        exact hlt k (List.mem_cons_of_mem _ hk)
      have gone : ∀ k, k ≠ n → (s.abandonSlot n).gone k = s.gone k := fun k hk => by
        rw [State.gone, slot, if_neg hk]
        rfl
      rw [List.foldl_cons, first]
      refine ⟨fun k => ?_, ?_⟩
      · rw [slots, slot]
        by_cases hk : k = n
        · subst hk
          rw [if_neg fresh, if_pos rfl, if_pos List.mem_cons_self]
        · rw [gone k hk, if_neg hk]
          simp only [List.mem_cons, hk, false_or]
      · rw [pendPost, show (s.abandonSlot n).outcomes.pendPost = s.outcomes.pendPost ++ [(s.gone n).outcome n .abandoned none] from rfl,
          List.append_assoc]
        refine congrArg (fun x => s.outcomes.pendPost ++ ((s.gone n).outcome n .abandoned none :: x)) ?_
        exact List.map_congr_left fun k hk => by rw [gone k fun e => fresh (e ▸ hk)]

/-- The units that an entry drops and abandons (04 R76). -/
def State.droppedUnits (s : State) (dest : OpState) : List CommitUnit :=
  s.queue.filter fun u => u.isGuarded && !u.kept (dest == .halted && s.markOutstanding)

theorem State.settleUnits_eq (s : State) (dest : OpState) :
    s.settleUnits dest = { s with
      groups := { s.groups with slots := ((s.droppedUnits dest).foldl State.abandonUnit s).groups.slots }
      outcomes := { s.outcomes with pendPost := ((s.droppedUnits dest).foldl State.abandonUnit s).outcomes.pendPost }
      queue := s.queue.filter fun u => u.kept (dest == .halted && s.markOutstanding) } := by
  have parts := abandonAll_parts (s.droppedUnits dest) s
  show ((s.droppedUnits dest).foldl State.abandonUnit s).setQueue _ = _
  generalize (s.droppedUnits dest).foldl State.abandonUnit s = t at *
  rw [parts]
  rfl

/-! ### The engines and recovery (03 R60, 04 R69, R75, 06 R107, 11 R172) -/

theorem State.stopEngines_eq (s : State) :
    s.stopEngines = { s with
      journal := { s.journal with
        inFlight := if s.port.waitAnchor then none else s.journal.inFlight, blockReq := none, skipGrant := none }
      commit := { s.commit with st := .stopped }, apply := { s.apply with st := .stopped }
      port := { s.port with waitDirect := [], waitCommit := [], waitAnchor := false, waitApply := [], waitRecovery := none } } := rfl

/-- The summary after an entry: a run of recovery under way takes its status. -/
def State.stoppedSummary (s : State) (rs : RecStatus) : Summary :=
  if s.ctrl.opState = .recovering then { s.ctrl.summary with status := rs } else s.ctrl.summary

theorem State.stopRecovery_eq (s : State) (rs : RecStatus) :
    s.stopRecovery rs = { s with
      recovery := if s.ctrl.opState = .recovering then {} else s.recovery, ctrl := { s.ctrl with summary := s.stoppedSummary rs } } := by
  unfold State.stopRecovery State.stoppedSummary
  by_cases h : s.ctrl.opState = .recovering
  · simp only [if_pos h]
    rfl
  · simp only [if_neg h]

/-! ### The entry before its DIRECT write is settled -/

/-- The groups of an entry settled: the burst stopped and the OPEN groups rejected. -/
def State.groupsStopped (s : State) (dest : OpState) : State :=
  (s.stopBurst dest).rejectOpen (.verdict .stopped) (s.stopBurst dest).link.slot

/-- The state of an entry before its DIRECT write is settled. -/
def State.allStopped (s : State) (dest : OpState) (rs : RecStatus) : State :=
  let s3 := (((s.groupsStopped dest).settleUnits dest).stopEngines).stopRecovery rs
  s3.setCtrl { s3.ctrl with opState := dest }

theorem State.enterStopped_eq (s : State) (dest : OpState) (rs : RecStatus) :
    s.enterStopped dest rs = (s.allStopped dest rs).settleDirect := by
  unfold State.enterStopped State.allStopped State.groupsStopped
  dsimp only

theorem State.openSlots_congr {s t : State} (h : t.groups.slots = s.groups.slots) (spared : Option Nat) (k : Nat) :
    t.openSlots spared k = s.openSlots spared k := by
  unfold State.openSlots
  simp only [State.slot_congr h]

/-- What the entry does to the groups up to the units of the queue. -/
theorem State.groupsStopped_rejected {s : State} (dest : OpState) (hh : s.ctrl.opState ≠ .held) :
    SlotsRejected (s.stopBurst dest) (s.groupsStopped dest) (s.openSlots s.link.slot 8) (.verdict .stopped) := by
  have parts := s.stopBurst_parts dest
  have rejected := State.rejectOpen_slots (s := s.stopBurst dest) (.verdict .stopped) (s.stopBurst dest).link.slot
    (by rw [parts]; exact hh)
  rw [State.stopBurst_slot, State.openSlots_congr (s := s) (by rw [parts])] at rejected
  unfold State.groupsStopped
  rw [State.stopBurst_slot]
  exact rejected

theorem State.groupsStopped_parts {s : State} (dest : OpState) (hh : s.ctrl.opState ≠ .held) :
    s.groupsStopped dest = { s with
      link := (s.stopBurst dest).link, reads := (s.stopBurst dest).reads
      staging := (s.groupsStopped dest).staging, groups := (s.groupsStopped dest).groups
      outcomes := { s.outcomes with pendPost := (s.groupsStopped dest).outcomes.pendPost }
      attn := { s.attn with flags := s.attn.flags ||| flagAt 12 (!(s.openSlots s.link.slot 8).isEmpty) }
      port := { s.port with waitRead := (s.stopBurst dest).port.waitRead } } := by
  have burst := s.stopBurst_parts dest
  have rejected := (State.groupsStopped_rejected (s := s) dest hh).parts
  have outcomes := (State.groupsStopped_rejected (s := s) dest hh).outcomes
  generalize s.groupsStopped dest = g at *
  generalize s.stopBurst dest = b at *
  have pend : g.outcomes = { s.outcomes with pendPost := g.outcomes.pendPost } := by
    rw [outcomes, burst]
  rw [← pend]
  refine rejected.trans ?_
  rw [burst]

/-- The units, the engines and recovery settled behind the groups. -/
theorem State.unitsStopped_parts (g : State) (dest : OpState) (rs : RecStatus) :
    ((g.settleUnits dest).stopEngines.stopRecovery rs).setCtrl
        { ((g.settleUnits dest).stopEngines.stopRecovery rs).ctrl with opState := dest } =
      { g with
        groups := (g.settleUnits dest).groups, outcomes := { g.outcomes with pendPost := (g.settleUnits dest).outcomes.pendPost }
        queue := g.queue.filter fun u => u.kept (dest == .halted && g.markOutstanding)
        journal := { g.journal with
          inFlight := if g.port.waitAnchor then none else g.journal.inFlight, blockReq := none, skipGrant := none }
        commit := { g.commit with st := .stopped }, apply := { g.apply with st := .stopped }
        recovery := if g.ctrl.opState = .recovering then {} else g.recovery
        ctrl := { g.ctrl with opState := dest, summary := g.stoppedSummary rs }
        port := { g.port with waitDirect := [], waitCommit := [], waitAnchor := false, waitApply := [], waitRecovery := none } } := by
  have units := g.settleUnits_eq dest
  rw [State.stopRecovery_eq, State.stopEngines_eq]
  generalize g.settleUnits dest = b at *
  subst units
  rfl

/-- Every part of the state after an entry, but what its DIRECT write does (10 R159, R161). -/
theorem State.allStopped_parts {s : State} (dest : OpState) (rs : RecStatus) (hh : s.ctrl.opState ≠ .held) :
    s.allStopped dest rs = { s with
      link := (s.stopBurst dest).link, reads := (s.stopBurst dest).reads
      staging := (s.allStopped dest rs).staging, groups := (s.allStopped dest rs).groups
      outcomes := { s.outcomes with pendPost := (s.allStopped dest rs).outcomes.pendPost }
      attn := { s.attn with flags := s.attn.flags ||| flagAt 12 (!(s.openSlots s.link.slot 8).isEmpty) }
      queue := s.queue.filter fun u => u.kept (dest == .halted && s.markOutstanding)
      journal := { s.journal with
        inFlight := if s.port.waitAnchor then none else s.journal.inFlight, blockReq := none, skipGrant := none }
      commit := { s.commit with st := .stopped }, apply := { s.apply with st := .stopped }
      recovery := if s.ctrl.opState = .recovering then {} else s.recovery
      ctrl := { s.ctrl with opState := dest, summary := s.stoppedSummary rs }
      port := { s.port with
        waitRead := (s.stopBurst dest).port.waitRead, waitDirect := [], waitCommit := [], waitAnchor := false, waitApply := []
        waitRecovery := none } } := by
  have groups := State.groupsStopped_parts (s := s) dest hh
  have units : s.allStopped dest rs = _ := (s.groupsStopped dest).unitsStopped_parts dest rs
  generalize s.allStopped dest rs = t at *
  generalize s.groupsStopped dest = g at *
  generalize (g.settleUnits dest).groups = unitGroups at *
  generalize (g.settleUnits dest).outcomes.pendPost = unitPosts at *
  subst units
  obtain ⟨staging, slots, pend, rfl⟩ : ∃ staging slots pend, g = { s with
      link := (s.stopBurst dest).link, reads := (s.stopBurst dest).reads
      staging := staging, groups := slots, outcomes := { s.outcomes with pendPost := pend }
      attn := { s.attn with flags := s.attn.flags ||| flagAt 12 (!(s.openSlots s.link.slot 8).isEmpty) }
      port := { s.port with waitRead := (s.stopBurst dest).port.waitRead } } := ⟨_, _, _, groups⟩
  rfl

end Sys2Proof.Machine
end

