-- ==== Sys2Proof/Proofs/StopSettled.lean ====
section
/-! PROOF. The state after the entry to FAULTED or HALTED: what it keeps, and the burst in progress (spec/10 R159, R161, spec/07 R125,
spec/06 R107). -/

namespace Sys2Proof.Machine

/-! ### The end of a DIRECT write at the entry (06 R107) -/

theorem State.driveReceipt_parts (s : State) (v : Verdict) (c : Bool) :
    s.driveReceipt v c = { s with
      link := {}, out := { s.out with receipt := some (receiptWord v s.link.tag c s.link.count) }
      groups := { s.groups with slots := (s.driveReceipt v c).groups.slots }, ctrl := s.ctrl.fallDue } := by
  unfold State.driveReceipt
  dsimp only
  split
  · rw [State.startIdle_eq]
    rfl
  · rfl

/-- A burst of tag 0 has no group whose timer could start. -/
theorem State.driveReceipt_tagZero {s : State} (v : Verdict) (c : Bool) (ht : s.link.tag = 0) :
    (s.driveReceipt v c).groups = s.groups := by
  have closed : ∀ n, (s.setOut { s.out with receipt := some (receiptWord v s.link.tag c s.link.count) }).tag s.link.tag ≠ .opened n :=
    fun n => by
      rw [State.tag_zero_free ht]
      exact nofun
  unfold State.driveReceipt
  dsimp only
  rw [State.startIdle_closed _ _ closed]
  split <;> rfl

/-- The reports of a DIRECT write that ends. -/
def State.directReports (s : State) : BitVec 16 :=
  flagAt 8 (s.link.directVerdict == .checkFail && s.ctrl.opState != .held) |||
    flagAt 9 (s.link.directVerdict == .checkFail && s.ctrl.opState != .held)

/-- The DIRECT write ends now: its exchange is over, and every request of it has completed. -/
def State.directEnds (s : State) : Prop :=
  s.link.directWrite = true ∧ s.link.st = .checking ∧ s.link.handshake = none ∧ s.directDone = true

theorem State.settleDirect_over {s : State} (h : s.directEnds) :
    s.settleDirect = (s.setAttn { s.attn with flags := s.attn.flags ||| s.directReports }).driveReceipt s.link.directVerdict false := by
  refine (if_pos h).trans (congrArg (fun x : State => x.driveReceipt s.link.directVerdict false) ?_)
  rw [State.reportIf_eq, State.reportIf_eq]
  simp only [State.directReports, Event.pos, BitVec.or_assoc]
  rfl

theorem State.settleDirect_goes {s : State} (h : ¬ s.directEnds) : s.settleDirect = s := if_neg h

/-- What the settling of a DIRECT write leaves. -/
theorem State.settleDirect_parts (s : State) :
    s.settleDirect = { s with
      link := s.settleDirect.link, out := s.settleDirect.out
      groups := { s.groups with slots := s.settleDirect.groups.slots }
      ctrl := { s.ctrl with holdWritten := s.settleDirect.ctrl.holdWritten, holdDue := s.settleDirect.ctrl.holdDue }
      attn := { s.attn with flags := s.settleDirect.attn.flags } } := by
  by_cases h : s.directEnds
  · rw [State.settleDirect_over h, State.driveReceipt_parts]
    rfl
  · rw [State.settleDirect_goes h]

/-- Its reports are CHECK_FAIL_SEEN and DIRECT_CHECK_FAIL alone. -/
theorem State.settleDirect_flags {s : State} {i : Nat} (h8 : i ≠ 8) (h9 : i ≠ 9) :
    s.settleDirect.attn.flags.getLsbD i = s.attn.flags.getLsbD i := by
  by_cases h : s.directEnds
  · rw [State.settleDirect_over h, State.driveReceipt_parts]
    show (s.attn.flags ||| s.directReports).getLsbD i = _
    rw [State.directReports, BitVec.getLsbD_or, BitVec.getLsbD_or, flagAt_getLsbD _ _ _ (by decide), flagAt_getLsbD _ _ _ (by decide)]
    simp [h8, h9]
  · rw [State.settleDirect_goes h]

/-- A DIRECT write of tag 0 ends without a trace in the groups. -/
theorem State.settleDirect_groups {s : State} (ht : s.directEnds → s.link.tag = 0) : s.settleDirect.groups = s.groups := by
  by_cases h : s.directEnds
  · rw [State.settleDirect_over h]
    exact State.driveReceipt_tagZero (s := s.setAttn _) _ _ (ht h)
  · rw [State.settleDirect_goes h]

/-- A DIRECT write whose verdict is not CHECK_FAIL ends without a report. -/
theorem State.settleDirect_attn {s : State} (hv : s.directEnds → s.link.directVerdict ≠ .checkFail) : s.settleDirect.attn = s.attn := by
  by_cases h : s.directEnds
  · have passes : (s.link.directVerdict == .checkFail) = false := by simpa using hv h
    have reports : s.directReports = 0 := by simp [State.directReports, passes]
    rw [State.settleDirect_over h, State.driveReceipt_parts, reports]
    show ({ s.attn with flags := s.attn.flags ||| 0 } : Attn) = s.attn
    simp
  · rw [State.settleDirect_goes h]

/-- What an entry leaves: its DIRECT write may end, and all else is as the stages before have it. -/
theorem State.enterStopped_parts {s : State} (dest : OpState) (rs : RecStatus) (hh : s.ctrl.opState ≠ .held) :
    s.enterStopped dest rs = { s with
      link := (s.enterStopped dest rs).link, out := (s.enterStopped dest rs).out, reads := (s.stopBurst dest).reads
      staging := (s.enterStopped dest rs).staging, groups := (s.enterStopped dest rs).groups
      outcomes := { s.outcomes with pendPost := (s.enterStopped dest rs).outcomes.pendPost }
      attn := { s.attn with flags := (s.enterStopped dest rs).attn.flags }
      queue := s.queue.filter fun u => u.kept (dest == .halted && s.markOutstanding)
      journal := { s.journal with
        inFlight := if s.port.waitAnchor then none else s.journal.inFlight, blockReq := none, skipGrant := none }
      commit := { s.commit with st := .stopped }, apply := { s.apply with st := .stopped }
      recovery := if s.ctrl.opState = .recovering then {} else s.recovery
      ctrl := { s.ctrl with
        opState := dest, summary := s.stoppedSummary rs, holdWritten := (s.enterStopped dest rs).ctrl.holdWritten
        holdDue := (s.enterStopped dest rs).ctrl.holdDue }
      port := { s.port with
        waitRead := (s.stopBurst dest).port.waitRead, waitDirect := [], waitCommit := [], waitAnchor := false, waitApply := []
        waitRecovery := none } } := by
  have parts := State.allStopped_parts dest rs hh
  have settled := (s.allStopped dest rs).settleDirect_parts
  rw [← State.enterStopped_eq] at settled
  generalize s.enterStopped dest rs = t at *
  generalize s.allStopped dest rs = a at *
  obtain ⟨link, out, slots, written, due, flags, rfl⟩ : ∃ link out slots written due flags, t = { a with
      link := link, out := out, groups := { a.groups with slots := slots }
      ctrl := { a.ctrl with holdWritten := written, holdDue := due }, attn := { a.attn with flags := flags } } :=
    ⟨_, _, _, _, _, _, settled⟩
  clear settled
  rw [parts]

theorem State.allStopped_groups (s : State) (dest : OpState) (rs : RecStatus) :
    (s.allStopped dest rs).staging = (s.groupsStopped dest).staging ∧
      (s.allStopped dest rs).groups = ((s.groupsStopped dest).settleUnits dest).groups ∧
      (s.allStopped dest rs).outcomes.pendPost = ((s.groupsStopped dest).settleUnits dest).outcomes.pendPost := by
  have units : s.allStopped dest rs = _ := (s.groupsStopped dest).unitsStopped_parts dest rs
  rw [units]
  dsimp only
  exact ⟨rfl, rfl, rfl⟩

theorem State.enterStopped_staging (s : State) (dest : OpState) (rs : RecStatus) :
    (s.enterStopped dest rs).staging = (s.groupsStopped dest).staging := by
  rw [State.enterStopped_eq, State.settleDirect_parts, ← (s.allStopped_groups dest rs).1]

theorem State.enterStopped_ram {s : State} (dest : OpState) (rs : RecStatus) (hh : s.ctrl.opState ≠ .held) :
    (s.enterStopped dest rs).staging.ram = s.staging.ram := by
  rw [State.enterStopped_staging, (State.groupsStopped_rejected dest hh).ram, State.stopBurst_parts]

/-- The entry itself reports at most rejected groups and the CHECK_FAIL of a DIRECT write. -/
theorem State.enterStopped_flags {s : State} {i : Nat} (dest : OpState) (rs : RecStatus) (hh : s.ctrl.opState ≠ .held) (h8 : i ≠ 8)
    (h9 : i ≠ 9) (h12 : i ≠ 12) : (s.enterStopped dest rs).attn.flags.getLsbD i = s.attn.flags.getLsbD i := by
  rw [State.enterStopped_eq, State.settleDirect_flags h8 h9, State.allStopped_parts dest rs hh]
  show (s.attn.flags ||| flagAt 12 _).getLsbD i = _
  rw [BitVec.getLsbD_or, flagAt_getLsbD _ _ _ (by decide)]
  simp [h12]

/-! ### The burst in progress behind the entry (07 R125) -/

theorem State.enterStopped_link {s : State} {dest : OpState} {rs : RecStatus} (hh : s.ctrl.opState ≠ .held)
    (h : ¬ (s.allStopped dest rs).directEnds) :
    (s.enterStopped dest rs).link = (s.stopBurst dest).link ∧ (s.enterStopped dest rs).out = s.out := by
  rw [State.enterStopped_eq, State.settleDirect_goes h, State.allStopped_parts dest rs hh]
  exact ⟨rfl, rfl⟩

theorem State.allStopped_directEnds {s : State} {dest : OpState} {rs : RecStatus} (hh : s.ctrl.opState ≠ .held) :
    (s.allStopped dest rs).directEnds ↔
      (s.stopBurst dest).link.directWrite = true ∧ (s.stopBurst dest).link.st = .checking ∧ (s.stopBurst dest).link.handshake = none ∧
        ∀ x ∈ s.port.outstanding, ¬(x.requester = .direct ∧ x.disposition = .take) := by
  unfold State.directEnds
  rw [State.directDone_iff, State.allStopped_parts dest rs hh]
  simp only [true_and]

/-- The verdict of a DIRECT write that the entry ends is its pending verdict, or STOPPED (06 R107; log 19). -/
theorem Link.directVerdict_stopped {l : Link} : { l with pendVerdict := l.stoppedVerdict }.directVerdict = l.pendVerdict.getD .stopped := by
  unfold Link.directVerdict Link.settle Link.stoppedVerdict
  cases l.exchange <;> cases l.pendVerdict <;> rfl

theorem Link.stopsAt_of_direct {l : Link} (dest : OpState) (h : l.directWrite = true) : l.stopsAt dest :=
  .inl (Link.directWrite_iff.1 h).1

theorem spansDropped_congr {s t u : State} (hr : u.reads = t.reads) (hw : u.port.waitRead = t.port.waitRead) (h : spansDropped s t) :
    spansDropped s u := by
  unfold spansDropped State.span at *
  rwa [hr, hw]

theorem State.stopBurst_reads {s : State} {dest : OpState}
    (h : ¬ (s.link.st = .streaming ∧ s.link.commonRead = true ∧ dest = .halted)) :
    (s.stopBurst dest).reads = s.reads ∧ (s.stopBurst dest).port.waitRead = s.port.waitRead := by
  by_cases hs : s.link.stopsAt dest
  · by_cases hst : s.link.st = .streaming
    · have hc : s.link.commonWrite = true := hs.resolve_right fun hr => h ⟨hst, hr.1, hr.2⟩
      rw [State.stopBurst_write hc hst]
      exact ⟨rfl, rfl⟩
    · by_cases he : s.link.st = .stopping ∨ s.link.st = .checking
      · rw [State.stopBurst_ends hs he]
        exact ⟨rfl, rfl⟩
      · rw [State.stopBurst_goes (.inr ⟨hst, fun e => he (.inl e), fun e => he (.inr e)⟩)]
        exact ⟨rfl, rfl⟩
  · rw [State.stopBurst_goes (.inl hs)]
    exact ⟨rfl, rfl⟩

theorem State.stopBurst_streamed {s : State} {dest : OpState} (h : s.link.stopsAt dest) (hst : s.link.st = .streaming) :
    (s.stopBurst dest).link = { stoppingLink s s.link.stoppedVerdict false with collecting := [] } := by
  rcases h with hc | ⟨hc, rfl⟩
  · rw [State.stopBurst_write hc hst]
  · obtain ⟨b, parts, -⟩ := State.stopBurst_read hc hst
    rw [parts]

/-- From s to t the burst in progress is stopped as the entry to FAULTED or HALTED does it. -/
theorem State.enterStopped_burst {s : State} {dest : OpState} {rs : RecStatus} {halts : Bool} (hh : s.ctrl.opState ≠ .held)
    (hd : dest = .halted ↔ halts = true) : burstStopped s (s.enterStopped dest rs) halts := by
  have parts := State.enterStopped_parts (s := s) dest rs hh
  have outstanding : (s.enterStopped dest rs).port.outstanding = s.port.outstanding := by rw [parts]
  have reads : (s.enterStopped dest rs).reads = (s.stopBurst dest).reads := by rw [parts]
  have waiting : (s.enterStopped dest rs).port.waitRead = (s.stopBurst dest).port.waitRead := by rw [parts]
  unfold burstStopped
  intro stops pv ends
  have stopsIff : s.link.stopsAt dest ↔ stops := or_congr_right (and_congr_right fun _ => hd)
  have endsIff : (s.allStopped dest rs).directEnds ↔ ends := by
    rw [State.allStopped_directEnds hh, ← outstanding]
    by_cases hst : s.link.st = .checking
    · by_cases hs : s.link.stopsAt dest
      · rw [State.stopBurst_ends hs (.inr hst)]
        rfl
      · rw [State.stopBurst_goes (.inl hs)]
    · refine iff_of_false (fun h => ?_) fun h => hst h.2.1
      by_cases hs : s.link.stopsAt dest ∧ s.link.st = .streaming
      · rw [State.stopBurst_streamed hs.1 hs.2] at h
        exact nomatch h.2.1
      · by_cases hp : s.link.stopsAt dest ∧ s.link.st = .stopping
        · rw [State.stopBurst_ends hp.1 (.inl hp.2)] at h
          exact hst h.2.1
        · rw [State.stopBurst_goes (by tauto)] at h
          exact hst h.2.1
  refine ⟨?_, fun hs hst => ?_, fun hs hn hst => ?_, fun he h1 => ?_, fun hs => ?_⟩
  · split
    next h =>
      obtain ⟨b, -, dropped⟩ := State.stopBurst_read h.2.1 h.1
      rw [← hd] at h
      rw [h.2.2] at reads waiting ⊢
      exact spansDropped_congr reads waiting dropped
    next h =>
      rw [← hd] at h
      rw [reads, waiting]
      exact State.stopBurst_reads h
  · have streamed := State.stopBurst_streamed (stopsIff.2 hs) hst
    have link := State.enterStopped_link (s := s) (dest := dest) (rs := rs) hh fun he => by
      rw [State.allStopped_directEnds hh, streamed] at he
      exact nomatch he.2.1
    rw [streamed] at link
    exact link
  · have stopped := State.stopBurst_ends (stopsIff.2 hs) hst
    have link := State.enterStopped_link (rs := rs) hh (mt endsIff.1 hn)
    rw [stopped] at link
    exact link
  · have stopped := State.stopBurst_ends (Link.stopsAt_of_direct dest he.1) (.inr he.2.1)
    have ended := State.settleDirect_over (endsIff.2 he)
    have before : (s.allStopped dest rs).link = { s.link with pendVerdict := s.link.stoppedVerdict } ∧
        (s.allStopped dest rs).out = s.out := by
      rw [State.allStopped_parts dest rs hh]
      exact ⟨by rw [stopped], rfl⟩
    rw [← State.enterStopped_eq, State.driveReceipt_parts] at ended
    dsimp only [State.setAttn] at ended
    rw [before.1, before.2, Link.directVerdict_stopped] at ended
    generalize s.enterStopped dest rs = t at ended ⊢
    rw [ended]
    exact ⟨rfl, rfl⟩
  · rw [← stopsIff] at hs
    have goes := State.stopBurst_goes (s := s) (dest := dest) hs
    have link := State.enterStopped_link (s := s) (dest := dest) (rs := rs) hh fun he => by
      have he := endsIff.1 he
      rcases hs with hs | ⟨-, -, hs⟩
      · exact hs (Link.stopsAt_of_direct dest he.1)
      · exact hs he.2.1
    rw [goes] at link
    exact link

end Sys2Proof.Machine
end

