-- ==== Sys2Proof/Proofs/StoppedGroups.lean ====
section
/-! PROOF. The groups and the units after the entry to FAULTED or HALTED (spec/02 R40, spec/04 R76, spec/09 R136). -/

namespace Sys2Proof.Machine

/-! ### The groups and the units behind the entry (02 R40, 04 R76, 09 R136) -/

/-- A DIRECT write that ends at the entry is the burst in progress, its pending verdict set. -/
theorem State.allStopped_ends {s : State} {dest : OpState} {rs : RecStatus} (hh : s.ctrl.opState ≠ .held)
    (h : (s.allStopped dest rs).directEnds) :
    s.link.directWrite = true ∧ (s.allStopped dest rs).link = { s.link with pendVerdict := s.link.stoppedVerdict } := by
  obtain ⟨direct, st, -, -⟩ := (State.allStopped_directEnds hh).1 h
  have link : (s.allStopped dest rs).link = (s.stopBurst dest).link := by rw [State.allStopped_parts dest rs hh]
  have stopped : s.link.stopsAt dest ∧ s.link.st = .checking := by
    by_cases hs : s.link.stopsAt dest
    · by_cases hst : s.link.st = .streaming
      · rw [State.stopBurst_streamed hs hst] at st
        exact nomatch st
      · refine ⟨hs, ?_⟩
        by_cases he : s.link.st = .stopping ∨ s.link.st = .checking
        · rw [State.stopBurst_ends hs he] at st
          exact st
        · rw [State.stopBurst_goes (.inr ⟨hst, fun e => he (.inl e), fun e => he (.inr e)⟩)] at st
          exact st
    · rw [State.stopBurst_goes (.inl hs)] at direct
      exact absurd (Link.stopsAt_of_direct dest direct) hs
  have ends := State.stopBurst_ends stopped.1 (.inr stopped.2)
  rw [ends] at direct
  rw [link, ends]
  exact ⟨direct, rfl⟩

theorem State.enterStopped_groups {s : State} (dest : OpState) (rs : RecStatus) (hh : s.ctrl.opState ≠ .held)
    (ht : s.link.directWrite = true → s.link.tag = 0) :
    (s.enterStopped dest rs).groups = ((s.groupsStopped dest).settleUnits dest).groups := by
  rw [State.enterStopped_eq, ← (s.allStopped_groups dest rs).2.1]
  refine State.settleDirect_groups fun he => ?_
  obtain ⟨direct, link⟩ := State.allStopped_ends hh he
  rw [link]
  exact ht direct

theorem State.enterStopped_pendPost (s : State) (dest : OpState) (rs : RecStatus) :
    (s.enterStopped dest rs).outcomes.pendPost = ((s.groupsStopped dest).settleUnits dest).outcomes.pendPost := by
  rw [← (s.allStopped_groups dest rs).2.2, State.enterStopped_eq, State.settleDirect_parts]

theorem State.enterStopped_attn {s : State} (dest : OpState) (rs : RecStatus) (hh : s.ctrl.opState ≠ .held)
    (hv : s.link.pendVerdict ≠ some .checkFail) :
    (s.enterStopped dest rs).attn = { s.attn with flags := s.attn.flags ||| flagAt 12 (!(lostGroups s).isEmpty) } := by
  have before : (s.allStopped dest rs).attn = { s.attn with flags := s.attn.flags ||| flagAt 12 (!(lostGroups s).isEmpty) } := by
    rw [State.allStopped_parts dest rs hh]
    rfl
  rw [← before, State.enterStopped_eq]
  refine State.settleDirect_attn fun he => ?_
  rw [(State.allStopped_ends hh he).2, Link.directVerdict_stopped]
  cases hp : s.link.pendVerdict with
  | none => exact nofun
  | some v => exact fun e => hv (hp.trans (congrArg some e))

theorem State.droppedUnits_groupsStopped {s : State} (dest : OpState) (hh : s.ctrl.opState ≠ .held) :
    (s.groupsStopped dest).droppedUnits dest = s.droppedUnits dest := by
  rw [State.groupsStopped_parts dest hh]
  rfl

theorem State.settleUnits_slot (s : State) (dest : OpState) (n : Nat) :
    (s.settleUnits dest).slot n = ((s.droppedUnits dest).foldl State.abandonUnit s).slot n :=
  State.slot_congr (by rw [State.settleUnits_eq]) n

/-- The OPEN explicit group of a slot that no unit owns is rejected. -/
theorem State.enterStopped_slot {s : State} {n : Nat} (dest : OpState) (rs : RecStatus) (hh : s.ctrl.opState ≠ .held) (hn : n < 8)
    (ho : (s.slot n).openExplicit = true) (hl : s.link.slot ≠ some n) (hu : ∀ u ∈ s.queue, u.owner ≠ .guarded n)
    (ht : s.link.directWrite = true → s.link.tag = 0) :
    (s.enterStopped dest rs).slot n = rejectedSlot s n (bareError (.verdict .stopped)) := by
  have hit : n ∈ s.openSlots s.link.slot 8 := by
    simp only [State.openSlots, List.mem_filter, List.mem_range, Bool.and_eq_true, bne_iff_ne]
    exact ⟨hn, ho, hl⟩
  have burst : (s.stopBurst dest).slot n = s.slot n := State.slot_congr (by rw [State.stopBurst_parts]) n
  have rejected := (State.groupsStopped_rejected dest hh).slots n
  have dropped : ∀ u ∈ s.droppedUnits dest, u.owner ≠ .guarded n := fun u h => hu u (List.mem_of_mem_filter h)
  rw [State.slot_congr (congrArg Groups.slots (State.enterStopped_groups dest rs hh ht)), State.settleUnits_slot,
    State.droppedUnits_groupsStopped dest hh, abandonAll_other dropped, rejected, if_pos hit,
    rejectedSlot, burst]
  rfl

theorem Owner.slotNo_eq {w : Owner} {n : Nat} (h : w.slotNo = some n) : w = .guarded n := by
  cases w with
  | guarded m => exact congrArg Owner.guarded (Option.some.inj h)
  | checked r => exact nomatch h

/-- The slots of the units dropped, in queue order. -/
theorem lostUnits_eq {s : State} {dest : OpState} {halts : Bool} (hd : dest = .halted ↔ halts = true) :
    lostUnits s halts = (s.droppedUnits dest).filterMap fun u => u.owner.slotNo := by
  have halted : (dest == .halted) = halts := Bool.eq_iff_iff.2 (beq_iff_eq.trans hd)
  unfold lostUnits State.droppedUnits
  rw [halted]
  dsimp only [State.markOutstanding]
  generalize (halts && s.port.outstanding.any fun o => o.role == .mark && o.disposition == .take) = markOut
  rw [List.filterMap_filter]
  refine List.filterMap_congr fun u _ => ?_
  cases ho : u.owner with
  | checked r => simp [Owner.slotNo]
  | guarded n =>
    have guarded : u.isGuarded = true := by simp [CommitUnit.isGuarded, ho]
    cases hs : u.stage <;> cases markOut <;> simp [CommitUnit.kept, guarded, hs, Owner.slotNo]

/-- What `groupsLost` says of the state that the Attention Unit then settles: the groups of the slots `hit` are REJECTED and the units of
the slots `lost` ABANDONED. -/
structure EntryLost (s t : State) (hit lost : List Nat) : Prop where
  slots : ∀ n, t.slot n =
    if n ∈ hit then rejectedSlot s n (bareError (.verdict .stopped)) else if n ∈ lost then s.gone n else s.slot n
  fenced : ∀ n ∈ hit, t.tag (s.slot n).tag = .fencedSlot n
  tags : ∀ g, (∀ n ∈ hit, (s.slot n).tag ≠ g) → t.tag g = s.tag g
  closes : t.groups.closeCounter = s.groups.closeCounter
  records : ∀ r, t.record r = if (hit.any fun n => (s.slot n).members.contains r) = true then {} else s.record r
  ram : t.staging.ram = s.staging.ram
  outcomes : t.outcomes = { s.outcomes with
    pendPost := s.outcomes.pendPost ++
      (hit.map fun n => (rejectedSlot s n (bareError (.verdict .stopped))).outcome n .rejected none) ++
      lost.map fun n => (s.gone n).outcome n .abandoned none }

theorem EntryLost.groupsLost {s t : State} {halts : Bool} (h : EntryLost s t (lostGroups s) (lostUnits s halts))
    (reported : noted s t (flagAt 12 (!(lostGroups s).isEmpty))) : groupsLost s t halts :=
  ⟨h.slots, h.fenced, h.tags, h.closes, h.records, h.ram, h.outcomes, reported⟩

/-- A unit that an entry drops has a slot of the table, whose group is not OPEN. -/
theorem lostUnits_owned {s : State} {dest : OpState} {halts : Bool} (hd : dest = .halted ↔ halts = true) (agree : tablesAgree s) :
    ∀ n ∈ lostUnits s halts, n < s.groups.slots.length ∧ n ∉ lostGroups s := by
  obtain ⟨-, -, owned, -, -⟩ := agree
  intro n hn
  rw [lostUnits_eq hd] at hn
  obtain ⟨u, hu, ho⟩ := List.mem_filterMap.1 hn
  obtain ⟨hl, closed⟩ := owned u (List.mem_of_mem_filter hu) n (Owner.slotNo_eq ho)
  refine ⟨hl, fun hit => ?_⟩
  simp only [lostGroups, List.mem_filter, closed] at hit
  exact nomatch hit.2

/-- Every unit has a slot of its own (04 R62). -/
theorem lostUnits_nodup {s : State} {dest : OpState} {halts : Bool} (hd : dest = .halted ↔ halts = true) (agree : tablesAgree s) :
    (lostUnits s halts).Nodup := by
  obtain ⟨-, nodup, -, -, -⟩ := agree
  have owners : ((s.droppedUnits dest).map CommitUnit.owner).Nodup := nodup.sublist (List.filter_sublist.map _)
  have slots : lostUnits s halts = ((s.droppedUnits dest).map CommitUnit.owner).filterMap Owner.slotNo := by
    rw [lostUnits_eq hd, List.filterMap_map]
    rfl
  rw [slots]
  exact owners.filterMap fun a b n ha hb => (Owner.slotNo_eq ha).trans (Owner.slotNo_eq hb).symm

theorem State.groupsStopped_lost {s : State} (dest : OpState) (hh : s.ctrl.opState ≠ .held) (agree : tablesAgree s) :
    GroupsRejected (s.stopBurst dest) (s.groupsStopped dest) (lostGroups s) (.verdict .stopped) := by
  obtain ⟨opened, -⟩ := agree
  have burst := s.stopBurst_parts dest
  have slot : ∀ n, (s.stopBurst dest).slot n = s.slot n := State.slot_congr (by rw [burst])
  have tag : ∀ g, (s.stopBurst dest).tag g = s.tag g := State.tag_congr (by rw [burst])
  have all := State.rejectOpen_rejected (s := s.stopBurst dest) (.verdict .stopped) (s.stopBurst dest).link.slot
    (by rw [burst]; exact hh) (fun n hn => by rw [slot] at hn ⊢; rw [tag]; exact opened n hn)
  rw [State.stopBurst_slot, State.openSlots_congr (s := s) (by rw [burst])] at all
  unfold State.groupsStopped
  rw [State.stopBurst_slot]
  exact all

/-- The state of an entry with its units abandoned: the groups of the slots lost are as at the start of the entry. -/
def State.unitsGone (s : State) (dest : OpState) : State := (s.droppedUnits dest).foldl State.abandonUnit (s.groupsStopped dest)

theorem State.unitsGone_abandoned {s : State} {dest : OpState} {halts : Bool} (hh : s.ctrl.opState ≠ .held)
    (hd : dest = .halted ↔ halts = true) (agree : tablesAgree s) :
    UnitsAbandoned (s.groupsStopped dest) (s.unitsGone dest) (lostUnits s halts) := by
  have nodup := lostUnits_nodup hd agree
  have owned := lostUnits_owned hd agree
  rw [lostUnits_eq hd] at nodup owned ⊢
  refine abandonAll_abandoned nodup fun n hn => ?_
  rw [(State.groupsStopped_rejected dest hh).length, State.stopBurst_parts]
  exact (owned n hn).1

theorem State.settleUnits_gone {s : State} (dest : OpState) (hh : s.ctrl.opState ≠ .held) :
    ((s.groupsStopped dest).settleUnits dest).groups =
        { (s.groupsStopped dest).groups with slots := (s.unitsGone dest).groups.slots } ∧
      ((s.groupsStopped dest).settleUnits dest).outcomes.pendPost = (s.unitsGone dest).outcomes.pendPost := by
  rw [State.settleUnits_eq, State.droppedUnits_groupsStopped dest hh]
  exact ⟨rfl, rfl⟩

/-- Where the tables agree, the entry does to each group and unit what its slot alone says. -/
theorem State.enterStopped_lost {s : State} {dest : OpState} {halts : Bool} (rs : RecStatus) (hh : s.ctrl.opState ≠ .held)
    (hd : dest = .halted ↔ halts = true) (agree : tablesAgree s) :
    EntryLost s (s.enterStopped dest rs) (lostGroups s) (lostUnits s halts) := by
  have burst := s.stopBurst_parts dest
  have bslot : ∀ n, (s.stopBurst dest).slot n = s.slot n := State.slot_congr (by rw [burst])
  have rejected := State.groupsStopped_lost (s := s) dest hh agree
  have abandoned := State.unitsGone_abandoned hh hd agree
  have owned := lostUnits_owned hd agree
  have rslot : ∀ n, rejectedSlot (s.stopBurst dest) n (bareError (.verdict .stopped)) =
      rejectedSlot s n (bareError (.verdict .stopped)) := fun n => by rw [rejectedSlot, bslot, rejectedSlot]
  have gslot : ∀ n, (s.groupsStopped dest).slot n =
      if n ∈ lostGroups s then rejectedSlot s n (bareError (.verdict .stopped)) else s.slot n := fun n => by
    rw [rejected.slots, rslot, bslot]
  have ggone : ∀ n ∈ lostUnits s halts, (s.groupsStopped dest).gone n = s.gone n := fun n hn => by
    rw [State.gone, gslot, if_neg (owned n hn).2]
    rfl
  obtain ⟨-, -, -, direct, -⟩ := agree
  obtain ⟨groups, pend⟩ := State.settleUnits_gone (s := s) dest hh
  rw [← State.enterStopped_groups dest rs hh direct] at groups
  rw [← State.enterStopped_pendPost s dest rs, abandoned.pendPost, rejected.outcomes] at pend
  have tag : ∀ g, (s.enterStopped dest rs).tag g = (s.groupsStopped dest).tag g := State.tag_congr (by rw [groups])
  have slot : ∀ n, (s.enterStopped dest rs).slot n = (s.unitsGone dest).slot n := State.slot_congr (by rw [groups])
  have record : ∀ r, (s.enterStopped dest rs).record r = (s.groupsStopped dest).record r :=
    State.record_congr (by rw [State.enterStopped_staging])
  constructor
  case slots =>
    intro n
    rw [slot, abandoned.slots, gslot]
    by_cases hn : n ∈ lostUnits s halts
    · rw [if_pos hn, if_neg (owned n hn).2, if_pos hn, ggone n hn]
    · rw [if_neg hn, if_neg hn]
  case fenced =>
    intro n hn
    rw [tag, ← bslot]
    exact rejected.fenced n hn
  case tags =>
    intro g hg
    rw [tag, rejected.tags g fun n hn => by rw [bslot]; exact hg n hn]
    exact State.tag_congr (by rw [burst]) g
  case closes =>
    have before : (s.stopBurst dest).groups.closeCounter = s.groups.closeCounter := by rw [burst]
    rw [groups, ← before, ← rejected.closes]
  case records =>
    intro r
    rw [record, rejected.records]
    simp only [bslot]
    rw [State.record_congr (t := s.stopBurst dest) (s := s) (by rw [burst])]
  case ram => exact State.enterStopped_ram dest rs hh
  case outcomes =>
    have outcomes : (s.enterStopped dest rs).outcomes =
        { s.outcomes with pendPost := (s.enterStopped dest rs).outcomes.pendPost } :=
      congrArg State.outcomes (State.enterStopped_parts (s := s) dest rs hh)
    have before : (s.stopBurst dest).outcomes = s.outcomes := by rw [burst]
    have posts : (lostUnits s halts).map (fun n => ((s.groupsStopped dest).gone n).outcome n .abandoned none) =
        (lostUnits s halts).map fun n => (s.gone n).outcome n .abandoned none :=
      List.map_congr_left fun n hn => by rw [ggone n hn]
    rw [outcomes, pend, before, posts]
    simp only [rslot]

end Sys2Proof.Machine
end

