-- ==== Sys2Proof/Proofs/PowerWarnings.lean ====
section
/-! PROOF. The power warning (spec/10 R161, R162). -/

namespace Sys2Proof.Machine

/-- An observed step is the step with the Attention Unit settled: a live condition's flag was set, or the step set it or changed the
condition (09 R145). -/
theorem observe_settled {f : State → State} {s t : State} (step : f s = t) :
    ∃ a, observe f s = { t with attn := a } ∧ a.enable = t.attn.enable ∧ State.attnOk { t with attn := a } ∧
      (∀ i, a.flags.getLsbD i = (t.attn.flags.getLsbD i || (s.live.getLsbD i != t.live.getLsbD i))) ∧
      ∀ events, t.attn = { s.attn with flags := s.attn.flags ||| events } → noted s { t with attn := a } events := by
  have flags : (observe f s).attn.flags = t.attn.flags ||| (s.live ^^^ t.live) := by
    rw [observe_eq, State.settleAttn_flags, step]
  have fields := observe_step step
  have line := observe_attnOk f s
  have reported := fun events => noted_observe (events := events) step
  refine ⟨(observe f s).attn, fields, ?_, ?_, fun i => ?_, fun events h => ?_⟩
  · rw [← step, observe_eq, State.settleAttn_enable]
  · rwa [← fields]
  · rw [flags, BitVec.getLsbD_or, BitVec.getLsbD_xor]
  · rw [← fields]
    exact reported events (by rw [h]) (by rw [h])

/-- What an entry leaves of all that no group, unit or burst holds; the link, the outputs, the staging store, the groups, the outcomes
ready and the flags are given. -/
theorem State.enterStopped_fields {s : State} (dest : OpState) (rs : RecStatus) (hh : s.ctrl.opState ≠ .held) :
    ∃ link out staging groups pendPost flags holdWritten holdDue, s.enterStopped dest rs = { s with
      link := link, out := out, reads := (s.stopBurst dest).reads, staging := staging, groups := groups
      outcomes := { s.outcomes with pendPost := pendPost }, attn := { s.attn with flags := flags }
      queue := s.queue.filter fun u => u.kept (dest == .halted && s.markOutstanding)
      journal := { s.journal with
        inFlight := if s.port.waitAnchor then none else s.journal.inFlight, blockReq := none, skipGrant := none }
      commit := { s.commit with st := .stopped }, apply := { s.apply with st := .stopped }
      recovery := if s.ctrl.opState = .recovering then {} else s.recovery
      ctrl := { s.ctrl with opState := dest, summary := s.stoppedSummary rs, holdWritten := holdWritten, holdDue := holdDue }
      port := { s.port with
        waitRead := (s.stopBurst dest).port.waitRead, waitDirect := [], waitCommit := [], waitAnchor := false, waitApply := []
        waitRecovery := none } } :=
  ⟨_, _, _, _, _, _, _, _, State.enterStopped_parts dest rs hh⟩

theorem State.powerWarn_stays {s : State} (h : s.pins.resetN = false ∨ s.ctrl.opState = .held ∨ s.ctrl.opState = .halted) :
    s.powerWarn = { s with pins := { s.pins with pwarn := true } } :=
  if_pos (by simpa [or_assoc] using h)

theorem State.powerWarn_enters {s : State} (hr : s.pins.resetN = true) (hh : s.ctrl.opState ≠ .held) (hd : s.ctrl.opState ≠ .halted) :
    s.powerWarn = (s.setPins { s.pins with pwarn := true }).enterStopped .halted .halted :=
  if_neg (by simp [hr, hh, hd])

/-- Settles O53: the warning enters HALTED where it does not only set the pin. -/
theorem powerWarning : Obligations.PowerWarning := by
  refine fun s => ⟨?_, fun h => ?_, fun hr hh hd => ?_⟩
  · obtain ⟨a, step, reported⟩ := observe_noted_silent (s := s) (f := State.powerGood) rfl rfl
    exact ⟨_, congrArg Host.Outcome.next step, rfl, reported⟩
  · obtain ⟨a, step, reported⟩ := observe_noted_silent (State.powerWarn_stays h) rfl
    exact ⟨_, congrArg Host.Outcome.next step, rfl, reported⟩
  · intro markOut
    have outside : (s.ctrl.opState != .held) = true := bne_iff_ne.2 hh
    have fresh : (s.ctrl.opState == .halted) = false := beq_eq_false_iff_ne.2 hd
    have inside : (OpState.halted != .held) = true := rfl
    have step := State.powerWarn_enters hr hh hd
    have kept := State.enterStopped_fields (s := s.setPins { s.pins with pwarn := true }) .halted .halted hh
    have burst : burstStopped (s.setPins { s.pins with pwarn := true }) _ true :=
      State.enterStopped_burst (s := s.setPins { s.pins with pwarn := true }) (rs := .halted) hh (iff_of_true rfl rfl)
    have ram := State.enterStopped_ram (s := s.setPins { s.pins with pwarn := true }) .halted .halted hh
    have slot := fun n => State.enterStopped_slot (s := s.setPins { s.pins with pwarn := true }) (n := n) .halted .halted hh
    have lost := State.enterStopped_lost (s := s.setPins { s.pins with pwarn := true }) .halted hh (iff_of_true rfl rfl)
    have reports := State.enterStopped_attn (s := s.setPins { s.pins with pwarn := true }) .halted .halted hh
    have flags := fun i => State.enterStopped_flags (s := s.setPins { s.pins with pwarn := true }) (i := i) .halted .halted hh
    generalize (s.setPins { s.pins with pwarn := true }).enterStopped .halted .halted = e at *
    obtain ⟨link, out, staging, groups, pendPost, raised, written, due, rfl⟩ := kept
    obtain ⟨a, observed, enable, line, live, reported⟩ := observe_settled step
    refine ⟨_, congrArg Host.Outcome.next observed, rfl, rfl, rfl, rfl, rfl, rfl, rfl, rfl, rfl, rfl, rfl, rfl, rfl, rfl, rfl, rfl, ram,
      fun n hn ho hs _ hu ht => slot n hn ho hs hu ht, rfl, burst, fun agree => ?_, ?_, ?_, enable, line⟩
    · obtain ⟨slots, fenced, tags, closes, records, stored, outcomes⟩ := lost agree
      obtain ⟨-, -, -, -, unfailed⟩ := agree
      exact EntryLost.groupsLost ⟨slots, fenced, tags, closes, records, stored, outcomes⟩ (reported _ (reports unfailed))
    · rw [live, flags 3 (by decide) (by decide) (by decide), State.live_getLsbD, State.live_getLsbD]
      simp [hr, outside, fresh, inside]
    · rw [live, flags 6 (by decide) (by decide) (by decide), State.live_getLsbD, State.live_getLsbD]
      simp [hr, outside, fresh, inside]

end Sys2Proof.Machine
end

