-- ==== Sys2Proof/Proofs/ErrorReports.lean ====
section
/-! PROOF. The downstream error reports (spec/10 R159, R160, spec/08 R132). -/

namespace Sys2Proof.Machine

/-- What the owner of a request does after the report of its ERROR. -/
def lostOf : Instr → State → State
  | .markCompletion _ => State.markLost
  | .anchorCompletion _ => State.anchorLost
  | .directSpanCompletion _ => State.settleDirect
  | _ => id

theorem lostOf_mark (st : Status) (s : State) : lostOf (.markCompletion st) s = s.markLost := rfl

theorem lostOf_direct (st : Status) (s : State) : lostOf (.directSpanCompletion st) s = s.settleDirect := rfl

/-- An ERROR is reported, and its owner then drops what waited for the request. -/
theorem completed_error {i : Instr} (hi : isError i = true) (o : Outstanding) (t : State) :
    completed i o t = lostOf i (t.errorReport o) := by
  cases i with
  | skipCompletion st | commitRequestCompletion st | markCompletion st | applyCompletion st | anchorCompletion st
  | directSpanCompletion st | recoveryReplayWriteCompletion st | recoveryAnchorWriteCompletion st =>
    cases st with
    | ok => exact nomatch hi
    | error => rfl
  | recoveryAnchorReadCompletion c | recoveryReadCompletion c =>
    cases c with
    | ok ws => exact nomatch hi
    | error => rfl
  | _ => exact nomatch hi

theorem isError_completion {i : Instr} (hi : isError i = true) : isCompletion i = true ∧ ∀ c, i ≠ .discardedCompletion c := by
  cases i with
  | skipCompletion | commitRequestCompletion | markCompletion | applyCompletion | anchorCompletion | directSpanCompletion
  | recoveryReplayWriteCompletion | recoveryAnchorWriteCompletion | recoveryAnchorReadCompletion | recoveryReadCompletion =>
    exact ⟨rfl, fun _ => nofun⟩
  | _ => exact nomatch hi

/-! ### What the owner of the request drops -/

theorem State.settleDirect_settled (s : State) : s.settleDirect.settleDirect = s.settleDirect := by
  by_cases h : s.directEnds
  · have idle : s.settleDirect.link = {} := by rw [State.settleDirect_over h, State.driveReceipt_parts]
    refine State.settleDirect_goes fun again => ?_
    have direct := again.1
    rw [idle] at direct
    exact nomatch direct
  · rw [State.settleDirect_goes h, State.settleDirect_goes h]

/-- After the entry to FAULTED no JOURNALING unit stays whose mark could come. -/
theorem State.markLost_entered {s : State} {rs : RecStatus} (hh : s.ctrl.opState ≠ .held) :
    (s.enterStopped .faulted rs).markLost = s.enterStopped .faulted rs := by
  refine State.markLost_dropped (State.keptUnit_none fun u hu => ?_)
  have queue : (s.enterStopped .faulted rs).queue = s.queue.filter fun u => u.kept false := by
    rw [State.enterStopped_parts .faulted rs hh]
    rfl
  obtain ⟨c, -, found⟩ := Option.bind_eq_some_iff.1 hu
  have kept : u.kept false = true := by
    have mem := List.mem_of_find?_eq_some found
    rw [queue] at mem
    exact (List.mem_filter.1 mem).2
  intro hj
  simp [CommitUnit.kept, hj] at kept

/-- After the entry to FAULTED the owner drops at most the anchor write in flight. -/
theorem lostOf_entered {s : State} {rs : RecStatus} (i : Instr) (hh : s.ctrl.opState ≠ .held) :
    ∃ inFlight, lostOf i (s.enterStopped .faulted rs) =
      { s.enterStopped .faulted rs with journal := { (s.enterStopped .faulted rs).journal with inFlight := inFlight } } := by
  cases i with
  | markCompletion st => exact ⟨_, State.markLost_entered hh⟩
  | anchorCompletion st => exact ⟨none, rfl⟩
  | directSpanCompletion st =>
    refine ⟨(s.enterStopped .faulted rs).journal.inFlight, ?_⟩
    rw [lostOf_direct, State.enterStopped_eq, State.settleDirect_settled]
  | _ => exact ⟨_, rfl⟩

/-- What the owner drops leaves the fault and the requests. -/
theorem lostOf_kept (i : Instr) (s : State) :
    (lostOf i s).ctrl.opState = s.ctrl.opState ∧ (lostOf i s).ctrl.fault = s.ctrl.fault ∧ (lostOf i s).port = s.port := by
  cases i with
  | markCompletion st =>
    rw [lostOf_mark]
    cases hk : s.keptUnit with
    | none =>
      rw [State.markLost_dropped hk]
      exact ⟨rfl, rfl, rfl⟩
    | some u =>
      have parts := abandonAll_parts [u] s
      rw [List.foldl_cons, List.foldl_nil] at parts
      rw [State.markLost_kept_unit hk, parts]
      exact ⟨rfl, rfl, rfl⟩
  | directSpanCompletion st =>
    rw [lostOf_direct, State.settleDirect_parts]
    exact ⟨rfl, rfl, rfl⟩
  | _ => exact ⟨rfl, rfl, rfl⟩

/-! ### The report -/

/-- The state that enters FAULTED: the report is its first fault. -/
def State.faultSeen (s : State) (o : Outstanding) : State := s.setCtrl { s.ctrl with fault := some (s.firstFault o s.checkedUnits) }

theorem State.errorReport_enters {s : State} (o : Outstanding)
    (h : s.ctrl.opState = .recovering ∨ s.ctrl.opState = .armed ∨ s.ctrl.opState = .draining) :
    s.errorReport o = (s.faultSeen o).enterStopped .faulted .faulted := by
  unfold State.errorReport
  rcases h with h | h | h <;> rw [h] <;> rfl

/-- In FAULTED and HALTED an ERROR leaves the state, and the fault as it is recorded. -/
theorem exec_error_recorded {s : State} {i : Instr} {o : Outstanding} {rest : List Outstanding} (hi : isError i = true)
    (hp : s.port.outstanding = o :: rest) (ha : answers i o = true) (hop : s.ctrl.opState = .faulted ∨ s.ctrl.opState = .halted) :
    ∃ t, exec i s = .next t ∧ t.ctrl.opState = s.ctrl.opState ∧ t.ctrl.fault = ((s.popped rest).furtherFault o).ctrl.fault ∧
      t.port.outstanding = rest ∧ t.attnOk := by
  obtain ⟨completion, taken⟩ := isError_completion hi
  obtain ⟨f, recorded, -⟩ := (s.popped rest).furtherFault_eq o
  have step := (completed_error hi o (s.popped rest)).trans
    (congrArg (lostOf i) (State.errorReport_stopped (s := s.popped rest) o hop))
  obtain ⟨opState, fault, port⟩ := lostOf_kept i ((s.popped rest).furtherFault o)
  obtain ⟨a, observed, -, line, -, -⟩ := observe_settled (f := fun t => completed i o (t.popped rest)) step
  refine ⟨_, (exec_completed completion taken hp ha).trans (congrArg Host.Outcome.next observed), ?_, fault, ?_, line⟩
  · refine opState.trans ?_
    rw [recorded]
    rfl
  · refine (congrArg Port.outstanding port).trans ?_
    rw [recorded]
    rfl

/-- Settles O52: an ERROR enters FAULTED where it is not only recorded. -/
theorem errorStops : Obligations.ErrorStops := by
  intro s i o rest hi hp ha
  refine ⟨fun hop => ?_, fun f hop hf => ?_, fun hop hf => ?_⟩
  · have hh : s.ctrl.opState ≠ .held := fun e => by simp [e] at hop
    have fresh : s.ctrl.opState ≠ .faulted := fun e => by simp [e] at hop
    obtain ⟨completion, taken⟩ := isError_completion hi
    have report := State.errorReport_enters (s := s.popped rest) o hop
    have step := (completed_error hi o (s.popped rest)).trans (congrArg (lostOf i) report)
    obtain ⟨inFlight, dropped⟩ := lostOf_entered (s := (s.popped rest).faultSeen o) (rs := .faulted) i hh
    rw [dropped] at step
    have kept := State.enterStopped_fields (s := (s.popped rest).faultSeen o) .faulted .faulted hh
    have burst : burstStopped ((s.popped rest).faultSeen o) _ false :=
      State.enterStopped_burst (s := (s.popped rest).faultSeen o) (dest := .faulted) (rs := .faulted) hh (iff_of_false nofun nofun)
    have ram := State.enterStopped_ram (s := (s.popped rest).faultSeen o) .faulted .faulted hh
    have lost := State.enterStopped_lost (s := (s.popped rest).faultSeen o) (dest := .faulted) (halts := false) .faulted hh
      (iff_of_false nofun nofun)
    have reports := State.enterStopped_attn (s := (s.popped rest).faultSeen o) .faulted .faulted hh
    clear dropped report
    generalize ((s.popped rest).faultSeen o).enterStopped .faulted .faulted = e at *
    obtain ⟨link, out, staging, groups, pendPost, raised, written, due, rfl⟩ := kept
    obtain ⟨a, observed, enable, line, live, reported⟩ := observe_settled (f := fun t => completed i o (t.popped rest)) step
    refine ⟨_, (exec_completed completion taken hp ha).trans (congrArg Host.Outcome.next observed), rfl, rfl, rfl, rfl, rfl, ?_, rfl,
      rfl, rfl, rfl, rfl, rfl, rfl, rfl, rfl, rfl, rfl, rfl, rfl, rfl, rfl, ram, rfl, burst, fun agree => ?_, fun hr => ?_, enable,
      line⟩
    · have stays : (OpState.faulted == .halted && ((s.popped rest).faultSeen o).markOutstanding) = false := rfl
      refine List.filter_congr fun u _ => ?_
      rw [CommitUnit.kept, stays, Bool.and_false, Bool.or_false]
    · obtain ⟨slots, fenced, tags, closes, records, stored, outcomes⟩ := lost agree
      obtain ⟨-, -, -, -, unfailed⟩ := agree
      exact EntryLost.groupsLost ⟨slots, fenced, tags, closes, records, stored, outcomes⟩ (reported _ (reports unfailed))
    · have outside : (s.ctrl.opState != .held) = true := bne_iff_ne.2 hh
      have changed : (s.ctrl.opState == .faulted) = false := beq_eq_false_iff_ne.2 fresh
      have inside : (OpState.faulted != .held) = true := rfl
      have running : ((s.popped rest).faultSeen o).pins.resetN = true := hr
      rw [live, State.live_getLsbD, State.live_getLsbD]
      simp [hr, running, outside, changed, inside]
  · obtain ⟨g, recorded, further, -⟩ := (s.popped rest).furtherFault_eq o
    obtain ⟨t, step, opState, fault, outstanding, line⟩ := exec_error_recorded hi hp ha hop
    refine ⟨t, step, opState, fault.trans ?_, outstanding, line⟩
    rw [recorded, further f hf]
  · obtain ⟨g, recorded, -, first⟩ := (s.popped rest).furtherFault_eq o
    obtain ⟨t, step, opState, fault, outstanding, line⟩ := exec_error_recorded hi hp ha (.inr hop)
    refine ⟨t, step, opState.trans hop, fault.trans ?_, outstanding, line⟩
    rw [recorded]
    refine congrArg some ((first hf).trans ?_)
    rw [show (s.popped rest).ctrl.opState = .halted from hop]

end Sys2Proof.Machine
end

