-- ==== Sys2Proof/Proofs/AnchorWrites.lean ====
section
/-! PROOF. The completion of an anchor write (spec/03 R55, R58 to R60). -/

namespace Sys2Proof.Machine

/-! ### The due anchor (03 R58, R60) -/

/-- The last step of a completed anchor write: a due anchor is written. -/
def State.nextAnchor (s : State) : State :=
  if s.journal.due ∧ s.ctrl.opState ≠ .faulted ∧ s.ctrl.opState ≠ .halted then
    (s.setJournal { s.journal with due := false }).presentAnchor
  else s

/-- Another anchor is written at once. -/
def State.anchorAgain (s : State) : Bool := s.journal.due && s.ctrl.opState != .faulted && s.ctrl.opState != .halted

theorem State.nextAnchor_stays {s : State} (h : s.journal.due = false ∨ s.ctrl.opState = .faulted ∨ s.ctrl.opState = .halted) :
    s.nextAnchor = s := by
  refine if_neg fun hd => ?_
  obtain ⟨due, faulted, halted⟩ := hd
  rcases h with h | h | h
  · rw [h] at due
    exact nomatch due
  · exact faulted h
  · exact halted h

/-- The state after it, where another anchor is written with the values h and q if `again` holds. -/
def State.anchorFollowed (s : State) (again : Bool) (h : Nat) (q : Word) : State :=
  { s with
    journal := { s.journal with
      due := if again then false else s.journal.due
      inFlight :=
        if again then some { copy := 1 - s.journal.copy, generation := s.journal.generation + 1, head := h, headSeq := q }
        else s.journal.inFlight }
    port := { s.port with waitAnchor := again || s.port.waitAnchor } }

theorem State.nextAnchor_eq {s : State} {h : Nat} {q : Word} (hn : s.journal.due = true → s.journal.newest = some (h, q)) :
    s.nextAnchor = s.anchorFollowed s.anchorAgain h q := by
  by_cases ha : s.anchorAgain = true
  · have again : s.journal.due = true ∧ s.ctrl.opState ≠ .faulted ∧ s.ctrl.opState ≠ .halted := by
      simpa [State.anchorAgain, and_assoc] using ha
    rw [ha]
    refine (if_pos again).trans ?_
    unfold State.presentAnchor
    rw [show (s.setJournal { s.journal with due := false }).journal.newest = some (h, q) from hn again.1]
    rfl
  · have once : s.nextAnchor = s := if_neg fun h => ha (by simpa [State.anchorAgain, and_assoc] using h)
    rw [once, Bool.eq_false_of_not_eq_true ha]
    rfl

/-! ### The pointers moved (03 R58, R55) -/

/-- The journal after the pointers have moved. -/
def State.movedJournal (s : State) (a : AnchorWrite) : Journal :=
  { s.journal with
    head := a.head, headSeq := a.headSeq, copy := a.copy, generation := a.generation, inFlight := none
    live := s.journal.live - s.straps.ringDist s.journal.head a.head }

/-- What the fall of live blocks changes of the live conditions. -/
def State.movedLive (s : State) (a : AnchorWrite) : BitVec 16 := s.live ^^^ ({ s with journal := s.movedJournal a } : State).live

/-- The state with the pointers moved, and JOURNAL_PRESSURE decided. -/
def State.anchorMoved (s : State) (rest : List Outstanding) (a : AnchorWrite) : State :=
  { s with
    journal := s.movedJournal a, port := { s.port with outstanding := rest }
    attn := { s.attn with flags := s.attn.flags ||| s.movedLive a } }

theorem State.anchorDone_eq {s : State} {rest : List Outstanding} {a : AnchorWrite} (h : s.journal.inFlight = some a) :
    (s.popped rest).anchorDone = (s.anchorMoved rest a).tryGrant.nextAnchor := by
  unfold State.anchorDone
  rw [show (s.popped rest).journal.inFlight = some a from h]
  rfl

/-- A change of the live conditions that a step reports is one that the unit notes without it. -/
theorem noted_changes {s t : State} {d : BitVec 16} (hd : d = s.live ^^^ t.live) (h : noted s t d) : noted s t 0 := by
  obtain ⟨flags, enable, line, pulse⟩ := h
  refine ⟨?_, enable, line, pulse⟩
  rw [flags, hd, BitVec.or_assoc, BitVec.or_self]
  simp

theorem State.anchorMoved_waits {s : State} {rest : List Outstanding} {a : AnchorWrite}
    (h : ∀ len, s.journal.blockReq = some len →
      s.straps.ringBlocks - 1 < (s.movedJournal a).live + (s.anchorMoved rest a).skipped len + len) :
    (s.anchorMoved rest a).tryGrant = s.anchorMoved rest a := by
  cases hb : s.journal.blockReq with
  | none => exact State.tryGrant_none hb
  | some len => exact State.tryGrant_waits (s := s.anchorMoved rest a) hb (h len hb)

/-! ### The anchor write that fails (03 R59) -/

/-- What an error report leaves of the journal's pointers and of the requests. -/
theorem State.errorReport_journal (s : State) (o : Outstanding) :
    (s.errorReport o).journal = { s.journal with
      inFlight := (s.errorReport o).journal.inFlight, blockReq := (s.errorReport o).journal.blockReq
      skipGrant := (s.errorReport o).journal.skipGrant } ∧
    (s.errorReport o).port.outstanding = s.port.outstanding := by
  by_cases enters : s.ctrl.opState = .recovering ∨ s.ctrl.opState = .armed ∨ s.ctrl.opState = .draining
  · have hh : s.ctrl.opState ≠ .held := fun e => by simp [e] at enters
    obtain ⟨link, out, staging, groups, pendPost, raised, written, due, parts⟩ :=
      State.enterStopped_fields (s := s.faultSeen o) .faulted .faulted hh
    rw [State.errorReport_enters o enters, parts]
    exact ⟨rfl, rfl⟩
  · by_cases stopped : s.ctrl.opState = .faulted ∨ s.ctrl.opState = .halted
    · obtain ⟨f, recorded, -⟩ := s.furtherFault_eq o
      rw [State.errorReport_stopped o stopped, recorded]
      exact ⟨rfl, rfl⟩
    · have ignored : s.errorReport o = s := by
        unfold State.errorReport
        cases h : s.ctrl.opState with
        | recovering | armed | draining => simp [h] at enters
        | faulted | halted => simp [h] at stopped
        | held | unconfigured => rfl
      rw [ignored]
      exact ⟨rfl, rfl⟩

/-- Settles O49: the pointers move, the request that now fits is granted, and a due anchor is written. -/
theorem anchorCompletes : Obligations.AnchorCompletes := by
  intro s o rest a hp hf hi j1 skip waits
  have done {t : State} (step : (s.anchorMoved rest a).tryGrant.nextAnchor = t)
      (attn : t.attn = { s.attn with flags := s.attn.flags ||| s.movedLive a }) :
      ∃ x, exec (.anchorCompletion .ok) s = .next { t with attn := x } ∧ noted s { t with attn := x } (s.movedLive a) := by
    obtain ⟨x, observed, reported⟩ := observe_noted (f := fun t => completed (.anchorCompletion .ok) o (t.popped rest))
      ((State.anchorDone_eq hi).trans step) (by rw [attn]) (by rw [attn])
    exact ⟨x, (exec_completed (i := .anchorCompletion .ok) rfl (fun _ => nofun) hp hf).trans (congrArg Host.Outcome.next observed),
      reported⟩
  refine ⟨fun hw hd => ?_, fun h q hw hd hnf hnh hq => ?_, fun len u n h q hb hr hu ho hn hq => ?_, ?_⟩
  · have stays := State.nextAnchor_stays (s := s.anchorMoved rest a) hd
    obtain ⟨x, next, reported⟩ := done (by rw [State.anchorMoved_waits hw, stays]) rfl
    exact ⟨_, next, rfl, noted_changes rfl reported⟩
  · have presents := State.nextAnchor_eq (s := s.anchorMoved rest a) fun _ => hq
    have again : (s.anchorMoved rest a).anchorAgain = true := by
      have due : (s.anchorMoved rest a).journal.due = true := hd
      have op : (s.anchorMoved rest a).ctrl = s.ctrl := rfl
      simp [State.anchorAgain, due, op, hnf, hnh]
    rw [again] at presents
    obtain ⟨x, next, reported⟩ := done (by rw [State.anchorMoved_waits hw, presents]) rfl
    exact ⟨_, next, rfl, noted_changes rfl reported⟩
  · intro again start j2 port
    have finish {g : State} (granted : (s.anchorMoved rest a).tryGrant = g) (due : g.journal.due = s.journal.due)
        (newest : g.journal.newest = s.journal.newest) (op : g.ctrl = s.ctrl)
        (attn : g.attn = { s.attn with flags := s.attn.flags ||| s.movedLive a }) :
        ∃ x, exec (.anchorCompletion .ok) s = .next { g.anchorFollowed again h q with attn := x } ∧
          noted s { g.anchorFollowed again h q with attn := x } (s.movedLive a) := by
      have presents := State.nextAnchor_eq (s := g) (h := h) (q := q) (by rw [due, newest]; exact hq)
      have same : g.anchorAgain = again := by rw [State.anchorAgain, due, op]
      rw [same] at presents
      exact done (by rw [granted, presents]) attn
    by_cases hs : skip len = 0
    · have parts := State.handOver_eq (s := (s.anchorMoved rest a).setJournal ((s.anchorMoved rest a).grantedJournal len)) j1.tail
        j1.nextSeq len hu ho
      have handed := State.handOver_handedOver (s := (s.anchorMoved rest a).setJournal ((s.anchorMoved rest a).grantedJournal len)) j1.tail
        j1.nextSeq len hu ho hn
      have grant := (State.tryGrant_hands (s := s.anchorMoved rest a) hb hr hs).trans parts
      rw [parts] at handed
      obtain ⟨queue, slot, others, tags, closes, commit, waiting⟩ := handed
      obtain ⟨x, next, flags, enable, line, -⟩ := finish grant rfl rfl rfl rfl
      refine ⟨_, next, flags, enable, line, fun _ => ⟨?_, ?_⟩, fun h => absurd hs h⟩
      · rfl
      · rw [show start = j1.tail from if_pos hs]
        exact ⟨queue, slot, others, tags, closes, commit, waiting⟩
    · have grant := State.tryGrant_skips (s := s.anchorMoved rest a) hb hr hs
      obtain ⟨x, next, flags, enable, line, -⟩ := finish grant rfl rfl rfl rfl
      refine ⟨_, next, flags, enable, line, fun h => absurd h hs, fun _ => ?_⟩
      rfl
  · obtain ⟨journal, outstanding⟩ := (s.popped rest).errorReport_journal o
    obtain ⟨x, observed, -⟩ := observe_settled (f := fun t => completed (.anchorCompletion .error) o (t.popped rest)) (s := s)
      (t := ((s.popped rest).errorReport o).anchorLost) rfl
    generalize (s.popped rest).errorReport o = t at *
    refine ⟨_, (exec_completed (i := .anchorCompletion .error) rfl (fun _ => nofun) hp hf).trans
      (congrArg Host.Outcome.next observed), rfl, ?_⟩
    show t.journal.head = _ ∧ t.journal.headSeq = _ ∧ t.journal.live = _ ∧ t.journal.copy = _ ∧ t.journal.generation = _ ∧
      t.port.outstanding = _
    rw [journal, outstanding]
    exact ⟨rfl, rfl, rfl, rfl, rfl, rfl⟩

end Sys2Proof.Machine
end

