-- ==== Sys2Proof/Proofs/ArbiterRules.lean ====
section
/-! PROOF. The arbiter's grants (spec/08 R128 to R130, R133). -/

namespace Sys2Proof.Machine

/-! ### The requester granted (08 R130) -/

theorem mayIssue_iff {s : State} {r : Requester} : s.eligible r = true ↔ mayIssue s r := by
  cases r with
  | read => exact Bool.and_eq_true_iff.trans (and_congr (by simp) decide_eq_true_iff)
  | direct | commit | anchor | apply | recovery => simp [State.eligible, mayIssue]

theorem visitOrder_eq (p : Requester) : visitOrder p = rotation p := by
  cases p <;> rfl

/-- A grant can be given at all (08 R128, R133, R134). -/
abbrev grantsOpen (s : State) : Prop := s.pins.resetN = true ∧ s.ctrl.opState ≠ .halted ∧ s.port.outstanding.length < 8

theorem State.arbitrate_idle {s : State} (h : ¬grantsOpen s ∨ ∀ r, ¬mayIssue s r) : s.arbitrate = s := by
  unfold State.arbitrate
  rcases h with h | h
  · exact if_neg h
  · rw [List.find?_eq_none.2 fun r _ he => h r (mayIssue_iff.1 he)]
    exact ite_self s

theorem State.arbitrate_grants {s : State} {front back : List Requester} {r : Requester} (free : grantsOpen s)
    (order : visitOrder s.port.pointer = front ++ r :: back) (before : ∀ x ∈ front, ¬mayIssue s x) (may : mayIssue s r) :
    s.arbitrate = s.grantTo r := by
  have found : (rotation s.port.pointer).find? s.eligible = some r := by
    rw [← visitOrder_eq, order, List.find?_append, List.find?_eq_none.2 fun x hx he => before x hx (mayIssue_iff.1 he)]
    exact List.find?_cons_of_pos (mayIssue_iff.2 may)
  unfold State.arbitrate
  refine (if_pos free).trans ?_
  rw [found]

/-! ### The grants (05 R86, 06 R105, 04 R66, R72, 03 R57, 11 R163) -/

/-- The request q is issued for r, which leaves the waiting requests `p`. -/
def State.granted (s : State) (p : Port) (r : Requester) (q : Request) (role : Role) : State :=
  { s with
    port := { p with
      outstanding := s.port.outstanding ++
        [{ requester := r, kind := q.kind, addr := q.addr, len := q.len, disposition := .take, role := role }]
      pointer := r }
    out := { s.out with issued := some q } }

theorem State.grantRead_eq {s : State} {n : Nat} {rest : List Nat} (h : s.port.waitRead = n :: rest) :
    s.grantRead = s.granted { s.port with waitRead := rest } .read
      { kind := .read, addr := (s.span n).base, len := (s.span n).len, words := [] } (.span n) := by
  unfold State.grantRead
  rw [h]
  rfl

/-- A full collecting span waits for the last DIRECT request to be granted. -/
abbrev collectedWaits (s : State) (rest : List DirectReq) : Prop :=
  s.link.st = .streaming ∧ s.link.collecting.length = 16 ∧ rest = []

theorem State.grantDirect_hands {s : State} {d : DirectReq} {rest : List DirectReq} (h : s.port.waitDirect = d :: rest)
    (hc : collectedWaits s rest) :
    s.grantDirect =
      { s.granted { s.port with waitDirect := [{ addr := s.link.start + s.link.count - 16, words := s.link.collecting }] } .direct
          (writeReq d.addr d.words) .direct with link := { s.link with collecting := [] } } := by
  unfold State.grantDirect
  rw [h]
  refine (if_pos hc).trans ?_
  obtain ⟨-, full, rfl⟩ := hc
  have some : s.link.collecting ≠ [] := fun e => by simp [e] at full
  unfold State.handCollecting
  refine (if_neg some).trans ?_
  dsimp only
  rw [← full]
  rfl

theorem State.grantDirect_eq {s : State} {d : DirectReq} {rest : List DirectReq} (h : s.port.waitDirect = d :: rest)
    (hc : ¬collectedWaits s rest) :
    s.grantDirect = s.granted { s.port with waitDirect := rest } .direct (writeReq d.addr d.words) .direct := by
  unfold State.grantDirect
  rw [h]
  exact if_neg hc

/-- The request of COMMIT built as it is issued, by the unit in hand. -/
def State.commitWrite (s : State) (u : CommitUnit) (c : CommitReq) : Request :=
  writeReq (s.straps.blockAddr (c.place u).1 + (c.place u).2) (s.commitWords u c)

/-- What a skip request is built by where no unit is in hand. -/
def noUnit : CommitUnit :=
  { owner := .guarded 0, closeNo := 0, stage := .closed, seq := none, start := none, len := none, progress := none }

/-- The entry check after a request of COMMIT. -/
def State.checkFed (s : State) (u : CommitUnit) (c : CommitReq) : Word :=
  if c.checked then checkFeed s.commit.entryCheck (s.commitWords u c) else s.commit.entryCheck

theorem State.grantCommit_eq {s : State} {c : CommitReq} {rest : List CommitReq} (h : s.port.waitCommit = c :: rest) :
    s.grantCommit =
      { s.granted { s.port with waitCommit := rest } .commit (s.commitWrite (s.inHand.getD noUnit) c) c.role with
        commit := { s.commit with entryCheck := s.checkFed (s.inHand.getD noUnit) c } } := by
  unfold State.grantCommit State.checkFed
  rw [h]
  dsimp only
  cases c.checked with
  | true => rfl
  | false => rfl

theorem State.grantAnchor_eq {s : State} {a : AnchorWrite} (h : s.journal.inFlight = some a) :
    s.grantAnchor = s.granted { s.port with waitAnchor := false } .anchor
      (writeReq (s.straps.blockAddr a.copy.val) (anchorWords a.generation a.head a.headSeq)) .anchor := by
  unfold State.grantAnchor
  rw [h]
  rfl

/-- The words of an APPLY run. -/
def State.runWords (s : State) (a : ApplyRun) : List Word :=
  (List.range a.len).map fun i => s.staging.word (s.record a.record) (a.off + i)

/-- A unit with one more request issued. -/
def CommitUnit.issued (u : CommitUnit) : CommitUnit :=
  { u with progress := u.progress.map fun p => { p with issued := p.issued + 1 } }

theorem State.grantApply_eq {s : State} {a : ApplyRun} {rest : List ApplyRun} (h : s.port.waitApply = a :: rest) :
    s.grantApply =
      (s.granted { s.port with waitApply := rest } .apply (writeReq ((s.record a.record).start + a.off) (s.runWords a)) .run).updFront
        CommitUnit.issued := by
  unfold State.grantApply
  rw [h]
  rfl

theorem State.grantRecovery_eq {s : State} {x : RecoveryReq} (h : s.port.waitRecovery = some x) :
    s.grantRecovery = s.granted { s.port with waitRecovery := none } .recovery x.req x.role := by
  unfold State.grantRecovery
  rw [h]
  rfl

/-- Settles O44: the first requester in order that may issue is granted its oldest request. -/
theorem arbiterGrants : Obligations.ArbiterGrants := by
  intro s free
  refine ⟨fun h => congrArg Host.Outcome.next (State.arbitrate_idle h), fun front r back hf order before may => ?_⟩
  have grant {t : State} (h : s.grantTo r = t) : exec .arbiterGrant s = .next t :=
    congrArg Host.Outcome.next ((State.arbitrate_grants hf order before may).trans h)
  cases r with
  | read =>
    obtain ⟨n, rest, hw⟩ := List.exists_cons_of_ne_nil may.1
    refine ⟨_, _, _, grant (State.grantRead_eq hw), rfl, rfl, rfl, fun _ => rfl, fun _ => rfl, fun _ => rfl, fun h => absurd rfl h,
      fun _ => rfl, fun _ => rfl, fun _ => rfl, fun _ => rfl, fun _ => rfl, fun m more _ hm => ?_, nofun, nofun, nofun, nofun, nofun⟩
    obtain ⟨rfl, rfl⟩ := List.cons.inj (hw.symm.trans hm)
    exact ⟨rfl, rfl, rfl⟩
  | direct =>
    obtain ⟨d, rest, hw⟩ := List.exists_cons_of_ne_nil may
    by_cases hc : collectedWaits s rest
    · refine ⟨_, _, _, grant (State.grantDirect_hands hw hc), rfl, rfl, rfl, fun h => absurd rfl h, fun _ => rfl, fun _ => rfl,
        fun _ => rfl, fun h => absurd rfl h, fun _ => rfl, fun _ => rfl, fun _ => rfl, fun _ => rfl, nofun, fun e more _ he => ?_,
        nofun, nofun, nofun, nofun⟩
      obtain ⟨rfl, rfl⟩ := List.cons.inj (hw.symm.trans he)
      refine ⟨rfl, rfl, ?_⟩
      rw [if_pos hc]
      exact ⟨rfl, rfl⟩
    · refine ⟨_, _, _, grant (State.grantDirect_eq hw hc), rfl, rfl, rfl, fun _ => rfl, fun _ => rfl, fun _ => rfl,
        fun _ => rfl, fun h => absurd rfl h, fun _ => rfl, fun _ => rfl, fun _ => rfl, fun _ => rfl, nofun, fun e more _ he => ?_,
        nofun, nofun, nofun, nofun⟩
      obtain ⟨rfl, rfl⟩ := List.cons.inj (hw.symm.trans he)
      refine ⟨rfl, rfl, ?_⟩
      rw [if_neg hc]
      exact ⟨rfl, rfl⟩
  | commit =>
    obtain ⟨c, rest, hw⟩ := List.exists_cons_of_ne_nil may
    refine ⟨_, _, _, grant (State.grantCommit_eq hw), rfl, rfl, rfl, fun _ => rfl, fun _ => rfl, fun h => absurd rfl h, fun _ => rfl,
      fun _ => rfl, fun h => absurd rfl h, fun _ => rfl, fun _ => rfl, fun _ => rfl, nofun, nofun, fun e more _ he => ?_, nofun, nofun,
      nofun⟩
    obtain ⟨rfl, rfl⟩ := List.cons.inj (hw.symm.trans he)
    exact ⟨rfl, rfl⟩
  | anchor =>
    obtain ⟨a, ha⟩ := Option.isSome_iff_exists.1 may.2
    refine ⟨_, _, _, grant (State.grantAnchor_eq ha), rfl, rfl, rfl, fun _ => rfl, fun _ => rfl, fun _ => rfl, fun _ => rfl,
      fun _ => rfl, fun _ => rfl, fun h => absurd rfl h, fun _ => rfl, fun _ => rfl, nofun, nofun, nofun, fun b _ hb => ?_, nofun, nofun⟩
    obtain rfl := Option.some.inj (ha.symm.trans hb)
    exact ⟨rfl, rfl, rfl, rfl, rfl, rfl⟩
  | apply =>
    obtain ⟨a, rest, hw⟩ := List.exists_cons_of_ne_nil may
    refine ⟨_, _, _, grant (State.grantApply_eq hw), rfl, rfl, rfl, fun _ => rfl, fun h => absurd rfl h, fun _ => rfl, fun _ => rfl,
      fun _ => rfl, fun _ => rfl, fun _ => rfl, fun h => absurd rfl h, fun _ => rfl, nofun, nofun, nofun, nofun,
      fun b more _ hb => ?_, nofun⟩
    obtain ⟨rfl, rfl⟩ := List.cons.inj (hw.symm.trans hb)
    refine ⟨rfl, rfl, ?_, rfl, fun i hi => ?_, rfl, fun u units hq => ?_⟩
    · simp [writeReq, State.runWords]
    · simp [writeReq, State.runWords, hi]
    · exact (congrArg (fun us => upd us 0 CommitUnit.issued) hq).trans rfl
  | recovery =>
    obtain ⟨x, hx⟩ := Option.isSome_iff_exists.1 may
    refine ⟨_, _, _, grant (State.grantRecovery_eq hx), rfl, rfl, rfl, fun _ => rfl, fun _ => rfl, fun _ => rfl, fun _ => rfl,
      fun _ => rfl, fun _ => rfl, fun _ => rfl, fun _ => rfl, fun h => absurd rfl h, nofun, nofun, nofun, nofun, nofun, fun y _ hy => ?_⟩
    obtain rfl := Option.some.inj (hx.symm.trans hy)
    exact ⟨rfl, rfl, rfl⟩

end Sys2Proof.Machine
end

