-- ==== Sys2Proof/Proofs/EntryWords.lean ====
section
/-! PROOF. The words of the requests of COMMIT (spec/03 R45 to R48, spec/04 R66). -/

namespace Sys2Proof.Machine

/-! ### Lists of words -/

theorem padTo_length (n : Nat) (ws : List Word) : (padTo n ws).length = n := by
  simp only [padTo, List.length_take, List.length_append, List.length_replicate]
  omega

theorem padTo_getElem? {n i : Nat} (ws : List Word) (h : i < n) : (padTo n ws)[i]? = some (ws.getD i 0) := by
  rw [padTo, List.getElem?_take_of_lt h]
  by_cases hi : i < ws.length
  · rw [List.getElem?_append_left hi, List.getD_eq_getElem?_getD, List.getElem?_eq_getElem hi]
    rfl
  · have off : ws.length ≤ i := Nat.le_of_not_lt hi
    rw [List.getElem?_append_right off, List.getElem?_replicate, if_pos (by omega), List.getD_eq_default _ _ off]

/-- The words of a table of pairs. -/
theorem pairs_getElem? {α β : Type} (f g : α → β) (xs : List α) (i : Nat) :
    (xs.flatMap fun x => [f x, g x])[i]? = xs[i / 2]?.map fun x => if i % 2 = 0 then f x else g x := by
  induction xs generalizing i with
  | nil => rfl
  | cons x xs ih =>
    match i with
    | 0 => rfl
    | 1 => rfl
    | i + 2 =>
      have half : (i + 2) / 2 = i / 2 + 1 := by omega
      have parity : (i + 2) % 2 = i % 2 := by omega
      rw [half, parity, List.getElem?_cons_succ, ← ih i]
      rfl

/-! ### The blocks of an entry (03 R45 to R47) -/

/-- The descriptors of the members `ms`, one after the other, and zero words behind them. -/
def State.descWords (s : State) (ms : List Nat) : List Word :=
  (List.range 56).map fun i =>
    if i / 2 < ms.length then
      let x := s.record (ms.getD (i / 2) 0)
      if i % 2 = 0 then num x.start else num x.wordCount
    else 0

theorem State.descWords_eq (s : State) (ms : List Nat) :
    padTo 56 ((ms.map fun r => ((s.record r).start, (s.record r).wordCount)).flatMap fun d => [wordOf d.1, wordOf d.2]) =
      s.descWords ms := by
  refine List.ext_getElem? fun i => ?_
  by_cases hi : i < 56
  · rw [padTo_getElem? _ hi, List.getD_eq_getElem?_getD, pairs_getElem?, List.getElem?_map, State.descWords, List.getElem?_map,
      List.getElem?_range hi]
    refine congrArg some ?_
    dsimp only
    by_cases hm : i / 2 < ms.length
    · rw [if_pos hm, List.getD_eq_getElem?_getD, List.getElem?_eq_getElem hm]
      rfl
    · rw [if_neg hm, List.getElem?_eq_none (Nat.le_of_not_lt hm)]
      rfl
  · rw [List.getElem?_eq_none (by rw [padTo_length]; omega), List.getElem?_eq_none (by simp [State.descWords]; omega)]

/-- The header block of the entry of slot n (03 R45). -/
def State.headerWords (s : State) (n len : Nat) (seq : Word) : List Word :=
  let ms := (s.slot n).members
  let first : List Word := [0x4A524E4C, 1, seq, num ms.length, num (s.slot n).wordCount, num len]
  first ++ [checkOf (first ++ [0] ++ s.descWords ms), 0] ++ s.descWords ms

theorem State.membersOf_guarded {s : State} {u : CommitUnit} {n : Nat} (ho : u.owner = .guarded n) :
    s.membersOf u = (s.slot n).members := by
  rw [State.membersOf, ho]

theorem State.unitHeader_eq {s : State} {u : CommitUnit} {n len : Nat} {seq : Word} (ho : u.owner = .guarded n)
    (hl : u.len = some len) (hs : u.seq = some seq) : s.unitHeader u = s.headerWords n len seq := by
  unfold State.unitHeader headerBlock State.headerWords
  rw [State.membersOf_guarded ho, State.unitWords_guarded ho, hl, hs, State.descWords_eq, List.length_map]
  rfl

/-- The words of the members of slot n, in ordinal order. -/
def State.memberWords (s : State) (n : Nat) : List Word :=
  (s.slot n).members.flatMap fun m => (List.range (s.record m).wordCount).map fun i => s.staging.word (s.record m) i

theorem State.unitData_eq {s : State} {u : CommitUnit} {n : Nat} (ho : u.owner = .guarded n) : s.unitData u = s.memberWords n := by
  rw [State.unitData, State.membersOf_guarded ho, State.memberWords]

theorem markWords_eq (seq check : Word) : markWords seq check = [0x4A524E4C#32, 2, seq, check] ++ List.replicate 12 0 := rfl

theorem skipWords_eq (seq : Word) : skipWords seq = [0x4A524E4C#32, 3, seq] ++ List.replicate 13 0 := rfl

/-- Settles O45: the words and the place of each request of COMMIT. -/
theorem commitRequestIssued : Obligations.CommitRequestIssued := by
  intro s front back c rest hr hop hout order before hw
  have may : mayIssue s .commit := by
    show s.port.waitCommit ≠ []
    rw [hw]
    exact List.cons_ne_nil c rest
  have grant := (State.arbitrate_grants ⟨hr, hop, hout⟩ order before may).trans (State.grantCommit_eq hw)
  refine ⟨_, _, congrArg Host.Outcome.next grant, rfl, rfl, rfl, rfl, fun k sq hc => ?_, fun u n b len seq hu ho hb hl hs _ => ?_⟩
  · subst hc
    exact ⟨rfl, rfl, skipWords_eq sq⟩
  · intro ms first descs header data
    rw [hu, Option.getD_some]
    refine ⟨fun hc => ?_, fun k hc => ?_, fun k i hc => ?_⟩
    · subst hc
      refine ⟨?_, rfl, ?_⟩
      · show s.straps.blockAddr (u.start.getD 0 + u.len.getD 0 - 1) + 0 = _
        rw [hb, hl]
        rfl
      · show markWords (u.seq.getD 0) s.commit.entryCheck = _
        rw [hs]
        exact markWords_eq seq s.commit.entryCheck
    · subst hc
      refine ⟨?_, ?_, rfl⟩
      · show s.straps.blockAddr (u.start.getD 0) + 16 * k = _
        rw [hb]
        rfl
      · show quarter (s.unitHeader u) k = _
        rw [State.unitHeader_eq ho hl hs]
        rfl
    · subst hc
      refine ⟨?_, padTo_length 16 _, fun x hx => ?_, rfl⟩
      · show s.straps.blockAddr (u.start.getD 0 + 1 + k) + 16 * i = _
        rw [hb]
        rfl
      · refine (padTo_getElem? _ hx).trans (congrArg some ?_)
        rw [State.unitData_eq ho, List.getD_eq_getElem?_getD, List.getElem?_drop, ← List.getD_eq_getElem?_getD]
        rfl

end Sys2Proof.Machine
end

