-- ==== Sys2Proof/Proofs/RecoverySteps.lean ====
section
/-! PROOF. Recovery's steps: what each judgement of a block does (spec/11 R163 to R169, spec/03 R56). -/

namespace Sys2Proof.Machine

/-! ### A request asked for (11 R163) -/

/-- The state in which recovery's next request waits. -/
def State.asks (s : State) (rest : List Outstanding) (y : Recovery) (q : Request) (role : Role) (z : Summary) : State :=
  { s with
    recovery := y, ctrl := { s.ctrl with summary := z }
    port := { s.port with outstanding := rest, waitRecovery := some { req := q, role := role } } }

/-- The command i asks for recovery's next request. -/
def recoveryGoes (s : State) (rest : List Outstanding) (i : Instr) (y : Recovery) (q : Request) (role : Role) (z : Summary) : Prop :=
  ∃ t, exec i s = .next t ∧ t.recovery = y ∧ recoveryAsks s t rest q role z

theorem exec_asks {i : Instr} {s : State} {o : Outstanding} {rest : List Outstanding} {y : Recovery} {q : Request} {role : Role}
    {z : Summary} (hi : isCompletion i = true) (hd : ∀ c, i ≠ .discardedCompletion c) (hp : s.port.outstanding = o :: rest)
    (ha : answers i o = true) (hs : s.attnOk) (step : completed i o (s.popped rest) = s.asks rest y q role z) :
    recoveryGoes s rest i y q role z :=
  ⟨_, exec_completed_unwatched hi hd hp ha hs step rfl, rfl, rfl⟩

theorem State.scanAt_popped (s : State) (rest : List Outstanding) (f : Summary → Summary) (y : Recovery) :
    ((s.popped rest).updSummary f).scanAt y =
      s.asks rest { y with phase := .first, block := [], header := [], check := 0xFFFFFFFF#32, runs := [] } (firstRead s y.pos) .recRead
        (f s.ctrl.summary) := rfl

/-- The scan ends for a reason (11 R169, R170). -/
def State.ended (s : State) (rest : List Outstanding) (why : EndReason) : State :=
  s.asks rest { s.recovery with phase := .anchorWrite }
    (anchorWrite s (1 - s.recovery.sel) (s.recovery.selGen + 1) s.recovery.pos s.recovery.expected) .recAnchorWrite
    { s.ctrl.summary with reason := why, endBlock := s.recovery.pos, nextSeq := s.recovery.expected }

theorem State.scanEnd_popped (s : State) (rest : List Outstanding) (why : EndReason) :
    (s.popped rest).scanEnd why = s.ended rest why := rfl

/-! ### The anchor copies (11 R164, R165) -/

theorem selectCopy_eq {p : Straps} {c : Fin 2} {c0 c1 sel other : List Word} (hc : (sel, other) = if c = 0 then (c0, c1) else (c1, c0))
    (hs : anchorValid p sel = true)
    (ho : anchorValid p other = false ∨ later (blockWord sel 2) (blockWord other 2) = true ∨
      (c = 0 ∧ later (blockWord other 2) (blockWord sel 2) = false)) :
    selectCopy p c0 c1 = some c := by
  by_cases h0 : c = 0
  · subst h0
    obtain ⟨rfl, rfl⟩ := Prod.mk.inj hc
    have newer : anchorValid p other = false ∨ later (blockWord other 2) (blockWord sel 2) = false := by
      rcases ho with ho | ho | ⟨-, ho⟩
      · exact .inl ho
      · exact .inr (later_asymm ho)
      · exact .inr ho
    cases hv : anchorValid p other with
    | false => simp [selectCopy, hs, hv]
    | true => simp [selectCopy, hs, hv, newer.resolve_left (by simp [hv])]
  · have h1 : c = 1 := by omega
    subst h1
    obtain ⟨rfl, rfl⟩ := Prod.mk.inj hc
    cases hv : anchorValid p other with
    | false => simp [selectCopy, hs, hv]
    | true =>
      have newer : later (blockWord sel 2) (blockWord other 2) = true := by simpa [hv] using ho
      simp [selectCopy, hs, hv, newer]

theorem selectCopy_none {p : Straps} {c0 c1 : List Word} (h0 : anchorValid p c0 = false) (h1 : anchorValid p c1 = false) :
    selectCopy p c0 c1 = none := by
  simp [selectCopy, h0, h1]

theorem State.recAnchorRead_first {s : State} {ws : List Word} (h : s.recovery.phase = .anchor 0) :
    s.recAnchorRead ws = s.recPresent (s.blockRead 1 0) .recAnchorRead { phase := .anchor 1, block := ws } := by
  unfold State.recAnchorRead
  rw [h]
  rfl

theorem State.recAnchorRead_selects {s : State} {ws : List Word} {c : Fin 2} (h : s.recovery.phase = .anchor 1)
    (hc : selectCopy s.straps s.recovery.block ws = some c) :
    s.recAnchorRead ws =
      (s.updSummary fun x => { x with startBlock := (blockWord (if c = 0 then s.recovery.block else ws) 3).toNat }).scanAt
        { sel := c, selGen := blockWord (if c = 0 then s.recovery.block else ws) 2
          pos := (blockWord (if c = 0 then s.recovery.block else ws) 3).toNat
          expected := blockWord (if c = 0 then s.recovery.block else ws) 4 } := by
  unfold State.recAnchorRead
  rw [h]
  dsimp only
  rw [hc]
  rfl

theorem State.recAnchorRead_formats {s : State} {ws : List Word} (h : s.recovery.phase = .anchor 1)
    (hc : selectCopy s.straps s.recovery.block ws = none) :
    s.recAnchorRead ws = s.recPresent (s.anchorReq 0 1 2 1) .recAnchorWrite { phase := .formatWrite } := by
  unfold State.recAnchorRead
  rw [h]
  dsimp only
  rw [hc]
  rfl

/-! ### The first block of an entry (11 R166) -/

theorem State.judgeFirst_clean {s : State} {ws : List Word}
    (h : blockWord ws 0 ≠ 0x4A524E4C#32 ∨ (blockWord ws 1 ≠ 1 ∧ blockWord ws 1 ≠ 3) ∨ blockWord ws 2 ≠ s.recovery.expected) :
    s.judgeFirst ws = s.scanEnd .clean := by
  unfold State.judgeFirst
  dsimp only
  by_cases known : blockWord ws 0 ≠ journalMarker ∨ (blockWord ws 1 ≠ kindEntry ∧ blockWord ws 1 ≠ kindSkip)
  · exact if_pos known
  · have sequence : blockWord ws 2 ≠ s.recovery.expected := by
      rcases h with h | h | h
      · exact absurd (.inl h) known
      · exact absurd (.inr h) known
      · exact h
    rw [if_neg known, if_pos sequence]

/-- The blocks from the position to the end of the ring. -/
def State.blocksLeft (s : State) : Nat := s.straps.lastBlock + 1 - s.recovery.pos

theorem State.judgeFirst_skip {s : State} {ws : List Word} (h0 : blockWord ws 0 = 0x4A524E4C#32) (h1 : blockWord ws 1 = 3)
    (h2 : blockWord ws 2 = s.recovery.expected) :
    s.judgeFirst ws =
      if s.straps.ringBlocks - 1 < s.recovery.consumed + s.blocksLeft then s.scanEnd .limit
      else s.scanAt { s.recovery with consumed := s.recovery.consumed + s.blocksLeft, pos := 2 } := by
  have known : ¬(blockWord ws 0 ≠ journalMarker ∨ (blockWord ws 1 ≠ kindEntry ∧ blockWord ws 1 ≠ kindSkip)) := by
    rw [h0, h1]
    decide
  unfold State.judgeFirst State.blocksLeft
  dsimp only
  rw [if_neg known, if_neg (not_not_intro h2), if_pos (by exact h1)]

theorem State.judgeFirst_entry {s : State} {ws : List Word} (h0 : blockWord ws 0 = 0x4A524E4C#32) (h1 : blockWord ws 1 = 1)
    (h2 : blockWord ws 2 = s.recovery.expected) :
    s.judgeFirst ws = s.recReadOf s.recovery.pos 1 { s.recovery with phase := .header 1, block := ws } := by
  have known : ¬(blockWord ws 0 ≠ journalMarker ∨ (blockWord ws 1 ≠ kindEntry ∧ blockWord ws 1 ≠ kindSkip)) := by
    rw [h0, h1]
    decide
  have entry : ¬blockWord ws 1 = kindSkip := by
    rw [h1]
    decide
  unfold State.judgeFirst
  dsimp only
  rw [if_neg known, if_neg (not_not_intro h2), if_neg entry]

/-! ### The header block (11 R167, stages 1 and 2) -/

/-- The shape of an entry that recovery accepts at block `pos`. -/
def entryFits (p : Straps) (pos : Nat) (b : List Word) : Prop :=
  1 ≤ (blockWord b 3).toNat ∧ (blockWord b 3).toNat ≤ 28 ∧ 1 ≤ (blockWord b 4).toNat ∧ (blockWord b 4).toNat ≤ 16384 ∧
    (blockWord b 5).toNat = 2 + ((blockWord b 4).toNat + 63) / 64 ∧ pos + (blockWord b 5).toNat - 1 ≤ p.lastBlock

theorem shapeFits_iff {p : Straps} {pos : Nat} {b : List Word} : shapeFits p pos b = true ↔ entryFits p pos b := by
  unfold shapeFits entryFits hdrBursts hdrTotal hdrLen
  rw [entryLength_eq]
  simp only [Bool.and_eq_true, decide_eq_true_eq, beq_iff_eq, and_assoc]

theorem State.judgeHeader_torn {s : State} {b : List Word} (h : headerCheck b ≠ blockWord b 6) : s.judgeHeader b = s.scanEnd .torn :=
  if_pos h

theorem State.judgeHeader_mismatch {s : State} {b : List Word} (h : headerCheck b = blockWord b 6)
    (hf : ¬entryFits s.straps s.recovery.pos b) : s.judgeHeader b = s.scanEnd .mismatch := by
  have misfits : shapeFits s.straps s.recovery.pos b = false := Bool.eq_false_of_not_eq_true (mt shapeFits_iff.1 hf)
  refine (if_neg (not_not_intro h)).trans (if_pos ?_)
  rw [misfits]
  rfl

theorem State.judgeHeader_fits {s : State} {b : List Word} (h : headerCheck b = blockWord b 6)
    (hf : entryFits s.straps s.recovery.pos b) :
    s.judgeHeader b =
      if s.straps.ringBlocks - 1 < s.recovery.consumed + hdrLen b then s.scanEnd .limit
      else s.recReadOf (s.recovery.pos + 1) 0 { s.recovery with phase := .data 0 0, header := b, block := [], check := checkOf b } := by
  refine (if_neg (not_not_intro h)).trans (if_neg ?_)
  rw [shapeFits_iff.2 hf]
  exact nofun

/-! ### The mark and the descriptors (11 R167, stages 4 and 5, R168) -/

theorem markGood_iff {ws : List Word} {seq check : Word} :
    markGood ws seq check = true ↔
      blockWord ws 0 = 0x4A524E4C#32 ∧ blockWord ws 1 = 2 ∧ blockWord ws 2 = seq ∧ blockWord ws 3 = check := by
  simp only [markGood, Bool.and_eq_true, beq_iff_eq, and_assoc]
  rfl

/-- The descriptors of a header block. -/
def entryDescs (h : List Word) : List (Nat × Nat) :=
  (List.range (blockWord h 3).toNat).map fun i => ((blockWord h (8 + 2 * i)).toNat, (blockWord h (9 + 2 * i)).toNat)

theorem descriptors_eq (h : List Word) : descriptors h (hdrBursts h) = entryDescs h := by
  refine List.map_congr_left fun i _ => ?_
  have first : 6 + 2 * (i + 1) = 8 + 2 * i := by omega
  have second : 7 + 2 * (i + 1) = 9 + 2 * i := by omega
  rw [descriptor, first, second]

/-- The descriptors lie in the visible memory, and their words are the entry's. -/
def descsFit (p : Straps) (h : List Word) : Prop :=
  (∀ d ∈ entryDescs h, 1 ≤ d.2 ∧ d.1 + d.2 ≤ p.visible) ∧ ((entryDescs h).map Prod.snd).sum = (blockWord h 4).toNat

theorem descriptorsFit_iff {p : Straps} {h : List Word} : descriptorsFit p h = true ↔ descsFit p h := by
  unfold descriptorsFit descsFit
  rw [descriptors_eq]
  simp only [hdrTotal, Bool.and_eq_true, List.all_eq_true, decide_eq_true_eq, beq_iff_eq]

theorem State.judgeMark_torn {s : State} {ws : List Word}
    (h : blockWord ws 0 ≠ 0x4A524E4C#32 ∨ blockWord ws 1 ≠ 2 ∨ blockWord ws 2 ≠ s.recovery.expected ∨
      blockWord ws 3 ≠ s.recovery.check) :
    s.judgeMark ws = s.scanEnd .torn := by
  refine if_pos ?_
  rw [Bool.eq_false_of_not_eq_true (mt markGood_iff.1 fun ⟨h0, h1, h2, h3⟩ => by simp [h0, h1, h2, h3] at h)]
  rfl

/-- The mark is that of the entry read. -/
def State.marked (s : State) (ws : List Word) : Prop :=
  blockWord ws 0 = 0x4A524E4C#32 ∧ blockWord ws 1 = 2 ∧ blockWord ws 2 = s.recovery.expected ∧ blockWord ws 3 = s.recovery.check

theorem State.judgeMark_mismatch {s : State} {ws : List Word} (h : s.marked ws) (hf : ¬descsFit s.straps s.recovery.header) :
    s.judgeMark ws = s.scanEnd .mismatch := by
  refine (if_neg ?_).trans (if_pos ?_)
  · rw [markGood_iff.2 h]
    exact nofun
  · rw [Bool.eq_false_of_not_eq_true (mt descriptorsFit_iff.1 hf)]
    rfl

theorem State.judgeMark_replays {s : State} {ws : List Word} (h : s.marked ws) (hf : descsFit s.straps s.recovery.header) :
    s.judgeMark ws = s.recReadOf (s.recovery.pos + 1) 0
      { s.recovery with phase := .replayRead 0 0, block := [], runs := replayRuns (entryDescs s.recovery.header) } := by
  refine (if_neg ?_).trans (if_neg ?_ |>.trans ?_)
  · rw [markGood_iff.2 h]
    exact nofun
  · rw [descriptorsFit_iff.2 hf]
    exact nofun
  · rw [descriptors_eq]

/-! ### The replay (11 R168) -/

theorem State.replayNext_writes {s : State} {run : HomeRun} {runs : List HomeRun} (k : Nat) (h : s.recovery.runs = run :: runs)
    (hr : run.len ≤ s.recovery.block.length) :
    s.replayNext k = s.recPresent { kind := .write, addr := run.addr, len := run.len, words := s.recovery.block.take run.len } .recReplay
      { s.recovery with phase := .replayWrite k, block := s.recovery.block.drop run.len, runs := runs } := by
  unfold State.replayNext
  dsimp only
  rw [h]
  exact if_pos hr

theorem State.replayNext_reads {s : State} {run : HomeRun} {runs : List HomeRun} (k : Nat) (h : s.recovery.runs = run :: runs)
    (hr : s.recovery.block.length < run.len) :
    s.replayNext k = s.recReadOf (s.recovery.pos + 1 + k) 0 { s.recovery with phase := .replayRead k 0 } := by
  unfold State.replayNext
  dsimp only
  rw [h]
  exact if_neg (Nat.not_le.2 hr)

theorem State.replayNext_done {s : State} (k : Nat) (h : s.recovery.runs = []) : s.replayNext k = s.entryReplayed := by
  unfold State.replayNext
  dsimp only
  rw [h]

end Sys2Proof.Machine
end

