-- ==== Sys2Proof/Proofs/RecoveryRules.lean ====
section
/-! PROOF. What recovery does at its completions (spec/11 R163 to R171, spec/03 R61). -/

namespace Sys2Proof.Machine

/-! ### The reads (11 R164 to R169) -/

theorem State.recRead_first {s : State} (ws : List Word) (h : s.recovery.phase = .first) : s.recRead ws = s.judgeFirst ws := by
  unfold State.recRead
  dsimp only
  rw [h]

theorem State.recRead_header {s : State} {q : Nat} (ws : List Word) (h : s.recovery.phase = .header q) :
    s.recRead ws =
      if q < 3 then s.recReadOf s.recovery.pos (q + 1)
        { s.recovery with phase := .header (q + 1), block := s.recovery.block ++ ws }
      else s.judgeHeader (s.recovery.block ++ ws) := by
  unfold State.recRead
  dsimp only
  rw [h]

/-- Recovery with a quarter of a data block fed to the entry check. -/
def Recovery.fed (r : Recovery) (ws : List Word) : Recovery := { r with check := checkFeed r.check ws }

theorem State.recRead_data {s : State} {k q : Nat} (ws : List Word) (h : s.recovery.phase = .data k q) :
    s.recRead ws =
      if q < 3 then s.recReadOf (s.recovery.pos + 1 + k) (q + 1) { s.recovery.fed ws with phase := .data k (q + 1) }
      else if k + 3 < hdrLen s.recovery.header then
        s.recReadOf (s.recovery.pos + 1 + (k + 1)) 0 { s.recovery.fed ws with phase := .data (k + 1) 0 }
      else s.recReadOf (s.recovery.pos + hdrLen s.recovery.header - 1) 0 { s.recovery.fed ws with phase := .mark } := by
  unfold State.recRead
  dsimp only
  rw [h]
  rfl

theorem State.recRead_mark {s : State} (ws : List Word) (h : s.recovery.phase = .mark) : s.recRead ws = s.judgeMark ws := by
  unfold State.recRead
  dsimp only
  rw [h]

theorem State.recRead_replay {s : State} {k q : Nat} (ws : List Word) (h : s.recovery.phase = .replayRead k q) :
    s.recRead ws =
      if q < 3 then s.recReadOf (s.recovery.pos + 1 + k) (q + 1)
        { s.recovery with phase := .replayRead k (q + 1), block := s.recovery.block ++ ws }
      else (s.setRecovery { s.recovery with block := s.recovery.block ++ ws }).replayNext (k + 1) := by
  unfold State.recRead
  dsimp only
  rw [h]

/-- What recovery does at an OK read of an anchor copy. -/
theorem recoveryAnchorReads {s : State} {rest : List Outstanding} {ws : List Word} {i : Instr}
    (asks : ∀ {y : Recovery} {q : Request} {role : Role} {z : Summary},
      (s.popped rest).recAnchorRead ws = s.asks rest y q role z → recoveryGoes s rest i y q role z) :
    (s.recovery.phase = .anchor 0 →
      recoveryGoes s rest i { phase := .anchor 1, block := ws } (firstRead s 1) .recAnchorRead s.ctrl.summary) ∧
    (∀ (c : Fin 2) (sel other : List Word), s.recovery.phase = .anchor 1 →
      (sel, other) = (if c = 0 then (s.recovery.block, ws) else (ws, s.recovery.block)) → anchorValid s.straps sel = true →
      (anchorValid s.straps other = false ∨ later (blockWord sel 2) (blockWord other 2) = true ∨
        (c = 0 ∧ later (blockWord other 2) (blockWord sel 2) = false)) →
      recoveryGoes s rest i
        { phase := .first, sel := c, selGen := blockWord sel 2, pos := (blockWord sel 3).toNat, expected := blockWord sel 4 }
        (firstRead s (blockWord sel 3).toNat) .recRead { s.ctrl.summary with startBlock := (blockWord sel 3).toNat }) ∧
    (s.recovery.phase = .anchor 1 → anchorValid s.straps s.recovery.block = false → anchorValid s.straps ws = false →
      recoveryGoes s rest i { phase := .formatWrite } (anchorWrite s 0 1 2 1) .recAnchorWrite s.ctrl.summary) := by
  refine ⟨fun h => ?_, fun c sel other h hc hs ho => ?_, fun h h0 h1 => ?_⟩
  · exact asks (State.recAnchorRead_first (s := s.popped rest) h)
  · have chosen : sel = if c = 0 then s.recovery.block else ws := by
      split_ifs at hc ⊢ <;> exact (Prod.mk.inj hc).1
    have step := State.recAnchorRead_selects (s := s.popped rest) h (selectCopy_eq hc hs ho)
    rw [show (s.popped rest).recovery = s.recovery from rfl, ← chosen, State.scanAt_popped] at step
    exact asks step
  · exact asks (State.recAnchorRead_formats (s := s.popped rest) h (selectCopy_none h0 h1))

/-- Settles O54: what recovery does at a read that is OK. -/
theorem recoveryReads : Obligations.RecoveryReads := by
  intro s o rest ws ha hp hl r x goes ends
  have fits : o.fits (.ok ws) = true := beq_iff_eq.2 hl
  refine ⟨fun hf => ?_, fun hf => ?_⟩
  · intro next
    have answered : answers next o = true := Bool.and_eq_true_iff.2 ⟨hf, fits⟩
    exact recoveryAnchorReads fun step => exec_asks rfl (fun _ => nofun) hp answered ha step
  · intro next b quarter
    have answered : answers next o = true := Bool.and_eq_true_iff.2 ⟨hf, fits⟩
    have asks {y : Recovery} {q : Request} {role : Role} {z : Summary} (step : (s.popped rest).recRead ws = s.asks rest y q role z) :
        goes next y q role z := exec_asks rfl (fun _ => nofun) hp answered ha step
    have stop {why : EndReason} (step : (s.popped rest).recRead ws = (s.popped rest).scanEnd why) : ends next why :=
      asks (step.trans (s.scanEnd_popped rest why))
    refine ⟨fun h => ?_, fun q h hq => ?_, fun h => ?_, fun k q h hq => ?_, fun h => ?_, fun k q h hq => ?_⟩
    · have read := State.recRead_first (s := s.popped rest) ws h
      refine ⟨fun hc => stop (read.trans (State.judgeFirst_clean hc)), fun h0 h1 h2 => ?_, fun h0 h1 h2 => ?_⟩
      · have skip := read.trans (State.judgeFirst_skip h0 h1 h2)
        exact ⟨fun hr => stop (skip.trans (if_pos hr)), fun hr => asks (skip.trans (if_neg (Nat.not_lt.2 hr)))⟩
      · exact asks (read.trans (State.judgeFirst_entry h0 h1 h2))
    · exact asks ((State.recRead_header (s := s.popped rest) ws h).trans (if_pos hq))
    · have read := State.recRead_header (s := s.popped rest) ws h
      rw [if_neg (by decide)] at read
      refine ⟨fun hg => ?_, fun hg hn => ?_, fun hg hy hr => ?_, fun hg hy hr => ?_⟩
      · exact stop (read.trans (State.judgeHeader_torn hg))
      · exact stop (read.trans (State.judgeHeader_mismatch hg hn))
      · exact stop (read.trans ((State.judgeHeader_fits (s := s.popped rest) hg hy).trans (if_pos hr)))
      · exact asks (read.trans ((State.judgeHeader_fits (s := s.popped rest) hg hy).trans (if_neg (Nat.not_lt.2 hr))))
    · have read := State.recRead_data (s := s.popped rest) ws h
      refine ⟨fun hq => asks (read.trans (if_pos hq)), fun hq hk => ?_, fun hq hk => ?_⟩
      · have more : k + 3 < hdrLen (s.popped rest).recovery.header := by
          show k + 3 < (blockWord r.header 5).toNat
          omega
        have block : r.pos + 1 + (k + 1) = r.pos + 2 + k := by omega
        rw [if_neg (by omega), if_pos more, show (s.popped rest).recovery.pos + 1 + (k + 1) = r.pos + 2 + k from block] at read
        exact asks read
      · have last : ¬k + 3 < hdrLen (s.popped rest).recovery.header := by
          show ¬k + 3 < (blockWord r.header 5).toNat
          omega
        rw [if_neg (by omega), if_neg last] at read
        exact asks read
    · have read := State.recRead_mark (s := s.popped rest) ws h
      refine ⟨fun hm => stop (read.trans (State.judgeMark_torn hm)), fun h0 h1 h2 h3 => ?_⟩
      intro descs fit runs
      have marked : (s.popped rest).marked ws := ⟨h0, h1, h2, h3⟩
      exact ⟨fun hn => stop (read.trans (State.judgeMark_mismatch marked hn)),
        fun hy => asks (read.trans (State.judgeMark_replays marked hy))⟩
    · have read := State.recRead_replay (s := s.popped rest) ws h
      refine ⟨fun hq => asks (read.trans (if_pos hq)), fun run runs hq hr => ?_⟩
      rw [if_neg (by omega)] at read
      refine ⟨fun hw => ?_, fun hw => ?_⟩
      · exact asks (read.trans (State.replayNext_writes _ hr hw))
      · have block : r.pos + 1 + (k + 1) = r.pos + 2 + k := by omega
        have reads : (s.popped rest).recRead ws =
            (s.popped rest).recReadOf (r.pos + 1 + (k + 1)) 0 { r with phase := .replayRead (k + 1) 0, block := b } :=
          read.trans (State.replayNext_reads _ hr hw)
        rw [block] at reads
        exact asks reads

/-! ### The writes (11 R168, R171, 03 R61) -/

theorem State.recReplayed_next {s : State} {k : Nat} (h : s.recovery.phase = .replayWrite k) : s.recReplayed = s.replayNext k := by
  unfold State.recReplayed
  rw [h]

/-- The state with recovery complete (11 R171). -/
def State.recovered (s : State) (rest : List Outstanding) (y : Summary) (copy : Fin 2) (gen : Word) : State :=
  { s with
    journal := {
      tail := y.endBlock, head := y.endBlock, headSeq := y.nextSeq, live := 0, nextSeq := y.nextSeq, generation := gen
      copy := copy, inFlight := none, due := false, newest := none, blockReq := none, skipGrant := none }
    apply := { s.apply with position := y.nextSeq - 1 }, recovery := {}
    ctrl := { s.ctrl with opState := .unconfigured, summary := { y with generation := gen, status := .complete } }
    port := { s.port with outstanding := rest }, attn := { s.attn with flags := s.attn.flags ||| flagAt 13 true } }

theorem State.recComplete_popped (s : State) (rest : List Outstanding) (y : Summary) (copy : Fin 2) (gen : Word) :
    ((s.popped rest).updSummary fun _ => y).recComplete copy gen = s.recovered rest y copy gen := by
  unfold State.recComplete
  dsimp only
  rw [State.report_eq]
  rfl

theorem State.recAnchorWritten_anchor {s : State} (h : s.recovery.phase = .anchorWrite) :
    s.recAnchorWritten = s.recComplete (1 - s.recovery.sel) (s.recovery.selGen + 1) := by
  unfold State.recAnchorWritten
  dsimp only
  rw [h]

theorem State.recAnchorWritten_format {s : State} (h : s.recovery.phase = .formatWrite) :
    s.recAnchorWritten =
      (s.updSummary fun x => { x with reason := .formatted, startBlock := 2, endBlock := 2, nextSeq := 1 }).recComplete 0 1 := by
  unfold State.recAnchorWritten
  dsimp only
  rw [h]

/-- Settles O55: replay goes on after each write, and the anchor write completes recovery. -/
theorem recoveryWrites : Obligations.RecoveryWrites := by
  intro s o rest hp r x
  refine ⟨fun k ha hf h => ?_, fun hf _ => ?_⟩
  · have asks {y : Recovery} {q : Request} {role : Role} {z : Summary}
        (step : (s.popped rest).replayNext k = s.asks rest y q role z) :
        recoveryGoes s rest (.recoveryReplayWriteCompletion .ok) y q role z :=
      exec_asks rfl (fun _ => nofun) hp hf ha ((State.recReplayed_next (s := s.popped rest) h).trans step)
    refine ⟨fun run runs hr hw => ?_, fun run runs hr hw => ?_, fun hr => ?_⟩
    · obtain ⟨t, next, recovery, asked⟩ := asks (State.replayNext_writes (s := s.popped rest) k hr hw)
      refine ⟨t, next, recovery.trans ?_, asked⟩
      exact congrArg (fun p => ({ r with phase := p, block := r.block.drop run.len, runs := runs } : Recovery)) h.symm
    · exact asks (State.replayNext_reads (s := s.popped rest) k hr hw)
    · obtain ⟨t, next, recovery, asked⟩ := asks (State.replayNext_done (s := s.popped rest) k hr)
      exact ⟨t, next, congrArg Recovery.phase recovery, congrArg Recovery.pos recovery, congrArg Recovery.expected recovery,
        congrArg Recovery.consumed recovery, asked⟩
  · intro completes
    have complete {y : Summary} {copy : Fin 2} {gen : Word} (step : (s.popped rest).recAnchorWritten = s.recovered rest y copy gen) :
        completes y copy gen := by
      obtain ⟨a, observed, reported⟩ := observe_noted
        (f := fun t => completed (.recoveryAnchorWriteCompletion .ok) o (t.popped rest)) step rfl rfl
      exact ⟨_, (exec_completed (i := .recoveryAnchorWriteCompletion .ok) rfl (fun _ => nofun) hp hf).trans
        (congrArg Host.Outcome.next observed), rfl, reported⟩
    refine ⟨fun h => complete ?_, fun h => complete ?_⟩
    · exact (State.recAnchorWritten_anchor (s := s.popped rest) h).trans (s.recComplete_popped rest x _ _)
    · exact (State.recAnchorWritten_format (s := s.popped rest) h).trans (s.recComplete_popped rest _ _ _)

end Sys2Proof.Machine
end
